-- ==== Sys2Proof/Word.lean ====
section
/-! DEFINITION. The word types of the block, with the widths of rule R44. -/

namespace Sys2Proof

/-- A byte of RAM, packet memory, flash or the wire. -/
abbrev Byte := BitVec 8

/-- Packet sizes, transfer lengths, PMA offsets, descriptor fields and the break pointer (rule R44). -/
abbrev Half := BitVec 16

/-- RAM pointers, flash addresses and report words (rules R13, R44). -/
abbrev Word := BitVec 32

/-- An endpoint number, 0 to 7 (rule R8, `NUM_EP` = 8). -/
abbrev EpNum := Fin 8

end Sys2Proof
end

