-- ==== Sys2Proof/Config.lean ====
section
/-! DEFINITION. The parameters of rule R8. Those whose value the source states are constants here; those marked
"decision" or "OPEN" are the fields of `Params` (rule R9), which State carries so that every statement about all
states is a statement about all their values; the draws of the environment are constants without a body. -/

namespace Sys2Proof

/-- `NUM_EP`. -/
def Config.numEp : Nat := 8

/-- `EP0_SIZE`, the packet size of endpoint 0. -/
def Config.ep0Size : Half := 64

/-- `HID_SIZE`, the report and packet size of the HID endpoint. -/
def Config.hidSize : Half := 64

/-- `PAGE_SIZE` in bytes. -/
def Config.pageSize : Nat := 128

/-- `HALF_SIZE` in bytes. -/
def Config.halfSize : Nat := 64

/-- One entry of the descriptor table (rule R72). -/
structure DescEntry where
  value : Half
  lang : Half
  length : Half
  ptr : Word
  deriving DecidableEq, Repr, Inhabited

/-- The bit values of the six error codes: bits 7:0 of the `flags` field (rules R8, R76, decision D27). -/
structure ErrBits where
  fsm : Byte
  command : Byte
  badAddr : Byte
  badCrc32 : Byte
  write : Byte
  short : Byte
  deriving DecidableEq, Repr, Inhabited

/-- `exit_effect`: what the platform does to the block when it acts on `bl.exit_request` (rules R8, R155). DESIGN CHOICE
(log 19): the effects told apart are these two; a platform that never acts, or leaves the block for good, gives it no
such input, or none at all. -/
inductive ExitEffect where
  /-- The block goes on as it is. -/
  | goesOn
  /-- The platform resets the system into its firmware, and the block starts again at its power-on values. -/
  | restart
  deriving DecidableEq, Repr, Inhabited

/-- The parameters that are "decision" or OPEN in the table of rule R8 and are plain values (rule R9). No rule writes
them. -/
structure Params where
  /-- `EP_HID`, the endpoint of both HID directions (decision D23). -/
  epHid : EpNum
  /-- `PMA_SIZE` in bytes (decision D5). -/
  pmaSize : Nat
  /-- `ARENA_START`, the PMA offset the allocator starts at (decision D5). -/
  arenaStart : Half
  /-- `MAU`, the minimum addressable unit of packet memory in bytes (decision D5). -/
  mau : Nat
  /-- `FLASH_LO`, the first address of the programming window (decision D28). -/
  flashLo : Word
  /-- `FLASH_HI`, the last address of the programming window, inclusive (decision D28). -/
  flashHi : Word
  /-- The `ERR_*` bit values (decision D27). -/
  errors : ErrBits
  /-- `ERASED_WORD`, OPEN (decision D30). -/
  erasedWord : Word
  /-- `DESC_TABLE`, OPEN (decision D44). -/
  descTable : List DescEntry
  /-- `EP0_BUF`, OPEN (decision D43). -/
  ep0Buf : Word
  /-- `STATUS_BUF`, OPEN (decision D43). -/
  statusBuf : Word
  /-- `IN_BUF`, OPEN (decision D43). -/
  inBuf : Word
  /-- `OUT_BUF`, OPEN (decision D43). -/
  outBuf : Word
  /-- `exit_effect`, OPEN (decision D31). -/
  exitEffect : ExitEffect
  deriving DecidableEq, Repr, Inhabited

/-- Two address ranges `[a, a+n)` and `[b, b+m)` share no byte. -/
def Params.apart (a : Word) (n : Nat) (b : Word) (m : Nat) : Bool :=
  decide (a.toNat + n ≤ b.toNat ∨ b.toNat + m ≤ a.toNat)

/-- What rules R8 and R189 say of the four buffer addresses: non-zero, inside the address space, non-overlapping. -/
def Params.buffersOk (p : Params) : Bool :=
  decide (p.ep0Buf ≠ 0 ∧ p.statusBuf ≠ 0 ∧ p.inBuf ≠ 0 ∧ p.outBuf ≠ 0)
  && decide (p.ep0Buf.toNat + 64 ≤ 2 ^ 32 ∧ p.statusBuf.toNat + 2 ≤ 2 ^ 32
      ∧ p.inBuf.toNat + 64 ≤ 2 ^ 32 ∧ p.outBuf.toNat + 64 ≤ 2 ^ 32)
  && Params.apart p.ep0Buf 64 p.statusBuf 2 && Params.apart p.ep0Buf 64 p.inBuf 64
  && Params.apart p.ep0Buf 64 p.outBuf 64 && Params.apart p.statusBuf 2 p.inBuf 64
  && Params.apart p.statusBuf 2 p.outBuf 64 && Params.apart p.inBuf 64 p.outBuf 64

/-- What rules R42, R44, R48, R52 and R113 ask of packet memory: offsets of 16 bits, the descriptor table below the
arena, room for the buffer a bus reset allocates, and an arena start and an endpoint-0 buffer of whole units. -/
def Params.pmaOk (p : Params) : Bool :=
  decide (p.pmaSize < 2 ^ 16 ∧ 64 ≤ p.arenaStart.toNat ∧ p.arenaStart.toNat + Config.ep0Size.toNat ≤ p.pmaSize
    ∧ p.arenaStart.toNat % p.mau = 0 ∧ Config.ep0Size.toNat % p.mau = 0)

/-- The parameters are such as the spec admits; the HID endpoint is not endpoint 0, which rule R100 gives to the
control pipeline. -/
def Params.valid (p : Params) : Bool := p.buffersOk && p.pmaOk && decide (p.epHid ≠ 0)

/-- The parameters with every "decision" value at its default in the table of rule R8. -/
def Params.withDefaults (p : Params) : Params :=
  { p with
    epHid := 1
    pmaSize := 1024
    arenaStart := 64
    mau := 2
    flashLo := 0x08002000
    flashHi := 0x0800FFFF
    errors := ⟨0x01, 0x02, 0x04, 0x08, 0x10, 0x20⟩ }

/-- The sample parameters of 95_test_vectors.md section 0: the defaults, and the OPEN ones at the values the vectors
use. -/
def Params.sample : Params :=
  Params.withDefaults
    { (default : Params) with
      ep0Buf := 0x20000000
      statusBuf := 0x20000040
      inBuf := 0x20000100
      outBuf := 0x20000140 }

/-- FREE VALUE (log 8): the OPEN parameters of the platform the block runs on. No value of them can be proved. -/
opaque Config.platform : Params

/-- The parameters State.reset carries: the defaults of rule R8, and the platform's OPEN values. Values that are no
valid parameters stand for no platform, and the sample ones take their place (log 8). -/
def Params.atReset : Params :=
  (if Config.platform.withDefaults.valid then Config.platform else Params.sample).withDefaults

/-- FREE VALUE (log 10): the value of a byte the spec leaves open, by the draw that opened it and its address:
a byte of a failed flash operation (rules R55, R56), the other byte of a packet-memory cell (rule R49), a read
outside packet memory (rule R47). -/
opaque Config.freeByte : Nat → Nat → Byte

/-- FREE VALUE (log 9): the outcome `flash_ok` of the flash primitive call with this draw, where the environment
has not put an answer into the state (rules R8, R55, R56, decision D30). -/
opaque Config.flashOk : Nat → Bool

end Sys2Proof
end

