-- ==== Sys2Proof/Syntax.lean ====
section
/-! DEFINITION. What the block decodes (rule R63): the 46 rows of spec/opcode_table.json as one inductive type,
and the types its operands, keys and verdicts are written in. -/

namespace Sys2Proof

/-- The endpoint type field (rule R67). `iso` decodes and is then refused. -/
inductive EpType where
  | bulk
  | control
  | iso
  | interrupt
  deriving DecidableEq, Repr, Inhabited

/-- A setup packet: 8 bytes in wire order (rule R69). -/
structure SetupPacket where
  b0 : Byte
  b1 : Byte
  b2 : Byte
  b3 : Byte
  b4 : Byte
  b5 : Byte
  b6 : Byte
  b7 : Byte
  deriving DecidableEq, Repr, Inhabited

/-- The control-pipeline events with the event codes of rule R78. -/
inductive CtlEvent where
  | reset
  | setup
  | inDone
  | outDone
  deriving DecidableEq, Repr

/-- The bootloader events with the event codes of rule R79. -/
inductive BlEvent where
  | configured
  | outFull
  | outShort
  | inSent
  deriving DecidableEq, Repr

/-- The five rows of the control-pipeline table (rule R115). -/
inductive CtlRow where
  | row1
  | row2
  | row3
  | row4
  | row5
  deriving DecidableEq, Repr

/-- The five rows of the SETUP dispatcher (rule R71). -/
inductive SetupRow where
  | getStatus
  | getDescriptor
  | setAddress
  | setConfiguration
  | other
  deriving DecidableEq, Repr

/-- The nine rows of the bootloader table (rule R140). -/
inductive BlRow where
  | row1
  | row2
  | row3
  | row4
  | row5
  | row6
  | row7
  | row8
  | row9
  deriving DecidableEq, Repr

/-- The five rows of the command table (rule R77). -/
inductive CmdRow where
  | reset
  | prog
  | read
  | exit
  | unrecognized
  deriving DecidableEq, Repr

/-- The operations that have an IFACE code (rule R65). -/
inductive Op where
  | epConfigure
  | beginSend
  | beginReceive
  | busReset
  | txComplete
  | rxComplete
  | hostIn
  | hostOut
  | hostSetup
  | sendNextPacket
  | beginPacketReceive
  | endPacketReceive
  | allocate
  | allocReset
  | ctlReset
  | ctlSetup
  | ctlIn
  | ctlOut
  | blConfigured
  | blOutFull
  | blOutShort
  | blInSent
  deriving DecidableEq, Repr

/-- The reasons of rule R171. -/
inductive RefusalReason where
  | reservedOpcode
  | internalOpcode
  | reservedField
  | isoEndpoint
  | badConfig
  | reservedReadState
  deriving DecidableEq, Repr

/-- Where an input arrives, which fixes how its bytes are read (rule R63). `port` is the block's operation port;
the other five carry the block's own internal operations and dispatch keys, one row at a time (log 5). -/
inductive Channel where
  | port
  | internal
  | ctlKey
  | setupKey
  | blKey
  | cmd32
  deriving DecidableEq, Repr

/-- The instructions: one constructor for each row of spec/opcode_table.json. The operands of a table row are
the bits its mask leaves open. -/
inductive Instr where
  /-- EP_CONFIGURE (R92). -/
  | epConfigure (ep : EpNum) (type : EpType) (size : Half) (flags : Word)
  /-- BEGIN_SEND (R94, R95). -/
  | beginSend (ep : EpNum) (buf : Word) (len : Half)
  /-- BEGIN_RECEIVE (R102, R103). -/
  | beginReceive (ep : EpNum) (buf : Word) (len : Half)
  /-- BUS_RESET (R113). -/
  | busReset
  /-- TX_COMPLETE (R99). -/
  | txComplete (ep : EpNum)
  /-- RX_COMPLETE (R110). -/
  | rxComplete (ep : EpNum)
  /-- HOST_IN (R182). -/
  | hostIn (ep : EpNum)
  /-- HOST_OUT (R181); the record's `len` is the number of packet bytes. -/
  | hostOut (ep : EpNum) (bytes : List Byte)
  /-- HOST_SETUP (R180); a `len` other than 8 decodes and has no step (R66). -/
  | hostSetup (ep : EpNum) (len : Half) (bytes : List Byte)
  /-- SEND_NEXT_PACKET (R96, R97). -/
  | sendNextPacket (ep : EpNum)
  /-- BEGIN_PACKET_RECEIVE (R104). -/
  | beginPacketReceive (ep : EpNum)
  /-- END_PACKET_RECEIVE (R106 to R108). -/
  | endPacketReceive (ep : EpNum)
  /-- ALLOCATE (R87). -/
  | allocate (len : Half)
  /-- ALLOC_RESET (R89). -/
  | allocReset
  /-- CTL_RESET (R115). -/
  | ctlReset
  /-- CTL_SETUP (R115). -/
  | ctlSetup
  /-- CTL_IN (R115). -/
  | ctlIn
  /-- CTL_OUT (R115). -/
  | ctlOut
  /-- BL_CONFIGURED (R137). -/
  | blConfigured
  /-- BL_OUT_FULL (R137). -/
  | blOutFull
  /-- BL_OUT_SHORT (R137). -/
  | blOutShort
  /-- BL_IN_SENT (R137). -/
  | blInSent
  /-- CTL_ROW1_RESET (R116); the state nibble is open. -/
  | ctlRow1Reset (state : BitVec 4)
  /-- CTL_ROW2_SETUP (R118); the state nibble is open. -/
  | ctlRow2Setup (state : BitVec 4)
  /-- CTL_ROW3_DATA_DONE (R128); bit 0 tells IN from OUT. -/
  | ctlRow3DataDone (event : BitVec 1)
  /-- CTL_ROW4_STATUS_DONE (R129); bit 0 tells IN from OUT. -/
  | ctlRow4StatusDone (event : BitVec 1)
  /-- CTL_ROW5_OTHER (R131), for every key the earlier rows leave. -/
  | ctlRow5Other (key : BitVec 8)
  /-- REQ_GET_STATUS (R120); direction and recipient are open. -/
  | reqGetStatus (dir : BitVec 1) (recipient : BitVec 5)
  /-- REQ_GET_DESCRIPTOR (R121). -/
  | reqGetDescriptor (dir : BitVec 1) (recipient : BitVec 5)
  /-- REQ_SET_ADDRESS (R122). -/
  | reqSetAddress (dir : BitVec 1) (recipient : BitVec 5)
  /-- REQ_SET_CONFIGURATION (R123). -/
  | reqSetConfiguration (dir : BitVec 1) (recipient : BitVec 5)
  /-- REQ_OTHER (R124), for every key the earlier rows leave. -/
  | reqOther (key : Half)
  /-- BL_ROW1_CONFIGURED (R141); the state nibble is open. -/
  | blRow1Configured (state : BitVec 4)
  /-- BL_ROW2_OUT_SHORT (R142); the state nibble is open. -/
  | blRow2OutShort (state : BitVec 4)
  /-- BL_ROW3_COMMAND (R143). -/
  | blRow3Command
  /-- BL_ROW4_STATUS_SENT (R144). -/
  | blRow4StatusSent
  /-- BL_ROW5_LOWER_HALF (R145). -/
  | blRow5LowerHalf
  /-- BL_ROW6_UPPER_HALF (R146). -/
  | blRow6UpperHalf
  /-- BL_ROW7_LREAD (R147); the event nibble is open. -/
  | blRow7Lread (event : BitVec 4)
  /-- BL_ROW8_UREAD (R147); the event nibble is open. -/
  | blRow8Uread (event : BitVec 4)
  /-- BL_ROW9_FSM (R148), for every key the earlier rows leave. -/
  | blRow9Fsm (key : BitVec 8)
  /-- CMD_RESET (R150). -/
  | cmdReset
  /-- CMD_PROG (R151 to R153). -/
  | cmdProg
  /-- CMD_READ (R154). -/
  | cmdRead
  /-- CMD_EXIT (R155). -/
  | cmdExit
  /-- CMD_UNRECOGNIZED (R156), for every word the earlier rows leave. -/
  | cmdUnrecognized (command : Word)
  deriving DecidableEq, Repr

end Sys2Proof
end

