-- ==== Sys2Proof/Machine/Operands.lean ====
section
/-! DEFINITION. How every operand is formed (rule R84): byte order, setup-packet fields, packet sizes and the
receive-size encoding, dispatch keys, and the CRC of a half-page. Nothing here reads State. -/

namespace Sys2Proof

/-- The bytes of `v`, least significant first (rule R50). -/
def leBytes {w : Nat} (n : Nat) (v : BitVec w) : List Byte :=
  (List.range n).map fun i => v.extractLsb' (8 * i) 8

/-- The number whose little-endian bytes are `bs`. -/
def leNat : List Byte → Nat
  | [] => 0
  | b :: bs => b.toNat + 256 * leNat bs

/-- The `w`-bit value whose little-endian bytes are `bs` (rules R50, R64). -/
def leVal (w : Nat) (bs : List Byte) : BitVec w := BitVec.ofNat w (leNat bs)

/-- A packet size EP_CONFIGURE accepts (rule R105, `LegalSize`). -/
def legalSize (size : Half) : Bool :=
  let s := size.toNat
  s == 0 || (s % 2 == 0 && 2 ≤ s && s ≤ 62) || (s % 32 == 0 && 64 ≤ s && s ≤ 1024)

/-- The receive-size encoding of COUNT_RX, bits 9:0 zero (rules R81, R105, `RxCountEncode`). -/
def rxCountEncode (size : Half) : Half :=
  let s := size.toNat
  if s > 62 then 0x8000 ||| BitVec.ofNat 16 ((s / 32 - 1) <<< 10) else BitVec.ofNat 16 ((s / 2) <<< 10)

/-- The bytes a receive buffer with this COUNT_RX accepts (rule R105, `Capacity`). -/
def capacity (c : Half) : Nat :=
  let blocks := (c.extractLsb' 10 5).toNat
  if c.getLsbD 15 then (blocks + 1) * 32 else blocks * 2

/-- The byte count in bits 9:0 of a count field (rules R28, R81). -/
def countOf (c : Half) : BitVec 10 := c.extractLsb' 0 10

/-- A count field with bits 9:0 replaced (rules R180, R181: `count_rx[9:0] <- v`). -/
def withCount (c : Half) (v : BitVec 10) : Half := c.extractLsb' 10 6 ++ v

/-- The endpoint-type code (rule R67). -/
def EpType.code : EpType → BitVec 2
  | .bulk => 0
  | .control => 1
  | .iso => 2
  | .interrupt => 3

/-- The endpoint type of a code (rule R67). -/
def EpType.ofCode (c : BitVec 2) : EpType :=
  if c = 0 then .bulk else if c = 1 then .control else if c = 2 then .iso else .interrupt

/-- `bmRequestType` (rule R69). -/
def SetupPacket.bmRequestType (p : SetupPacket) : Byte := p.b0

/-- `bRequest` (rule R69). -/
def SetupPacket.bRequest (p : SetupPacket) : Byte := p.b1

/-- `wValue`, little-endian (rule R69). -/
def SetupPacket.wValue (p : SetupPacket) : Half := p.b3 ++ p.b2

/-- `wIndex`, little-endian (rule R69). -/
def SetupPacket.wIndex (p : SetupPacket) : Half := p.b5 ++ p.b4

/-- `wLength`, little-endian (rule R69). -/
def SetupPacket.wLength (p : SetupPacket) : Half := p.b7 ++ p.b6

/-- The direction bit, `bmRequestType[7]`: true for a device-to-host (IN) data stage (rules R69, R126). -/
def SetupPacket.dirIn (p : SetupPacket) : Bool := p.b0.getLsbD 7

/-- SETUPKEY = `bmRequestType | bRequest << 8` (rule R71). -/
def SetupPacket.key (p : SetupPacket) : Half := p.b1 ++ p.b0

/-- The packet as a list, in wire order. -/
def SetupPacket.toList (p : SetupPacket) : List Byte := [p.b0, p.b1, p.b2, p.b3, p.b4, p.b5, p.b6, p.b7]

/-- The packet whose byte `k` is `f k`. -/
def SetupPacket.ofFun (f : Nat → Byte) : SetupPacket := ⟨f 0, f 1, f 2, f 3, f 4, f 5, f 6, f 7⟩

/-- Whether a setup packet is a standard SET_ADDRESS: `key & 0xFF60 = 0x0500` (rule R129). -/
def SetupPacket.isSetAddress (p : SetupPacket) : Bool := p.key &&& 0xFF60 == 0x0500

/-- The event code of a control event (rule R78). -/
def CtlEvent.code : CtlEvent → BitVec 4
  | .reset => 0
  | .setup => 1
  | .inDone => 2
  | .outDone => 3

/-- The event code of a bootloader event (rule R79). -/
def BlEvent.code : BlEvent → BitVec 4
  | .configured => 0
  | .outFull => 1
  | .outShort => 2
  | .inSent => 3

/-- `roundup(x, m)`, computed without wrap (rule R10). -/
def roundUp (x m : Nat) : Nat := (x + m - 1) / m * m

/-- `x[6:0] = 0`: the address is 128-byte aligned (rules R53, R152). -/
def pageAligned (a : Word) : Bool := a.extractLsb' 0 7 == 0

/-- The address test of PROG: aligned, and the whole page inside the window (rule R152). -/
def Params.progAddressOk (p : Params) (a : Word) : Bool :=
  pageAligned a && p.flashLo.toNat ≤ a.toNat && a.toNat + Config.pageSize - 1 ≤ p.flashHi.toNat

/-- The precondition of `FlashWriteHalf`: 64-byte aligned, and the whole half-page inside the window (rule R56). -/
def Params.halfAddressOk (p : Params) (a : Word) : Bool :=
  a.extractLsb' 0 6 == 0 && p.flashLo.toNat ≤ a.toNat && a.toNat + Config.halfSize - 1 ≤ p.flashHi.toNat

/-- The bytes of the `mau`-byte cell a copy of `n` bytes to `o` ends inside that lie beyond the copy (rule R49). -/
def cellRest (mau o n : Nat) : Nat := if n = 0 then 0 else roundUp (o + n) mau - (o + n)

/-- One bit of the reflected CRC-32 (rule R162). -/
def crcBit (c : Word) : Word := if c.getLsbD 0 then (c >>> 1) ^^^ 0xEDB88320 else c >>> 1

/-- `n` bits of the reflected CRC-32. -/
def crcBits : Nat → Word → Word
  | 0, c => c
  | n + 1, c => crcBits n (crcBit c)

/-- The CRC register after the bytes `bs`, starting from `c`. -/
def crcBytes : List Byte → Word → Word
  | [], c => c
  | b :: bs, c => crcBytes bs (crcBits 8 (c ^^^ b.setWidth 32))

/-- CRC-32 (zlib, IEEE 802.3) of a byte sequence (rule R162). -/
def crc32 (bs : List Byte) : Word := crcBytes bs 0xFFFFFFFF ^^^ 0xFFFFFFFF

/-- DescLookup: the first entry with both keys equal, up to the null-pointer entry that ends the table
(rules R72, R130). -/
def descLookup (value index : Half) : List DescEntry → Option DescEntry
  | [] => none
  | e :: rest =>
    if e.ptr = 0 then none
    else if e.value = value ∧ e.lang = index then some e
    else descLookup value index rest

end Sys2Proof
end

