-- ==== Sys2Proof/WellFormed.lean ====
section
/-! DEFINITION. The checks an instruction must pass to be one the decoder yields: the legal operands of
EP_CONFIGURE (rules R66 to R68, R105), the packet lengths of the host records (rule R64), and for a table's last
row that no earlier row takes the key (rules R71, R77, R114, R139). -/

namespace Sys2Proof

/-- The operands EP_CONFIGURE accepts: not isochronous, a legal packet size, no reserved flag bit. -/
def configOk (type : EpType) (size : Half) (flags : Word) : Bool :=
  decide (type ≠ .iso) && legalSize size && decide (flags >>> 1 = 0)

/-- No earlier row of the control table takes `key`: row 5's keys (rule R114). -/
def ctlOtherKey (key : BitVec 8) : Bool :=
  decide (key &&& 0x0F ≠ 0x00 ∧ key &&& 0x0F ≠ 0x01 ∧ key &&& 0xFE ≠ 0x12 ∧ key &&& 0xFE ≠ 0x22)

/-- No standard-request row takes `key` (rule R71). -/
def reqOtherKey (key : Half) : Bool :=
  decide (key &&& 0xFF60 ≠ 0x0000 ∧ key &&& 0xFF60 ≠ 0x0600 ∧ key &&& 0xFF60 ≠ 0x0500 ∧ key &&& 0xFF60 ≠ 0x0900)

/-- No earlier row of the bootloader table takes `key`: row 9's keys (rule R140). -/
def blOtherKey (key : BitVec 8) : Bool :=
  decide (key &&& 0x0F ≠ 0x00 ∧ key &&& 0x0F ≠ 0x02 ∧ key ≠ 0x01 ∧ key ≠ 0x13 ∧ key ≠ 0x21 ∧ key ≠ 0x31
    ∧ key &&& 0xF0 ≠ 0x40 ∧ key &&& 0xF0 ≠ 0x50)

/-- Row 7's and row 8's events: those rows 1 and 2 leave (rules R140, R147). -/
def readEvent (event : BitVec 4) : Bool := decide (event ≠ 0 ∧ event ≠ 2)

/-- No command of rule R77 has this word. -/
def otherCommand (c : Word) : Bool := decide (c ≠ 0x00 ∧ c ≠ 0x80 ∧ c ≠ 0x40 ∧ c ≠ 0xC3)

/-- An instruction the decoder yields. -/
def Instr.wellFormed : Instr → Bool
  | .epConfigure _ type size flags => configOk type size flags
  | .hostOut _ bytes => decide (bytes.length < 2 ^ 16)
  | .hostSetup _ len bytes => decide (len = 8 → bytes.length = 8)
  | .ctlRow5Other key => ctlOtherKey key
  | .reqOther key => reqOtherKey key
  | .blRow7Lread event => readEvent event
  | .blRow8Uread event => readEvent event
  | .blRow9Fsm key => blOtherKey key
  | .cmdUnrecognized command => otherCommand command
  | .beginSend _ _ _ => true
  | .beginReceive _ _ _ => true
  | .busReset => true
  | .txComplete _ => true
  | .rxComplete _ => true
  | .hostIn _ => true
  | .sendNextPacket _ => true
  | .beginPacketReceive _ => true
  | .endPacketReceive _ => true
  | .allocate _ => true
  | .allocReset => true
  | .ctlReset => true
  | .ctlSetup => true
  | .ctlIn => true
  | .ctlOut => true
  | .blConfigured => true
  | .blOutFull => true
  | .blOutShort => true
  | .blInSent => true
  | .ctlRow1Reset _ => true
  | .ctlRow2Setup _ => true
  | .ctlRow3DataDone _ => true
  | .ctlRow4StatusDone _ => true
  | .reqGetStatus _ _ => true
  | .reqGetDescriptor _ _ => true
  | .reqSetAddress _ _ => true
  | .reqSetConfiguration _ _ => true
  | .blRow1Configured _ => true
  | .blRow2OutShort _ => true
  | .blRow3Command => true
  | .blRow4StatusSent => true
  | .blRow5LowerHalf => true
  | .blRow6UpperHalf => true
  | .cmdReset => true
  | .cmdProg => true
  | .cmdRead => true
  | .cmdExit => true

end Sys2Proof
end

