-- ==== Sys2Proof/Decode.lean ====
section
/-! DEFINITION. The decoder, total on any bytes of any channel (rules R63 to R67, R71, R77 to R79), and the
encoder written from the same tables. -/

namespace Sys2Proof

/-- One row of a first-match table (rule R114): it takes a key when `key &&& mask = pattern`. -/
structure KeyRow (w : Nat) (α : Type) where
  row : α
  pattern : BitVec w
  mask : BitVec w

/-- The first row that takes the key (rules R71, R114, R139). -/
def firstMatch {w : Nat} {α : Type} (key : BitVec w) (last : α) : List (KeyRow w α) → α
  | [] => last
  | r :: rest => if key &&& r.mask = r.pattern then r.row else firstMatch key last rest

/-- The control-pipeline table (rules R115 to R131); its last row has mask 0. -/
def ctlRowOf (key : BitVec 8) : CtlRow :=
  firstMatch key .row5
    [⟨.row1, 0x00, 0x0F⟩, ⟨.row2, 0x01, 0x0F⟩, ⟨.row3, 0x12, 0xFE⟩, ⟨.row4, 0x22, 0xFE⟩]

/-- The SETUP dispatcher's table (rule R71); its last row has mask 0. -/
def setupRowOf (key : Half) : SetupRow :=
  firstMatch key .other
    [⟨.getStatus, 0x0000, 0xFF60⟩, ⟨.getDescriptor, 0x0600, 0xFF60⟩, ⟨.setAddress, 0x0500, 0xFF60⟩,
      ⟨.setConfiguration, 0x0900, 0xFF60⟩]

/-- The bootloader table (rule R140); its last row has mask 0. -/
def blRowOf (key : BitVec 8) : BlRow :=
  firstMatch key .row9
    [⟨.row1, 0x00, 0x0F⟩, ⟨.row2, 0x02, 0x0F⟩, ⟨.row3, 0x01, 0xFF⟩, ⟨.row4, 0x13, 0xFF⟩, ⟨.row5, 0x21, 0xFF⟩,
      ⟨.row6, 0x31, 0xFF⟩, ⟨.row7, 0x40, 0xF0⟩, ⟨.row8, 0x50, 0xF0⟩]

/-- The command table (rule R77): the whole word is compared. -/
def cmdRowOf (command : Word) : CmdRow :=
  firstMatch command .unrecognized
    [⟨.reset, 0x00000000, 0xFFFFFFFF⟩, ⟨.prog, 0x00000080, 0xFFFFFFFF⟩, ⟨.read, 0x00000040, 0xFFFFFFFF⟩,
      ⟨.exit, 0x000000C3, 0xFFFFFFFF⟩]

/-- One row of the operation table of rule R65: the code, whether it is internal, and the fields it uses. -/
structure OpRow where
  code : Byte
  op : Op
  internal : Bool
  usesEp : Bool
  usesType : Bool
  usesLen : Bool
  usesArg : Bool

/-- The operation table of rule R65. -/
def opTable : List OpRow :=
  [⟨0x01, .epConfigure, false, true, true, true, true⟩,
    ⟨0x02, .beginSend, false, true, false, true, true⟩,
    ⟨0x03, .beginReceive, false, true, false, true, true⟩,
    ⟨0x10, .busReset, false, false, false, false, false⟩,
    ⟨0x11, .txComplete, false, true, false, false, false⟩,
    ⟨0x12, .rxComplete, false, true, false, false, false⟩,
    ⟨0x19, .hostIn, false, true, false, false, false⟩,
    ⟨0x1A, .hostOut, false, true, false, true, false⟩,
    ⟨0x1B, .hostSetup, false, true, false, true, false⟩]
  ++ [⟨0x20, .sendNextPacket, true, true, false, false, false⟩,
    ⟨0x21, .beginPacketReceive, true, true, false, false, false⟩,
    ⟨0x22, .endPacketReceive, true, true, false, false, false⟩,
    ⟨0x23, .allocate, true, false, false, true, false⟩,
    ⟨0x24, .allocReset, true, false, false, false, false⟩,
    ⟨0x30, .ctlReset, true, false, false, false, false⟩,
    ⟨0x31, .ctlSetup, true, false, false, false, false⟩,
    ⟨0x32, .ctlIn, true, false, false, false, false⟩,
    ⟨0x33, .ctlOut, true, false, false, false, false⟩,
    ⟨0x40, .blConfigured, true, false, false, false, false⟩,
    ⟨0x41, .blOutFull, true, false, false, false, false⟩,
    ⟨0x42, .blOutShort, true, false, false, false, false⟩,
    ⟨0x43, .blInSent, true, false, false, false, false⟩]

/-- The row of an operation code, if it is assigned. -/
def opRowOf (code : Byte) : Option OpRow := opTable.find? fun r => r.code == code

/-- The verdict of the decoder on an input. -/
inductive Decoded where
  /-- An instruction. -/
  | instr (i : Instr)
  /-- One of the verdicts of rule R66. -/
  | refuse (r : RefusalReason)
  /-- The bytes are no input of the channel's kind: the wrong number of them (log 6). -/
  | badFrame
  deriving DecidableEq, Repr

/-- The fields of an IFACE record (rule R64). -/
structure IfaceFields where
  code : Byte
  ep : EpNum
  reserved11 : BitVec 1
  type : BitVec 2
  reserved15 : BitVec 2
  len : Half
  arg : Word

/-- The slices of rule R64. -/
def ifaceFields (R : BitVec 64) : IfaceFields where
  code := R.extractLsb' 0 8
  ep := (R.extractLsb' 8 3).toFin
  reserved11 := R.extractLsb' 11 1
  type := R.extractLsb' 12 2
  reserved15 := R.extractLsb' 14 2
  len := R.extractLsb' 16 16
  arg := R.extractLsb' 32 32

/-- A reserved bit, or a field the operation does not use, is non-zero (rule R66). -/
def reservedFieldSet (row : OpRow) (f : IfaceFields) : Bool :=
  decide (f.reserved11 ≠ 0) || decide (f.reserved15 ≠ 0) || (!row.usesEp && decide (f.ep ≠ 0))
  || (!row.usesType && decide (f.type ≠ 0)) || (!row.usesLen && decide (f.len ≠ 0))
  || (!row.usesArg && decide (f.arg ≠ 0))

/-- A record that has no trailing bytes (rule R64). -/
def noPacket (packet : List Byte) (i : Instr) : Decoded := if packet = [] then .instr i else .badFrame

/-- The instruction of an operation whose reserved fields are clear; EP_CONFIGURE's operand checks are those of
rule R66, in the order of rule R92. -/
def buildIface (f : IfaceFields) (packet : List Byte) : Op → Decoded
  | .epConfigure =>
    let type := EpType.ofCode f.type
    if type = .iso then .refuse .isoEndpoint
    else if configOk type f.len f.arg then noPacket packet (.epConfigure f.ep type f.len f.arg)
    else .refuse .badConfig
  | .beginSend => noPacket packet (.beginSend f.ep f.arg f.len)
  | .beginReceive => noPacket packet (.beginReceive f.ep f.arg f.len)
  | .busReset => noPacket packet .busReset
  | .txComplete => noPacket packet (.txComplete f.ep)
  | .rxComplete => noPacket packet (.rxComplete f.ep)
  | .hostIn => noPacket packet (.hostIn f.ep)
  | .hostOut => if packet.length = f.len.toNat then .instr (.hostOut f.ep packet) else .badFrame
  | .hostSetup => if f.len = 8 ∧ packet.length ≠ 8 then .badFrame else .instr (.hostSetup f.ep f.len packet)
  | .sendNextPacket => noPacket packet (.sendNextPacket f.ep)
  | .beginPacketReceive => noPacket packet (.beginPacketReceive f.ep)
  | .endPacketReceive => noPacket packet (.endPacketReceive f.ep)
  | .allocate => noPacket packet (.allocate f.len)
  | .allocReset => noPacket packet .allocReset
  | .ctlReset => noPacket packet .ctlReset
  | .ctlSetup => noPacket packet .ctlSetup
  | .ctlIn => noPacket packet .ctlIn
  | .ctlOut => noPacket packet .ctlOut
  | .blConfigured => noPacket packet .blConfigured
  | .blOutFull => noPacket packet .blOutFull
  | .blOutShort => noPacket packet .blOutShort
  | .blInSent => noPacket packet .blInSent

/-- The decoder of IFACE records. The verdicts are tried in the order of rule R66. -/
def decodeIface (onPort : Bool) (R : BitVec 64) (packet : List Byte) : Decoded :=
  let f := ifaceFields R
  match opRowOf f.code with
  | none => .refuse .reservedOpcode
  | some row =>
    if onPort && row.internal then .refuse .internalOpcode
    else if reservedFieldSet row f then .refuse .reservedField
    else buildIface f packet row.op

/-- The decoder of CTLKEY (rule R78). -/
def decodeCtlKey (key : BitVec 8) : Instr :=
  match ctlRowOf key with
  | .row1 => .ctlRow1Reset (key.extractLsb' 4 4)
  | .row2 => .ctlRow2Setup (key.extractLsb' 4 4)
  | .row3 => .ctlRow3DataDone (key.extractLsb' 0 1)
  | .row4 => .ctlRow4StatusDone (key.extractLsb' 0 1)
  | .row5 => .ctlRow5Other key

/-- The decoder of SETUPKEY (rule R71). -/
def decodeSetupKey (key : Half) : Instr :=
  let dir := key.extractLsb' 7 1
  let recipient := key.extractLsb' 0 5
  match setupRowOf key with
  | .getStatus => .reqGetStatus dir recipient
  | .getDescriptor => .reqGetDescriptor dir recipient
  | .setAddress => .reqSetAddress dir recipient
  | .setConfiguration => .reqSetConfiguration dir recipient
  | .other => .reqOther key

/-- The decoder of BLKEY (rule R79). -/
def decodeBlKey (key : BitVec 8) : Instr :=
  match blRowOf key with
  | .row1 => .blRow1Configured (key.extractLsb' 4 4)
  | .row2 => .blRow2OutShort (key.extractLsb' 4 4)
  | .row3 => .blRow3Command
  | .row4 => .blRow4StatusSent
  | .row5 => .blRow5LowerHalf
  | .row6 => .blRow6UpperHalf
  | .row7 => .blRow7Lread (key.extractLsb' 0 4)
  | .row8 => .blRow8Uread (key.extractLsb' 0 4)
  | .row9 => .blRow9Fsm key

/-- The decoder of CMD32 (rule R77). -/
def decodeCmd (command : Word) : Instr :=
  match cmdRowOf command with
  | .reset => .cmdReset
  | .prog => .cmdProg
  | .read => .cmdRead
  | .exit => .cmdExit
  | .unrecognized => .cmdUnrecognized command

/-- The decoder: any bytes of any channel give an instruction, a verdict of rule R66, or a framing error. -/
def decode (ch : Channel) (bytes : List Byte) : Decoded :=
  match ch with
  | .port => if bytes.length < 8 then .badFrame else decodeIface true (leVal 64 (bytes.take 8)) (bytes.drop 8)
  | .internal =>
    if bytes.length < 8 then .badFrame else decodeIface false (leVal 64 (bytes.take 8)) (bytes.drop 8)
  | .ctlKey => if bytes.length = 1 then .instr (decodeCtlKey (leVal 8 bytes)) else .badFrame
  | .setupKey => if bytes.length = 2 then .instr (decodeSetupKey (leVal 16 bytes)) else .badFrame
  | .blKey => if bytes.length = 1 then .instr (decodeBlKey (leVal 8 bytes)) else .badFrame
  | .cmd32 => if bytes.length = 4 then .instr (decodeCmd (leVal 32 bytes)) else .badFrame

/-- The IFACE record of an operation code and its fields, reserved bits clear (rule R64). -/
def ifaceWord (code : Byte) (ep : EpNum) (type : BitVec 2) (len : Half) (arg : Word) : BitVec 64 :=
  arg ++ len ++ (0 : BitVec 2) ++ type ++ (0 : BitVec 1) ++ BitVec.ofFin (w := 3) ep ++ code

/-- The SETUPKEY of a standard request, its direction and its recipient (rules R69, R71). -/
def setupKeyWord (request : Byte) (dir : BitVec 1) (recipient : BitVec 5) : Half :=
  request ++ dir ++ (0 : BitVec 2) ++ recipient

/-- The channel an instruction's word arrives on (rule R63). -/
def Instr.channel : Instr → Channel
  | .epConfigure _ _ _ _ | .beginSend _ _ _ | .beginReceive _ _ _ | .busReset | .txComplete _ | .rxComplete _
  | .hostIn _ | .hostOut _ _ | .hostSetup _ _ _ => .port
  | .sendNextPacket _ | .beginPacketReceive _ | .endPacketReceive _ | .allocate _ | .allocReset | .ctlReset
  | .ctlSetup | .ctlIn | .ctlOut | .blConfigured | .blOutFull | .blOutShort | .blInSent => .internal
  | .ctlRow1Reset _ | .ctlRow2Setup _ | .ctlRow3DataDone _ | .ctlRow4StatusDone _ | .ctlRow5Other _ => .ctlKey
  | .reqGetStatus _ _ | .reqGetDescriptor _ _ | .reqSetAddress _ _ | .reqSetConfiguration _ _ | .reqOther _ =>
    .setupKey
  | .blRow1Configured _ | .blRow2OutShort _ | .blRow3Command | .blRow4StatusSent | .blRow5LowerHalf
  | .blRow6UpperHalf | .blRow7Lread _ | .blRow8Uread _ | .blRow9Fsm _ => .blKey
  | .cmdReset | .cmdProg | .cmdRead | .cmdExit | .cmdUnrecognized _ => .cmd32

/-- The word of an instruction, least significant bit first as spec/opcode_table.json numbers it: an IFACE record,
a dispatch key, a setup key or a command word. -/
def Instr.word : Instr → BitVec 64
  | .epConfigure ep type size flags => ifaceWord 0x01 ep type.code size flags
  | .beginSend ep buf len => ifaceWord 0x02 ep 0 len buf
  | .beginReceive ep buf len => ifaceWord 0x03 ep 0 len buf
  | .busReset => ifaceWord 0x10 0 0 0 0
  | .txComplete ep => ifaceWord 0x11 ep 0 0 0
  | .rxComplete ep => ifaceWord 0x12 ep 0 0 0
  | .hostIn ep => ifaceWord 0x19 ep 0 0 0
  | .hostOut ep bytes => ifaceWord 0x1A ep 0 (BitVec.ofNat 16 bytes.length) 0
  | .hostSetup ep len _ => ifaceWord 0x1B ep 0 len 0
  | .sendNextPacket ep => ifaceWord 0x20 ep 0 0 0
  | .beginPacketReceive ep => ifaceWord 0x21 ep 0 0 0
  | .endPacketReceive ep => ifaceWord 0x22 ep 0 0 0
  | .allocate len => ifaceWord 0x23 0 0 len 0
  | .allocReset => ifaceWord 0x24 0 0 0 0
  | .ctlReset => ifaceWord 0x30 0 0 0 0
  | .ctlSetup => ifaceWord 0x31 0 0 0 0
  | .ctlIn => ifaceWord 0x32 0 0 0 0
  | .ctlOut => ifaceWord 0x33 0 0 0 0
  | .blConfigured => ifaceWord 0x40 0 0 0 0
  | .blOutFull => ifaceWord 0x41 0 0 0 0
  | .blOutShort => ifaceWord 0x42 0 0 0 0
  | .blInSent => ifaceWord 0x43 0 0 0 0
  | .ctlRow1Reset st => (st ++ (0x0 : BitVec 4)).setWidth 64
  | .ctlRow2Setup st => (st ++ (0x1 : BitVec 4)).setWidth 64
  | .ctlRow3DataDone e => ((0x09 : BitVec 7) ++ e).setWidth 64
  | .ctlRow4StatusDone e => ((0x11 : BitVec 7) ++ e).setWidth 64
  | .ctlRow5Other key => key.setWidth 64
  | .reqGetStatus d r => (setupKeyWord 0x00 d r).setWidth 64
  | .reqGetDescriptor d r => (setupKeyWord 0x06 d r).setWidth 64
  | .reqSetAddress d r => (setupKeyWord 0x05 d r).setWidth 64
  | .reqSetConfiguration d r => (setupKeyWord 0x09 d r).setWidth 64
  | .reqOther key => key.setWidth 64
  | .blRow1Configured st => (st ++ (0x0 : BitVec 4)).setWidth 64
  | .blRow2OutShort st => (st ++ (0x2 : BitVec 4)).setWidth 64
  | .blRow3Command => 0x01
  | .blRow4StatusSent => 0x13
  | .blRow5LowerHalf => 0x21
  | .blRow6UpperHalf => 0x31
  | .blRow7Lread e => ((0x4 : BitVec 4) ++ e).setWidth 64
  | .blRow8Uread e => ((0x5 : BitVec 4) ++ e).setWidth 64
  | .blRow9Fsm key => key.setWidth 64
  | .cmdReset => 0x00000000
  | .cmdProg => 0x00000080
  | .cmdRead => 0x00000040
  | .cmdExit => 0x000000C3
  | .cmdUnrecognized command => command.setWidth 64

/-- The bytes a word of the channel's kind takes (rule R63). -/
def Channel.wordBytes : Channel → Nat
  | .port => 8
  | .internal => 8
  | .ctlKey => 1
  | .setupKey => 2
  | .blKey => 1
  | .cmd32 => 4

/-- The packet bytes that follow an instruction's record (rule R64). -/
def Instr.packet : Instr → List Byte
  | .hostOut _ bytes => bytes
  | .hostSetup _ _ bytes => bytes
  | _ => []

/-- The encoder: the word in its byte order, then the packet bytes. -/
def encode (i : Instr) : List Byte := leBytes i.channel.wordBytes i.word ++ i.packet

/-- The packet bytes, all zero, that a record with this operation code and length carries (rule R64). -/
def zeroPacket (R : BitVec 64) : List Byte :=
  let f := ifaceFields R
  if f.code = 0x1A then List.replicate f.len.toNat 0
  else if f.code = 0x1B then List.replicate 8 0
  else []

/-- The channel an opcode-table word of `nbits` bits is laid out for (log 22). The table's formats share widths, so
a word that is some row's own `match` value is read as that row's kind, CTLKEY before BLKEY and command words
before IFACE records; any other word goes by its width. -/
def tableChannel (nbits w : Nat) : Channel :=
  let isOp := (opRowOf (BitVec.ofNat 8 w)).isSome && decide (w < 256)
  let ifaceChannel : Channel :=
    match opRowOf (BitVec.ofNat 8 w) with
    | some row => if row.internal then .internal else .port
    | none => .port
  if nbits ≤ 8 then
    if w ∈ [0x00, 0x01, 0x12, 0x22] then .ctlKey
    else if w ∈ [0x02, 0x13, 0x21, 0x31, 0x40, 0x50] then .blKey
    else if isOp then ifaceChannel
    else if w % 16 < 4 ∧ w / 16 < 3 then .ctlKey
    else .blKey
  else if nbits ≤ 16 then if isOp then ifaceChannel else .setupKey
  else if nbits ≤ 32 then
    if w ∈ [0x00, 0x80, 0x40, 0xC3] then .cmd32
    else if isOp ∨ nbits < 32 then ifaceChannel
    else .cmd32
  else ifaceChannel

/-- The bytes of an opcode-table word on its channel, every bit above `nbits` zero, with packet bytes of zeros. -/
def tableBytes (nbits w : Nat) : List Byte :=
  match tableChannel nbits w with
  | .port => leBytes 8 (BitVec.ofNat 64 w) ++ zeroPacket (BitVec.ofNat 64 w)
  | .internal => leBytes 8 (BitVec.ofNat 64 w)
  | .ctlKey => leBytes 1 (BitVec.ofNat 8 w)
  | .setupKey => leBytes 2 (BitVec.ofNat 16 w)
  | .blKey => leBytes 1 (BitVec.ofNat 8 w)
  | .cmd32 => leBytes 4 (BitVec.ofNat 32 w)

/-- The instruction the decoder reads from an opcode-table word. -/
def decodeTableWord (nbits w : Nat) : Option Instr :=
  match decode (tableChannel nbits w) (tableBytes nbits w) with
  | .instr i => some i
  | .refuse _ => none
  | .badFrame => none

end Sys2Proof
end

