-- ==== Sys2Proof/Machine/State.lean ====
section
/-! DEFINITION. The state of the block: everything 10_state.md lists, the memories it reaches, and the model's own
fields (the inputs of the step relation, the environment's answers, and what the outside has seen). -/

namespace Sys2Proof.Machine

/-- A byte memory in canonical form. `cells` lists the bytes that differ from 0, by rising address; `opened` lists,
by rising address, the bytes whose value the spec leaves open, each with the draw that opened it. Every other byte
reads as 0 (log 11). -/
structure Memory where
  cells : List Host.Cell
  opened : List (Nat × Nat)
  deriving DecidableEq, Repr, Inhabited

/-- The Endpoint Status record of one endpoint (rules R21 to R27). -/
structure Endpoint where
  size : Half
  flags : Byte
  type : EpType
  txBuf : Word
  txPos : Word
  txLen : Half
  rxBuf : Word
  rxPos : Word
  rxLen : Half
  lastSetup : SetupPacket
  deriving DecidableEq, Repr, Inhabited

/-- One buffer descriptor (rule R28). -/
structure Descriptor where
  addrTx : Half
  countTx : Half
  addrRx : Half
  countRx : Half
  deriving DecidableEq, Repr, Inhabited

/-- The status of one side of an endpoint (rule R30). -/
inductive SideStatus where
  | disabled
  | stall
  | nak
  | valid
  deriving DecidableEq, Repr, Inhabited

/-- The hardware-visible state of one endpoint: both sides' statuses and the completion flags (rule R30). -/
structure EpHardware where
  txStatus : SideStatus
  rxStatus : SideStatus
  ctrTx : Bool
  ctrRx : Bool
  setup : Bool
  deriving DecidableEq, Repr, Inhabited

/-- `ctl.state` (rule R32). -/
inductive CtlState where
  | setup
  | data
  | status
  deriving DecidableEq, Repr, Inhabited

/-- `bl.state` and `bl.resume` (rules R33, R34). -/
inductive BlState where
  | reset
  | status
  | lprog
  | uprog
  | lread
  | uread
  deriving DecidableEq, Repr, Inhabited

/-- The bootloader session but for the two reports, which are RAM at `IN_BUF` and `OUT_BUF` (rules R33 to R39). -/
structure Boot where
  state : BlState
  address : Word
  crcLower : Word
  crcUpper : Word
  resume : BlState
  exitRequest : Bool
  deriving DecidableEq, Repr, Inhabited

/-- The fault kinds of rule R170. -/
inductive FaultKind where
  | pmaOverflow
  | resizeAllocated
  | txOverwrite
  | rxOverwrite
  | bufferWrap
  | eventOverrun
  deriving DecidableEq, Repr

/-- The sticky set of recorded faults (rules R38, R178): one bit a kind, so no order is kept. -/
@[ext]
structure FaultSet where
  pmaOverflow : Bool
  resizeAllocated : Bool
  txOverwrite : Bool
  rxOverwrite : Bool
  bufferWrap : Bool
  eventOverrun : Bool
  deriving DecidableEq, Repr, Inhabited

/-- The result of END_PACKET_RECEIVE (rule R109). -/
inductive RecvResult where
  | none
  | working
  | done (total : Half)
  | setupDone
  deriving DecidableEq, Repr

/-- The answer of a request handler or of the class/vendor hook (rules R118, R124). -/
inductive Answer where
  | ok (ptr : Word) (len : Half)
  | stall
  deriving DecidableEq, Repr

/-- What the host sees of a transaction that completes nothing (rule R183). -/
inductive Handshake where
  | nak
  | stall
  | noAnswer
  deriving DecidableEq, Repr

/-- What one step shows outside the block (log 24). -/
inductive Obs where
  /-- Nothing. -/
  | none
  /-- The record decoded and its precondition failed: it has no step (rules R66, R179). -/
  | noStep
  /-- A host transaction completed nothing and the host saw this (rule R183). -/
  | handshake (h : Handshake)
  /-- The bytes the host received (rule R182). -/
  | packet (bytes : List Byte)
  /-- The handle ALLOCATE returned to its caller (rule R87). -/
  | handle (h : Half)
  /-- The result END_PACKET_RECEIVE returned to its caller (rule R109). -/
  | result (r : RecvResult)
  /-- The answer a request handler returned to its caller (rules R120 to R124). -/
  | answer (a : Answer)
  deriving DecidableEq, Repr

/-- A call of an external hook (rules R7, R100, R111, R132). -/
inductive Notice where
  | sent (ep : EpNum)
  | received (ep : EpNum) (total : Half)
  | setupTaken (ep : EpNum)
  | controlComplete (setup : SetupPacket)
  deriving DecidableEq, Repr

/-- A store of bytes to RAM by a hook of the application. -/
structure RamStore where
  addr : Word
  bytes : List Byte
  deriving DecidableEq, Repr

/-- One input of the step relation (rules R17, R43): a record or key with the channel it arrives on, a store to RAM by
main-line software (log 17), or the platform acting on `bl.exit_request` (rule R155, log 19). -/
inductive Input where
  | message (ch : Channel) (bytes : List Byte)
  | ramWrite (addr : Word) (bytes : List Byte)
  | platformExit
  deriving DecidableEq, Repr

/-- The state. The first group is the spec's; `cfg` holds the parameters, which no rule writes (log 8); the last group
is the model's own. -/
@[ext]
structure State where
  /-- `alloc.brk` (R20). -/
  brk : Half
  /-- `ep[n]` (R21). -/
  ep : Vector Endpoint 8
  /-- `bdt[n]` (R28). -/
  bdt : Vector Descriptor 8
  /-- `hw.tx_status[n]`, `hw.rx_status[n]`, `hw.ctr_tx[n]`, `hw.ctr_rx[n]`, `hw.setup[n]` (R30). -/
  hw : Vector EpHardware 8
  /-- `hw.dev_addr` (R31). -/
  devAddr : BitVec 7
  /-- `hw.dev_en` (R31). -/
  devEn : Bool
  /-- `ctl.state` (R32). -/
  ctl : CtlState
  /-- `bl` (R33 to R37). -/
  bl : Boot
  /-- RAM (R39, R45), the two reports among it. -/
  ram : Memory
  /-- Packet memory as bytes (R45, R47, R48). -/
  pma : Memory
  /-- FLASH (R39, R45). -/
  flash : Memory
  /-- The half-pages erased and not written since, by rising address: what decides whether a half-page write has a
  stated result (R56, 93_implementation_defined.md row 13); none at reset (log 14). -/
  flashErased : List Word
  /-- `faults` (R38). -/
  faults : FaultSet
  /-- `refused` (R38). -/
  refused : Option RefusalReason
  /-- The parameters (R8, R9). -/
  cfg : Params
  /-- The inputs still to come, oldest first (R43). -/
  inputs : List Input
  /-- The flash outcomes the environment has already decided, oldest first; beyond them `Config.flashOk` (R8). -/
  flashAnswers : List Bool
  /-- The answers of the class/vendor hook, oldest first; beyond them the default, STALL (R8, R124). -/
  classAnswers : List Answer
  /-- What the completion hook `control_complete` stores to RAM at each call, oldest first; beyond them the default,
  nothing (R8, R132, log 16). -/
  completions : List (List RamStore)
  /-- How many draws have been made: the index of the next free value. -/
  draws : Nat
  /-- What the last step showed outside. -/
  obs : Obs
  /-- The packets the host has received in HOST_IN steps, oldest first (R201). -/
  hostReceived : List (List Byte)
  /-- The hook calls made, oldest first. -/
  notices : List Notice
  deriving DecidableEq, Repr

/-- Why the machine stops with a fault. The faults of rule R170 are not these: they are recorded in `State.faults`
and the machine goes on. -/
inductive Fault where
  /-- Raised by `step` only: the next input is no record or key of the kind its channel carries (it has the wrong
  number of bytes), so the spec gives the block nothing to take. Safe: the machine stops (log 6). -/
  | badFrame
  deriving DecidableEq, Repr

/-- Why the machine gives no meaning. The refusals of rule R171 are not these: they are recorded in `State.refused`
and the machine goes on. -/
inductive Refusal where
  /-- Raised by an arm of `exec` for an instruction that has no meaning yet; no arm raises it. Safe: the machine
  stops. -/
  | notModelled (mnemonic : String)
  deriving DecidableEq, Repr

/-- An empty memory: every byte reads as 0. -/
def Memory.empty : Memory := ⟨[], []⟩

/-- An endpoint at its reset values (rule R42). -/
def Endpoint.reset : Endpoint where
  size := 0
  flags := 0
  type := .bulk
  txBuf := 0
  txPos := 0
  txLen := 0
  rxBuf := 0
  rxPos := 0
  rxLen := 0
  lastSetup := ⟨0, 0, 0, 0, 0, 0, 0, 0⟩

/-- A descriptor at its reset value (rule R42). -/
def Descriptor.reset : Descriptor := ⟨0, 0, 0, 0⟩

/-- The hardware side of an endpoint at its reset values (rule R42). -/
def EpHardware.reset : EpHardware := ⟨.disabled, .disabled, false, false, false⟩

/-- The bootloader session at power-on (rule R42). -/
def Boot.reset : Boot := ⟨.reset, 0, 0, 0, .reset, false⟩

/-- No fault. -/
def FaultSet.empty : FaultSet := ⟨false, false, false, false, false, false⟩

/-- The power-on state (rules R42, R186), with nothing yet to come from outside. -/
def State.reset : State where
  brk := Params.atReset.arenaStart
  ep := Vector.replicate 8 Endpoint.reset
  bdt := Vector.replicate 8 Descriptor.reset
  hw := Vector.replicate 8 EpHardware.reset
  devAddr := 0
  devEn := false
  ctl := .setup
  bl := Boot.reset
  ram := Memory.empty
  pma := Memory.empty
  flash := Memory.empty
  flashErased := []
  faults := FaultSet.empty
  refused := none
  cfg := Params.atReset
  inputs := []
  flashAnswers := []
  classAnswers := []
  completions := []
  draws := 0
  obs := .none
  hostReceived := []
  notices := []

end Sys2Proof.Machine
end

