-- ==== Sys2Proof/Machine/Ops.lean ====
section
/-! DEFINITION. The named operations over memory and registers: the byte memories, packet memory, the allocator
(rules R87 to R89), the flash primitives (rules R55, R56), the reports (rules R35, R36, R73 to R75), recording a
fault or a refusal (rules R170, R171), and taking the next input. -/

namespace Sys2Proof.Machine

/-- The value listed under a key. -/
def assocGet {α : Type} (k : Nat) : List (Nat × α) → Option α
  | [] => none
  | (a, v) :: rest => if a = k then some v else assocGet k rest

/-- The list, sorted by key, with `v` under `k`. -/
def assocPut {α : Type} (k : Nat) (v : α) : List (Nat × α) → List (Nat × α)
  | [] => [(k, v)]
  | (a, u) :: rest =>
    if k < a then (k, v) :: (a, u) :: rest
    else if k = a then (k, v) :: rest
    else (a, u) :: assocPut k v rest

/-- The list with nothing under `k`. -/
def assocDel {α : Type} (k : Nat) : List (Nat × α) → List (Nat × α)
  | [] => []
  | (a, u) :: rest => if a = k then rest else (a, u) :: assocDel k rest

/-- The keys rise strictly, and all lie above `lo` where there is one. -/
def assocSorted {α : Type} : Option Nat → List (Nat × α) → Bool
  | _, [] => true
  | lo, (a, _) :: rest =>
    (match lo with
      | none => true
      | some l => decide (l < a)) && assocSorted (some a) rest

/-- The canonical form: addresses strictly rising, no cell equal to 0, and no cell under an open byte. -/
def Memory.wf (m : Memory) : Bool :=
  assocSorted none m.cells && assocSorted none m.opened && m.cells.all (fun c => decide (c.2 ≠ 0))
  && m.opened.all (fun o => (assocGet o.1 m.cells).isNone)

/-- The byte at an address: the free value of its draw if it is open, else the listed byte, else 0 (log 11). -/
def Memory.read (m : Memory) (a : Nat) : Byte :=
  match assocGet a m.opened with
  | some d => Config.freeByte d a
  | none => (assocGet a m.cells).getD 0

/-- Store a byte, keeping the canonical form. -/
def Memory.write (m : Memory) (a : Nat) (b : Byte) : Memory where
  cells := if b = 0 then assocDel a m.cells else assocPut a b m.cells
  opened := assocDel a m.opened

/-- Leave the byte at an address open, under the draw `d`. -/
def Memory.openByte (m : Memory) (a d : Nat) : Memory where
  cells := assocDel a m.cells
  opened := assocPut a d m.opened

/-- The key of the byte at the pointer `a + k`, in the pointer's 32 bits (rules R10, R46). -/
def ptrKey (a : Word) (k : Nat) : Nat := (a + BitVec.ofNat 32 k).toNat

/-- The `n` bytes from the pointer `a + k`, in increasing address order (rule R46). -/
def Memory.load (m : Memory) (a : Word) (k : Nat) : Nat → List Byte
  | 0 => []
  | n + 1 => m.read (ptrKey a k) :: m.load a (k + 1) n

/-- Store bytes from the pointer `a + k`, in increasing address order (rule R46). -/
def Memory.store (m : Memory) (a : Word) (k : Nat) : List Byte → Memory
  | [] => m
  | b :: bs => (m.write (ptrKey a k) b).store a (k + 1) bs

/-- Leave open, under the draw `d`, those of the `n` bytes from the pointer `a + k` that lie from `lo` to `hi`. -/
def Memory.openWindow (m : Memory) (lo hi : Nat) (a : Word) (k d : Nat) : Nat → Memory
  | 0 => m
  | n + 1 =>
    (if lo ≤ ptrKey a k ∧ ptrKey a k ≤ hi then m.openByte (ptrKey a k) d else m).openWindow lo hi a (k + 1) d n

/-- Replace the Endpoint Status record of endpoint `n`. -/
def State.modEp (s : State) (n : EpNum) (f : Endpoint → Endpoint) : State :=
  { s with ep := s.ep.set n (f s.ep[n]) }

/-- Replace the descriptor of endpoint `n`. -/
def State.modBdt (s : State) (n : EpNum) (f : Descriptor → Descriptor) : State :=
  { s with bdt := s.bdt.set n (f s.bdt[n]) }

/-- Replace the hardware-visible state of endpoint `n`. -/
def State.modHw (s : State) (n : EpNum) (f : EpHardware → EpHardware) : State :=
  { s with hw := s.hw.set n (f s.hw[n]) }

/-- `hw.tx_status[n] <- v`. -/
def State.setTxStatus (s : State) (n : EpNum) (v : SideStatus) : State := s.modHw n fun h => { h with txStatus := v }

/-- `hw.rx_status[n] <- v`. -/
def State.setRxStatus (s : State) (n : EpNum) (v : SideStatus) : State := s.modHw n fun h => { h with rxStatus := v }

/-- The fault set with one kind added (rule R170). -/
def FaultSet.insert (fs : FaultSet) : FaultKind → FaultSet
  | .pmaOverflow => { fs with pmaOverflow := true }
  | .resizeAllocated => { fs with resizeAllocated := true }
  | .txOverwrite => { fs with txOverwrite := true }
  | .rxOverwrite => { fs with rxOverwrite := true }
  | .bufferWrap => { fs with bufferWrap := true }
  | .eventOverrun => { fs with eventOverrun := true }

/-- Whether a kind is recorded. -/
def FaultSet.has (fs : FaultSet) : FaultKind → Bool
  | .pmaOverflow => fs.pmaOverflow
  | .resizeAllocated => fs.resizeAllocated
  | .txOverwrite => fs.txOverwrite
  | .rxOverwrite => fs.rxOverwrite
  | .bufferWrap => fs.bufferWrap
  | .eventOverrun => fs.eventOverrun

/-- `raise Fault(kind)`: record the fault; the step goes on (rules R12, R170). -/
def State.raise (s : State) (k : FaultKind) : State := { s with faults := s.faults.insert k }

/-- `raise Fault(kind)` where the condition holds. -/
def State.raiseIf (s : State) (c : Bool) (k : FaultKind) : State :=
  { s with faults := if c then s.faults.insert k else s.faults }

/-- `refuse(reason)`: set the sticky mark; the first reason stays (rules R12, R38, R171, log 4). -/
def State.refuse (s : State) (r : RefusalReason) : State := { s with refused := s.refused.or (some r) }

/-- The record has no step: nothing changes but what the step shows (rules R66, R179, log 3). -/
def State.noStep (s : State) : State := { s with obs := .noStep }

/-- The call of an external hook. -/
def State.notify (s : State) (n : Notice) : State := { s with notices := s.notices ++ [n] }

/-- Store bytes to RAM from `a`: `MemWrite(a + k, 1, b)` for each (rules R12, R46). -/
def State.ramWrite (s : State) (a : Word) (bs : List Byte) : State := { s with ram := s.ram.store a 0 bs }

/-- `PmaRead(o)` (rule R47); outside packet memory no byte exists, and the value is free (log 20). -/
def State.pmaByte (s : State) (o : Nat) : Byte :=
  if o < s.cfg.pmaSize then s.pma.read o else Config.freeByte s.draws o

/-- The bytes `PmaRead(o)` to `PmaRead(o + n - 1)`. -/
def State.pmaBytes (s : State) (o : Nat) : Nat → List Byte
  | 0 => []
  | n + 1 => s.pmaByte o :: s.pmaBytes (o + 1) n

/-- The state after reading `n` bytes from offset `o`: an offset at or above `PMA_SIZE` faults (rule R47). -/
def State.pmaTouch (s : State) (o n : Nat) : State :=
  { s.raiseIf (decide (0 < n ∧ s.cfg.pmaSize < o + n)) .pmaOverflow with
    draws := if 0 < n ∧ s.cfg.pmaSize < o + n then s.draws + 1 else s.draws }

/-- Packet memory of `size` bytes after `PmaWrite` of bytes from offset `o`; an offset at or above `size` is not
written. -/
def pmaStore (size : Nat) (m : Memory) (o : Nat) : List Byte → Memory
  | [] => m
  | b :: bs => pmaStore size (if o < size then m.write o b else m) (o + 1) bs

/-- Packet memory of `size` bytes with `n` bytes from offset `o` left open, under the draw `d`. -/
def pmaOpen (size : Nat) (m : Memory) (o d : Nat) : Nat → Memory
  | 0 => m
  | n + 1 => pmaOpen size (if o < size then m.openByte o d else m) (o + 1) d n

/-- `PmaWrite` of bytes from offset `o`; an offset at or above `PMA_SIZE` faults (rule R47). -/
def State.pmaWrite (s : State) (o : Nat) (bs : List Byte) : State :=
  { s.raiseIf (decide (0 < bs.length ∧ s.cfg.pmaSize < o + bs.length)) .pmaOverflow with
    pma := pmaStore s.cfg.pmaSize s.pma o bs }

/-- A copy of `n` bytes to offset `o` that ends inside a cell of packet memory leaves the rest of the cell open
(rule R49). -/
def State.pmaCellOpen (s : State) (o n : Nat) : State :=
  { s with
    pma := pmaOpen s.cfg.pmaSize s.pma (o + n) s.draws (cellRest s.cfg.mau o n)
    draws := s.draws + 1 }

/-- ALLOCATE: the pre-advance break, and the state with the break advanced (rules R87, R88). -/
def State.allocate (s : State) (len : Half) : Half × State :=
  let size := roundUp len.toNat s.cfg.mau
  (s.brk,
    { s.raiseIf (decide (s.brk.toNat + size > s.cfg.pmaSize)) .pmaOverflow with
      brk := s.brk + BitVec.ofNat 16 size })

/-- ALLOC_RESET (rule R89). -/
def State.allocReset (s : State) : State := { s with brk := s.cfg.arenaStart }

/-- The outcome of the next flash primitive call: the environment's next answer, or the free outcome of this draw
(rules R8, R55, R56, log 9). -/
def State.flashOutcome (s : State) : Bool := s.flashAnswers.headD (Config.flashOk s.draws)

/-- The state with one flash outcome drawn. -/
def State.flashDrawn (s : State) : State := { s with flashAnswers := s.flashAnswers.tail, draws := s.draws + 1 }

/-- `n` words, each with the value `w`, as little-endian bytes (rule R57). -/
def wordBytes (w : Word) : Nat → List Byte
  | 0 => []
  | n + 1 => leBytes 4 w ++ wordBytes w n

/-- The list, by rising address, with `a` in it. -/
def insertHalf (a : Word) : List Word → List Word
  | [] => [a]
  | h :: hs => if a < h then a :: h :: hs else if a = h then h :: hs else h :: insertHalf a hs

/-- The half-pages of the list that share no byte with the `n` bytes from `a` (addresses modulo 2^32, rule R10). -/
def halvesApart (a : Word) (n : Nat) (hs : List Word) : List Word :=
  hs.filter fun h => decide (n ≤ (h - a).toNat ∧ Config.halfSize ≤ (a - h).toNat)

/-- The flash with those of the `n` bytes from `a` that lie in the window left open, under the next draw. -/
def State.flashOpened (s : State) (a : Word) (n : Nat) : Memory :=
  s.flash.openWindow s.cfg.flashLo.toNat s.cfg.flashHi.toNat a 0 s.draws n

/-- `FlashErasePage(a)`: on OK every word of the page holds `ERASED_WORD`; on FAIL every byte is open (rule R55).
DESIGN CHOICE (log 31): where its precondition fails, the bytes in the window are open whatever the outcome; only PROG
calls it, at an address that meets the precondition (rule R152). -/
def State.flashErasePage (s : State) (a : Word) : Bool × State :=
  let done := s.flashOutcome && s.cfg.progAddressOk a
  let apart := halvesApart a Config.pageSize s.flashErased
  (s.flashOutcome,
    { s.flashDrawn with
      flash := if done then s.flash.store a 0 (wordBytes s.cfg.erasedWord 32) else s.flashOpened a Config.pageSize
      flashErased := if done then insertHalf a (insertHalf (a + 64) apart) else apart })

/-- A half-page write at `a` has a stated result: its precondition holds (rule R56) and the half-page has been erased
and not written since (93_implementation_defined.md row 13). -/
def State.halfErased (s : State) (a : Word) : Bool := s.cfg.halfAddressOk a && decide (a ∈ s.flashErased)

/-- `FlashWriteHalf(a, w[0..15])`, the words given as their 64 bytes: on OK an erased half-page holds them; on FAIL, or
over a half-page not erased since it was last written, every byte is open (rules R56, R57, 93_implementation_defined.md
rows 11 and 13). DESIGN CHOICE (log 31): the spec gives no effect where the precondition fails; the call then leaves
open those of the 64 bytes that lie in the window, writes none outside it (rule R54), and its outcome is the
environment's. -/
def State.flashWriteHalf (s : State) (a : Word) (bs : List Byte) : Bool × State :=
  (s.flashOutcome,
    { s.flashDrawn with
      flash := if s.flashOutcome && s.halfErased a then s.flash.store a 0 bs else s.flashOpened a Config.halfSize
      flashErased := halvesApart a Config.halfSize s.flashErased })

/-- `bl.in_report`: the 64 bytes at `IN_BUF` (rules R35, R39). -/
def State.inReport (s : State) : List Byte := s.ram.load s.cfg.inBuf 0 64

/-- `bl.out_report`: the 64 bytes at `OUT_BUF` (rules R36, R39). -/
def State.outReport (s : State) : List Byte := s.ram.load s.cfg.outBuf 0 64

/-- Word `i` of the IN report, little-endian: 0 `last_command`, 1 `flags`, 2 `crc32_lower`, 3 `crc32_upper`
(rule R75). -/
def State.inWord (s : State) (i : Nat) : Word := leVal 32 (s.ram.load s.cfg.inBuf (4 * i) 4)

/-- Word `i` of the OUT report, little-endian: 0 `command`, 1 `address`, 2 `crc32_lower`, 3 `crc32_upper` in the
command view (rule R73), `w[i]` in the payload view (rules R51, R74). -/
def State.outWord (s : State) (i : Nat) : Word := leVal 32 (s.ram.load s.cfg.outBuf (4 * i) 4)

/-- Store word `i` of the IN report (rule R75). -/
def State.setInWord (s : State) (i : Nat) (v : Word) : State :=
  { s with ram := s.ram.store s.cfg.inBuf (4 * i) (leBytes 4 v) }

/-- The packet-memory byte of the descriptor table at an offset below 64: the hardware layout of
rule R80, a view of `bdt`. -/
def State.bdtByte (s : State) (o : Fin 64) : Byte :=
  let d := s.bdt[o.val / 8]
  let cell := match o.val % 8 / 2 with
    | 0 => d.addrTx
    | 1 => d.countTx
    | 2 => d.addrRx
    | _ => d.countRx
  cell.extractLsb' (8 * (o.val % 2)) 8

/-- The device-address register as the hardware lays it out: bit 7 the enable, bits 6:0 the address (rule R83).
DESIGN CHOICE (log 32): the spec gives the reserved bits 15:8 no value, and this view shows them as 0; no rule and no
step reads it. -/
def State.daddr (s : State) : Half := (BitVec.ofBool s.devEn ++ s.devAddr).setWidth 16

/-- Every endpoint number. -/
def allEps : List EpNum := [0, 1, 2, 3, 4, 5, 6, 7]

/-- A completion flag is set, so the handler is draining (rules R173, R175). -/
def State.draining (s : State) : Bool := allEps.any fun n => s.hw[n].ctrTx || s.hw[n].ctrRx

/-- An application request is taken only when no completion flag is set (rule R175). -/
def State.request (s : State) (f : State → State) : State := if s.draining then s.noStep else f s

/-- A store to RAM by main-line software, which runs only when the handler is not draining (rule R175, log 17). -/
def State.mainLineStore (s : State) (a : Word) (bs : List Byte) : State := s.request fun t => t.ramWrite a bs

/-- The state with the next input taken and nothing yet shown. -/
def State.taken (s : State) (rest : List Input) : State := { s with inputs := rest, obs := .none }

end Sys2Proof.Machine
end

