-- ==== Sys2Proof/Machine/Flags.lean ====
section
/-! DEFINITION. The flags of rule R40 and the codes of the dispatch keys: NOZLP, the error codes of the IN report
(rule R76), the completion flags (rule R173), the state codes (rules R78, R79), the side-status encoding (rule R82)
and the handshakes (rule R183). -/

namespace Sys2Proof.Machine

/-- `ep[n].flags.NOZLP`: bit 0 (rule R23). -/
def Endpoint.noZlp (e : Endpoint) : Bool := e.flags.getLsbD 0

/-- The error codes of the IN report's `flags` field, by name. -/
inductive ErrCode where
  | none
  | fsm
  | command
  | badAddr
  | badCrc32
  | write
  | short
  deriving DecidableEq, Repr

/-- The bits of an error code: 0 for ERR_NONE, the parameters' `ERR_*` values for the others (rules R8, R76). -/
def ErrCode.bits (p : ErrBits) : ErrCode → Byte
  | .none => 0
  | .fsm => p.fsm
  | .command => p.command
  | .badAddr => p.badAddr
  | .badCrc32 => p.badCrc32
  | .write => p.write
  | .short => p.short

/-- The state code of rule R78. -/
def CtlState.code : CtlState → BitVec 4
  | .setup => 0
  | .data => 1
  | .status => 2

/-- The state code of rule R79. -/
def BlState.code : BlState → BitVec 4
  | .reset => 0
  | .status => 1
  | .lprog => 2
  | .uprog => 3
  | .lread => 4
  | .uread => 5

/-- CTLKEY = `ctl.state << 4 | event` (rule R78). -/
def State.ctlKey (s : State) (e : CtlEvent) : BitVec 8 := s.ctl.code ++ e.code

/-- BLKEY = `bl.state << 4 | event` (rule R79). -/
def State.blKey (s : State) (e : BlEvent) : BitVec 8 := s.bl.state.code ++ e.code

/-- The hardware encoding of a side status (rule R82). -/
def SideStatus.code : SideStatus → BitVec 2
  | .disabled => 0
  | .stall => 1
  | .nak => 2
  | .valid => 3

/-- What the host sees of a transaction that completes nothing on a side with this status (rule R183); on a VALID
side the record breaks the host contract instead (rule R179). -/
def SideStatus.answer : SideStatus → Obs
  | .disabled => .handshake .noAnswer
  | .stall => .handshake .stall
  | .nak => .handshake .nak
  | .valid => .noStep

/-- A host transaction that completes nothing: no state changes, and the host sees the side's handshake, or no answer
from a device that is not enabled (rules R183, R188). -/
def State.declined (s : State) (side : SideStatus) : State :=
  { s with obs := if s.devEn then side.answer else .handshake .noAnswer }

/-- `hw.ctr_tx[n] <- 0` (rule R99). -/
def State.clearCtrTx (s : State) (n : EpNum) : State := s.modHw n fun h => { h with ctrTx := false }

/-- `hw.ctr_rx[n] <- 0; hw.setup[n] <- 0` (rule R110). -/
def State.clearCtrRx (s : State) (n : EpNum) : State := s.modHw n fun h => { h with ctrRx := false, setup := false }

end Sys2Proof.Machine
end

