-- ==== Sys2Proof/Machine/Send.lean ====
section
/-! DEFINITION. The allocator's two instructions, endpoint configuration and the send engine (41_allocator.md,
42_transfer_send.md rules R92 to R98). -/

namespace Sys2Proof.Machine

/-- The Endpoint Status record EP_CONFIGURE leaves: configured, both sides idle (rule R92). -/
def Endpoint.configured (e : Endpoint) (type : EpType) (size : Half) (flags : Word) : Endpoint where
  size := size
  flags := flags.setWidth 8
  type := type
  txBuf := 0
  txPos := 0
  txLen := 0
  rxBuf := 0
  rxPos := 0
  rxLen := 0
  lastSetup := e.lastSetup

/-- EP_CONFIGURE as a procedure, with its refusals in the order of rule R92. A size change on an endpoint that has a
buffer records a fault and the configuration still happens (rule R93). -/
def State.epConfigure (s : State) (n : EpNum) (type : EpType) (size : Half) (flags : Word) : State :=
  if type = .iso then s.refuse .isoEndpoint
  else if !legalSize size then s.refuse .badConfig
  else if flags >>> 1 ≠ 0 then s.refuse .badConfig
  else
    let resized := (s.bdt[n].addrTx ≠ 0 ∨ s.bdt[n].addrRx ≠ 0) ∧ size ≠ s.ep[n].size
    ((s.raiseIf (decide resized) .resizeAllocated).modEp n fun e => e.configured type size flags).modHw n
      fun h => { h with txStatus := .nak, rxStatus := .nak }

/-- Allocate the transmit buffer of endpoint `n` on its first use in the epoch (rules R90, R97). -/
def State.ensureTx (s : State) (n : EpNum) : State :=
  if s.bdt[n].addrTx = 0 then
    let r := s.allocate s.ep[n].size
    r.2.modBdt n fun d => { d with addrTx := r.1 }
  else s

/-- The transmit position: `completed = (tx_pos - tx_buf)[15:0]` (rule R97). -/
def Endpoint.txCompleted (e : Endpoint) : Half := (e.txPos - e.txBuf).setWidth 16

/-- The next transmit chunk: `min(tx_len - completed, size)` (rules R84, R97). -/
def Endpoint.txChunk (e : Endpoint) : Half :=
  if e.txLen - e.txCompleted ≤ e.size then e.txLen - e.txCompleted else e.size

/-- The send completion rule (rule R98, `Terminal`). -/
def Endpoint.txTerminal (e : Endpoint) : Bool :=
  decide (e.txChunk ≠ e.size) || (e.noZlp && decide (e.txChunk = e.size) && decide (e.txCompleted + e.txChunk = e.txLen))

/-- The bytes of the next transmit chunk, read from RAM at the moment the packet is produced (rules R97, R191). -/
def State.txBytes (s : State) (n : EpNum) : List Byte := s.ram.load s.ep[n].txPos 0 s.ep[n].txChunk.toNat

/-- SEND_NEXT_PACKET, producing case: buffer, copy, count, cursor, arm (rule R97). DESIGN CHOICE (log 33): a cursor that
reaches 2^32 exactly wraps to 0 (rule R10), which is the null cursor, so the transfer is over and no trailing
zero-length packet follows, although rules R98 and R101 ask for one. -/
def State.producePacket (s : State) (n : EpNum) : State :=
  let e := s.ep[n]
  let s := s.raiseIf (decide (s.hw[n].txStatus = .valid)) .txOverwrite
  let s := s.ensureTx n
  let o := s.bdt[n].addrTx.toNat
  let s := s.pmaWrite o (s.txBytes n)
  let s := s.pmaCellOpen o e.txChunk.toNat
  let s := s.modBdt n fun d => { d with countTx := (countOf e.txChunk).setWidth 16 }
  let s := s.modEp n fun e => { e with txPos := if e.txTerminal then 0 else e.txPos + e.txChunk.setWidth 32 }
  s.setTxStatus n .valid

/-- SEND_NEXT_PACKET (rules R96, R97). -/
def State.sendNextPacket (s : State) (n : EpNum) : State :=
  if s.ep[n].txPos = 0 ∨ s.ep[n].size = 0 then s else s.producePacket n

/-- BEGIN_SEND as a procedure (rules R94, R95). -/
def State.beginSend (s : State) (n : EpNum) (buf : Word) (len : Half) : State :=
  if buf = 0 then
    (s.modEp n fun e => { e with txBuf := 0, txPos := 0, txLen := 0 }).setTxStatus n .stall
  else
    ((s.raiseIf (decide (buf.toNat + len.toNat > 2 ^ 32)) .bufferWrap).modEp n
      fun e => { e with txBuf := buf, txLen := len, txPos := buf }).sendNextPacket n

/-- EP_CONFIGURE (rule R92), an application request (rule R175). -/
def execEpConfigure (n : EpNum) (type : EpType) (size : Half) (flags : Word) (s : State) :
    Host.Outcome State Fault Refusal :=
  .next (s.request fun t => t.epConfigure n type size flags)

/-- BEGIN_SEND (rules R94, R95), an application request (rule R175). -/
def execBeginSend (n : EpNum) (buf : Word) (len : Half) (s : State) : Host.Outcome State Fault Refusal :=
  .next (s.request fun t => t.beginSend n buf len)

/-- SEND_NEXT_PACKET (rules R96, R97). -/
def execSendNextPacket (n : EpNum) (s : State) : Host.Outcome State Fault Refusal := .next (s.sendNextPacket n)

/-- ALLOCATE (rule R87); the handle is what the step shows. -/
def execAllocate (len : Half) (s : State) : Host.Outcome State Fault Refusal :=
  .next { (s.allocate len).2 with obs := .handle (s.allocate len).1 }

/-- ALLOC_RESET (rule R89). -/
def execAllocReset (s : State) : Host.Outcome State Fault Refusal := .next s.allocReset

end Sys2Proof.Machine
end

