-- ==== Sys2Proof/Machine/Receive.lean ====
section
/-! DEFINITION. The receive engine (43_transfer_receive.md rules R102 to R109). -/

namespace Sys2Proof.Machine

/-- Allocate the receive buffer of endpoint `n` on its first use in the epoch (rules R90, R104). -/
def State.ensureRx (s : State) (n : EpNum) : State :=
  if s.bdt[n].addrRx = 0 then
    let r := s.allocate s.ep[n].size
    r.2.modBdt n fun d => { d with addrRx := r.1 }
  else s

/-- BEGIN_PACKET_RECEIVE (rule R104). -/
def State.beginPacketReceive (s : State) (n : EpNum) : State :=
  if s.ep[n].size = 0 then s
  else
    (((s.raiseIf (s.hw[n].ctrRx && !s.hw[n].setup) .rxOverwrite).ensureRx n).modBdt n
      fun d => { d with countRx := rxCountEncode s.ep[n].size }).setRxStatus n .valid

/-- BEGIN_RECEIVE as a procedure (rules R102, R103). -/
def State.beginReceive (s : State) (n : EpNum) (buf : Word) (len : Half) : State :=
  if buf = 0 then
    (s.modEp n fun e => { e with rxBuf := 0, rxPos := 0, rxLen := 0 }).setRxStatus n .stall
  else
    ((s.raiseIf (decide (buf.toNat + len.toNat > 2 ^ 32)) .bufferWrap).modEp n
      fun e => { e with rxBuf := buf, rxLen := len, rxPos := buf }).beginPacketReceive n

/-- The receive position: `completed = (rx_pos - rx_buf)[15:0]` (rule R108). -/
def Endpoint.rxCompleted (e : Endpoint) : Half := (e.rxPos - e.rxBuf).setWidth 16

/-- The bytes copied of a packet of `count` bytes: `min(count, room)` (rules R84, R108). -/
def Endpoint.rxCopied (e : Endpoint) (count : BitVec 10) : Half :=
  if count.setWidth 16 ≤ e.rxLen - e.rxCompleted then count.setWidth 16 else e.rxLen - e.rxCompleted

/-- The receive completion rule (rule R108). -/
def Endpoint.rxTerminal (e : Endpoint) (count : BitVec 10) : Bool :=
  decide (count.setWidth 16 ≠ e.size)
  || (e.noZlp && decide (count.setWidth 16 = e.size) && decide (e.rxCompleted + e.rxCopied count = e.rxLen))

/-- END_PACKET_RECEIVE, SETUP case: the 8 bytes go to `last_setup` and the cursor to null (rule R106). -/
def State.takeSetup (s : State) (n : EpNum) : State :=
  let o := s.bdt[n].addrRx.toNat
  (s.pmaTouch o 8).modEp n fun e =>
    { e with lastSetup := SetupPacket.ofFun fun k => s.pmaByte (o + k), rxPos := 0 }

/-- The copy of the data case: packet memory to the application buffer (rule R108). -/
def State.copyReceived (s : State) (n : EpNum) (count : BitVec 10) : State :=
  let o := s.bdt[n].addrRx.toNat
  let c := (s.ep[n].rxCopied count).toNat
  (s.pmaTouch o c).ramWrite s.ep[n].rxPos (s.pmaBytes o c)

/-- END_PACKET_RECEIVE, data case (rule R108). DESIGN CHOICE (log 33): a cursor that reaches 2^32 exactly wraps to 0, the
null cursor, and the next data packet is discarded unreported (rule R107). -/
def State.takeData (s : State) (n : EpNum) (count : BitVec 10) : RecvResult × State :=
  let e := s.ep[n]
  let t := s.copyReceived n count
  if e.rxTerminal count then
    (.done (e.rxCompleted + e.rxCopied count), t.modEp n fun e => { e with rxPos := 0 })
  else
    (.working,
      (t.modEp n fun e => { e with rxPos := e.rxPos + (e.rxCopied count).setWidth 32 }).beginPacketReceive n)

/-- END_PACKET_RECEIVE: the SETUP, idle and data cases, in that order (rules R106 to R109). -/
def State.endPacketReceive (s : State) (n : EpNum) (count : BitVec 10) (setup : Bool) : RecvResult × State :=
  if setup then (.setupDone, s.takeSetup n)
  else if s.ep[n].rxPos = 0 then (.none, s)
  else s.takeData n count

/-- BEGIN_RECEIVE (rules R102, R103), an application request (rule R175). -/
def execBeginReceive (n : EpNum) (buf : Word) (len : Half) (s : State) : Host.Outcome State Fault Refusal :=
  .next (s.request fun t => t.beginReceive n buf len)

/-- BEGIN_PACKET_RECEIVE (rule R104). -/
def execBeginPacketReceive (n : EpNum) (s : State) : Host.Outcome State Fault Refusal :=
  .next (s.beginPacketReceive n)

/-- END_PACKET_RECEIVE on the operands RX_COMPLETE takes: `count_rx[9:0]` and `hw.setup` (rules R106 to R110). Its
result is what the step shows. -/
def execEndPacketReceive (n : EpNum) (s : State) : Host.Outcome State Fault Refusal :=
  let r := s.endPacketReceive n (countOf s.bdt[n].countRx) s.hw[n].setup
  .next { r.2 with obs := .result r.1 }

end Sys2Proof.Machine
end

