-- ==== Sys2Proof/Machine/Bootloader.lean ====
section
/-! DEFINITION. The bootloader command state machine (45_bootloader.md). -/

namespace Sys2Proof.Machine

/-- HID_ARM_OUT (rules R86, R138). -/
def State.hidArmOut (s : State) : State := s.beginReceive s.cfg.epHid s.cfg.outBuf Config.hidSize

/-- HID_SEND_IN (rules R86, R138). -/
def State.hidSendIn (s : State) : State := s.beginSend s.cfg.epHid s.cfg.inBuf Config.hidSize

/-- Replace the bootloader session. -/
def State.modBl (s : State) (f : Boot → Boot) : State := { s with bl := f s.bl }

/-- `STATUS code, next`: the status helper (rule R149). -/
def State.status (s : State) (code : ErrCode) (next : BlState) : State :=
  let s := s.setInWord 0 (s.outWord 0)
  let s := s.setInWord 1 ((code.bits s.cfg.errors).setWidth 32)
  s.hidSendIn.modBl fun b => { b with resume := next, state := .status }

/-- Command RESET: a zeroed IN report, then the status (rule R150). -/
def State.cmdReset (s : State) : State :=
  (s.ramWrite s.cfg.inBuf (List.replicate 64 0)).status .none .reset

/-- Command PROG: capture, validate, erase (rules R151 to R153). -/
def State.cmdProg (s : State) : State :=
  let s := s.modBl fun b => { b with address := s.outWord 1, crcLower := s.outWord 2, crcUpper := s.outWord 3 }
  if !s.cfg.progAddressOk s.bl.address then s.status .badAddr .reset
  else
    let r := s.flashErasePage s.bl.address
    if r.1 then r.2.status .none .lprog else r.2.status .write .reset

/-- Command READ: record the address; the response is the status only (rule R154). -/
def State.cmdRead (s : State) : State :=
  (s.modBl fun b => { b with address := s.outWord 1 }).status .none .lread

/-- Command EXIT: set the block's output to the platform (rule R155). -/
def State.cmdExit (s : State) : State := (s.modBl fun b => { b with exitRequest := true }).status .none .reset

/-- An unrecognized command (rule R156). -/
def State.cmdUnrecognized (s : State) : State := s.status .command .reset

/-- HalfPage: compute and echo the CRC, compare, write, report (rules R157 to R161). -/
def State.halfPage (s : State) (upper : Bool) : State :=
  let payload := s.outReport
  let crc := crc32 payload
  let declared := if upper then s.bl.crcUpper else s.bl.crcLower
  let s := s.setInWord (if upper then 3 else 2) crc
  if crc ≠ declared then s.status .badCrc32 .reset
  else
    let a := if upper then s.bl.address + BitVec.ofNat 32 Config.halfSize else s.bl.address
    let r := s.flashWriteHalf a payload
    if !r.1 then r.2.status .write .reset
    else r.2.status .none (if upper then .reset else .uprog)

/-- Row 1: any state, CONFIGURED (rule R141). -/
def State.blRow1 (s : State) : State := s.hidArmOut.modBl fun b => { b with state := .reset }

/-- Row 2: any state, OUT_SHORT (rule R142). -/
def State.blRow2 (s : State) : State := s.status .short .reset

/-- Row 3: RESET, OUT_FULL: the command word is matched as a whole (rules R77, R143). -/
def State.blRow3 (s : State) : State :=
  match cmdRowOf (s.outWord 0) with
  | .reset => s.cmdReset
  | .prog => s.cmdProg
  | .read => s.cmdRead
  | .exit => s.cmdExit
  | .unrecognized => s.cmdUnrecognized

/-- Row 4: STATUS, IN_SENT: the status round-trip completes (rule R144). -/
def State.blRow4 (s : State) : State := s.hidArmOut.modBl fun b => { b with state := b.resume }

/-- Rows 7 and 8: a reserved read state (rule R147). -/
def State.blReadRefused (s : State) : State := s.refuse .reservedReadState

/-- Row 9: an event the state does not expect (rule R148). -/
def State.blRow9 (s : State) : State := s.status .fsm .reset

/-- BlEvent: the first row of the bootloader table that takes the key fires (rule R137). -/
def State.blEvent (s : State) (e : BlEvent) : State :=
  match blRowOf (s.blKey e) with
  | .row1 => s.blRow1
  | .row2 => s.blRow2
  | .row3 => s.blRow3
  | .row4 => s.blRow4
  | .row5 => s.halfPage false
  | .row6 => s.halfPage true
  | .row7 => s.blReadRefused
  | .row8 => s.blReadRefused
  | .row9 => s.blRow9

/-- BL_CONFIGURED (rule R137). -/
def execBlConfigured (s : State) : Host.Outcome State Fault Refusal := .next (s.blEvent .configured)

/-- BL_OUT_FULL (rule R137). -/
def execBlOutFull (s : State) : Host.Outcome State Fault Refusal := .next (s.blEvent .outFull)

/-- BL_OUT_SHORT (rule R137). -/
def execBlOutShort (s : State) : Host.Outcome State Fault Refusal := .next (s.blEvent .outShort)

/-- BL_IN_SENT (rule R137). -/
def execBlInSent (s : State) : Host.Outcome State Fault Refusal := .next (s.blEvent .inSent)

/-- BL_ROW1_CONFIGURED (rule R141), for any state nibble of the key. -/
def execBlRow1Configured (_state : BitVec 4) (s : State) : Host.Outcome State Fault Refusal := .next s.blRow1

/-- BL_ROW2_OUT_SHORT (rule R142), for any state nibble of the key. -/
def execBlRow2OutShort (_state : BitVec 4) (s : State) : Host.Outcome State Fault Refusal := .next s.blRow2

/-- BL_ROW3_COMMAND (rule R143). -/
def execBlRow3Command (s : State) : Host.Outcome State Fault Refusal := .next s.blRow3

/-- BL_ROW4_STATUS_SENT (rule R144). -/
def execBlRow4StatusSent (s : State) : Host.Outcome State Fault Refusal := .next s.blRow4

/-- BL_ROW5_LOWER_HALF (rule R145). -/
def execBlRow5LowerHalf (s : State) : Host.Outcome State Fault Refusal := .next (s.halfPage false)

/-- BL_ROW6_UPPER_HALF (rule R146). -/
def execBlRow6UpperHalf (s : State) : Host.Outcome State Fault Refusal := .next (s.halfPage true)

/-- BL_ROW7_LREAD (rule R147): the refusal is recorded in the state. -/
def execBlRow7Lread (_event : BitVec 4) (s : State) : Host.Outcome State Fault Refusal := .next s.blReadRefused

/-- BL_ROW8_UREAD (rule R147): the refusal is recorded in the state. -/
def execBlRow8Uread (_event : BitVec 4) (s : State) : Host.Outcome State Fault Refusal := .next s.blReadRefused

/-- BL_ROW9_FSM (rule R148). -/
def execBlRow9Fsm (_key : BitVec 8) (s : State) : Host.Outcome State Fault Refusal := .next s.blRow9

/-- CMD_RESET (rule R150). -/
def execCmdReset (s : State) : Host.Outcome State Fault Refusal := .next s.cmdReset

/-- CMD_PROG (rules R151 to R153). -/
def execCmdProg (s : State) : Host.Outcome State Fault Refusal := .next s.cmdProg

/-- CMD_READ (rule R154). -/
def execCmdRead (s : State) : Host.Outcome State Fault Refusal := .next s.cmdRead

/-- CMD_EXIT (rule R155). -/
def execCmdExit (s : State) : Host.Outcome State Fault Refusal := .next s.cmdExit

/-- CMD_UNRECOGNIZED (rule R156); the word reported is the OUT report's, as the helper says (rule R149). -/
def execCmdUnrecognized (_command : Word) (s : State) : Host.Outcome State Fault Refusal := .next s.cmdUnrecognized

end Sys2Proof.Machine
end

