-- ==== Sys2Proof/Machine/Control.lean ====
section
/-! DEFINITION. The endpoint-0 control pipeline (44_control_pipeline.md rules R114 to R134). -/

namespace Sys2Proof.Machine

/-- `setup`: the setup packet of endpoint 0. -/
def State.setupPacket (s : State) : SetupPacket := (s.ep[(0 : EpNum)]).lastSetup

/-- ARM_SETUP (rules R86, R117). -/
def State.armSetup (s : State) : State := s.beginReceive 0 s.cfg.ep0Buf Config.ep0Size

/-- STALL_EP0 (rules R86, R127). -/
def State.stallEp0 (s : State) : State := (s.beginSend 0 0 0).beginReceive 0 0 0

/-- IN_ZLP (rule R86). -/
def State.inZlp (s : State) : State := s.beginSend 0 s.cfg.ep0Buf 0

/-- OUT_ZLP (rule R86). -/
def State.outZlp (s : State) : State := s.beginReceive 0 s.cfg.ep0Buf 0

/-- `ctl.state <- v`. -/
def State.setCtl (s : State) (v : CtlState) : State := { s with ctl := v }

/-- GET_STATUS: two zero bytes from STATUS_BUF (rule R120). -/
def State.reqGetStatus (s : State) : Answer × State := (.ok s.cfg.statusBuf 2, s)

/-- GET_DESCRIPTOR: the table entry, or STALL (rule R121). -/
def State.reqGetDescriptor (s : State) : Answer × State :=
  (match descLookup s.setupPacket.wValue s.setupPacket.wIndex s.cfg.descTable with
    | some e => .ok e.ptr e.length
    | none => .stall, s)

/-- SET_ADDRESS: nothing is written until the status stage ends (rule R122). -/
def State.reqSetAddress (s : State) : Answer × State := (.ok s.cfg.ep0Buf 0, s)

/-- The HID binding, this block's SET_CONFIGURATION hook, for every `wValue` (rules R123, R135). -/
def State.hidBinding (s : State) : State :=
  (s.epConfigure s.cfg.epHid .interrupt Config.hidSize 1).blEvent .configured

/-- SET_CONFIGURATION: the hook, then always success (rule R123). -/
def State.reqSetConfiguration (s : State) : Answer × State := (.ok s.cfg.ep0Buf 0, s.hidBinding)

/-- Any other request: the class/vendor hook's answer, STALL by default (rules R7, R124, log 15). -/
def State.reqOther (s : State) : Answer × State :=
  (s.classAnswers.headD .stall, { s with classAnswers := s.classAnswers.tail })

/-- SetupDispatch: the first row of the request table that takes the setup key (rule R119). -/
def State.setupDispatch (s : State) : Answer × State :=
  match setupRowOf s.setupPacket.key with
  | .getStatus => s.reqGetStatus
  | .getDescriptor => s.reqGetDescriptor
  | .setAddress => s.reqSetAddress
  | .setConfiguration => s.reqSetConfiguration
  | .other => s.reqOther

/-- Row 1: any state, RESET (rule R116). -/
def State.ctlRow1 (s : State) : State :=
  ((s.epConfigure 0 .control Config.ep0Size 0).armSetup).setCtl .setup

/-- The stage a dispatched request starts (rules R118, R125, R126). -/
def State.startStage (s : State) (p : SetupPacket) : Answer → State
  | .stall => s.stallEp0.setCtl .setup
  | .ok ptr rlen =>
    if p.wLength = 0 then s.inZlp.setCtl .status
    else
      let len := if rlen ≤ p.wLength then rlen else p.wLength
      if p.dirIn then (s.beginSend 0 ptr len).setCtl .data
      else (s.beginReceive 0 ptr len).setCtl .data

/-- Row 2: any state, SETUP (rule R118). -/
def State.ctlRow2 (s : State) : State := s.setupDispatch.2.startStage s.setupPacket s.setupDispatch.1

/-- Row 3: DATA, IN or OUT (rule R128). -/
def State.ctlRow3 (s : State) : State :=
  (if s.setupPacket.dirIn then s.outZlp else s.inZlp).setCtl .status

/-- RAM after the stores of a hook, in order. -/
def Memory.storeAll (m : Memory) : List RamStore → Memory
  | [] => m
  | w :: ws => (m.store w.addr 0 w.bytes).storeAll ws

/-- The call of the completion hook `control_complete` for the setup packet `p`: what it stores to RAM is the
parameter's next answer, nothing by default (rules R8, R132, log 16). -/
def State.controlComplete (s : State) (p : SetupPacket) : State :=
  { s.notify (.controlComplete p) with
    ram := s.ram.storeAll (s.completions.headD [])
    completions := s.completions.tail }

/-- Row 4: STATUS, IN or OUT: the deferred address, the completion hook, the next SETUP (rule R129). -/
def State.ctlRow4 (s : State) : State :=
  let p := s.setupPacket
  let s := { s with devAddr := if p.isSetAddress then p.wValue.extractLsb' 0 7 else s.devAddr }
  ((s.controlComplete p).armSetup).setCtl .setup

/-- Row 5: any other key (rule R131). -/
def State.ctlRow5 (s : State) : State := s.stallEp0.setCtl .setup

/-- CtlEvent: the first row of the control table that takes the key fires (rules R114, R115). -/
def State.ctlEvent (s : State) (e : CtlEvent) : State :=
  match ctlRowOf (s.ctlKey e) with
  | .row1 => s.ctlRow1
  | .row2 => s.ctlRow2
  | .row3 => s.ctlRow3
  | .row4 => s.ctlRow4
  | .row5 => s.ctlRow5

/-- A request handler run by itself: its answer is what the step shows. -/
def showAnswer (r : Answer × State) : Host.Outcome State Fault Refusal := .next { r.2 with obs := .answer r.1 }

/-- CTL_RESET (rule R115). -/
def execCtlReset (s : State) : Host.Outcome State Fault Refusal := .next (s.ctlEvent .reset)

/-- CTL_SETUP (rule R115). -/
def execCtlSetup (s : State) : Host.Outcome State Fault Refusal := .next (s.ctlEvent .setup)

/-- CTL_IN (rule R115). -/
def execCtlIn (s : State) : Host.Outcome State Fault Refusal := .next (s.ctlEvent .inDone)

/-- CTL_OUT (rule R115). -/
def execCtlOut (s : State) : Host.Outcome State Fault Refusal := .next (s.ctlEvent .outDone)

/-- CTL_ROW1_RESET (rule R116), for any state nibble of the key. -/
def execCtlRow1Reset (_state : BitVec 4) (s : State) : Host.Outcome State Fault Refusal := .next s.ctlRow1

/-- CTL_ROW2_SETUP (rule R118), for any state nibble of the key. -/
def execCtlRow2Setup (_state : BitVec 4) (s : State) : Host.Outcome State Fault Refusal := .next s.ctlRow2

/-- CTL_ROW3_DATA_DONE (rule R128), for either event. -/
def execCtlRow3DataDone (_event : BitVec 1) (s : State) : Host.Outcome State Fault Refusal := .next s.ctlRow3

/-- CTL_ROW4_STATUS_DONE (rule R129), for either event. -/
def execCtlRow4StatusDone (_event : BitVec 1) (s : State) : Host.Outcome State Fault Refusal := .next s.ctlRow4

/-- CTL_ROW5_OTHER (rule R131), for every key it takes. -/
def execCtlRow5Other (_key : BitVec 8) (s : State) : Host.Outcome State Fault Refusal := .next s.ctlRow5

/-- REQ_GET_STATUS (rule R120), for any direction and recipient. -/
def execReqGetStatus (_dir : BitVec 1) (_recipient : BitVec 5) (s : State) : Host.Outcome State Fault Refusal :=
  showAnswer s.reqGetStatus

/-- REQ_GET_DESCRIPTOR (rule R121), for any direction and recipient. -/
def execReqGetDescriptor (_dir : BitVec 1) (_recipient : BitVec 5) (s : State) : Host.Outcome State Fault Refusal :=
  showAnswer s.reqGetDescriptor

/-- REQ_SET_ADDRESS (rule R122), for any direction and recipient. -/
def execReqSetAddress (_dir : BitVec 1) (_recipient : BitVec 5) (s : State) : Host.Outcome State Fault Refusal :=
  showAnswer s.reqSetAddress

/-- REQ_SET_CONFIGURATION (rule R123), for any direction and recipient. -/
def execReqSetConfiguration (_dir : BitVec 1) (_recipient : BitVec 5) (s : State) :
    Host.Outcome State Fault Refusal :=
  showAnswer s.reqSetConfiguration

/-- REQ_OTHER (rule R124), for every key it takes. -/
def execReqOther (_key : Half) (s : State) : Host.Outcome State Fault Refusal := showAnswer s.reqOther

end Sys2Proof.Machine
end

