-- ==== Sys2Proof/Machine/Events.lean ====
section
/-! DEFINITION. Bus reset and the two handler events (rules R99, R100, R110, R111, R113). -/

namespace Sys2Proof.Machine

/-- The clearing part of BUS_RESET (rule R113). -/
def State.busCleared (s : State) : State :=
  { s.allocReset with
    ep := Vector.replicate 8 Endpoint.reset
    bdt := Vector.replicate 8 Descriptor.reset
    hw := Vector.replicate 8 EpHardware.reset
    devAddr := 0
    devEn := true }

/-- BUS_RESET: clear, then the RESET event (rule R113). -/
def execBusReset (s : State) : Host.Outcome State Fault Refusal := .next (s.busCleared.ctlEvent .reset)

/-- The block started again by a reset of the system: the power-on values of rule R42, RAM's two reports among them.
The recorded faults and refusals stay (rule R38); so do flash, every other byte of RAM, and packet memory, which nothing
reads before it is written again (log 19). -/
def State.restarted (s : State) : State :=
  { s with
    brk := s.cfg.arenaStart
    ep := Vector.replicate 8 Endpoint.reset
    bdt := Vector.replicate 8 Descriptor.reset
    hw := Vector.replicate 8 EpHardware.reset
    devAddr := 0
    devEn := false
    ctl := .setup
    bl := Boot.reset
    ram := (s.ram.store s.cfg.inBuf 0 (List.replicate 64 0)).store s.cfg.outBuf 0 (List.replicate 64 0) }

/-- The platform acts on `bl.exit_request`: the parameter `exit_effect` (rules R8, R155, log 19). While no exit is
requested it has nothing to act on. -/
def State.platformExit (s : State) : State :=
  if !s.bl.exitRequest then s.noStep
  else
    match s.cfg.exitEffect with
    | .goesOn => s
    | .restart => s.restarted

/-- NotifySent (rule R100). -/
def State.notifySent (s : State) (n : EpNum) : State :=
  if n = 0 then s.ctlEvent .inDone
  else if n = s.cfg.epHid then s.blEvent .inSent
  else s.notify (.sent n)

/-- NotifyReceived (rule R111). -/
def State.notifyReceived (s : State) (n : EpNum) : RecvResult → State
  | .setupDone => if n = 0 then s.ctlEvent .setup else s.notify (.setupTaken n)
  | .done t =>
    if n = 0 then s.ctlEvent .outDone
    else if n = s.cfg.epHid then s.blEvent (if t = Config.hidSize then .outFull else .outShort)
    else s.notify (.received n t)
  | .working => s
  | .none => s

/-- TX_COMPLETE (rule R99): without a pending transmit event it has no step. -/
def execTxComplete (n : EpNum) (s : State) : Host.Outcome State Fault Refusal :=
  if !s.hw[n].ctrTx then .next s.noStep
  else
    let t := (s.clearCtrTx n).sendNextPacket n
    if s.ep[n].txPos = 0 then .next (t.notifySent n) else .next t

/-- RX_COMPLETE (rule R110): without a pending receive event it has no step. -/
def execRxComplete (n : EpNum) (s : State) : Host.Outcome State Fault Refusal :=
  if !s.hw[n].ctrRx then .next s.noStep
  else
    let r := (s.clearCtrRx n).endPacketReceive n (countOf s.bdt[n].countRx) s.hw[n].setup
    .next (r.2.notifyReceived n r.1)

end Sys2Proof.Machine
end

