-- ==== Sys2Proof/Machine/HostPort.lean ====
section
/-! DEFINITION. The host transactions (60_exceptions.md rules R179 to R183). -/

namespace Sys2Proof.Machine

/-- The precondition of HOST_SETUP (rule R180). -/
def State.setupAccepted (s : State) (n : EpNum) (len : Half) : Bool :=
  s.devEn && decide (s.ep[n].type = .control) && decide (s.bdt[n].addrRx ≠ 0)
  && decide (8 ≤ capacity s.bdt[n].countRx) && decide (len = 8)

/-- A packet arrives on the receive side of endpoint `n`: overrun check, packet memory, count, flags, NAK
(rules R180, R181, R183). -/
def State.packetIn (s : State) (n : EpNum) (bs : List Byte) (setup : Bool) : State :=
  let s := s.raiseIf s.hw[n].ctrRx .eventOverrun
  let s := s.pmaWrite s.bdt[n].addrRx.toNat bs
  let s := s.modBdt n fun d => { d with countRx := withCount d.countRx (BitVec.ofNat 10 bs.length) }
  s.modHw n fun h => { h with setup := setup, ctrRx := true, rxStatus := .nak }

/-- HOST_SETUP (rule R180): accepted whatever the side's status; both sides become NAK. -/
def execHostSetup (n : EpNum) (len : Half) (bytes : List Byte) (s : State) : Host.Outcome State Fault Refusal :=
  if s.setupAccepted n len then .next ((s.packetIn n bytes true).setTxStatus n .nak)
  else if len ≠ 8 then .next s.noStep
  else .next (s.declined s.hw[n].rxStatus)

/-- HOST_OUT (rule R181). -/
def execHostOut (n : EpNum) (bytes : List Byte) (s : State) : Host.Outcome State Fault Refusal :=
  if s.devEn && decide (s.hw[n].rxStatus = .valid) && decide (bytes.length ≤ capacity s.bdt[n].countRx) then
    .next (s.packetIn n bytes false)
  else .next (s.declined s.hw[n].rxStatus)

/-- The bytes the host receives from the transmit side of endpoint `n` (rule R182). -/
def State.packetOut (s : State) (n : EpNum) : List Byte :=
  s.pmaBytes s.bdt[n].addrTx.toNat (countOf s.bdt[n].countTx).toNat

/-- HOST_IN (rule R182): the bytes are the step's observation. -/
def execHostIn (n : EpNum) (s : State) : Host.Outcome State Fault Refusal :=
  if s.devEn && decide (s.hw[n].txStatus = .valid) then
    let bs := s.packetOut n
    let t := (s.raiseIf s.hw[n].ctrTx .eventOverrun).pmaTouch s.bdt[n].addrTx.toNat bs.length
    let t := t.modHw n fun h => { h with ctrTx := true, txStatus := .nak }
    .next { t with obs := .packet bs, hostReceived := s.hostReceived ++ [bs] }
  else .next (s.declined s.hw[n].txStatus)

end Sys2Proof.Machine
end

