-- ==== Sys2Proof/Machine/Dispatch.lean ====
section
/-! DEFINITION. The dispatch: one arm per instruction. -/

namespace Sys2Proof.Machine

/-- What an instruction does to the state. -/
def exec (i : Instr) (s : State) : Host.Outcome State Fault Refusal :=
  match i with
  | .epConfigure ep ty size flags => Sys2Proof.Machine.execEpConfigure ep ty size flags s
  | .beginSend ep buf len => Sys2Proof.Machine.execBeginSend ep buf len s
  | .beginReceive ep buf len => Sys2Proof.Machine.execBeginReceive ep buf len s
  | .busReset => Sys2Proof.Machine.execBusReset s
  | .txComplete ep => Sys2Proof.Machine.execTxComplete ep s
  | .rxComplete ep => Sys2Proof.Machine.execRxComplete ep s
  | .hostIn ep => Sys2Proof.Machine.execHostIn ep s
  | .hostOut ep bytes => Sys2Proof.Machine.execHostOut ep bytes s
  | .hostSetup ep len bytes => Sys2Proof.Machine.execHostSetup ep len bytes s
  | .sendNextPacket ep => Sys2Proof.Machine.execSendNextPacket ep s
  | .beginPacketReceive ep => Sys2Proof.Machine.execBeginPacketReceive ep s
  | .endPacketReceive ep => Sys2Proof.Machine.execEndPacketReceive ep s
  | .allocate len => Sys2Proof.Machine.execAllocate len s
  | .allocReset => Sys2Proof.Machine.execAllocReset s
  | .ctlReset => Sys2Proof.Machine.execCtlReset s
  | .ctlSetup => Sys2Proof.Machine.execCtlSetup s
  | .ctlIn => Sys2Proof.Machine.execCtlIn s
  | .ctlOut => Sys2Proof.Machine.execCtlOut s
  | .blConfigured => Sys2Proof.Machine.execBlConfigured s
  | .blOutFull => Sys2Proof.Machine.execBlOutFull s
  | .blOutShort => Sys2Proof.Machine.execBlOutShort s
  | .blInSent => Sys2Proof.Machine.execBlInSent s
  | .ctlRow1Reset state => Sys2Proof.Machine.execCtlRow1Reset state s
  | .ctlRow2Setup state => Sys2Proof.Machine.execCtlRow2Setup state s
  | .ctlRow3DataDone event => Sys2Proof.Machine.execCtlRow3DataDone event s
  | .ctlRow4StatusDone event => Sys2Proof.Machine.execCtlRow4StatusDone event s
  | .ctlRow5Other key => Sys2Proof.Machine.execCtlRow5Other key s
  | .reqGetStatus dir recipient => Sys2Proof.Machine.execReqGetStatus dir recipient s
  | .reqGetDescriptor dir recipient => Sys2Proof.Machine.execReqGetDescriptor dir recipient s
  | .reqSetAddress dir recipient => Sys2Proof.Machine.execReqSetAddress dir recipient s
  | .reqSetConfiguration dir recipient => Sys2Proof.Machine.execReqSetConfiguration dir recipient s
  | .reqOther key => Sys2Proof.Machine.execReqOther key s
  | .blRow1Configured state => Sys2Proof.Machine.execBlRow1Configured state s
  | .blRow2OutShort state => Sys2Proof.Machine.execBlRow2OutShort state s
  | .blRow3Command => Sys2Proof.Machine.execBlRow3Command s
  | .blRow4StatusSent => Sys2Proof.Machine.execBlRow4StatusSent s
  | .blRow5LowerHalf => Sys2Proof.Machine.execBlRow5LowerHalf s
  | .blRow6UpperHalf => Sys2Proof.Machine.execBlRow6UpperHalf s
  | .blRow7Lread event => Sys2Proof.Machine.execBlRow7Lread event s
  | .blRow8Uread event => Sys2Proof.Machine.execBlRow8Uread event s
  | .blRow9Fsm key => Sys2Proof.Machine.execBlRow9Fsm key s
  | .cmdReset => Sys2Proof.Machine.execCmdReset s
  | .cmdProg => Sys2Proof.Machine.execCmdProg s
  | .cmdRead => Sys2Proof.Machine.execCmdRead s
  | .cmdExit => Sys2Proof.Machine.execCmdExit s
  | .cmdUnrecognized command => Sys2Proof.Machine.execCmdUnrecognized command s

end Sys2Proof.Machine
end

