-- ==== Sys2Proof/Machine/Step.lean ====
section
/-! DEFINITION. One step: the next input is taken, decoded and executed (rules R58, R174). -/

namespace Sys2Proof.Machine

/-- One step. With no input left the block waits: it has no step of its own (rule R201, log 2). -/
def step (s : State) : Host.Outcome State Fault Refusal :=
  match s.inputs with
  | [] => .next s
  | .ramWrite a bs :: rest => .next ((s.taken rest).mainLineStore a bs)
  | .platformExit :: rest => .next (s.taken rest).platformExit
  | .message ch bytes :: rest =>
    match decode ch bytes with
    | .instr i => exec i (s.taken rest)
    | .refuse r => .next ((s.taken rest).refuse r)
    | .badFrame => .fault .badFrame

/-- The state with the instruction of an opcode-table word as its next input. -/
def State.withFetchWord (s : State) (nbits w : Nat) : State :=
  { s with inputs := .message (tableChannel nbits w) (tableBytes nbits w) :: s.inputs }

end Sys2Proof.Machine
end

