-- ==== Sys2Proof/Safety.lean ====
section
/-! DEFINITION. What counts as a safe run, in the terms of the spec (rules R38, R170, R171, R201), and the conditions
on a state that statements assume or show to be kept. -/

namespace Sys2Proof.Machine

/-- No fault and no refusal is recorded (rules R170, R171): only of such runs does the spec say anything. -/
def State.clean (s : State) : Bool := decide (s.faults = FaultSet.empty) && s.refused.isNone

/-- A final state: nothing recorded and no completion flag set (rule R201). -/
def State.final (s : State) : Bool := s.clean && !s.draining

/-- The three memories and the list of erased half-pages are in canonical form. -/
def State.memoriesOk (s : State) : Bool :=
  s.ram.wf && s.pma.wf && s.flash.wf && decide (s.flashErased.Pairwise (· < ·))

/-- What rules R22 to R24 say of the configuration of an endpoint. -/
def Endpoint.ok (e : Endpoint) : Bool :=
  legalSize e.size && decide (e.flags &&& 0xFE = 0) && decide (e.type ≠ .iso)

/-- What rules R28, R81 and R91 say of a descriptor: addresses of whole units, bits 15:10 of `count_tx` zero. -/
def Descriptor.ok (d : Descriptor) (mau : Nat) : Bool :=
  decide (d.addrTx.toNat % mau = 0 ∧ d.addrRx.toNat % mau = 0 ∧ d.countTx.toNat < 1024)

/-- The registers hold only what the spec admits (rules R20, R22 to R24, R28, R81, R91). -/
def State.registersOk (s : State) : Bool :=
  decide (s.brk.toNat % s.cfg.mau = 0) && allEps.all fun n => s.ep[n].ok && s.bdt[n].ok s.cfg.mau

/-- The range a cursor may have while it is not null: inside its buffer, with no wrap (rules R25, R26). -/
def cursorInside (buf pos : Word) (len : Half) : Bool :=
  decide (pos = 0 ∨ (buf.toNat ≤ pos.toNat ∧ pos.toNat ≤ buf.toNat + len.toNat ∧ buf.toNat + len.toNat ≤ 2 ^ 32))

/-- Both cursors of every endpoint are null or inside their buffers, unless a wrapping buffer has been recorded
(rules R25, R26, R170). -/
def State.cursorsOk (s : State) : Bool :=
  s.faults.bufferWrap || allEps.all fun n =>
    cursorInside s.ep[n].txBuf s.ep[n].txPos s.ep[n].txLen && cursorInside s.ep[n].rxBuf s.ep[n].rxPos s.ep[n].rxLen

/-- The packet-memory buffers in use: offset and size of every allocated side (rules R29, R90). -/
def State.buffers (s : State) : List (Nat × Nat) :=
  allEps.flatMap fun n =>
    (if s.bdt[n].addrTx = 0 then [] else [(s.bdt[n].addrTx.toNat, s.ep[n].size.toNat)])
    ++ (if s.bdt[n].addrRx = 0 then [] else [(s.bdt[n].addrRx.toNat, s.ep[n].size.toNat)])

/-- Every buffer lies in the arena below the break and no two share a byte, unless an over-allocation or a resize has
been recorded (rules R87, R88, R91, R93). -/
def State.arenaOk (s : State) : Bool :=
  s.faults.pmaOverflow || s.faults.resizeAllocated
  || (decide (s.cfg.arenaStart.toNat ≤ s.brk.toNat ∧ s.brk.toNat ≤ s.cfg.pmaSize)
    && (s.buffers.all fun b => decide (s.cfg.arenaStart.toNat ≤ b.1 ∧ b.1 + b.2 ≤ s.brk.toNat))
    && decide (s.buffers.Pairwise fun a b => a.1 + a.2 ≤ b.1 ∨ b.1 + b.2 ≤ a.1))

/-- The bootloader awaits the payload of state `b`: it is in it, or in STATUS on the way to it (rules R144, R149). -/
def State.awaits (s : State) (b : BlState) : Bool :=
  decide (s.bl.state = b ∨ (s.bl.state = .status ∧ s.bl.resume = b))

/-- A half-page is only ever awaited at an address PROG accepted, and is erased: both halves in LPROG, the upper one in
UPROG (rules R152, R153, R161, 93_implementation_defined.md row 13). -/
def State.programmingOk (s : State) : Bool :=
  (!s.awaits .lprog
    || (s.cfg.progAddressOk s.bl.address && s.halfErased s.bl.address && s.halfErased (s.bl.address + 64)))
  && (!s.awaits .uprog || (s.cfg.progAddressOk s.bl.address && s.halfErased (s.bl.address + 64)))

/-- The next input, if there is one, comes from outside: a record on the operation port, a store by main-line software
or the platform's exit. -/
def State.outsideNext (s : State) : Bool :=
  match s.inputs with
  | [] => true
  | .ramWrite _ _ :: _ => true
  | .platformExit :: _ => true
  | .message ch _ :: _ => decide (ch = .port)

end Sys2Proof.Machine
end

