-- ==== Sys2Proof/Certificates/Slice0/Obligations.lean ====
section
/-! DEFINITION. The statements for the provers. The definitions under Sys2Proof.Expected say, from the rules, what
states and reports a rule leaves; the obligations say that exec and step leave them. -/

open Sys2Proof Sys2Proof.Machine

namespace Sys2Proof.Expected

/-- `roundup(x, MAU)` (rules R10, R87). -/
def rounded (s : State) (x : Nat) : Nat := s.cfg.mau * ((x + s.cfg.mau - 1) / s.cfg.mau)

/-- The end of what a copy of `n` bytes to packet memory at `o` reaches: the end of the unit it ends in (rule R49). -/
def copyEnd (s : State) (o n : Nat) : Nat := if n = 0 then o else max (o + n) (rounded s (o + n))

/-- `LegalSize` of rule R105. -/
def LegalSize (size : Half) : Prop :=
  size = 0 ∨ (size.toNat % 2 = 0 ∧ 2 ≤ size.toNat ∧ size.toNat ≤ 62)
    ∨ (size.toNat % 32 = 0 ∧ 64 ≤ size.toNat ∧ size.toNat ≤ 1024)

/-- The transmit buffer a packet of endpoint `n` goes to: the one in the descriptor, or the next free offset on first
use (rule R97). -/
def txAddr (s : State) (n : EpNum) : Half := if s.bdt[n].addrTx = 0 then s.brk else s.bdt[n].addrTx

/-- The receive buffer of endpoint `n` (rule R104). -/
def rxAddr (s : State) (n : EpNum) : Half := if s.bdt[n].addrRx = 0 then s.brk else s.bdt[n].addrRx

/-- The break pointer after the first use of a side with descriptor address `addr` (rules R87, R90). -/
def breakAfter (s : State) (n : EpNum) (addr : Half) : Half :=
  if addr = 0 then s.brk + BitVec.ofNat 16 (rounded s s.ep[n].size.toNat) else s.brk

/-- Whether the first use of a side with descriptor address `addr` passes the end of packet memory (rules R87, R88). -/
def overflows (s : State) (n : EpNum) (addr : Half) : Bool :=
  decide (addr = 0 ∧ s.cfg.pmaSize < s.brk.toNat + rounded s s.ep[n].size.toNat)

/-- The number of bytes of the next packet: `min(tx_len - completed, P)` (rule R97). -/
def chunk (e : Endpoint) : Nat :=
  min (e.txLen - (e.txPos - e.txBuf).setWidth 16).toNat e.size.toNat

/-- The send completion rule (rule R98). -/
abbrev Terminal (e : Endpoint) : Prop :=
  chunk e ≠ e.size.toNat ∨ (e.flags.getLsbD 0 = true ∧ chunk e = e.size.toNat
    ∧ (e.txPos - e.txBuf).setWidth 16 + BitVec.ofNat 16 (chunk e) = e.txLen)

/-- The endpoint record after one packet: the cursor is null or has advanced by the chunk (rules R97, R98). -/
def afterPacket (e : Endpoint) : Endpoint :=
  { e with txPos := if Terminal e then 0 else e.txPos + BitVec.ofNat 32 (chunk e) }

/-- A reception armed at `buf` with room `len` on a configured endpoint (rules R103, R104). -/
def armedReceive (s : State) (n : EpNum) (buf : Word) (len : Half) : State :=
  { s with
    brk := breakAfter s n s.bdt[n].addrRx
    ep := s.ep.set n { s.ep[n] with rxBuf := buf, rxPos := buf, rxLen := len }
    bdt := s.bdt.set n { s.bdt[n] with addrRx := rxAddr s n, countRx := rxCountEncode s.ep[n].size }
    hw := s.hw.set n { s.hw[n] with rxStatus := .valid }
    faults :=
      { s.faults with
        rxOverwrite := s.faults.rxOverwrite || (s.hw[n].ctrRx && !s.hw[n].setup)
        pmaOverflow := s.faults.pmaOverflow || overflows s n s.bdt[n].addrRx } }

/-- One zero-length packet sent from `buf` on a configured endpoint (rules R95, R97, R98). The counter of free values,
which every produced packet advances, is the model's own field (log 26). -/
def sentZlp (s : State) (n : EpNum) (buf : Word) : State :=
  { s with
    brk := breakAfter s n s.bdt[n].addrTx
    ep := s.ep.set n { s.ep[n] with txBuf := buf, txPos := 0, txLen := 0 }
    bdt := s.bdt.set n { s.bdt[n] with addrTx := txAddr s n, countTx := 0 }
    hw := s.hw.set n { s.hw[n] with txStatus := .valid }
    draws := s.draws + 1
    faults :=
      { s.faults with
        txOverwrite := s.faults.txOverwrite || decide (s.hw[n].txStatus = .valid)
        pmaOverflow := s.faults.pmaOverflow || overflows s n s.bdt[n].addrTx } }

/-- Both endpoint-0 sides stalled and their cursors null (rules R94, R102, R127). -/
def stalled (s : State) : State :=
  { s with
    ep := s.ep.set 0 { s.ep[(0 : EpNum)] with txBuf := 0, txPos := 0, txLen := 0, rxBuf := 0, rxPos := 0, rxLen := 0 }
    hw := s.hw.set 0 { s.hw[(0 : EpNum)] with txStatus := .stall, rxStatus := .stall } }

/-- The input is refused with the reason and has no other effect (rule R171); which reason stays when one is already
recorded is not said here. -/
def Refused (s t : State) (r : RefusalReason) : Prop :=
  t = { s with refused := t.refused } ∧ t.refused ≠ none ∧ (s.refused = none → t.refused = some r)

/-- The bytes of the 64-byte IN report in RAM. -/
def inByte (s : State) (k : Nat) : Byte := s.ram.read (ptrKey s.cfg.inBuf k)

/-- The bytes of the 64-byte OUT report in RAM. -/
def outByte (s : State) (k : Nat) : Byte := s.ram.read (ptrKey s.cfg.outBuf k)

/-- RAM bytes outside `n` bytes from `a` are the same in both states. -/
def RamSameOutside (s t : State) (a : Word) (n : Nat) : Prop :=
  ∀ j, (∀ k < n, j ≠ ptrKey a k) → t.ram.read j = s.ram.read j

/-- Flash bytes outside `n` bytes from `a` are the same in both states. -/
def FlashSameOutside (s t : State) (a : Word) (n : Nat) : Prop :=
  ∀ j, (∀ k < n, j ≠ ptrKey a k) → t.flash.read j = s.flash.read j

/-- The HID endpoint is configured as the binding configures it, the parameters are valid and the memories are in
canonical form: what the flows of the bootloader assume (rules R8, R135, R189). -/
def HidReady (s : State) : Prop :=
  s.ep[s.cfg.epHid].size = Config.hidSize ∧ s.ep[s.cfg.epHid].flags.getLsbD 0 = true ∧ s.cfg.valid = true
    ∧ s.memoriesOk = true

/-- What the status helper leaves (rule R149): `last_command` and `flags` written, the report produced as one 64-byte
packet on the HID endpoint, the state STATUS with the state to resume, and nothing else changed. The code is the low
byte of `flags` (rule R76). -/
def StatusReport (s t : State) (code : Byte) (next : BlState) : Prop :=
  (∀ k < 4, inByte t k = outByte s k)
  ∧ (∀ k < 4, inByte t (4 + k) = if k = 0 then code else 0)
  ∧ RamSameOutside s t s.cfg.inBuf 8
  ∧ (∀ k < 64, (txAddr s s.cfg.epHid).toNat + k < s.cfg.pmaSize →
      t.pmaByte ((txAddr s s.cfg.epHid).toNat + k) = inByte t k)
  ∧ (∀ o < s.cfg.pmaSize,
      o < (txAddr s s.cfg.epHid).toNat ∨ copyEnd s (txAddr s s.cfg.epHid).toNat 64 ≤ o → t.pmaByte o = s.pmaByte o)
  ∧ t = { s with
      brk := breakAfter s s.cfg.epHid s.bdt[s.cfg.epHid].addrTx
      ep := s.ep.set s.cfg.epHid { s.ep[s.cfg.epHid] with txBuf := s.cfg.inBuf, txPos := 0, txLen := Config.hidSize }
      bdt := s.bdt.set s.cfg.epHid { s.bdt[s.cfg.epHid] with addrTx := txAddr s s.cfg.epHid, countTx := Config.hidSize }
      hw := s.hw.set s.cfg.epHid { s.hw[s.cfg.epHid] with txStatus := .valid }
      bl := { s.bl with state := .status, resume := next }
      ram := t.ram
      pma := t.pma
      draws := t.draws
      faults :=
        { s.faults with
          txOverwrite := s.faults.txOverwrite || decide (s.hw[s.cfg.epHid].txStatus = .valid)
          pmaOverflow := s.faults.pmaOverflow || overflows s s.cfg.epHid s.bdt[s.cfg.epHid].addrTx
            || decide (s.cfg.pmaSize < (txAddr s s.cfg.epHid).toNat + 64) } }

/-- The outcome of the next flash primitive call: the environment's answer, or the free one of this draw (rule R55). -/
def flashPasses (s : State) : Bool := s.flashAnswers.headD (Config.flashOk s.draws)

/-- The state after one flash primitive call that left the flash as `f` and the erased half-pages as `hs` (rules R55,
R56). -/
def afterFlash (s : State) (f : Memory) (hs : List Word) : State :=
  { s with flash := f, flashErased := hs, flashAnswers := s.flashAnswers.tail, draws := s.draws + 1 }

/-- The half-page at `a` is aligned, inside the window, erased and not written since: a write to it has a stated result
(rule R56, 93_implementation_defined.md row 13). -/
def Writable (s : State) (a : Word) : Prop :=
  a.toNat % 64 = 0 ∧ s.cfg.flashLo.toNat ≤ a.toNat ∧ a.toNat + 63 ≤ s.cfg.flashHi.toNat ∧ a ∈ s.flashErased

/-- What the host sees on a side with this status when its transaction completes nothing (rule R183); on a VALID side
the record has no step (rule R179), which the model shows as such (log 24). -/
def seen : SideStatus → Obs
  | .disabled => .handshake .noAnswer
  | .stall => .handshake .stall
  | .nak => .handshake .nak
  | .valid => .noStep

/-- RAM after the stores of a hook. -/
def hookStores (m : Memory) (ws : List RamStore) : Memory := ws.foldl (fun m w => m.store w.addr 0 w.bytes) m

/-- `n` steps of the host taking a packet from endpoint `ep` and the handler running its TX_COMPLETE (rules R99, R182). -/
def sendRounds (ep : EpNum) : Nat → State → Option State
  | 0, s => some s
  | k + 1, s =>
    match exec (.hostIn ep) s with
    | .next t =>
      match exec (.txComplete ep) t with
      | .next u => sendRounds ep k u
      | .fault _ => none
      | .refused _ => none
    | .fault _ => none
    | .refused _ => none

/-- The host sending packets to endpoint `ep`, the handler running RX_COMPLETE after each (rules R110, R181). -/
def receiveRounds (ep : EpNum) : List (List Byte) → State → Option State
  | [], s => some s
  | p :: ps, s =>
    match exec (.hostOut ep p) s with
    | .next t =>
      match exec (.rxComplete ep) t with
      | .next u => receiveRounds ep ps u
      | .fault _ => none
      | .refused _ => none
    | .fault _ => none
    | .refused _ => none

/-- The packet-count law of rule R101. -/
def packetCount (P L : Nat) (noZlp : Bool) : Nat := if noZlp then max 1 ((L + P - 1) / P) else L / P + 1

end Sys2Proof.Expected

open Sys2Proof.Expected

/-! Encoding and decoding. -/

/-- Rules R64, R65, R71, R77 to R79: the decoder reads back every well-formed instruction from its encoding. -/
def Obligations.DecodeOfEncodeIsInstruction : Prop :=
  ∀ i : Instr, i.wellFormed = true → decode i.channel (encode i) = .instr i

/-- Rules R64 to R66, R71, R77 to R79: what the decoder accepts is well formed, and encoding it gives back every byte.
The `.internal` channel also reads port records (log 5). -/
def Obligations.EncodeOfDecodeIsBytes : Prop :=
  ∀ (ch : Channel) (bytes : List Byte) (i : Instr), decode ch bytes = .instr i →
    i.wellFormed = true ∧ encode i = bytes ∧ (ch = i.channel ∨ (ch = .internal ∧ i.channel = .port))

/-- Records and keys written out from the spec decode to the instruction they stand for (95_test_vectors.md V2, V6,
V7, V8 and rules R71, R77 to R79). -/
def Obligations.SpecWordsDecode : Prop :=
  decode .port [0x01, 0x31, 0x40, 0x00, 0x01, 0x00, 0x00, 0x00] = .instr (.epConfigure 1 .interrupt 64 1)
  ∧ decode .port [0x02, 0x02, 0x80, 0x00, 0x00, 0x04, 0x00, 0x20] = .instr (.beginSend 2 0x20000400 128)
  ∧ decode .port [0x12, 0x01, 0x00, 0x00, 0x00, 0x00, 0x00, 0x00] = .instr (.rxComplete 1)
  ∧ decode .port [0x1A, 0x00, 0x02, 0x00, 0x00, 0x00, 0x00, 0x00, 0x61, 0x62] = .instr (.hostOut 0 [0x61, 0x62])
  ∧ decode .ctlKey [0x13] = .instr (.ctlRow3DataDone 1)
  ∧ decode .setupKey [0x81, 0x06] = .instr (.reqGetDescriptor 1 1)
  ∧ decode .blKey [0x31] = .instr .blRow6UpperHalf
  ∧ decode .cmd32 [0x80, 0x00, 0x00, 0x00] = .instr .cmdProg

/-- Rule R66: the verdict on any eight bytes at the port, in the rule's order; a record none of the verdicts takes is
not refused. The order is an inference of the model (log 29). -/
def Obligations.PortVerdicts : Prop :=
  ∀ (R : BitVec 64) (packet : List Byte),
    let code := (R.extractLsb' 0 8).toNat
    let d := decode .port (leBytes 8 R ++ packet)
    if code ∉ [0x01, 0x02, 0x03, 0x10, 0x11, 0x12, 0x19, 0x1A, 0x1B, 0x20, 0x21, 0x22, 0x23, 0x24, 0x30, 0x31, 0x32,
        0x33, 0x40, 0x41, 0x42, 0x43] then d = .refuse .reservedOpcode
    else if 0x20 ≤ code then d = .refuse .internalOpcode
    else if R.extractLsb' 11 1 ≠ 0 ∨ R.extractLsb' 14 2 ≠ 0 ∨ (code = 0x10 ∧ R.extractLsb' 8 3 ≠ 0)
        ∨ (code ≠ 0x01 ∧ R.extractLsb' 12 2 ≠ 0) ∨ (code ∉ [0x01, 0x02, 0x03, 0x1A, 0x1B] ∧ R.extractLsb' 16 16 ≠ 0)
        ∨ (code ∉ [0x01, 0x02, 0x03] ∧ R.extractLsb' 32 32 ≠ 0) then d = .refuse .reservedField
    else if code = 0x01 ∧ R.extractLsb' 12 2 = 2 then d = .refuse .isoEndpoint
    else (code = 0x01 ∧ ¬(LegalSize (R.extractLsb' 16 16) ∧ R.extractLsb' 33 31 = 0) → d = .refuse .badConfig)
      ∧ (¬(code = 0x01 ∧ ¬(LegalSize (R.extractLsb' 16 16) ∧ R.extractLsb' 33 31 = 0)) → ∀ r, d ≠ .refuse r)

/-! Steps. -/

/-- Rules R58, R174: when the next input decodes to an instruction, the step is exec of it. What the step does around
exec is the model's own: the queue the input is taken from (log 1) and the observation that is cleared (log 24). -/
def Obligations.StepRunsDecodedInstruction : Prop :=
  ∀ (s : State) (ch : Channel) (bytes : List Byte) (rest : List Input) (i : Instr),
    s.inputs = .message ch bytes :: rest → decode ch bytes = .instr i →
      step s = exec i { s with inputs := rest, obs := .none }

/-- Rules R66, R171: a refused record sets the sticky mark and has no other effect; that the first reason stays is the
model's choice (log 4). The rest is the model's own: with no input the block waits (log 2), a store by main-line software
writes RAM when the handler is not draining (log 17), bytes of the wrong number stop the machine (log 6), and the
platform acts on a requested exit as `exit_effect` says: the block goes on, or starts again at the power-on values of
rule R42 with the recorded faults and refusals kept (log 19). -/
def Obligations.StepOnOtherInputs : Prop :=
  ∀ s : State,
    (s.inputs = [] → step s = .next s)
    ∧ (∀ ch bytes rest r, s.inputs = .message ch bytes :: rest → decode ch bytes = .refuse r →
        step s = .next { s with inputs := rest, obs := .none, refused := s.refused.or (some r) })
    ∧ (∀ a bs rest, s.inputs = .ramWrite a bs :: rest → s.draining = false →
        step s = .next { s with inputs := rest, obs := .none, ram := s.ram.store a 0 bs })
    ∧ (∀ a bs rest, s.inputs = .ramWrite a bs :: rest → s.draining = true →
        step s = .next { s with inputs := rest, obs := .noStep })
    ∧ (∀ ch bytes rest, s.inputs = .message ch bytes :: rest → decode ch bytes = .badFrame →
        step s = .fault .badFrame)
    ∧ (∀ rest, s.inputs = .platformExit :: rest → s.bl.exitRequest = false →
        step s = .next { s with inputs := rest, obs := .noStep })
    ∧ (∀ rest, s.inputs = .platformExit :: rest → s.bl.exitRequest = true → s.cfg.exitEffect = .goesOn →
        step s = .next { s with inputs := rest, obs := .none })
    ∧ (∀ rest, s.inputs = .platformExit :: rest → s.bl.exitRequest = true → s.cfg.exitEffect = .restart →
        s.cfg.valid = true → s.ram.wf = true →
        ∃ t, step s = .next t
          ∧ (∀ n : EpNum, t.ep[n] = ⟨0, 0, .bulk, 0, 0, 0, 0, 0, 0, ⟨0, 0, 0, 0, 0, 0, 0, 0⟩⟩
              ∧ t.bdt[n] = ⟨0, 0, 0, 0⟩ ∧ t.hw[n] = ⟨.disabled, .disabled, false, false, false⟩)
          ∧ t.inReport = List.replicate 64 0 ∧ t.outReport = List.replicate 64 0
          ∧ (∀ j, (∀ k < 64, j ≠ ptrKey s.cfg.inBuf k ∧ j ≠ ptrKey s.cfg.outBuf k) → t.ram.read j = s.ram.read j)
          ∧ t = { s with
              brk := s.cfg.arenaStart
              ep := t.ep
              bdt := t.bdt
              hw := t.hw
              devAddr := 0
              devEn := false
              ctl := .setup
              bl := ⟨.reset, 0, 0, 0, .reset, false⟩
              ram := t.ram
              inputs := rest
              obs := .none })

/-! Reset. -/

/-- Rule R42: the power-on column, and the bus-reset column from every state with valid parameters. -/
def Obligations.ResetValues : Prop :=
  (State.reset.brk = State.reset.cfg.arenaStart
    ∧ (∀ n : EpNum, State.reset.ep[n] = ⟨0, 0, .bulk, 0, 0, 0, 0, 0, 0, ⟨0, 0, 0, 0, 0, 0, 0, 0⟩⟩
        ∧ State.reset.bdt[n] = ⟨0, 0, 0, 0⟩ ∧ State.reset.hw[n] = ⟨.disabled, .disabled, false, false, false⟩)
    ∧ State.reset.devAddr = 0 ∧ State.reset.devEn = false ∧ State.reset.ctl = .setup
    ∧ State.reset.bl = ⟨.reset, 0, 0, 0, .reset, false⟩
    ∧ State.reset.inReport = List.replicate 64 0 ∧ State.reset.outReport = List.replicate 64 0
    ∧ (∀ k, State.reset.faults.has k = false) ∧ State.reset.refused = none)
  ∧ ∀ s : State, s.cfg.valid = true → ∃ t, exec .busReset s = .next t
    ∧ t.brk = s.cfg.arenaStart + Config.ep0Size
    ∧ (∀ n : EpNum, n ≠ 0 → t.ep[n] = ⟨0, 0, .bulk, 0, 0, 0, 0, 0, 0, ⟨0, 0, 0, 0, 0, 0, 0, 0⟩⟩
        ∧ t.bdt[n] = ⟨0, 0, 0, 0⟩ ∧ t.hw[n] = ⟨.disabled, .disabled, false, false, false⟩)
    ∧ t.ep[(0 : EpNum)] = ⟨Config.ep0Size, 0, .control, 0, 0, 0, s.cfg.ep0Buf, s.cfg.ep0Buf, Config.ep0Size,
        ⟨0, 0, 0, 0, 0, 0, 0, 0⟩⟩
    ∧ t.bdt[(0 : EpNum)] = ⟨0, 0, s.cfg.arenaStart, rxCountEncode Config.ep0Size⟩
    ∧ t.hw[(0 : EpNum)] = ⟨.nak, .valid, false, false, false⟩
    ∧ t = { s with brk := t.brk, ep := t.ep, bdt := t.bdt, hw := t.hw, devAddr := 0, devEn := true, ctl := .setup }

/-! The allocator. -/

/-- Rules R87, R89: the break before the call is the handle, the break advances by the rounded size, and passing the end
of packet memory is recorded; ALLOC_RESET restores the break. What shows the handle is the model's field (log 27). -/
def Obligations.AllocatorMovesBreak : Prop :=
  ∀ (s : State) (len : Half),
    exec (.allocate len) s = .next
      { s with
        brk := BitVec.ofNat 16 (s.brk.toNat + rounded s len.toNat)
        obs := .handle s.brk
        faults :=
          if s.cfg.pmaSize < s.brk.toNat + rounded s len.toNat then { s.faults with pmaOverflow := true } else s.faults }
    ∧ exec .allocReset s = .next { s with brk := s.cfg.arenaStart }

/-- Rule R91: between bus resets the break never decreases, unless an over-allocation is recorded; with valid
parameters (log 8). -/
def Obligations.BreakNeverDecreases : Prop :=
  ∀ (i : Instr) (s t : State), s.cfg.valid = true → i ≠ .busReset → i ≠ .allocReset →
    exec i s = .next t → t.faults.pmaOverflow = false → s.brk.toNat ≤ t.brk.toNat

/-! Application requests. -/

/-- Rule R92, taken while no completion flag is set: the three refusals, the resize fault, the configuration. -/
def Obligations.EpConfigureEffect : Prop :=
  ∀ (s : State) (n : EpNum) (type : EpType) (size : Half) (flags : Word), s.draining = false →
    ∃ t, exec (.epConfigure n type size flags) s = .next t
      ∧ (type = .iso → Refused s t .isoEndpoint)
      ∧ (type ≠ .iso → ¬LegalSize size ∨ flags.extractLsb' 1 31 ≠ 0 → Refused s t .badConfig)
      ∧ (type ≠ .iso → LegalSize size → flags.extractLsb' 1 31 = 0 →
          t = { s with
            ep := s.ep.set n ⟨size, flags.extractLsb' 0 8, type, 0, 0, 0, 0, 0, 0, s.ep[n].lastSetup⟩
            hw := s.hw.set n { s.hw[n] with txStatus := .nak, rxStatus := .nak }
            faults :=
              { s.faults with
                resizeAllocated := s.faults.resizeAllocated
                  || decide ((s.bdt[n].addrTx ≠ 0 ∨ s.bdt[n].addrRx ≠ 0) ∧ size ≠ s.ep[n].size) } })

/-- Rules R99, R110, R175: while a completion flag is set the application's requests are not taken, and a handler event
whose flag is not set has no step. That such a record is consumed is the model's reading (log 3). -/
def Obligations.RecordsWithoutAStep : Prop :=
  ∀ (s : State) (n : EpNum),
    ((s.hw[n].ctrTx = true ∨ s.hw[n].ctrRx = true) →
      ∀ (m : EpNum) (type : EpType) (size len : Half) (flags buf : Word),
        exec (.epConfigure m type size flags) s = .next { s with obs := .noStep }
        ∧ exec (.beginSend m buf len) s = .next { s with obs := .noStep }
        ∧ exec (.beginReceive m buf len) s = .next { s with obs := .noStep })
    ∧ (s.hw[n].ctrTx = false → exec (.txComplete n) s = .next { s with obs := .noStep })
    ∧ (s.hw[n].ctrRx = false → exec (.rxComplete n) s = .next { s with obs := .noStep })

/-- Rules R94, R95: a null buffer stalls the transmit side; otherwise the buffer is recorded, the wrap is checked, and the
first packet is queued. -/
def Obligations.BeginSendEffect : Prop :=
  ∀ (s : State) (n : EpNum) (buf : Word) (len : Half), s.draining = false →
    exec (.beginSend n 0 len) s = .next
      { s with
        ep := s.ep.set n { s.ep[n] with txBuf := 0, txPos := 0, txLen := 0 }
        hw := s.hw.set n { s.hw[n] with txStatus := .stall } }
    ∧ (buf ≠ 0 → ∃ t, exec (.beginSend n buf len) s = .next t
      ∧ exec (.sendNextPacket n)
          { s with
            ep := s.ep.set n { s.ep[n] with txBuf := buf, txLen := len, txPos := buf }
            faults :=
              { s.faults with
                bufferWrap := s.faults.bufferWrap || decide (2 ^ 32 < buf.toNat + len.toNat) } } = .next t)

/-- Rules R102, R103: a null buffer stalls the receive side; otherwise the buffer is recorded, the wrap is checked, and
the first packet is armed. -/
def Obligations.BeginReceiveEffect : Prop :=
  ∀ (s : State) (n : EpNum) (buf : Word) (len : Half), s.draining = false →
    exec (.beginReceive n 0 len) s = .next
      { s with
        ep := s.ep.set n { s.ep[n] with rxBuf := 0, rxPos := 0, rxLen := 0 }
        hw := s.hw.set n { s.hw[n] with rxStatus := .stall } }
    ∧ (buf ≠ 0 → ∃ t, exec (.beginReceive n buf len) s = .next t
      ∧ exec (.beginPacketReceive n)
          { s with
            ep := s.ep.set n { s.ep[n] with rxBuf := buf, rxLen := len, rxPos := buf }
            faults :=
              { s.faults with
                bufferWrap := s.faults.bufferWrap || decide (2 ^ 32 < buf.toNat + len.toNat) } } = .next t)

/-! The transfer engine. -/

/-- Rules R96 to R98: an idle side is left alone; otherwise the packet, its count, the cursor, the status and the faults;
and nothing else but, after a copy that ends inside a cell of `MAU` bytes, the rest of the cell (rule R49). -/
def Obligations.SendNextPacketEffect : Prop :=
  ∀ (s : State) (n : EpNum),
    (s.ep[n].txPos = 0 ∨ s.ep[n].size = 0 → exec (.sendNextPacket n) s = .next s)
    ∧ (s.ep[n].txPos ≠ 0 → s.ep[n].size ≠ 0 → s.pma.wf = true → ∃ t, exec (.sendNextPacket n) s = .next t
      ∧ (∀ k < chunk s.ep[n], (txAddr s n).toNat + k < s.cfg.pmaSize →
          t.pmaByte ((txAddr s n).toNat + k) = s.ram.read (ptrKey s.ep[n].txPos k))
      ∧ (∀ o < s.cfg.pmaSize, o < (txAddr s n).toNat ∨ copyEnd s (txAddr s n).toNat (chunk s.ep[n]) ≤ o →
          t.pmaByte o = s.pmaByte o)
      ∧ t = { s with
          brk := breakAfter s n s.bdt[n].addrTx
          ep := s.ep.set n (afterPacket s.ep[n])
          bdt := s.bdt.set n { s.bdt[n] with addrTx := txAddr s n, countTx := BitVec.ofNat 16 (chunk s.ep[n] % 1024) }
          hw := s.hw.set n { s.hw[n] with txStatus := .valid }
          pma := t.pma
          draws := t.draws
          faults :=
            { s.faults with
              txOverwrite := s.faults.txOverwrite || decide (s.hw[n].txStatus = .valid)
              pmaOverflow := s.faults.pmaOverflow || overflows s n s.bdt[n].addrTx
                || decide (0 < chunk s.ep[n] ∧ s.cfg.pmaSize < (txAddr s n).toNat + chunk s.ep[n]) } })

/-- Rules R99, R100: the flag is cleared and the next packet produced; an event that finds the cursor null reports the
transfer to the control pipeline, the bootloader or the sent hook, whose call is recorded in the model's own field
(log 16). -/
def Obligations.TxCompleteReportsOrContinues : Prop :=
  ∀ (s : State) (n : EpNum), s.hw[n].ctrTx = true →
    let c := { s with hw := s.hw.set n { s.hw[n] with ctrTx := false } }
    ∃ t, exec (.txComplete n) s = .next t
      ∧ (s.ep[n].txPos ≠ 0 → exec (.sendNextPacket n) c = .next t)
      ∧ (s.ep[n].txPos = 0 → n = 0 → exec .ctlIn c = .next t)
      ∧ (s.ep[n].txPos = 0 → n ≠ 0 → n = s.cfg.epHid → exec .blInSent c = .next t)
      ∧ (s.ep[n].txPos = 0 → n ≠ 0 → n ≠ s.cfg.epHid → t = { c with notices := s.notices ++ [.sent n] })

/-- Rule R104: one packet is armed, or nothing happens on an endpoint of size 0. -/
def Obligations.BeginPacketReceiveArms : Prop :=
  ∀ (s : State) (n : EpNum),
    (s.ep[n].size = 0 → exec (.beginPacketReceive n) s = .next s)
    ∧ (s.ep[n].size ≠ 0 → exec (.beginPacketReceive n) s = .next
        { s with
          brk := breakAfter s n s.bdt[n].addrRx
          bdt := s.bdt.set n { s.bdt[n] with addrRx := rxAddr s n, countRx := rxCountEncode s.ep[n].size }
          hw := s.hw.set n { s.hw[n] with rxStatus := .valid }
          faults :=
            { s.faults with
              rxOverwrite := s.faults.rxOverwrite || (s.hw[n].ctrRx && !s.hw[n].setup)
              pmaOverflow := s.faults.pmaOverflow || overflows s n s.bdt[n].addrRx } })

/-- Rule R105: the encoding of the receive size, and that every legal size is represented exactly, with bits 9:0 zero. -/
def Obligations.ReceiveSizeEncodingIsExact : Prop :=
  ∀ size : Half,
    ((legalSize size = true ↔ LegalSize size))
    ∧ (size.toNat ≤ 1024 → (rxCountEncode size).toNat =
        if 62 < size.toNat then 0x8000 + (size.toNat / 32 - 1) * 1024 else size.toNat / 2 * 1024)
    ∧ (∀ c : Half, capacity c =
        if c.getLsbD 15 then ((c.extractLsb' 10 5).toNat + 1) * 32 else (c.extractLsb' 10 5).toNat * 2)
    ∧ (LegalSize size → size ≠ 0 → capacity (rxCountEncode size) = size.toNat ∧ countOf (rxCountEncode size) = 0)

/-- Rules R106, R107: with a SETUP pending, 8 bytes are taken into `last_setup`, whatever the count says; a data packet
with no reception in progress is discarded. What shows the result is the model's field (log 27). -/
def Obligations.EndPacketReceiveSetupAndIdle : Prop :=
  ∀ (s : State) (n : EpNum),
    (s.hw[n].setup = true → s.bdt[n].addrRx.toNat + 8 ≤ s.cfg.pmaSize →
      let b (k : Nat) : Byte := s.pmaByte (s.bdt[n].addrRx.toNat + k)
      exec (.endPacketReceive n) s = .next
        { s with
          ep := s.ep.set n { s.ep[n] with lastSetup := ⟨b 0, b 1, b 2, b 3, b 4, b 5, b 6, b 7⟩, rxPos := 0 }
          obs := .result .setupDone })
    ∧ (s.hw[n].setup = false → s.ep[n].rxPos = 0 →
      exec (.endPacketReceive n) s = .next { s with obs := .result .none })

/-- Rule R108: the copy, the completion rule, and what each of its two ends leaves. What shows the result is the model's
field (log 27). -/
def Obligations.EndPacketReceiveCopiesData : Prop :=
  ∀ (s : State) (n : EpNum), s.hw[n].setup = false → s.ep[n].rxPos ≠ 0 → s.ram.wf = true →
    let e := s.ep[n]
    let count := (countOf s.bdt[n].countRx).toNat
    let completed : Half := (e.rxPos - e.rxBuf).setWidth 16
    let copied := min count (e.rxLen - completed).toNat
    let total := completed + BitVec.ofNat 16 copied
    let ends := count ≠ e.size.toNat ∨ (e.flags.getLsbD 0 = true ∧ count = e.size.toNat ∧ total = e.rxLen)
    s.bdt[n].addrRx.toNat + copied ≤ s.cfg.pmaSize →
    ∃ t, exec (.endPacketReceive n) s = .next t
      ∧ (∀ k < copied, t.ram.read (ptrKey e.rxPos k) = s.pmaByte (s.bdt[n].addrRx.toNat + k))
      ∧ RamSameOutside s t e.rxPos copied
      ∧ (ends → t = { s with
          ep := s.ep.set n { e with rxPos := 0 }
          ram := t.ram
          obs := .result (.done total) })
      ∧ (¬ends → t.obs = .result .working
          ∧ exec (.beginPacketReceive n)
              { s with ep := s.ep.set n { e with rxPos := e.rxPos + BitVec.ofNat 32 copied }, ram := t.ram } =
            .next { t with obs := s.obs })

/-- Rules R106, R110, R111: the flags are cleared and the packet is taken. A SETUP on endpoint 0 gives the control
pipeline its event; the result of a data packet goes to the control pipeline, the bootloader or the received hook. The
result shown by END_PACKET_RECEIVE alone and the recorded hook calls are the model's fields (logs 16, 27). -/
def Obligations.RxCompleteDelivers : Prop :=
  ∀ (s : State) (n : EpNum), s.hw[n].ctrRx = true →
    let c := { s with hw := s.hw.set n { s.hw[n] with ctrRx := false, setup := false } }
    let b (k : Nat) : Byte := s.pmaByte (s.bdt[n].addrRx.toNat + k)
    (s.hw[n].setup = false →
      ∃ u r t, exec (.endPacketReceive n) c = .next u ∧ u.obs = .result r ∧ exec (.rxComplete n) s = .next t
        ∧ (r = .working ∨ r = .none → t = { u with obs := s.obs })
        ∧ (∀ total, r = .done total →
            (n = 0 → exec .ctlOut { u with obs := s.obs } = .next t)
            ∧ (n ≠ 0 → n = s.cfg.epHid → total = Config.hidSize → exec .blOutFull { u with obs := s.obs } = .next t)
            ∧ (n ≠ 0 → n = s.cfg.epHid → total ≠ Config.hidSize → exec .blOutShort { u with obs := s.obs } = .next t)
            ∧ (n ≠ 0 → n ≠ s.cfg.epHid → t = { u with obs := s.obs, notices := s.notices ++ [.received n total] }))
        ∧ r ≠ .setupDone)
    ∧ (s.hw[n].setup = true → s.bdt[n].addrRx.toNat + 8 ≤ s.cfg.pmaSize →
      let d := { c with
        ep := s.ep.set n { s.ep[n] with lastSetup := ⟨b 0, b 1, b 2, b 3, b 4, b 5, b 6, b 7⟩, rxPos := 0 } }
      ∃ t, exec (.rxComplete n) s = .next t
        ∧ (n = 0 → exec .ctlSetup d = .next t)
        ∧ (n ≠ 0 → t = { d with notices := s.notices ++ [.setupTaken n] }))

/-- Rule R101: on an endpoint other than 0 and the HID one, of a packet size below 1024 (log 13), with its packet buffer
inside packet memory and the sent buffer ending below 2^32 (log 33), a send of `L` bytes gives the host exactly the
packets of the law, in order, then reports the transfer (recorded as log 16 says). -/
def Obligations.SendLaw : Prop :=
  ∀ (s : State) (n : EpNum) (buf : Word) (L : Half), n ≠ 0 → n ≠ s.cfg.epHid → s.draining = false →
    s.devEn = true → s.memoriesOk = true → buf ≠ 0 → buf.toNat + L.toNat < 2 ^ 32 →
    s.ep[n].size ≠ 0 → s.ep[n].size.toNat < 1024 → 0 < s.brk.toNat →
    (txAddr s n).toNat + s.ep[n].size.toNat ≤ s.cfg.pmaSize →
    let P := s.ep[n].size.toNat
    let count := packetCount P L.toNat (s.ep[n].flags.getLsbD 0)
    ∃ s₁ t, exec (.beginSend n buf L) s = .next s₁ ∧ sendRounds n count s₁ = some t
      ∧ t.hostReceived = s.hostReceived
          ++ ((List.range count).map fun k => s.ram.load buf (k * P) (min P (L.toNat - k * P)))
      ∧ t.notices = s.notices ++ [.sent n]
      ∧ t.ep[n].txPos = 0 ∧ t.hw[n].txStatus = .nak

/-- Rule R112: on an endpoint other than 0 and the HID one, of a packet size below 1024 (log 13), with its
packet buffer inside packet memory and the RAM buffer ending below 2^32 (log 33), `full` packets of `P` bytes and then
one packet that ends the transfer (a shorter one, or with NOZLP the one that fills the room) leave in the buffer the
first `min(sum, L)` bytes, in order, reported once (recorded as log 16 says). -/
def Obligations.ReceiveLaw : Prop :=
  ∀ (s : State) (n : EpNum) (buf : Word) (L : Half) (full : List (List Byte)) (last : List Byte),
    n ≠ 0 → n ≠ s.cfg.epHid → s.draining = false → s.devEn = true → s.memoriesOk = true →
    buf ≠ 0 → buf.toNat + L.toNat < 2 ^ 32 →
    LegalSize s.ep[n].size → s.ep[n].size ≠ 0 → s.ep[n].size.toNat < 1024 → 0 < s.brk.toNat →
    (rxAddr s n).toNat + s.ep[n].size.toNat ≤ s.cfg.pmaSize →
    let P := s.ep[n].size.toNat
    let all := full.flatten ++ last
    (∀ p ∈ full, p.length = P) → last.length ≤ P →
    (s.ep[n].flags.getLsbD 0 = true → full.flatten.length < L.toNat ∨ full = []) →
    (last.length ≠ P ∨ (s.ep[n].flags.getLsbD 0 = true ∧ L.toNat ≤ all.length)) →
    ∃ s₁ t, exec (.beginReceive n buf L) s = .next s₁ ∧ receiveRounds n (full ++ [last]) s₁ = some t
      ∧ t.ram.load buf 0 (min all.length L.toNat) = all.take L.toNat
      ∧ RamSameOutside s t buf (min all.length L.toNat)
      ∧ t.notices = s.notices ++ [.received n (BitVec.ofNat 16 (min all.length L.toNat))]
      ∧ t.ep[n].rxPos = 0

/-! The control pipeline. -/

/-- Rule R115: the row each event fires in each state; every event completes. -/
def Obligations.ControlEventFiresItsRow : Prop :=
  ∀ s : State, ∃ tReset tSetup tIn tOut,
    exec .ctlReset s = .next tReset ∧ exec .ctlSetup s = .next tSetup ∧ exec .ctlIn s = .next tIn
    ∧ exec .ctlOut s = .next tOut
    ∧ exec (.ctlRow1Reset s.ctl.code) s = .next tReset
    ∧ exec (.ctlRow2Setup s.ctl.code) s = .next tSetup
    ∧ (s.ctl = .data → exec (.ctlRow3DataDone 0) s = .next tIn ∧ exec (.ctlRow3DataDone 1) s = .next tOut)
    ∧ (s.ctl = .status → exec (.ctlRow4StatusDone 0) s = .next tIn ∧ exec (.ctlRow4StatusDone 1) s = .next tOut)
    ∧ (s.ctl = .setup → exec (.ctlRow5Other 0x02) s = .next tIn ∧ exec (.ctlRow5Other 0x03) s = .next tOut)

/-- Rules R116, R117: endpoint 0 configured as the control endpoint, a SETUP armed, state SETUP. -/
def Obligations.ControlRow1ConfiguresEndpoint0 : Prop :=
  ∀ (s : State) (st : BitVec 4), s.cfg.valid = true →
    let c := { s with
      ep := s.ep.set 0 ⟨Config.ep0Size, 0, .control, 0, 0, 0, 0, 0, 0, (s.ep[(0 : EpNum)]).lastSetup⟩
      hw := s.hw.set 0 { s.hw[(0 : EpNum)] with txStatus := .nak, rxStatus := .nak }
      faults :=
        { s.faults with
          resizeAllocated := s.faults.resizeAllocated
            || decide (((s.bdt[(0 : EpNum)]).addrTx ≠ 0 ∨ (s.bdt[(0 : EpNum)]).addrRx ≠ 0)
                ∧ Config.ep0Size ≠ (s.ep[(0 : EpNum)]).size) } }
    exec (.ctlRow1Reset st) s = .next { armedReceive c 0 s.cfg.ep0Buf Config.ep0Size with ctl := .setup }

/-- Rules R118, R119, R125, R126: the request row of the setup key is run; STALL stalls both sides, no data stage goes
straight to STATUS, and a data stage is started in the direction bit's direction with the capped length. What shows the
answer of a request row run alone is the model's field (log 27). -/
def Obligations.ControlRow2DispatchesRequest : Prop :=
  ∀ (s : State) (st : BitVec 4),
    let p := (s.ep[(0 : EpNum)]).lastSetup
    ∃ u a t, exec (decodeSetupKey p.key) s = .next u ∧ u.obs = .answer a ∧ exec (.ctlRow2Setup st) s = .next t
      ∧ (a = .stall → t = { stalled { u with obs := s.obs } with ctl := .setup })
      ∧ (∀ ptr rlen, a = .ok ptr rlen → p.wLength = 0 →
          s.cfg.valid = true → (u.ep[(0 : EpNum)]).size ≠ 0 →
          t = { sentZlp { u with obs := s.obs } 0 s.cfg.ep0Buf with ctl := .status })
      ∧ (∀ ptr rlen, a = .ok ptr rlen → p.wLength ≠ 0 → p.b0.getLsbD 7 = true →
          t = { ({ u with obs := s.obs } : State).beginSend 0 ptr (BitVec.ofNat 16 (min rlen.toNat p.wLength.toNat))
            with ctl := .data })
      ∧ (∀ ptr rlen, a = .ok ptr rlen → p.wLength ≠ 0 → p.b0.getLsbD 7 = false →
          t = { ({ u with obs := s.obs } : State).beginReceive 0 ptr
              (BitVec.ofNat 16 (min rlen.toNat p.wLength.toNat)) with ctl := .data })

/-- Rules R121, R127, R130, R133: a GET_DESCRIPTOR with no matching entry stalls both directions and returns to SETUP
without altering `last_setup`, from every control state. -/
def Obligations.MissingDescriptorStalls : Prop :=
  ∀ s : State,
    let p := (s.ep[(0 : EpNum)]).lastSetup
    p.key &&& 0xFF60 = 0x0600 → (∀ e ∈ s.cfg.descTable, e.value = p.wValue → e.lang ≠ p.wIndex) →
    ∃ t, exec .ctlSetup s = .next t ∧ t = { stalled s with ctl := .setup }
      ∧ (t.ep[(0 : EpNum)]).lastSetup = p ∧ (t.hw[(0 : EpNum)]).txStatus = .stall
      ∧ (t.hw[(0 : EpNum)]).rxStatus = .stall

/-- Rule R128: the opposite-direction zero-length packet, state STATUS, on a configured endpoint 0. -/
def Obligations.ControlRow3FlipsDirection : Prop :=
  ∀ (s : State) (e : BitVec 1), s.cfg.valid = true → (s.ep[(0 : EpNum)]).size ≠ 0 →
    let p := (s.ep[(0 : EpNum)]).lastSetup
    ∃ t, exec (.ctlRow3DataDone e) s = .next t
      ∧ (p.b0.getLsbD 7 = true → t = { armedReceive s 0 s.cfg.ep0Buf 0 with ctl := .status })
      ∧ (p.b0.getLsbD 7 = false → t = { sentZlp s 0 s.cfg.ep0Buf with ctl := .status })

/-- Rules R129, R132: the deferred address of a SET_ADDRESS, the completion hook, the next SETUP armed, state SETUP.
That the hook's call is recorded, and that its stores (none by default) come from a queue, is the model's (log 16). -/
def Obligations.ControlRow4Finalizes : Prop :=
  ∀ (s : State) (e : BitVec 1), s.cfg.valid = true → (s.ep[(0 : EpNum)]).size ≠ 0 →
    let p := (s.ep[(0 : EpNum)]).lastSetup
    exec (.ctlRow4StatusDone e) s = .next
      { armedReceive s 0 s.cfg.ep0Buf Config.ep0Size with
        devAddr := if p.key &&& 0xFF60 = 0x0500 then p.wValue.extractLsb' 0 7 else s.devAddr
        notices := s.notices ++ [.controlComplete p]
        ram := hookStores s.ram (s.completions.headD [])
        completions := s.completions.tail
        ctl := .setup }

/-- Rules R127, R131. -/
def Obligations.ControlRow5Stalls : Prop :=
  ∀ (s : State) (key : BitVec 8), exec (.ctlRow5Other key) s = .next { stalled s with ctl := .setup }

/-- Rules R120, R122, R124: GET_STATUS answers the two bytes of STATUS_BUF, SET_ADDRESS answers no data and writes
nothing, any other request gets the hook's answer, whatever it is; with no answer installed the default is STALL
(rule R7, log 15). What shows the answer is the model's field (log 27). -/
def Obligations.StatusAddressAndOtherRequests : Prop :=
  ∀ (s : State) (dir : BitVec 1) (recipient : BitVec 5) (key : Half),
    exec (.reqGetStatus dir recipient) s = .next { s with obs := .answer (.ok s.cfg.statusBuf 2) }
    ∧ exec (.reqSetAddress dir recipient) s = .next { s with obs := .answer (.ok s.cfg.ep0Buf 0) }
    ∧ (∀ a rest, s.classAnswers = a :: rest →
      exec (.reqOther key) s = .next { s with classAnswers := rest, obs := .answer a })
    ∧ (s.classAnswers = [] → exec (.reqOther key) s = .next { s with obs := .answer .stall })

/-- Rules R121, R130: the first entry with both keys equal, before the null-pointer entry; STALL if there is none. What
shows the answer is the model's field (log 27). -/
def Obligations.DescriptorRequestFirstMatch : Prop :=
  ∀ (s : State) (dir : BitVec 1) (recipient : BitVec 5),
    let p := (s.ep[(0 : EpNum)]).lastSetup
    let matches_ (e : DescEntry) : Prop := e.value = p.wValue ∧ e.lang = p.wIndex
    ∃ a, exec (.reqGetDescriptor dir recipient) s = .next { s with obs := .answer a }
      ∧ (∀ before e after, s.cfg.descTable = before ++ e :: after → (∀ d ∈ before, d.ptr ≠ 0 ∧ ¬matches_ d) →
          e.ptr ≠ 0 → matches_ e → a = .ok e.ptr e.length)
      ∧ (∀ before after, s.cfg.descTable = before ++ after → (∀ d ∈ before, d.ptr ≠ 0 ∧ ¬matches_ d) →
          (after = [] ∨ ∃ z rest, after = z :: rest ∧ z.ptr = 0) → a = .stall)

/-- Rules R123, R135, R141: the HID endpoint configured, the OUT side armed, the bootloader in RESET, answer OK (shown
as log 27 says). -/
def Obligations.SetConfigurationBindsHid : Prop :=
  ∀ (s : State) (dir : BitVec 1) (recipient : BitVec 5), s.cfg.valid = true →
    let h := s.cfg.epHid
    let c := { s with
      ep := s.ep.set h ⟨Config.hidSize, 1, .interrupt, 0, 0, 0, 0, 0, 0, s.ep[h].lastSetup⟩
      hw := s.hw.set h { s.hw[h] with txStatus := .nak, rxStatus := .nak }
      faults :=
        { s.faults with
          resizeAllocated := s.faults.resizeAllocated
            || decide ((s.bdt[h].addrTx ≠ 0 ∨ s.bdt[h].addrRx ≠ 0) ∧ Config.hidSize ≠ s.ep[h].size) } }
    exec (.reqSetConfiguration dir recipient) s = .next
      { armedReceive c h s.cfg.outBuf Config.hidSize with
        bl := { s.bl with state := .reset }
        obs := .answer (.ok s.cfg.ep0Buf 0) }

/-! The bootloader. -/

/-- Rules R137, R139, R140: the row each event fires in each state; every event completes. -/
def Obligations.BootloaderEventFiresItsRow : Prop :=
  ∀ s : State, ∃ tConf tFull tShort tSent,
    exec .blConfigured s = .next tConf ∧ exec .blOutFull s = .next tFull ∧ exec .blOutShort s = .next tShort
    ∧ exec .blInSent s = .next tSent
    ∧ exec (.blRow1Configured s.bl.state.code) s = .next tConf
    ∧ exec (.blRow2OutShort s.bl.state.code) s = .next tShort
    ∧ (s.bl.state = .reset → exec .blRow3Command s = .next tFull ∧ exec (.blRow9Fsm 0x03) s = .next tSent)
    ∧ (s.bl.state = .status → exec (.blRow9Fsm 0x11) s = .next tFull ∧ exec .blRow4StatusSent s = .next tSent)
    ∧ (s.bl.state = .lprog → exec .blRow5LowerHalf s = .next tFull ∧ exec (.blRow9Fsm 0x23) s = .next tSent)
    ∧ (s.bl.state = .uprog → exec .blRow6UpperHalf s = .next tFull ∧ exec (.blRow9Fsm 0x33) s = .next tSent)
    ∧ (s.bl.state = .lread → exec (.blRow7Lread 1) s = .next tFull ∧ exec (.blRow7Lread 3) s = .next tSent)
    ∧ (s.bl.state = .uread → exec (.blRow8Uread 1) s = .next tFull ∧ exec (.blRow8Uread 3) s = .next tSent)

/-- Rules R138, R141, R144: rows 1 and 4 arm the OUT side at OUT_BUF and go to RESET and to the state to resume. -/
def Obligations.BootloaderArmsOut : Prop :=
  ∀ (s : State) (st : BitVec 4), s.cfg.valid = true → s.ep[s.cfg.epHid].size ≠ 0 →
    exec (.blRow1Configured st) s = .next
      { armedReceive s s.cfg.epHid s.cfg.outBuf Config.hidSize with bl := { s.bl with state := .reset } }
    ∧ exec .blRow4StatusSent s = .next
      { armedReceive s s.cfg.epHid s.cfg.outBuf Config.hidSize with bl := { s.bl with state := s.bl.resume } }

/-- Rules R142, R148, R149, R156: a short OUT, an unexpected event and an unrecognized command each give one status
report with their code and resume RESET. -/
def Obligations.BootloaderErrorReports : Prop :=
  ∀ (s : State) (st : BitVec 4) (key : BitVec 8) (command : Word), HidReady s →
    (∃ t, exec (.blRow2OutShort st) s = .next t ∧ StatusReport s t s.cfg.errors.short .reset)
    ∧ (∃ t, exec (.blRow9Fsm key) s = .next t ∧ StatusReport s t s.cfg.errors.fsm .reset)
    ∧ (∃ t, exec (.cmdUnrecognized command) s = .next t ∧ StatusReport s t s.cfg.errors.command .reset)

/-- Rules R77, R143: the command word is matched as a whole. -/
def Obligations.CommandWordSelectsCommand : Prop :=
  ∀ s : State, ∃ t, exec .blRow3Command s = .next t
    ∧ (s.outWord 0 = 0x00000000 → exec .cmdReset s = .next t)
    ∧ (s.outWord 0 = 0x00000080 → exec .cmdProg s = .next t)
    ∧ (s.outWord 0 = 0x00000040 → exec .cmdRead s = .next t)
    ∧ (s.outWord 0 = 0x000000C3 → exec .cmdExit s = .next t)
    ∧ (s.outWord 0 ∉ [0x00000000, 0x00000080, 0x00000040, 0x000000C3] →
        exec (.cmdUnrecognized (s.outWord 0)) s = .next t)

/-- Rules R149, R150: the RESET command zeroes the IN report, then reports ERR_NONE; with the command word 0 the report
is 64 zero bytes. The pending-transfer record is not written. -/
def Obligations.ResetCommandZeroesReport : Prop :=
  ∀ s : State, HidReady s →
    ∃ z t, exec .cmdReset s = .next t
      ∧ z = { s with ram := z.ram } ∧ (∀ k < 64, inByte z k = 0) ∧ RamSameOutside s z s.cfg.inBuf 64
      ∧ StatusReport z t 0x00 .reset
      ∧ (s.outWord 0 = 0 → t.inReport = List.replicate 64 0)

/-- Rules R149, R151, R152: a PROG whose address is misaligned or whose page leaves the window captures its three
fields, reports ERR_BAD_ADDR and erases nothing. -/
def Obligations.ProgRejectsBadAddress : Prop :=
  ∀ s : State, HidReady s →
    let a := s.outWord 1
    (a.toNat % 128 ≠ 0 ∨ a.toNat < s.cfg.flashLo.toNat ∨ s.cfg.flashHi.toNat < a.toNat + 127) →
    ∃ t, exec .cmdProg s = .next t
      ∧ StatusReport { s with bl := { s.bl with address := a, crcLower := s.outWord 2, crcUpper := s.outWord 3 } } t
          s.cfg.errors.badAddr .reset

/-- Rules R55, R149, R151 to R153: an accepted PROG erases its page, whole and alone; success awaits the lower half,
failure reports ERR_WRITE and leaves the page's bytes open. The outcome is either one (log 9). Which half-pages are
erased is kept for 93_implementation_defined.md row 13 (log 14). -/
def Obligations.ProgErasesPage : Prop :=
  ∀ s : State, HidReady s →
    let a := s.outWord 1
    a.toNat % 128 = 0 → s.cfg.flashLo.toNat ≤ a.toNat → a.toNat + 127 ≤ s.cfg.flashHi.toNat →
    ∃ f hs t, exec .cmdProg s = .next t
      ∧ (let b := { s.bl with address := a, crcLower := s.outWord 2, crcUpper := s.outWord 3 }
        let c := afterFlash { s with bl := b } f hs
        FlashSameOutside s c a 128
        ∧ (∀ h : Word, h.toNat % 64 = 0 → h ≠ a → h ≠ a + 64 → (h ∈ hs ↔ h ∈ s.flashErased))
        ∧ (flashPasses s = true → StatusReport c t 0x00 .lprog ∧ a ∈ hs ∧ a + 64 ∈ hs
            ∧ ∀ k < 128, f.read (a.toNat + k) = s.cfg.erasedWord.extractLsb' (8 * (k % 4)) 8)
        ∧ (flashPasses s = false → StatusReport c t s.cfg.errors.write .reset ∧ a ∉ hs ∧ a + 64 ∉ hs))

/-- Rules R149, R154, R155: READ records the address and only reports; EXIT sets the request to the platform. -/
def Obligations.ReadAndExitCommands : Prop :=
  ∀ s : State, HidReady s →
    (∃ t, exec .cmdRead s = .next t
      ∧ StatusReport { s with bl := { s.bl with address := s.outWord 1 } } t 0x00 .lread)
    ∧ (∃ t, exec .cmdExit s = .next t
      ∧ StatusReport { s with bl := { s.bl with exitRequest := true } } t 0x00 .reset)

/-- Rules R145, R146, R149, R158, R159: the CRC of the 64 payload bytes is echoed in the half's field whatever the
outcome, and a mismatch reports ERR_BAD_CRC32 and writes no flash. -/
def Obligations.HalfPageRejectsBadCrc : Prop :=
  ∀ s : State, HidReady s →
    let crc := crc32 s.outReport
    (crc ≠ s.bl.crcLower → ∃ r t, exec .blRow5LowerHalf s = .next t
      ∧ (let c := { s with ram := r }
        (∀ k < 4, inByte c (8 + k) = crc.extractLsb' (8 * k) 8)
        ∧ RamSameOutside s c (s.cfg.inBuf + 8) 4 ∧ StatusReport c t s.cfg.errors.badCrc32 .reset))
    ∧ (crc ≠ s.bl.crcUpper → ∃ r t, exec .blRow6UpperHalf s = .next t
      ∧ (let c := { s with ram := r }
        (∀ k < 4, inByte c (12 + k) = crc.extractLsb' (8 * k) 8)
        ∧ RamSameOutside s c (s.cfg.inBuf + 12) 4 ∧ StatusReport c t s.cfg.errors.badCrc32 .reset))

/-- Rules R56, R57, R145, R146, R149, R158, R160, R161: on a match the half of the page is written, and where it was
erased and not written since it holds the 64 report bytes in wire order (93_implementation_defined.md row 13); success
awaits the upper half or ends in RESET, failure reports ERR_WRITE; no other flash byte changes. The outcome is either one
(log 9); at an address that does not meet the precondition of the write the effect is the model's (log 31). -/
def Obligations.HalfPageWritesFlash : Prop :=
  ∀ s : State, HidReady s →
    let crc := crc32 s.outReport
    (crc = s.bl.crcLower → ∃ r f hs t, exec .blRow5LowerHalf s = .next t
      ∧ (let c := afterFlash { s with ram := r } f hs
        (∀ k < 4, inByte c (8 + k) = crc.extractLsb' (8 * k) 8)
        ∧ RamSameOutside s c (s.cfg.inBuf + 8) 4
        ∧ FlashSameOutside s c s.bl.address 64
        ∧ (∀ h : Word, h.toNat % 64 = s.bl.address.toNat % 64 → (h ∈ hs ↔ h ∈ s.flashErased ∧ h ≠ s.bl.address))
        ∧ (flashPasses s = true → StatusReport c t 0x00 .uprog
            ∧ (Writable s s.bl.address → ∀ k < 64, f.read (ptrKey s.bl.address k) = outByte s k))
        ∧ (flashPasses s = false → StatusReport c t s.cfg.errors.write .reset)))
    ∧ (crc = s.bl.crcUpper → ∃ r f hs t, exec .blRow6UpperHalf s = .next t
      ∧ (let c := afterFlash { s with ram := r } f hs
        (∀ k < 4, inByte c (12 + k) = crc.extractLsb' (8 * k) 8)
        ∧ RamSameOutside s c (s.cfg.inBuf + 12) 4
        ∧ FlashSameOutside s c (s.bl.address + 64) 64
        ∧ (∀ h : Word, h.toNat % 64 = (s.bl.address + 64).toNat % 64 →
            (h ∈ hs ↔ h ∈ s.flashErased ∧ h ≠ s.bl.address + 64))
        ∧ (flashPasses s = true → StatusReport c t 0x00 .reset
            ∧ (Writable s (s.bl.address + 64) → ∀ k < 64, f.read (ptrKey (s.bl.address + 64) k) = outByte s k))
        ∧ (flashPasses s = false → StatusReport c t s.cfg.errors.write .reset)))

/-- Rule R147: the event is refused, with no other effect; that the first reason stays is the model's choice (log 4). -/
def Obligations.ReadStatesRefuse : Prop :=
  ∀ (s : State) (event : BitVec 4),
    exec (.blRow7Lread event) s = .next { s with refused := s.refused.or (some .reservedReadState) }
    ∧ exec (.blRow8Uread event) s = .next { s with refused := s.refused.or (some .reservedReadState) }

/-- Rule R162: the CRC of the spec's example inputs. -/
def Obligations.CrcReferenceValues : Prop :=
  crc32 [0x31, 0x32, 0x33, 0x34, 0x35, 0x36, 0x37, 0x38, 0x39] = 0xCBF43926
  ∧ crc32 (List.replicate 64 0x00) = 0x758D6336
  ∧ crc32 (List.replicate 64 0xFF) = 0x0F6187BA
  ∧ crc32 ((List.range 64).map fun k => BitVec.ofNat 8 k) = 0x100ECE8C

/-! The host. -/

/-- Rule R180: a SETUP is accepted whatever the side's status. -/
def Obligations.HostSetupIsAccepted : Prop :=
  ∀ (s : State) (n : EpNum) (bytes : List Byte), bytes.length = 8 → s.devEn = true → s.ep[n].type = .control →
    s.bdt[n].addrRx ≠ 0 → 8 ≤ capacity s.bdt[n].countRx → s.pma.wf = true →
    s.bdt[n].addrRx.toNat + 8 ≤ s.cfg.pmaSize →
    ∃ t, exec (.hostSetup n 8 bytes) s = .next t
      ∧ (∀ k (h : k < bytes.length), t.pmaByte (s.bdt[n].addrRx.toNat + k) = bytes[k])
      ∧ (∀ o, o < s.bdt[n].addrRx.toNat ∨ s.bdt[n].addrRx.toNat + 8 ≤ o → t.pmaByte o = s.pmaByte o)
      ∧ t = { s with
          bdt := s.bdt.set n { s.bdt[n] with countRx := s.bdt[n].countRx.extractLsb' 10 6 ++ (8 : BitVec 10) }
          hw := s.hw.set n ⟨.nak, .nak, s.hw[n].ctrTx, true, true⟩
          pma := t.pma
          faults := { s.faults with eventOverrun := s.faults.eventOverrun || s.hw[n].ctrRx } }

/-- Rule R181: a data packet is delivered to an armed side. -/
def Obligations.HostOutIsDelivered : Prop :=
  ∀ (s : State) (n : EpNum) (bytes : List Byte), s.devEn = true → s.hw[n].rxStatus = .valid →
    bytes.length ≤ capacity s.bdt[n].countRx → s.pma.wf = true →
    s.bdt[n].addrRx.toNat + bytes.length ≤ s.cfg.pmaSize →
    ∃ t, exec (.hostOut n bytes) s = .next t
      ∧ (∀ k (h : k < bytes.length), t.pmaByte (s.bdt[n].addrRx.toNat + k) = bytes[k])
      ∧ (∀ o, o < s.bdt[n].addrRx.toNat ∨ s.bdt[n].addrRx.toNat + bytes.length ≤ o → t.pmaByte o = s.pmaByte o)
      ∧ t = { s with
          bdt := s.bdt.set n
            { s.bdt[n] with countRx := s.bdt[n].countRx.extractLsb' 10 6 ++ BitVec.ofNat 10 bytes.length }
          hw := s.hw.set n ⟨s.hw[n].txStatus, .nak, s.hw[n].ctrTx, true, false⟩
          pma := t.pma
          faults := { s.faults with eventOverrun := s.faults.eventOverrun || s.hw[n].ctrRx } }

/-- Rule R182: the host takes the packet. What shows its bytes and keeps their sequence are the model's fields
(log 24). -/
def Obligations.HostInTakesPacket : Prop :=
  ∀ (s : State) (n : EpNum), s.devEn = true → s.hw[n].txStatus = .valid →
    s.bdt[n].addrTx.toNat + (s.bdt[n].countTx.extractLsb' 0 10).toNat ≤ s.cfg.pmaSize →
    ∃ bytes, bytes.length = (s.bdt[n].countTx.extractLsb' 0 10).toNat
      ∧ (∀ k (h : k < bytes.length), bytes[k] = s.pmaByte (s.bdt[n].addrTx.toNat + k))
      ∧ exec (.hostIn n) s = .next
        { s with
          hw := s.hw.set n { s.hw[n] with ctrTx := true, txStatus := .nak }
          obs := .packet bytes
          hostReceived := s.hostReceived ++ [bytes]
          faults := { s.faults with eventOverrun := s.faults.eventOverrun || s.hw[n].ctrTx } }

/-- Rules R66, R179 to R183, R188: a transaction that is not taken changes nothing. From a device that is not enabled
the host gets no answer; on an enabled one it sees the side's NAK, STALL or silence: HOST_IN and HOST_OUT on a side that
is not VALID, and HOST_SETUP on an endpoint that is not a control endpoint, has no receive buffer or has one of fewer
than 8 bytes, by its receive side's status (log 28). A HOST_SETUP whose length is not 8 and a HOST_OUT longer than the
armed buffer have no step (log 23). The observation is the model's (log 24). -/
def Obligations.DeclinedTransactionsChangeNothing : Prop :=
  ∀ (s : State) (n : EpNum) (bytes : List Byte),
    (s.devEn = false → exec (.hostIn n) s = .next { s with obs := .handshake .noAnswer }
        ∧ exec (.hostOut n bytes) s = .next { s with obs := .handshake .noAnswer }
        ∧ exec (.hostSetup n 8 bytes) s = .next { s with obs := .handshake .noAnswer })
    ∧ (s.devEn = true → s.hw[n].txStatus ≠ .valid →
        exec (.hostIn n) s = .next { s with obs := seen s.hw[n].txStatus })
    ∧ (s.devEn = true → s.hw[n].rxStatus ≠ .valid →
        exec (.hostOut n bytes) s = .next { s with obs := seen s.hw[n].rxStatus })
    ∧ (s.devEn = true → s.hw[n].rxStatus = .valid → capacity s.bdt[n].countRx < bytes.length →
        exec (.hostOut n bytes) s = .next { s with obs := .noStep })
    ∧ (s.devEn = true → s.ep[n].type ≠ .control ∨ s.bdt[n].addrRx = 0 ∨ capacity s.bdt[n].countRx < 8 →
        exec (.hostSetup n 8 bytes) s = .next { s with obs := seen s.hw[n].rxStatus })
    ∧ (∀ len : Half, len ≠ 8 → exec (.hostSetup n len bytes) s = .next { s with obs := .noStep })

/-! Rules about the whole machine. -/

/-- The memories and the list of erased half-pages stay in canonical form (the model's own form of RAM, packet memory and
flash, logs 11 and 14). -/
def Obligations.StepKeepsMemoriesCanonical : Prop :=
  ∀ s t : State, s.memoriesOk = true → step s = .next t → t.memoriesOk = true

/-- Rules R20, R22 to R24, R28, R81, R91: with valid parameters the registers stay within what the spec admits. -/
def Obligations.StepKeepsRegistersLegal : Prop :=
  ∀ s t : State, s.cfg.valid = true → s.registersOk = true → step s = .next t → t.registersOk = true

/-- Rules R25, R26: every cursor stays null or inside its buffer, unless a wrapping buffer has been recorded. -/
def Obligations.StepKeepsCursorsInside : Prop :=
  ∀ s t : State, s.cursorsOk = true → step s = .next t → t.cursorsOk = true

/-- Rules R87, R90, R91: with inputs from outside and valid parameters, the packet-memory buffers stay in the arena,
below the break and apart, unless an over-allocation or a resize has been recorded. -/
def Obligations.OutsideStepsKeepBuffersApart : Prop :=
  ∀ s t : State, s.outsideNext = true → s.cfg.valid = true → s.registersOk = true → s.arenaOk = true →
    step s = .next t → t.arenaOk = true

/-- Rules R152, R153, R161: with inputs from outside, a half-page is only ever awaited at an address PROG accepted, and
it is erased and not written since (93_implementation_defined.md row 13). -/
def Obligations.OutsideStepsKeepProgrammingLegal : Prop :=
  ∀ s t : State, s.outsideNext = true → s.programmingOk = true → step s = .next t → t.programmingOk = true

/-- Rule R54: no step writes flash outside the window. A flash primitive called outside it, which only a row run by
itself can do, writes nothing there by the model's choice (log 31). -/
def Obligations.FlashOutsideWindowNeverWritten : Prop :=
  ∀ s t : State, s.flash.wf = true → step s = .next t →
    ∀ a : Nat, a < s.cfg.flashLo.toNat ∨ s.cfg.flashHi.toNat < a → t.flash.read a = s.flash.read a

/-- Rule R38: faults and refusals are sticky; that the first reason stays is the model's choice (log 4). -/
def Obligations.FaultsAndRefusalsAreSticky : Prop :=
  ∀ s t : State, step s = .next t →
    (∀ k, s.faults.has k = true → t.faults.has k = true) ∧ (∀ r, s.refused = some r → t.refused = some r)

/-- Rules R27, R133: `ep[0].last_setup` changes only in the SETUP case of END_PACKET_RECEIVE on endpoint 0 and in
BUS_RESET; no row, request handler or stall writes it. -/
def Obligations.LastSetupHasTwoWriters : Prop :=
  ∀ (i : Instr) (s t : State), exec i s = .next t → (t.ep[(0 : EpNum)]).lastSetup ≠ (s.ep[(0 : EpNum)]).lastSetup →
    i = .busReset ∨ ((i = .rxComplete 0 ∨ i = .endPacketReceive 0) ∧ (s.hw[(0 : EpNum)]).setup = true)

/-- Rules R31, R122, R129: the device address changes only in BUS_RESET and where row 4 ends a status stage with a
SET_ADDRESS in `last_setup`: in state STATUS at an IN or OUT completion of endpoint 0, or where the row is run by itself
(log 5); the enable changes only in BUS_RESET. -/
def Obligations.DeviceAddressHasTwoWriters : Prop :=
  ∀ (i : Instr) (s t : State), exec i s = .next t →
    (t.devEn ≠ s.devEn → i = .busReset)
    ∧ (t.devAddr ≠ s.devAddr → i = .busReset
        ∨ ((s.ep[(0 : EpNum)]).lastSetup.key &&& 0xFF60 = 0x0500
            ∧ t.devAddr = (s.ep[(0 : EpNum)]).lastSetup.wValue.extractLsb' 0 7
            ∧ ((s.ctl = .status
                ∧ ((i = .txComplete 0 ∧ (s.hw[(0 : EpNum)]).ctrTx = true ∧ (s.ep[(0 : EpNum)]).txPos = 0)
                  ∨ (i = .rxComplete 0 ∧ (s.hw[(0 : EpNum)]).ctrRx = true ∧ (s.hw[(0 : EpNum)]).setup = false
                    ∧ (s.ep[(0 : EpNum)]).rxPos ≠ 0)
                  ∨ i = .ctlIn ∨ i = .ctlOut))
              ∨ ∃ e, i = .ctlRow4StatusDone e)))

/-- Rules R8, R37, R43: the parameters never change, each step takes at most the next input, and the block never clears
`bl.exit_request`; only a platform that restarts the block does (log 19). -/
def Obligations.ParametersAndExitRequestStay : Prop :=
  ∀ s t : State, step s = .next t →
    t.cfg = s.cfg ∧ t.inputs = s.inputs.tail
    ∧ (s.bl.exitRequest = true → t.bl.exitRequest = true
      ∨ (s.inputs.head? = some .platformExit ∧ s.cfg.exitEffect = .restart))

/-- The conditions the statements above keep hold at power-on, where the "decision" parameters have the defaults of
rule R8; the OPEN ones there are the platform's, of which nothing is known but that they are valid (log 8). -/
def Obligations.ResetMeetsTheInvariants : Prop :=
  State.reset.memoriesOk = true ∧ State.reset.registersOk = true ∧ State.reset.cursorsOk = true
    ∧ State.reset.arenaOk = true ∧ State.reset.programmingOk = true ∧ State.reset.clean = true
    ∧ State.reset.final = true ∧ State.reset.cfg.valid = true ∧ State.reset.cfg.withDefaults = State.reset.cfg
end

