-- ==== Sys2Proof/Laws/State.lean ====
section
/-! SUPPORT. One lemma per field per update of State, so that no proof unfolds a record update. -/

namespace Sys2Proof.Machine

variable (s : State)

@[simp] theorem State.modEp_brk (n : EpNum) (f : Endpoint → Endpoint) : (s.modEp n f).brk = s.brk := rfl
@[simp] theorem State.modEp_ep (n : EpNum) (f : Endpoint → Endpoint) : (s.modEp n f).ep = s.ep.set n (f s.ep[n]) := rfl
@[simp] theorem State.modEp_bdt (n : EpNum) (f : Endpoint → Endpoint) : (s.modEp n f).bdt = s.bdt := rfl
@[simp] theorem State.modEp_hw (n : EpNum) (f : Endpoint → Endpoint) : (s.modEp n f).hw = s.hw := rfl
@[simp] theorem State.modEp_devAddr (n : EpNum) (f : Endpoint → Endpoint) : (s.modEp n f).devAddr = s.devAddr := rfl
@[simp] theorem State.modEp_devEn (n : EpNum) (f : Endpoint → Endpoint) : (s.modEp n f).devEn = s.devEn := rfl
@[simp] theorem State.modEp_ctl (n : EpNum) (f : Endpoint → Endpoint) : (s.modEp n f).ctl = s.ctl := rfl
@[simp] theorem State.modEp_bl (n : EpNum) (f : Endpoint → Endpoint) : (s.modEp n f).bl = s.bl := rfl
@[simp] theorem State.modEp_ram (n : EpNum) (f : Endpoint → Endpoint) : (s.modEp n f).ram = s.ram := rfl
@[simp] theorem State.modEp_pma (n : EpNum) (f : Endpoint → Endpoint) : (s.modEp n f).pma = s.pma := rfl
@[simp] theorem State.modEp_flash (n : EpNum) (f : Endpoint → Endpoint) : (s.modEp n f).flash = s.flash := rfl
@[simp] theorem State.modEp_flashErased (n : EpNum) (f : Endpoint → Endpoint) : (s.modEp n f).flashErased = s.flashErased := rfl
@[simp] theorem State.modEp_faults (n : EpNum) (f : Endpoint → Endpoint) : (s.modEp n f).faults = s.faults := rfl
@[simp] theorem State.modEp_refused (n : EpNum) (f : Endpoint → Endpoint) : (s.modEp n f).refused = s.refused := rfl
@[simp] theorem State.modEp_cfg (n : EpNum) (f : Endpoint → Endpoint) : (s.modEp n f).cfg = s.cfg := rfl
@[simp] theorem State.modEp_inputs (n : EpNum) (f : Endpoint → Endpoint) : (s.modEp n f).inputs = s.inputs := rfl
@[simp] theorem State.modEp_flashAnswers (n : EpNum) (f : Endpoint → Endpoint) : (s.modEp n f).flashAnswers = s.flashAnswers := rfl
@[simp] theorem State.modEp_classAnswers (n : EpNum) (f : Endpoint → Endpoint) : (s.modEp n f).classAnswers = s.classAnswers := rfl
@[simp] theorem State.modEp_completions (n : EpNum) (f : Endpoint → Endpoint) : (s.modEp n f).completions = s.completions := rfl
@[simp] theorem State.modEp_draws (n : EpNum) (f : Endpoint → Endpoint) : (s.modEp n f).draws = s.draws := rfl
@[simp] theorem State.modEp_obs (n : EpNum) (f : Endpoint → Endpoint) : (s.modEp n f).obs = s.obs := rfl
@[simp] theorem State.modEp_hostReceived (n : EpNum) (f : Endpoint → Endpoint) : (s.modEp n f).hostReceived = s.hostReceived := rfl
@[simp] theorem State.modEp_notices (n : EpNum) (f : Endpoint → Endpoint) : (s.modEp n f).notices = s.notices := rfl

@[simp] theorem State.modBdt_brk (n : EpNum) (f : Descriptor → Descriptor) : (s.modBdt n f).brk = s.brk := rfl
@[simp] theorem State.modBdt_ep (n : EpNum) (f : Descriptor → Descriptor) : (s.modBdt n f).ep = s.ep := rfl
@[simp] theorem State.modBdt_bdt (n : EpNum) (f : Descriptor → Descriptor) : (s.modBdt n f).bdt = s.bdt.set n (f s.bdt[n]) := rfl
@[simp] theorem State.modBdt_hw (n : EpNum) (f : Descriptor → Descriptor) : (s.modBdt n f).hw = s.hw := rfl
@[simp] theorem State.modBdt_devAddr (n : EpNum) (f : Descriptor → Descriptor) : (s.modBdt n f).devAddr = s.devAddr := rfl
@[simp] theorem State.modBdt_devEn (n : EpNum) (f : Descriptor → Descriptor) : (s.modBdt n f).devEn = s.devEn := rfl
@[simp] theorem State.modBdt_ctl (n : EpNum) (f : Descriptor → Descriptor) : (s.modBdt n f).ctl = s.ctl := rfl
@[simp] theorem State.modBdt_bl (n : EpNum) (f : Descriptor → Descriptor) : (s.modBdt n f).bl = s.bl := rfl
@[simp] theorem State.modBdt_ram (n : EpNum) (f : Descriptor → Descriptor) : (s.modBdt n f).ram = s.ram := rfl
@[simp] theorem State.modBdt_pma (n : EpNum) (f : Descriptor → Descriptor) : (s.modBdt n f).pma = s.pma := rfl
@[simp] theorem State.modBdt_flash (n : EpNum) (f : Descriptor → Descriptor) : (s.modBdt n f).flash = s.flash := rfl
@[simp] theorem State.modBdt_flashErased (n : EpNum) (f : Descriptor → Descriptor) : (s.modBdt n f).flashErased = s.flashErased := rfl
@[simp] theorem State.modBdt_faults (n : EpNum) (f : Descriptor → Descriptor) : (s.modBdt n f).faults = s.faults := rfl
@[simp] theorem State.modBdt_refused (n : EpNum) (f : Descriptor → Descriptor) : (s.modBdt n f).refused = s.refused := rfl
@[simp] theorem State.modBdt_cfg (n : EpNum) (f : Descriptor → Descriptor) : (s.modBdt n f).cfg = s.cfg := rfl
@[simp] theorem State.modBdt_inputs (n : EpNum) (f : Descriptor → Descriptor) : (s.modBdt n f).inputs = s.inputs := rfl
@[simp] theorem State.modBdt_flashAnswers (n : EpNum) (f : Descriptor → Descriptor) : (s.modBdt n f).flashAnswers = s.flashAnswers := rfl
@[simp] theorem State.modBdt_classAnswers (n : EpNum) (f : Descriptor → Descriptor) : (s.modBdt n f).classAnswers = s.classAnswers := rfl
@[simp] theorem State.modBdt_completions (n : EpNum) (f : Descriptor → Descriptor) : (s.modBdt n f).completions = s.completions := rfl
@[simp] theorem State.modBdt_draws (n : EpNum) (f : Descriptor → Descriptor) : (s.modBdt n f).draws = s.draws := rfl
@[simp] theorem State.modBdt_obs (n : EpNum) (f : Descriptor → Descriptor) : (s.modBdt n f).obs = s.obs := rfl
@[simp] theorem State.modBdt_hostReceived (n : EpNum) (f : Descriptor → Descriptor) : (s.modBdt n f).hostReceived = s.hostReceived := rfl
@[simp] theorem State.modBdt_notices (n : EpNum) (f : Descriptor → Descriptor) : (s.modBdt n f).notices = s.notices := rfl

@[simp] theorem State.modHw_brk (n : EpNum) (f : EpHardware → EpHardware) : (s.modHw n f).brk = s.brk := rfl
@[simp] theorem State.modHw_ep (n : EpNum) (f : EpHardware → EpHardware) : (s.modHw n f).ep = s.ep := rfl
@[simp] theorem State.modHw_bdt (n : EpNum) (f : EpHardware → EpHardware) : (s.modHw n f).bdt = s.bdt := rfl
@[simp] theorem State.modHw_hw (n : EpNum) (f : EpHardware → EpHardware) : (s.modHw n f).hw = s.hw.set n (f s.hw[n]) := rfl
@[simp] theorem State.modHw_devAddr (n : EpNum) (f : EpHardware → EpHardware) : (s.modHw n f).devAddr = s.devAddr := rfl
@[simp] theorem State.modHw_devEn (n : EpNum) (f : EpHardware → EpHardware) : (s.modHw n f).devEn = s.devEn := rfl
@[simp] theorem State.modHw_ctl (n : EpNum) (f : EpHardware → EpHardware) : (s.modHw n f).ctl = s.ctl := rfl
@[simp] theorem State.modHw_bl (n : EpNum) (f : EpHardware → EpHardware) : (s.modHw n f).bl = s.bl := rfl
@[simp] theorem State.modHw_ram (n : EpNum) (f : EpHardware → EpHardware) : (s.modHw n f).ram = s.ram := rfl
@[simp] theorem State.modHw_pma (n : EpNum) (f : EpHardware → EpHardware) : (s.modHw n f).pma = s.pma := rfl
@[simp] theorem State.modHw_flash (n : EpNum) (f : EpHardware → EpHardware) : (s.modHw n f).flash = s.flash := rfl
@[simp] theorem State.modHw_flashErased (n : EpNum) (f : EpHardware → EpHardware) : (s.modHw n f).flashErased = s.flashErased := rfl
@[simp] theorem State.modHw_faults (n : EpNum) (f : EpHardware → EpHardware) : (s.modHw n f).faults = s.faults := rfl
@[simp] theorem State.modHw_refused (n : EpNum) (f : EpHardware → EpHardware) : (s.modHw n f).refused = s.refused := rfl
@[simp] theorem State.modHw_cfg (n : EpNum) (f : EpHardware → EpHardware) : (s.modHw n f).cfg = s.cfg := rfl
@[simp] theorem State.modHw_inputs (n : EpNum) (f : EpHardware → EpHardware) : (s.modHw n f).inputs = s.inputs := rfl
@[simp] theorem State.modHw_flashAnswers (n : EpNum) (f : EpHardware → EpHardware) : (s.modHw n f).flashAnswers = s.flashAnswers := rfl
@[simp] theorem State.modHw_classAnswers (n : EpNum) (f : EpHardware → EpHardware) : (s.modHw n f).classAnswers = s.classAnswers := rfl
@[simp] theorem State.modHw_completions (n : EpNum) (f : EpHardware → EpHardware) : (s.modHw n f).completions = s.completions := rfl
@[simp] theorem State.modHw_draws (n : EpNum) (f : EpHardware → EpHardware) : (s.modHw n f).draws = s.draws := rfl
@[simp] theorem State.modHw_obs (n : EpNum) (f : EpHardware → EpHardware) : (s.modHw n f).obs = s.obs := rfl
@[simp] theorem State.modHw_hostReceived (n : EpNum) (f : EpHardware → EpHardware) : (s.modHw n f).hostReceived = s.hostReceived := rfl
@[simp] theorem State.modHw_notices (n : EpNum) (f : EpHardware → EpHardware) : (s.modHw n f).notices = s.notices := rfl

@[simp] theorem State.modBl_brk (f : Boot → Boot) : (s.modBl f).brk = s.brk := rfl
@[simp] theorem State.modBl_ep (f : Boot → Boot) : (s.modBl f).ep = s.ep := rfl
@[simp] theorem State.modBl_bdt (f : Boot → Boot) : (s.modBl f).bdt = s.bdt := rfl
@[simp] theorem State.modBl_hw (f : Boot → Boot) : (s.modBl f).hw = s.hw := rfl
@[simp] theorem State.modBl_devAddr (f : Boot → Boot) : (s.modBl f).devAddr = s.devAddr := rfl
@[simp] theorem State.modBl_devEn (f : Boot → Boot) : (s.modBl f).devEn = s.devEn := rfl
@[simp] theorem State.modBl_ctl (f : Boot → Boot) : (s.modBl f).ctl = s.ctl := rfl
@[simp] theorem State.modBl_bl (f : Boot → Boot) : (s.modBl f).bl = f s.bl := rfl
@[simp] theorem State.modBl_ram (f : Boot → Boot) : (s.modBl f).ram = s.ram := rfl
@[simp] theorem State.modBl_pma (f : Boot → Boot) : (s.modBl f).pma = s.pma := rfl
@[simp] theorem State.modBl_flash (f : Boot → Boot) : (s.modBl f).flash = s.flash := rfl
@[simp] theorem State.modBl_flashErased (f : Boot → Boot) : (s.modBl f).flashErased = s.flashErased := rfl
@[simp] theorem State.modBl_faults (f : Boot → Boot) : (s.modBl f).faults = s.faults := rfl
@[simp] theorem State.modBl_refused (f : Boot → Boot) : (s.modBl f).refused = s.refused := rfl
@[simp] theorem State.modBl_cfg (f : Boot → Boot) : (s.modBl f).cfg = s.cfg := rfl
@[simp] theorem State.modBl_inputs (f : Boot → Boot) : (s.modBl f).inputs = s.inputs := rfl
@[simp] theorem State.modBl_flashAnswers (f : Boot → Boot) : (s.modBl f).flashAnswers = s.flashAnswers := rfl
@[simp] theorem State.modBl_classAnswers (f : Boot → Boot) : (s.modBl f).classAnswers = s.classAnswers := rfl
@[simp] theorem State.modBl_completions (f : Boot → Boot) : (s.modBl f).completions = s.completions := rfl
@[simp] theorem State.modBl_draws (f : Boot → Boot) : (s.modBl f).draws = s.draws := rfl
@[simp] theorem State.modBl_obs (f : Boot → Boot) : (s.modBl f).obs = s.obs := rfl
@[simp] theorem State.modBl_hostReceived (f : Boot → Boot) : (s.modBl f).hostReceived = s.hostReceived := rfl
@[simp] theorem State.modBl_notices (f : Boot → Boot) : (s.modBl f).notices = s.notices := rfl

@[simp] theorem State.setCtl_brk (v : CtlState) : (s.setCtl v).brk = s.brk := rfl
@[simp] theorem State.setCtl_ep (v : CtlState) : (s.setCtl v).ep = s.ep := rfl
@[simp] theorem State.setCtl_bdt (v : CtlState) : (s.setCtl v).bdt = s.bdt := rfl
@[simp] theorem State.setCtl_hw (v : CtlState) : (s.setCtl v).hw = s.hw := rfl
@[simp] theorem State.setCtl_devAddr (v : CtlState) : (s.setCtl v).devAddr = s.devAddr := rfl
@[simp] theorem State.setCtl_devEn (v : CtlState) : (s.setCtl v).devEn = s.devEn := rfl
@[simp] theorem State.setCtl_ctl (v : CtlState) : (s.setCtl v).ctl = v := rfl
@[simp] theorem State.setCtl_bl (v : CtlState) : (s.setCtl v).bl = s.bl := rfl
@[simp] theorem State.setCtl_ram (v : CtlState) : (s.setCtl v).ram = s.ram := rfl
@[simp] theorem State.setCtl_pma (v : CtlState) : (s.setCtl v).pma = s.pma := rfl
@[simp] theorem State.setCtl_flash (v : CtlState) : (s.setCtl v).flash = s.flash := rfl
@[simp] theorem State.setCtl_flashErased (v : CtlState) : (s.setCtl v).flashErased = s.flashErased := rfl
@[simp] theorem State.setCtl_faults (v : CtlState) : (s.setCtl v).faults = s.faults := rfl
@[simp] theorem State.setCtl_refused (v : CtlState) : (s.setCtl v).refused = s.refused := rfl
@[simp] theorem State.setCtl_cfg (v : CtlState) : (s.setCtl v).cfg = s.cfg := rfl
@[simp] theorem State.setCtl_inputs (v : CtlState) : (s.setCtl v).inputs = s.inputs := rfl
@[simp] theorem State.setCtl_flashAnswers (v : CtlState) : (s.setCtl v).flashAnswers = s.flashAnswers := rfl
@[simp] theorem State.setCtl_classAnswers (v : CtlState) : (s.setCtl v).classAnswers = s.classAnswers := rfl
@[simp] theorem State.setCtl_completions (v : CtlState) : (s.setCtl v).completions = s.completions := rfl
@[simp] theorem State.setCtl_draws (v : CtlState) : (s.setCtl v).draws = s.draws := rfl
@[simp] theorem State.setCtl_obs (v : CtlState) : (s.setCtl v).obs = s.obs := rfl
@[simp] theorem State.setCtl_hostReceived (v : CtlState) : (s.setCtl v).hostReceived = s.hostReceived := rfl
@[simp] theorem State.setCtl_notices (v : CtlState) : (s.setCtl v).notices = s.notices := rfl

@[simp] theorem State.raise_brk (k : FaultKind) : (s.raise k).brk = s.brk := rfl
@[simp] theorem State.raise_ep (k : FaultKind) : (s.raise k).ep = s.ep := rfl
@[simp] theorem State.raise_bdt (k : FaultKind) : (s.raise k).bdt = s.bdt := rfl
@[simp] theorem State.raise_hw (k : FaultKind) : (s.raise k).hw = s.hw := rfl
@[simp] theorem State.raise_devAddr (k : FaultKind) : (s.raise k).devAddr = s.devAddr := rfl
@[simp] theorem State.raise_devEn (k : FaultKind) : (s.raise k).devEn = s.devEn := rfl
@[simp] theorem State.raise_ctl (k : FaultKind) : (s.raise k).ctl = s.ctl := rfl
@[simp] theorem State.raise_bl (k : FaultKind) : (s.raise k).bl = s.bl := rfl
@[simp] theorem State.raise_ram (k : FaultKind) : (s.raise k).ram = s.ram := rfl
@[simp] theorem State.raise_pma (k : FaultKind) : (s.raise k).pma = s.pma := rfl
@[simp] theorem State.raise_flash (k : FaultKind) : (s.raise k).flash = s.flash := rfl
@[simp] theorem State.raise_flashErased (k : FaultKind) : (s.raise k).flashErased = s.flashErased := rfl
@[simp] theorem State.raise_faults (k : FaultKind) : (s.raise k).faults = s.faults.insert k := rfl
@[simp] theorem State.raise_refused (k : FaultKind) : (s.raise k).refused = s.refused := rfl
@[simp] theorem State.raise_cfg (k : FaultKind) : (s.raise k).cfg = s.cfg := rfl
@[simp] theorem State.raise_inputs (k : FaultKind) : (s.raise k).inputs = s.inputs := rfl
@[simp] theorem State.raise_flashAnswers (k : FaultKind) : (s.raise k).flashAnswers = s.flashAnswers := rfl
@[simp] theorem State.raise_classAnswers (k : FaultKind) : (s.raise k).classAnswers = s.classAnswers := rfl
@[simp] theorem State.raise_completions (k : FaultKind) : (s.raise k).completions = s.completions := rfl
@[simp] theorem State.raise_draws (k : FaultKind) : (s.raise k).draws = s.draws := rfl
@[simp] theorem State.raise_obs (k : FaultKind) : (s.raise k).obs = s.obs := rfl
@[simp] theorem State.raise_hostReceived (k : FaultKind) : (s.raise k).hostReceived = s.hostReceived := rfl
@[simp] theorem State.raise_notices (k : FaultKind) : (s.raise k).notices = s.notices := rfl

@[simp] theorem State.raiseIf_brk (c : Bool) (k : FaultKind) : (s.raiseIf c k).brk = s.brk := rfl
@[simp] theorem State.raiseIf_ep (c : Bool) (k : FaultKind) : (s.raiseIf c k).ep = s.ep := rfl
@[simp] theorem State.raiseIf_bdt (c : Bool) (k : FaultKind) : (s.raiseIf c k).bdt = s.bdt := rfl
@[simp] theorem State.raiseIf_hw (c : Bool) (k : FaultKind) : (s.raiseIf c k).hw = s.hw := rfl
@[simp] theorem State.raiseIf_devAddr (c : Bool) (k : FaultKind) : (s.raiseIf c k).devAddr = s.devAddr := rfl
@[simp] theorem State.raiseIf_devEn (c : Bool) (k : FaultKind) : (s.raiseIf c k).devEn = s.devEn := rfl
@[simp] theorem State.raiseIf_ctl (c : Bool) (k : FaultKind) : (s.raiseIf c k).ctl = s.ctl := rfl
@[simp] theorem State.raiseIf_bl (c : Bool) (k : FaultKind) : (s.raiseIf c k).bl = s.bl := rfl
@[simp] theorem State.raiseIf_ram (c : Bool) (k : FaultKind) : (s.raiseIf c k).ram = s.ram := rfl
@[simp] theorem State.raiseIf_pma (c : Bool) (k : FaultKind) : (s.raiseIf c k).pma = s.pma := rfl
@[simp] theorem State.raiseIf_flash (c : Bool) (k : FaultKind) : (s.raiseIf c k).flash = s.flash := rfl
@[simp] theorem State.raiseIf_flashErased (c : Bool) (k : FaultKind) : (s.raiseIf c k).flashErased = s.flashErased := rfl
@[simp] theorem State.raiseIf_faults (c : Bool) (k : FaultKind) : (s.raiseIf c k).faults = if c then s.faults.insert k else s.faults := rfl
@[simp] theorem State.raiseIf_refused (c : Bool) (k : FaultKind) : (s.raiseIf c k).refused = s.refused := rfl
@[simp] theorem State.raiseIf_cfg (c : Bool) (k : FaultKind) : (s.raiseIf c k).cfg = s.cfg := rfl
@[simp] theorem State.raiseIf_inputs (c : Bool) (k : FaultKind) : (s.raiseIf c k).inputs = s.inputs := rfl
@[simp] theorem State.raiseIf_flashAnswers (c : Bool) (k : FaultKind) : (s.raiseIf c k).flashAnswers = s.flashAnswers := rfl
@[simp] theorem State.raiseIf_classAnswers (c : Bool) (k : FaultKind) : (s.raiseIf c k).classAnswers = s.classAnswers := rfl
@[simp] theorem State.raiseIf_completions (c : Bool) (k : FaultKind) : (s.raiseIf c k).completions = s.completions := rfl
@[simp] theorem State.raiseIf_draws (c : Bool) (k : FaultKind) : (s.raiseIf c k).draws = s.draws := rfl
@[simp] theorem State.raiseIf_obs (c : Bool) (k : FaultKind) : (s.raiseIf c k).obs = s.obs := rfl
@[simp] theorem State.raiseIf_hostReceived (c : Bool) (k : FaultKind) : (s.raiseIf c k).hostReceived = s.hostReceived := rfl
@[simp] theorem State.raiseIf_notices (c : Bool) (k : FaultKind) : (s.raiseIf c k).notices = s.notices := rfl

@[simp] theorem State.refuse_brk (r : RefusalReason) : (s.refuse r).brk = s.brk := rfl
@[simp] theorem State.refuse_ep (r : RefusalReason) : (s.refuse r).ep = s.ep := rfl
@[simp] theorem State.refuse_bdt (r : RefusalReason) : (s.refuse r).bdt = s.bdt := rfl
@[simp] theorem State.refuse_hw (r : RefusalReason) : (s.refuse r).hw = s.hw := rfl
@[simp] theorem State.refuse_devAddr (r : RefusalReason) : (s.refuse r).devAddr = s.devAddr := rfl
@[simp] theorem State.refuse_devEn (r : RefusalReason) : (s.refuse r).devEn = s.devEn := rfl
@[simp] theorem State.refuse_ctl (r : RefusalReason) : (s.refuse r).ctl = s.ctl := rfl
@[simp] theorem State.refuse_bl (r : RefusalReason) : (s.refuse r).bl = s.bl := rfl
@[simp] theorem State.refuse_ram (r : RefusalReason) : (s.refuse r).ram = s.ram := rfl
@[simp] theorem State.refuse_pma (r : RefusalReason) : (s.refuse r).pma = s.pma := rfl
@[simp] theorem State.refuse_flash (r : RefusalReason) : (s.refuse r).flash = s.flash := rfl
@[simp] theorem State.refuse_flashErased (r : RefusalReason) : (s.refuse r).flashErased = s.flashErased := rfl
@[simp] theorem State.refuse_faults (r : RefusalReason) : (s.refuse r).faults = s.faults := rfl
@[simp] theorem State.refuse_refused (r : RefusalReason) : (s.refuse r).refused = s.refused.or (some r) := rfl
@[simp] theorem State.refuse_cfg (r : RefusalReason) : (s.refuse r).cfg = s.cfg := rfl
@[simp] theorem State.refuse_inputs (r : RefusalReason) : (s.refuse r).inputs = s.inputs := rfl
@[simp] theorem State.refuse_flashAnswers (r : RefusalReason) : (s.refuse r).flashAnswers = s.flashAnswers := rfl
@[simp] theorem State.refuse_classAnswers (r : RefusalReason) : (s.refuse r).classAnswers = s.classAnswers := rfl
@[simp] theorem State.refuse_completions (r : RefusalReason) : (s.refuse r).completions = s.completions := rfl
@[simp] theorem State.refuse_draws (r : RefusalReason) : (s.refuse r).draws = s.draws := rfl
@[simp] theorem State.refuse_obs (r : RefusalReason) : (s.refuse r).obs = s.obs := rfl
@[simp] theorem State.refuse_hostReceived (r : RefusalReason) : (s.refuse r).hostReceived = s.hostReceived := rfl
@[simp] theorem State.refuse_notices (r : RefusalReason) : (s.refuse r).notices = s.notices := rfl

@[simp] theorem State.noStep_brk : (s.noStep).brk = s.brk := rfl
@[simp] theorem State.noStep_ep : (s.noStep).ep = s.ep := rfl
@[simp] theorem State.noStep_bdt : (s.noStep).bdt = s.bdt := rfl
@[simp] theorem State.noStep_hw : (s.noStep).hw = s.hw := rfl
@[simp] theorem State.noStep_devAddr : (s.noStep).devAddr = s.devAddr := rfl
@[simp] theorem State.noStep_devEn : (s.noStep).devEn = s.devEn := rfl
@[simp] theorem State.noStep_ctl : (s.noStep).ctl = s.ctl := rfl
@[simp] theorem State.noStep_bl : (s.noStep).bl = s.bl := rfl
@[simp] theorem State.noStep_ram : (s.noStep).ram = s.ram := rfl
@[simp] theorem State.noStep_pma : (s.noStep).pma = s.pma := rfl
@[simp] theorem State.noStep_flash : (s.noStep).flash = s.flash := rfl
@[simp] theorem State.noStep_flashErased : (s.noStep).flashErased = s.flashErased := rfl
@[simp] theorem State.noStep_faults : (s.noStep).faults = s.faults := rfl
@[simp] theorem State.noStep_refused : (s.noStep).refused = s.refused := rfl
@[simp] theorem State.noStep_cfg : (s.noStep).cfg = s.cfg := rfl
@[simp] theorem State.noStep_inputs : (s.noStep).inputs = s.inputs := rfl
@[simp] theorem State.noStep_flashAnswers : (s.noStep).flashAnswers = s.flashAnswers := rfl
@[simp] theorem State.noStep_classAnswers : (s.noStep).classAnswers = s.classAnswers := rfl
@[simp] theorem State.noStep_completions : (s.noStep).completions = s.completions := rfl
@[simp] theorem State.noStep_draws : (s.noStep).draws = s.draws := rfl
@[simp] theorem State.noStep_obs : (s.noStep).obs = .noStep := rfl
@[simp] theorem State.noStep_hostReceived : (s.noStep).hostReceived = s.hostReceived := rfl
@[simp] theorem State.noStep_notices : (s.noStep).notices = s.notices := rfl

@[simp] theorem State.declined_brk (v : SideStatus) : (s.declined v).brk = s.brk := rfl
@[simp] theorem State.declined_ep (v : SideStatus) : (s.declined v).ep = s.ep := rfl
@[simp] theorem State.declined_bdt (v : SideStatus) : (s.declined v).bdt = s.bdt := rfl
@[simp] theorem State.declined_hw (v : SideStatus) : (s.declined v).hw = s.hw := rfl
@[simp] theorem State.declined_devAddr (v : SideStatus) : (s.declined v).devAddr = s.devAddr := rfl
@[simp] theorem State.declined_devEn (v : SideStatus) : (s.declined v).devEn = s.devEn := rfl
@[simp] theorem State.declined_ctl (v : SideStatus) : (s.declined v).ctl = s.ctl := rfl
@[simp] theorem State.declined_bl (v : SideStatus) : (s.declined v).bl = s.bl := rfl
@[simp] theorem State.declined_ram (v : SideStatus) : (s.declined v).ram = s.ram := rfl
@[simp] theorem State.declined_pma (v : SideStatus) : (s.declined v).pma = s.pma := rfl
@[simp] theorem State.declined_flash (v : SideStatus) : (s.declined v).flash = s.flash := rfl
@[simp] theorem State.declined_flashErased (v : SideStatus) : (s.declined v).flashErased = s.flashErased := rfl
@[simp] theorem State.declined_faults (v : SideStatus) : (s.declined v).faults = s.faults := rfl
@[simp] theorem State.declined_refused (v : SideStatus) : (s.declined v).refused = s.refused := rfl
@[simp] theorem State.declined_cfg (v : SideStatus) : (s.declined v).cfg = s.cfg := rfl
@[simp] theorem State.declined_inputs (v : SideStatus) : (s.declined v).inputs = s.inputs := rfl
@[simp] theorem State.declined_flashAnswers (v : SideStatus) : (s.declined v).flashAnswers = s.flashAnswers := rfl
@[simp] theorem State.declined_classAnswers (v : SideStatus) : (s.declined v).classAnswers = s.classAnswers := rfl
@[simp] theorem State.declined_completions (v : SideStatus) : (s.declined v).completions = s.completions := rfl
@[simp] theorem State.declined_draws (v : SideStatus) : (s.declined v).draws = s.draws := rfl
@[simp] theorem State.declined_obs (v : SideStatus) : (s.declined v).obs = if s.devEn then v.answer else .handshake .noAnswer := rfl
@[simp] theorem State.declined_hostReceived (v : SideStatus) : (s.declined v).hostReceived = s.hostReceived := rfl
@[simp] theorem State.declined_notices (v : SideStatus) : (s.declined v).notices = s.notices := rfl

@[simp] theorem State.notify_brk (v : Notice) : (s.notify v).brk = s.brk := rfl
@[simp] theorem State.notify_ep (v : Notice) : (s.notify v).ep = s.ep := rfl
@[simp] theorem State.notify_bdt (v : Notice) : (s.notify v).bdt = s.bdt := rfl
@[simp] theorem State.notify_hw (v : Notice) : (s.notify v).hw = s.hw := rfl
@[simp] theorem State.notify_devAddr (v : Notice) : (s.notify v).devAddr = s.devAddr := rfl
@[simp] theorem State.notify_devEn (v : Notice) : (s.notify v).devEn = s.devEn := rfl
@[simp] theorem State.notify_ctl (v : Notice) : (s.notify v).ctl = s.ctl := rfl
@[simp] theorem State.notify_bl (v : Notice) : (s.notify v).bl = s.bl := rfl
@[simp] theorem State.notify_ram (v : Notice) : (s.notify v).ram = s.ram := rfl
@[simp] theorem State.notify_pma (v : Notice) : (s.notify v).pma = s.pma := rfl
@[simp] theorem State.notify_flash (v : Notice) : (s.notify v).flash = s.flash := rfl
@[simp] theorem State.notify_flashErased (v : Notice) : (s.notify v).flashErased = s.flashErased := rfl
@[simp] theorem State.notify_faults (v : Notice) : (s.notify v).faults = s.faults := rfl
@[simp] theorem State.notify_refused (v : Notice) : (s.notify v).refused = s.refused := rfl
@[simp] theorem State.notify_cfg (v : Notice) : (s.notify v).cfg = s.cfg := rfl
@[simp] theorem State.notify_inputs (v : Notice) : (s.notify v).inputs = s.inputs := rfl
@[simp] theorem State.notify_flashAnswers (v : Notice) : (s.notify v).flashAnswers = s.flashAnswers := rfl
@[simp] theorem State.notify_classAnswers (v : Notice) : (s.notify v).classAnswers = s.classAnswers := rfl
@[simp] theorem State.notify_completions (v : Notice) : (s.notify v).completions = s.completions := rfl
@[simp] theorem State.notify_draws (v : Notice) : (s.notify v).draws = s.draws := rfl
@[simp] theorem State.notify_obs (v : Notice) : (s.notify v).obs = s.obs := rfl
@[simp] theorem State.notify_hostReceived (v : Notice) : (s.notify v).hostReceived = s.hostReceived := rfl
@[simp] theorem State.notify_notices (v : Notice) : (s.notify v).notices = s.notices ++ [v] := rfl

@[simp] theorem State.ramWrite_brk (a : Word) (bs : List Byte) : (s.ramWrite a bs).brk = s.brk := rfl
@[simp] theorem State.ramWrite_ep (a : Word) (bs : List Byte) : (s.ramWrite a bs).ep = s.ep := rfl
@[simp] theorem State.ramWrite_bdt (a : Word) (bs : List Byte) : (s.ramWrite a bs).bdt = s.bdt := rfl
@[simp] theorem State.ramWrite_hw (a : Word) (bs : List Byte) : (s.ramWrite a bs).hw = s.hw := rfl
@[simp] theorem State.ramWrite_devAddr (a : Word) (bs : List Byte) : (s.ramWrite a bs).devAddr = s.devAddr := rfl
@[simp] theorem State.ramWrite_devEn (a : Word) (bs : List Byte) : (s.ramWrite a bs).devEn = s.devEn := rfl
@[simp] theorem State.ramWrite_ctl (a : Word) (bs : List Byte) : (s.ramWrite a bs).ctl = s.ctl := rfl
@[simp] theorem State.ramWrite_bl (a : Word) (bs : List Byte) : (s.ramWrite a bs).bl = s.bl := rfl
@[simp] theorem State.ramWrite_ram (a : Word) (bs : List Byte) : (s.ramWrite a bs).ram = s.ram.store a 0 bs := rfl
@[simp] theorem State.ramWrite_pma (a : Word) (bs : List Byte) : (s.ramWrite a bs).pma = s.pma := rfl
@[simp] theorem State.ramWrite_flash (a : Word) (bs : List Byte) : (s.ramWrite a bs).flash = s.flash := rfl
@[simp] theorem State.ramWrite_flashErased (a : Word) (bs : List Byte) : (s.ramWrite a bs).flashErased = s.flashErased := rfl
@[simp] theorem State.ramWrite_faults (a : Word) (bs : List Byte) : (s.ramWrite a bs).faults = s.faults := rfl
@[simp] theorem State.ramWrite_refused (a : Word) (bs : List Byte) : (s.ramWrite a bs).refused = s.refused := rfl
@[simp] theorem State.ramWrite_cfg (a : Word) (bs : List Byte) : (s.ramWrite a bs).cfg = s.cfg := rfl
@[simp] theorem State.ramWrite_inputs (a : Word) (bs : List Byte) : (s.ramWrite a bs).inputs = s.inputs := rfl
@[simp] theorem State.ramWrite_flashAnswers (a : Word) (bs : List Byte) : (s.ramWrite a bs).flashAnswers = s.flashAnswers := rfl
@[simp] theorem State.ramWrite_classAnswers (a : Word) (bs : List Byte) : (s.ramWrite a bs).classAnswers = s.classAnswers := rfl
@[simp] theorem State.ramWrite_completions (a : Word) (bs : List Byte) : (s.ramWrite a bs).completions = s.completions := rfl
@[simp] theorem State.ramWrite_draws (a : Word) (bs : List Byte) : (s.ramWrite a bs).draws = s.draws := rfl
@[simp] theorem State.ramWrite_obs (a : Word) (bs : List Byte) : (s.ramWrite a bs).obs = s.obs := rfl
@[simp] theorem State.ramWrite_hostReceived (a : Word) (bs : List Byte) : (s.ramWrite a bs).hostReceived = s.hostReceived := rfl
@[simp] theorem State.ramWrite_notices (a : Word) (bs : List Byte) : (s.ramWrite a bs).notices = s.notices := rfl

@[simp] theorem State.setInWord_brk (i : Nat) (v : Word) : (s.setInWord i v).brk = s.brk := rfl
@[simp] theorem State.setInWord_ep (i : Nat) (v : Word) : (s.setInWord i v).ep = s.ep := rfl
@[simp] theorem State.setInWord_bdt (i : Nat) (v : Word) : (s.setInWord i v).bdt = s.bdt := rfl
@[simp] theorem State.setInWord_hw (i : Nat) (v : Word) : (s.setInWord i v).hw = s.hw := rfl
@[simp] theorem State.setInWord_devAddr (i : Nat) (v : Word) : (s.setInWord i v).devAddr = s.devAddr := rfl
@[simp] theorem State.setInWord_devEn (i : Nat) (v : Word) : (s.setInWord i v).devEn = s.devEn := rfl
@[simp] theorem State.setInWord_ctl (i : Nat) (v : Word) : (s.setInWord i v).ctl = s.ctl := rfl
@[simp] theorem State.setInWord_bl (i : Nat) (v : Word) : (s.setInWord i v).bl = s.bl := rfl
@[simp] theorem State.setInWord_ram (i : Nat) (v : Word) : (s.setInWord i v).ram = s.ram.store s.cfg.inBuf (4 * i) (leBytes 4 v) := rfl
@[simp] theorem State.setInWord_pma (i : Nat) (v : Word) : (s.setInWord i v).pma = s.pma := rfl
@[simp] theorem State.setInWord_flash (i : Nat) (v : Word) : (s.setInWord i v).flash = s.flash := rfl
@[simp] theorem State.setInWord_flashErased (i : Nat) (v : Word) : (s.setInWord i v).flashErased = s.flashErased := rfl
@[simp] theorem State.setInWord_faults (i : Nat) (v : Word) : (s.setInWord i v).faults = s.faults := rfl
@[simp] theorem State.setInWord_refused (i : Nat) (v : Word) : (s.setInWord i v).refused = s.refused := rfl
@[simp] theorem State.setInWord_cfg (i : Nat) (v : Word) : (s.setInWord i v).cfg = s.cfg := rfl
@[simp] theorem State.setInWord_inputs (i : Nat) (v : Word) : (s.setInWord i v).inputs = s.inputs := rfl
@[simp] theorem State.setInWord_flashAnswers (i : Nat) (v : Word) : (s.setInWord i v).flashAnswers = s.flashAnswers := rfl
@[simp] theorem State.setInWord_classAnswers (i : Nat) (v : Word) : (s.setInWord i v).classAnswers = s.classAnswers := rfl
@[simp] theorem State.setInWord_completions (i : Nat) (v : Word) : (s.setInWord i v).completions = s.completions := rfl
@[simp] theorem State.setInWord_draws (i : Nat) (v : Word) : (s.setInWord i v).draws = s.draws := rfl
@[simp] theorem State.setInWord_obs (i : Nat) (v : Word) : (s.setInWord i v).obs = s.obs := rfl
@[simp] theorem State.setInWord_hostReceived (i : Nat) (v : Word) : (s.setInWord i v).hostReceived = s.hostReceived := rfl
@[simp] theorem State.setInWord_notices (i : Nat) (v : Word) : (s.setInWord i v).notices = s.notices := rfl

@[simp] theorem State.pmaTouch_brk (o n : Nat) : (s.pmaTouch o n).brk = s.brk := rfl
@[simp] theorem State.pmaTouch_ep (o n : Nat) : (s.pmaTouch o n).ep = s.ep := rfl
@[simp] theorem State.pmaTouch_bdt (o n : Nat) : (s.pmaTouch o n).bdt = s.bdt := rfl
@[simp] theorem State.pmaTouch_hw (o n : Nat) : (s.pmaTouch o n).hw = s.hw := rfl
@[simp] theorem State.pmaTouch_devAddr (o n : Nat) : (s.pmaTouch o n).devAddr = s.devAddr := rfl
@[simp] theorem State.pmaTouch_devEn (o n : Nat) : (s.pmaTouch o n).devEn = s.devEn := rfl
@[simp] theorem State.pmaTouch_ctl (o n : Nat) : (s.pmaTouch o n).ctl = s.ctl := rfl
@[simp] theorem State.pmaTouch_bl (o n : Nat) : (s.pmaTouch o n).bl = s.bl := rfl
@[simp] theorem State.pmaTouch_ram (o n : Nat) : (s.pmaTouch o n).ram = s.ram := rfl
@[simp] theorem State.pmaTouch_pma (o n : Nat) : (s.pmaTouch o n).pma = s.pma := rfl
@[simp] theorem State.pmaTouch_flash (o n : Nat) : (s.pmaTouch o n).flash = s.flash := rfl
@[simp] theorem State.pmaTouch_flashErased (o n : Nat) : (s.pmaTouch o n).flashErased = s.flashErased := rfl
@[simp] theorem State.pmaTouch_refused (o n : Nat) : (s.pmaTouch o n).refused = s.refused := rfl
@[simp] theorem State.pmaTouch_cfg (o n : Nat) : (s.pmaTouch o n).cfg = s.cfg := rfl
@[simp] theorem State.pmaTouch_inputs (o n : Nat) : (s.pmaTouch o n).inputs = s.inputs := rfl
@[simp] theorem State.pmaTouch_flashAnswers (o n : Nat) : (s.pmaTouch o n).flashAnswers = s.flashAnswers := rfl
@[simp] theorem State.pmaTouch_classAnswers (o n : Nat) : (s.pmaTouch o n).classAnswers = s.classAnswers := rfl
@[simp] theorem State.pmaTouch_completions (o n : Nat) : (s.pmaTouch o n).completions = s.completions := rfl
@[simp] theorem State.pmaTouch_obs (o n : Nat) : (s.pmaTouch o n).obs = s.obs := rfl
@[simp] theorem State.pmaTouch_hostReceived (o n : Nat) : (s.pmaTouch o n).hostReceived = s.hostReceived := rfl
@[simp] theorem State.pmaTouch_notices (o n : Nat) : (s.pmaTouch o n).notices = s.notices := rfl

@[simp] theorem State.pmaWrite_brk (o : Nat) (bs : List Byte) : (s.pmaWrite o bs).brk = s.brk := rfl
@[simp] theorem State.pmaWrite_ep (o : Nat) (bs : List Byte) : (s.pmaWrite o bs).ep = s.ep := rfl
@[simp] theorem State.pmaWrite_bdt (o : Nat) (bs : List Byte) : (s.pmaWrite o bs).bdt = s.bdt := rfl
@[simp] theorem State.pmaWrite_hw (o : Nat) (bs : List Byte) : (s.pmaWrite o bs).hw = s.hw := rfl
@[simp] theorem State.pmaWrite_devAddr (o : Nat) (bs : List Byte) : (s.pmaWrite o bs).devAddr = s.devAddr := rfl
@[simp] theorem State.pmaWrite_devEn (o : Nat) (bs : List Byte) : (s.pmaWrite o bs).devEn = s.devEn := rfl
@[simp] theorem State.pmaWrite_ctl (o : Nat) (bs : List Byte) : (s.pmaWrite o bs).ctl = s.ctl := rfl
@[simp] theorem State.pmaWrite_bl (o : Nat) (bs : List Byte) : (s.pmaWrite o bs).bl = s.bl := rfl
@[simp] theorem State.pmaWrite_ram (o : Nat) (bs : List Byte) : (s.pmaWrite o bs).ram = s.ram := rfl
@[simp] theorem State.pmaWrite_pma (o : Nat) (bs : List Byte) : (s.pmaWrite o bs).pma = pmaStore s.cfg.pmaSize s.pma o bs := rfl
@[simp] theorem State.pmaWrite_flash (o : Nat) (bs : List Byte) : (s.pmaWrite o bs).flash = s.flash := rfl
@[simp] theorem State.pmaWrite_flashErased (o : Nat) (bs : List Byte) : (s.pmaWrite o bs).flashErased = s.flashErased := rfl
@[simp] theorem State.pmaWrite_refused (o : Nat) (bs : List Byte) : (s.pmaWrite o bs).refused = s.refused := rfl
@[simp] theorem State.pmaWrite_cfg (o : Nat) (bs : List Byte) : (s.pmaWrite o bs).cfg = s.cfg := rfl
@[simp] theorem State.pmaWrite_inputs (o : Nat) (bs : List Byte) : (s.pmaWrite o bs).inputs = s.inputs := rfl
@[simp] theorem State.pmaWrite_flashAnswers (o : Nat) (bs : List Byte) : (s.pmaWrite o bs).flashAnswers = s.flashAnswers := rfl
@[simp] theorem State.pmaWrite_classAnswers (o : Nat) (bs : List Byte) : (s.pmaWrite o bs).classAnswers = s.classAnswers := rfl
@[simp] theorem State.pmaWrite_completions (o : Nat) (bs : List Byte) : (s.pmaWrite o bs).completions = s.completions := rfl
@[simp] theorem State.pmaWrite_draws (o : Nat) (bs : List Byte) : (s.pmaWrite o bs).draws = s.draws := rfl
@[simp] theorem State.pmaWrite_obs (o : Nat) (bs : List Byte) : (s.pmaWrite o bs).obs = s.obs := rfl
@[simp] theorem State.pmaWrite_hostReceived (o : Nat) (bs : List Byte) : (s.pmaWrite o bs).hostReceived = s.hostReceived := rfl
@[simp] theorem State.pmaWrite_notices (o : Nat) (bs : List Byte) : (s.pmaWrite o bs).notices = s.notices := rfl

@[simp] theorem State.allocReset_brk : (s.allocReset).brk = s.cfg.arenaStart := rfl
@[simp] theorem State.allocReset_ep : (s.allocReset).ep = s.ep := rfl
@[simp] theorem State.allocReset_bdt : (s.allocReset).bdt = s.bdt := rfl
@[simp] theorem State.allocReset_hw : (s.allocReset).hw = s.hw := rfl
@[simp] theorem State.allocReset_devAddr : (s.allocReset).devAddr = s.devAddr := rfl
@[simp] theorem State.allocReset_devEn : (s.allocReset).devEn = s.devEn := rfl
@[simp] theorem State.allocReset_ctl : (s.allocReset).ctl = s.ctl := rfl
@[simp] theorem State.allocReset_bl : (s.allocReset).bl = s.bl := rfl
@[simp] theorem State.allocReset_ram : (s.allocReset).ram = s.ram := rfl
@[simp] theorem State.allocReset_pma : (s.allocReset).pma = s.pma := rfl
@[simp] theorem State.allocReset_flash : (s.allocReset).flash = s.flash := rfl
@[simp] theorem State.allocReset_flashErased : (s.allocReset).flashErased = s.flashErased := rfl
@[simp] theorem State.allocReset_faults : (s.allocReset).faults = s.faults := rfl
@[simp] theorem State.allocReset_refused : (s.allocReset).refused = s.refused := rfl
@[simp] theorem State.allocReset_cfg : (s.allocReset).cfg = s.cfg := rfl
@[simp] theorem State.allocReset_inputs : (s.allocReset).inputs = s.inputs := rfl
@[simp] theorem State.allocReset_flashAnswers : (s.allocReset).flashAnswers = s.flashAnswers := rfl
@[simp] theorem State.allocReset_classAnswers : (s.allocReset).classAnswers = s.classAnswers := rfl
@[simp] theorem State.allocReset_completions : (s.allocReset).completions = s.completions := rfl
@[simp] theorem State.allocReset_draws : (s.allocReset).draws = s.draws := rfl
@[simp] theorem State.allocReset_obs : (s.allocReset).obs = s.obs := rfl
@[simp] theorem State.allocReset_hostReceived : (s.allocReset).hostReceived = s.hostReceived := rfl
@[simp] theorem State.allocReset_notices : (s.allocReset).notices = s.notices := rfl

@[simp] theorem State.flashDrawn_brk : (s.flashDrawn).brk = s.brk := rfl
@[simp] theorem State.flashDrawn_ep : (s.flashDrawn).ep = s.ep := rfl
@[simp] theorem State.flashDrawn_bdt : (s.flashDrawn).bdt = s.bdt := rfl
@[simp] theorem State.flashDrawn_hw : (s.flashDrawn).hw = s.hw := rfl
@[simp] theorem State.flashDrawn_devAddr : (s.flashDrawn).devAddr = s.devAddr := rfl
@[simp] theorem State.flashDrawn_devEn : (s.flashDrawn).devEn = s.devEn := rfl
@[simp] theorem State.flashDrawn_ctl : (s.flashDrawn).ctl = s.ctl := rfl
@[simp] theorem State.flashDrawn_bl : (s.flashDrawn).bl = s.bl := rfl
@[simp] theorem State.flashDrawn_ram : (s.flashDrawn).ram = s.ram := rfl
@[simp] theorem State.flashDrawn_pma : (s.flashDrawn).pma = s.pma := rfl
@[simp] theorem State.flashDrawn_flash : (s.flashDrawn).flash = s.flash := rfl
@[simp] theorem State.flashDrawn_flashErased : (s.flashDrawn).flashErased = s.flashErased := rfl
@[simp] theorem State.flashDrawn_faults : (s.flashDrawn).faults = s.faults := rfl
@[simp] theorem State.flashDrawn_refused : (s.flashDrawn).refused = s.refused := rfl
@[simp] theorem State.flashDrawn_cfg : (s.flashDrawn).cfg = s.cfg := rfl
@[simp] theorem State.flashDrawn_inputs : (s.flashDrawn).inputs = s.inputs := rfl
@[simp] theorem State.flashDrawn_flashAnswers : (s.flashDrawn).flashAnswers = s.flashAnswers.tail := rfl
@[simp] theorem State.flashDrawn_classAnswers : (s.flashDrawn).classAnswers = s.classAnswers := rfl
@[simp] theorem State.flashDrawn_completions : (s.flashDrawn).completions = s.completions := rfl
@[simp] theorem State.flashDrawn_draws : (s.flashDrawn).draws = s.draws + 1 := rfl
@[simp] theorem State.flashDrawn_obs : (s.flashDrawn).obs = s.obs := rfl
@[simp] theorem State.flashDrawn_hostReceived : (s.flashDrawn).hostReceived = s.hostReceived := rfl
@[simp] theorem State.flashDrawn_notices : (s.flashDrawn).notices = s.notices := rfl

@[simp] theorem State.taken_brk (rest : List Input) : (s.taken rest).brk = s.brk := rfl
@[simp] theorem State.taken_ep (rest : List Input) : (s.taken rest).ep = s.ep := rfl
@[simp] theorem State.taken_bdt (rest : List Input) : (s.taken rest).bdt = s.bdt := rfl
@[simp] theorem State.taken_hw (rest : List Input) : (s.taken rest).hw = s.hw := rfl
@[simp] theorem State.taken_devAddr (rest : List Input) : (s.taken rest).devAddr = s.devAddr := rfl
@[simp] theorem State.taken_devEn (rest : List Input) : (s.taken rest).devEn = s.devEn := rfl
@[simp] theorem State.taken_ctl (rest : List Input) : (s.taken rest).ctl = s.ctl := rfl
@[simp] theorem State.taken_bl (rest : List Input) : (s.taken rest).bl = s.bl := rfl
@[simp] theorem State.taken_ram (rest : List Input) : (s.taken rest).ram = s.ram := rfl
@[simp] theorem State.taken_pma (rest : List Input) : (s.taken rest).pma = s.pma := rfl
@[simp] theorem State.taken_flash (rest : List Input) : (s.taken rest).flash = s.flash := rfl
@[simp] theorem State.taken_flashErased (rest : List Input) : (s.taken rest).flashErased = s.flashErased := rfl
@[simp] theorem State.taken_faults (rest : List Input) : (s.taken rest).faults = s.faults := rfl
@[simp] theorem State.taken_refused (rest : List Input) : (s.taken rest).refused = s.refused := rfl
@[simp] theorem State.taken_cfg (rest : List Input) : (s.taken rest).cfg = s.cfg := rfl
@[simp] theorem State.taken_inputs (rest : List Input) : (s.taken rest).inputs = rest := rfl
@[simp] theorem State.taken_flashAnswers (rest : List Input) : (s.taken rest).flashAnswers = s.flashAnswers := rfl
@[simp] theorem State.taken_classAnswers (rest : List Input) : (s.taken rest).classAnswers = s.classAnswers := rfl
@[simp] theorem State.taken_completions (rest : List Input) : (s.taken rest).completions = s.completions := rfl
@[simp] theorem State.taken_draws (rest : List Input) : (s.taken rest).draws = s.draws := rfl
@[simp] theorem State.taken_obs (rest : List Input) : (s.taken rest).obs = .none := rfl
@[simp] theorem State.taken_hostReceived (rest : List Input) : (s.taken rest).hostReceived = s.hostReceived := rfl
@[simp] theorem State.taken_notices (rest : List Input) : (s.taken rest).notices = s.notices := rfl

@[simp] theorem State.setTxStatus_brk (n : EpNum) (v : SideStatus) : (s.setTxStatus n v).brk = s.brk := rfl
@[simp] theorem State.setTxStatus_ep (n : EpNum) (v : SideStatus) : (s.setTxStatus n v).ep = s.ep := rfl
@[simp] theorem State.setTxStatus_bdt (n : EpNum) (v : SideStatus) : (s.setTxStatus n v).bdt = s.bdt := rfl
@[simp] theorem State.setTxStatus_hw (n : EpNum) (v : SideStatus) : (s.setTxStatus n v).hw = s.hw.set n { s.hw[n] with txStatus := v } := rfl
@[simp] theorem State.setTxStatus_devAddr (n : EpNum) (v : SideStatus) : (s.setTxStatus n v).devAddr = s.devAddr := rfl
@[simp] theorem State.setTxStatus_devEn (n : EpNum) (v : SideStatus) : (s.setTxStatus n v).devEn = s.devEn := rfl
@[simp] theorem State.setTxStatus_ctl (n : EpNum) (v : SideStatus) : (s.setTxStatus n v).ctl = s.ctl := rfl
@[simp] theorem State.setTxStatus_bl (n : EpNum) (v : SideStatus) : (s.setTxStatus n v).bl = s.bl := rfl
@[simp] theorem State.setTxStatus_ram (n : EpNum) (v : SideStatus) : (s.setTxStatus n v).ram = s.ram := rfl
@[simp] theorem State.setTxStatus_pma (n : EpNum) (v : SideStatus) : (s.setTxStatus n v).pma = s.pma := rfl
@[simp] theorem State.setTxStatus_flash (n : EpNum) (v : SideStatus) : (s.setTxStatus n v).flash = s.flash := rfl
@[simp] theorem State.setTxStatus_flashErased (n : EpNum) (v : SideStatus) : (s.setTxStatus n v).flashErased = s.flashErased := rfl
@[simp] theorem State.setTxStatus_faults (n : EpNum) (v : SideStatus) : (s.setTxStatus n v).faults = s.faults := rfl
@[simp] theorem State.setTxStatus_refused (n : EpNum) (v : SideStatus) : (s.setTxStatus n v).refused = s.refused := rfl
@[simp] theorem State.setTxStatus_cfg (n : EpNum) (v : SideStatus) : (s.setTxStatus n v).cfg = s.cfg := rfl
@[simp] theorem State.setTxStatus_inputs (n : EpNum) (v : SideStatus) : (s.setTxStatus n v).inputs = s.inputs := rfl
@[simp] theorem State.setTxStatus_flashAnswers (n : EpNum) (v : SideStatus) : (s.setTxStatus n v).flashAnswers = s.flashAnswers := rfl
@[simp] theorem State.setTxStatus_classAnswers (n : EpNum) (v : SideStatus) : (s.setTxStatus n v).classAnswers = s.classAnswers := rfl
@[simp] theorem State.setTxStatus_completions (n : EpNum) (v : SideStatus) : (s.setTxStatus n v).completions = s.completions := rfl
@[simp] theorem State.setTxStatus_draws (n : EpNum) (v : SideStatus) : (s.setTxStatus n v).draws = s.draws := rfl
@[simp] theorem State.setTxStatus_obs (n : EpNum) (v : SideStatus) : (s.setTxStatus n v).obs = s.obs := rfl
@[simp] theorem State.setTxStatus_hostReceived (n : EpNum) (v : SideStatus) : (s.setTxStatus n v).hostReceived = s.hostReceived := rfl
@[simp] theorem State.setTxStatus_notices (n : EpNum) (v : SideStatus) : (s.setTxStatus n v).notices = s.notices := rfl

@[simp] theorem State.setRxStatus_brk (n : EpNum) (v : SideStatus) : (s.setRxStatus n v).brk = s.brk := rfl
@[simp] theorem State.setRxStatus_ep (n : EpNum) (v : SideStatus) : (s.setRxStatus n v).ep = s.ep := rfl
@[simp] theorem State.setRxStatus_bdt (n : EpNum) (v : SideStatus) : (s.setRxStatus n v).bdt = s.bdt := rfl
@[simp] theorem State.setRxStatus_hw (n : EpNum) (v : SideStatus) : (s.setRxStatus n v).hw = s.hw.set n { s.hw[n] with rxStatus := v } := rfl
@[simp] theorem State.setRxStatus_devAddr (n : EpNum) (v : SideStatus) : (s.setRxStatus n v).devAddr = s.devAddr := rfl
@[simp] theorem State.setRxStatus_devEn (n : EpNum) (v : SideStatus) : (s.setRxStatus n v).devEn = s.devEn := rfl
@[simp] theorem State.setRxStatus_ctl (n : EpNum) (v : SideStatus) : (s.setRxStatus n v).ctl = s.ctl := rfl
@[simp] theorem State.setRxStatus_bl (n : EpNum) (v : SideStatus) : (s.setRxStatus n v).bl = s.bl := rfl
@[simp] theorem State.setRxStatus_ram (n : EpNum) (v : SideStatus) : (s.setRxStatus n v).ram = s.ram := rfl
@[simp] theorem State.setRxStatus_pma (n : EpNum) (v : SideStatus) : (s.setRxStatus n v).pma = s.pma := rfl
@[simp] theorem State.setRxStatus_flash (n : EpNum) (v : SideStatus) : (s.setRxStatus n v).flash = s.flash := rfl
@[simp] theorem State.setRxStatus_flashErased (n : EpNum) (v : SideStatus) : (s.setRxStatus n v).flashErased = s.flashErased := rfl
@[simp] theorem State.setRxStatus_faults (n : EpNum) (v : SideStatus) : (s.setRxStatus n v).faults = s.faults := rfl
@[simp] theorem State.setRxStatus_refused (n : EpNum) (v : SideStatus) : (s.setRxStatus n v).refused = s.refused := rfl
@[simp] theorem State.setRxStatus_cfg (n : EpNum) (v : SideStatus) : (s.setRxStatus n v).cfg = s.cfg := rfl
@[simp] theorem State.setRxStatus_inputs (n : EpNum) (v : SideStatus) : (s.setRxStatus n v).inputs = s.inputs := rfl
@[simp] theorem State.setRxStatus_flashAnswers (n : EpNum) (v : SideStatus) : (s.setRxStatus n v).flashAnswers = s.flashAnswers := rfl
@[simp] theorem State.setRxStatus_classAnswers (n : EpNum) (v : SideStatus) : (s.setRxStatus n v).classAnswers = s.classAnswers := rfl
@[simp] theorem State.setRxStatus_completions (n : EpNum) (v : SideStatus) : (s.setRxStatus n v).completions = s.completions := rfl
@[simp] theorem State.setRxStatus_draws (n : EpNum) (v : SideStatus) : (s.setRxStatus n v).draws = s.draws := rfl
@[simp] theorem State.setRxStatus_obs (n : EpNum) (v : SideStatus) : (s.setRxStatus n v).obs = s.obs := rfl
@[simp] theorem State.setRxStatus_hostReceived (n : EpNum) (v : SideStatus) : (s.setRxStatus n v).hostReceived = s.hostReceived := rfl
@[simp] theorem State.setRxStatus_notices (n : EpNum) (v : SideStatus) : (s.setRxStatus n v).notices = s.notices := rfl

@[simp] theorem State.clearCtrTx_brk (n : EpNum) : (s.clearCtrTx n).brk = s.brk := rfl
@[simp] theorem State.clearCtrTx_ep (n : EpNum) : (s.clearCtrTx n).ep = s.ep := rfl
@[simp] theorem State.clearCtrTx_bdt (n : EpNum) : (s.clearCtrTx n).bdt = s.bdt := rfl
@[simp] theorem State.clearCtrTx_hw (n : EpNum) : (s.clearCtrTx n).hw = s.hw.set n { s.hw[n] with ctrTx := false } := rfl
@[simp] theorem State.clearCtrTx_devAddr (n : EpNum) : (s.clearCtrTx n).devAddr = s.devAddr := rfl
@[simp] theorem State.clearCtrTx_devEn (n : EpNum) : (s.clearCtrTx n).devEn = s.devEn := rfl
@[simp] theorem State.clearCtrTx_ctl (n : EpNum) : (s.clearCtrTx n).ctl = s.ctl := rfl
@[simp] theorem State.clearCtrTx_bl (n : EpNum) : (s.clearCtrTx n).bl = s.bl := rfl
@[simp] theorem State.clearCtrTx_ram (n : EpNum) : (s.clearCtrTx n).ram = s.ram := rfl
@[simp] theorem State.clearCtrTx_pma (n : EpNum) : (s.clearCtrTx n).pma = s.pma := rfl
@[simp] theorem State.clearCtrTx_flash (n : EpNum) : (s.clearCtrTx n).flash = s.flash := rfl
@[simp] theorem State.clearCtrTx_flashErased (n : EpNum) : (s.clearCtrTx n).flashErased = s.flashErased := rfl
@[simp] theorem State.clearCtrTx_faults (n : EpNum) : (s.clearCtrTx n).faults = s.faults := rfl
@[simp] theorem State.clearCtrTx_refused (n : EpNum) : (s.clearCtrTx n).refused = s.refused := rfl
@[simp] theorem State.clearCtrTx_cfg (n : EpNum) : (s.clearCtrTx n).cfg = s.cfg := rfl
@[simp] theorem State.clearCtrTx_inputs (n : EpNum) : (s.clearCtrTx n).inputs = s.inputs := rfl
@[simp] theorem State.clearCtrTx_flashAnswers (n : EpNum) : (s.clearCtrTx n).flashAnswers = s.flashAnswers := rfl
@[simp] theorem State.clearCtrTx_classAnswers (n : EpNum) : (s.clearCtrTx n).classAnswers = s.classAnswers := rfl
@[simp] theorem State.clearCtrTx_completions (n : EpNum) : (s.clearCtrTx n).completions = s.completions := rfl
@[simp] theorem State.clearCtrTx_draws (n : EpNum) : (s.clearCtrTx n).draws = s.draws := rfl
@[simp] theorem State.clearCtrTx_obs (n : EpNum) : (s.clearCtrTx n).obs = s.obs := rfl
@[simp] theorem State.clearCtrTx_hostReceived (n : EpNum) : (s.clearCtrTx n).hostReceived = s.hostReceived := rfl
@[simp] theorem State.clearCtrTx_notices (n : EpNum) : (s.clearCtrTx n).notices = s.notices := rfl

@[simp] theorem State.clearCtrRx_brk (n : EpNum) : (s.clearCtrRx n).brk = s.brk := rfl
@[simp] theorem State.clearCtrRx_ep (n : EpNum) : (s.clearCtrRx n).ep = s.ep := rfl
@[simp] theorem State.clearCtrRx_bdt (n : EpNum) : (s.clearCtrRx n).bdt = s.bdt := rfl
@[simp] theorem State.clearCtrRx_hw (n : EpNum) : (s.clearCtrRx n).hw = s.hw.set n { s.hw[n] with ctrRx := false, setup := false } := rfl
@[simp] theorem State.clearCtrRx_devAddr (n : EpNum) : (s.clearCtrRx n).devAddr = s.devAddr := rfl
@[simp] theorem State.clearCtrRx_devEn (n : EpNum) : (s.clearCtrRx n).devEn = s.devEn := rfl
@[simp] theorem State.clearCtrRx_ctl (n : EpNum) : (s.clearCtrRx n).ctl = s.ctl := rfl
@[simp] theorem State.clearCtrRx_bl (n : EpNum) : (s.clearCtrRx n).bl = s.bl := rfl
@[simp] theorem State.clearCtrRx_ram (n : EpNum) : (s.clearCtrRx n).ram = s.ram := rfl
@[simp] theorem State.clearCtrRx_pma (n : EpNum) : (s.clearCtrRx n).pma = s.pma := rfl
@[simp] theorem State.clearCtrRx_flash (n : EpNum) : (s.clearCtrRx n).flash = s.flash := rfl
@[simp] theorem State.clearCtrRx_flashErased (n : EpNum) : (s.clearCtrRx n).flashErased = s.flashErased := rfl
@[simp] theorem State.clearCtrRx_faults (n : EpNum) : (s.clearCtrRx n).faults = s.faults := rfl
@[simp] theorem State.clearCtrRx_refused (n : EpNum) : (s.clearCtrRx n).refused = s.refused := rfl
@[simp] theorem State.clearCtrRx_cfg (n : EpNum) : (s.clearCtrRx n).cfg = s.cfg := rfl
@[simp] theorem State.clearCtrRx_inputs (n : EpNum) : (s.clearCtrRx n).inputs = s.inputs := rfl
@[simp] theorem State.clearCtrRx_flashAnswers (n : EpNum) : (s.clearCtrRx n).flashAnswers = s.flashAnswers := rfl
@[simp] theorem State.clearCtrRx_classAnswers (n : EpNum) : (s.clearCtrRx n).classAnswers = s.classAnswers := rfl
@[simp] theorem State.clearCtrRx_completions (n : EpNum) : (s.clearCtrRx n).completions = s.completions := rfl
@[simp] theorem State.clearCtrRx_draws (n : EpNum) : (s.clearCtrRx n).draws = s.draws := rfl
@[simp] theorem State.clearCtrRx_obs (n : EpNum) : (s.clearCtrRx n).obs = s.obs := rfl
@[simp] theorem State.clearCtrRx_hostReceived (n : EpNum) : (s.clearCtrRx n).hostReceived = s.hostReceived := rfl
@[simp] theorem State.clearCtrRx_notices (n : EpNum) : (s.clearCtrRx n).notices = s.notices := rfl

@[simp] theorem State.controlComplete_brk (p : SetupPacket) : (s.controlComplete p).brk = s.brk := rfl
@[simp] theorem State.controlComplete_ep (p : SetupPacket) : (s.controlComplete p).ep = s.ep := rfl
@[simp] theorem State.controlComplete_bdt (p : SetupPacket) : (s.controlComplete p).bdt = s.bdt := rfl
@[simp] theorem State.controlComplete_hw (p : SetupPacket) : (s.controlComplete p).hw = s.hw := rfl
@[simp] theorem State.controlComplete_devAddr (p : SetupPacket) : (s.controlComplete p).devAddr = s.devAddr := rfl
@[simp] theorem State.controlComplete_devEn (p : SetupPacket) : (s.controlComplete p).devEn = s.devEn := rfl
@[simp] theorem State.controlComplete_ctl (p : SetupPacket) : (s.controlComplete p).ctl = s.ctl := rfl
@[simp] theorem State.controlComplete_bl (p : SetupPacket) : (s.controlComplete p).bl = s.bl := rfl
@[simp] theorem State.controlComplete_ram (p : SetupPacket) : (s.controlComplete p).ram = s.ram.storeAll (s.completions.headD []) := rfl
@[simp] theorem State.controlComplete_pma (p : SetupPacket) : (s.controlComplete p).pma = s.pma := rfl
@[simp] theorem State.controlComplete_flash (p : SetupPacket) : (s.controlComplete p).flash = s.flash := rfl
@[simp] theorem State.controlComplete_flashErased (p : SetupPacket) : (s.controlComplete p).flashErased = s.flashErased := rfl
@[simp] theorem State.controlComplete_faults (p : SetupPacket) : (s.controlComplete p).faults = s.faults := rfl
@[simp] theorem State.controlComplete_refused (p : SetupPacket) : (s.controlComplete p).refused = s.refused := rfl
@[simp] theorem State.controlComplete_cfg (p : SetupPacket) : (s.controlComplete p).cfg = s.cfg := rfl
@[simp] theorem State.controlComplete_inputs (p : SetupPacket) : (s.controlComplete p).inputs = s.inputs := rfl
@[simp] theorem State.controlComplete_flashAnswers (p : SetupPacket) : (s.controlComplete p).flashAnswers = s.flashAnswers := rfl
@[simp] theorem State.controlComplete_classAnswers (p : SetupPacket) : (s.controlComplete p).classAnswers = s.classAnswers := rfl
@[simp] theorem State.controlComplete_completions (p : SetupPacket) : (s.controlComplete p).completions = s.completions.tail := rfl
@[simp] theorem State.controlComplete_draws (p : SetupPacket) : (s.controlComplete p).draws = s.draws := rfl
@[simp] theorem State.controlComplete_obs (p : SetupPacket) : (s.controlComplete p).obs = s.obs := rfl
@[simp] theorem State.controlComplete_hostReceived (p : SetupPacket) : (s.controlComplete p).hostReceived = s.hostReceived := rfl
@[simp] theorem State.controlComplete_notices (p : SetupPacket) : (s.controlComplete p).notices = s.notices ++ [.controlComplete p] := rfl

@[simp] theorem State.restarted_brk : s.restarted.brk = s.cfg.arenaStart := rfl
@[simp] theorem State.restarted_ep : s.restarted.ep = Vector.replicate 8 Endpoint.reset := rfl
@[simp] theorem State.restarted_bdt : s.restarted.bdt = Vector.replicate 8 Descriptor.reset := rfl
@[simp] theorem State.restarted_hw : s.restarted.hw = Vector.replicate 8 EpHardware.reset := rfl
@[simp] theorem State.restarted_devAddr : s.restarted.devAddr = 0 := rfl
@[simp] theorem State.restarted_devEn : s.restarted.devEn = false := rfl
@[simp] theorem State.restarted_ctl : s.restarted.ctl = .setup := rfl
@[simp] theorem State.restarted_bl : s.restarted.bl = Boot.reset := rfl
@[simp] theorem State.restarted_ram :
    s.restarted.ram = (s.ram.store s.cfg.inBuf 0 (List.replicate 64 0)).store s.cfg.outBuf 0 (List.replicate 64 0) := rfl
@[simp] theorem State.restarted_pma : s.restarted.pma = s.pma := rfl
@[simp] theorem State.restarted_flash : s.restarted.flash = s.flash := rfl
@[simp] theorem State.restarted_flashErased : s.restarted.flashErased = s.flashErased := rfl
@[simp] theorem State.restarted_faults : s.restarted.faults = s.faults := rfl
@[simp] theorem State.restarted_refused : s.restarted.refused = s.refused := rfl
@[simp] theorem State.restarted_cfg : s.restarted.cfg = s.cfg := rfl
@[simp] theorem State.restarted_inputs : s.restarted.inputs = s.inputs := rfl
@[simp] theorem State.restarted_flashAnswers : s.restarted.flashAnswers = s.flashAnswers := rfl
@[simp] theorem State.restarted_classAnswers : s.restarted.classAnswers = s.classAnswers := rfl
@[simp] theorem State.restarted_completions : s.restarted.completions = s.completions := rfl
@[simp] theorem State.restarted_draws : s.restarted.draws = s.draws := rfl
@[simp] theorem State.restarted_obs : s.restarted.obs = s.obs := rfl
@[simp] theorem State.restarted_hostReceived : s.restarted.hostReceived = s.hostReceived := rfl
@[simp] theorem State.restarted_notices : s.restarted.notices = s.notices := rfl

/-- One endpoint record after an update of endpoint `n`. -/
theorem State.modEp_get (n m : EpNum) (f : Endpoint → Endpoint) :
    (s.modEp n f).ep[m] = if n = m then f s.ep[n] else s.ep[m] := by
  simp only [State.modEp_ep, Fin.getElem_fin, Vector.getElem_set, Fin.val_inj]

/-- One descriptor after an update of endpoint `n`. -/
theorem State.modBdt_get (n m : EpNum) (f : Descriptor → Descriptor) :
    (s.modBdt n f).bdt[m] = if n = m then f s.bdt[n] else s.bdt[m] := by
  simp only [State.modBdt_bdt, Fin.getElem_fin, Vector.getElem_set, Fin.val_inj]

/-- One hardware record after an update of endpoint `n`. -/
theorem State.modHw_get (n m : EpNum) (f : EpHardware → EpHardware) :
    (s.modHw n f).hw[m] = if n = m then f s.hw[n] else s.hw[m] := by
  simp only [State.modHw_hw, Fin.getElem_fin, Vector.getElem_set, Fin.val_inj]

/-- Recording a fault keeps every fault recorded before. -/
theorem FaultSet.has_insert (fs : FaultSet) (k j : FaultKind) :
    (fs.insert k).has j = (decide (j = k) || fs.has j) := by
  cases k <;> cases j <;> simp [FaultSet.insert, FaultSet.has]

/-- A property of every endpoint number, by the list of them. -/
theorem allEps_all (p : EpNum → Bool) : allEps.all p = true ↔ ∀ n, p n = true := by
  constructor
  · intro h n
    have hn : n ∈ allEps := by revert n; decide
    exact List.all_eq_true.mp h n hn
  · intro h
    exact List.all_eq_true.mpr fun n _ => h n

/-- No completion flag is set. -/
theorem State.not_draining_iff : s.draining = false ↔ ∀ n : EpNum, s.hw[n].ctrTx = false ∧ s.hw[n].ctrRx = false := by
  constructor
  · intro h n
    have hn : n ∈ allEps := by revert n; decide
    have := List.any_eq_false.mp h n hn
    simpa using this
  · intro h
    exact List.any_eq_false.mpr fun n _ => by simpa using h n

end Sys2Proof.Machine
end

