-- ==== Sys2Proof/Laws/Frames.lean ====
section
/-! SUPPORT. What each shared operation leaves unchanged: one lemma per operation and field it does not write. -/

namespace Sys2Proof.Machine

variable (s : State)

@[simp] theorem State.allocate_handle (len : Half) : (s.allocate len).1 = s.brk := rfl

@[simp] theorem State.allocate_ep (len : Half) : (s.allocate len).2.ep = s.ep := rfl
@[simp] theorem State.allocate_bdt (len : Half) : (s.allocate len).2.bdt = s.bdt := rfl
@[simp] theorem State.allocate_hw (len : Half) : (s.allocate len).2.hw = s.hw := rfl
@[simp] theorem State.allocate_devAddr (len : Half) : (s.allocate len).2.devAddr = s.devAddr := rfl
@[simp] theorem State.allocate_devEn (len : Half) : (s.allocate len).2.devEn = s.devEn := rfl
@[simp] theorem State.allocate_ctl (len : Half) : (s.allocate len).2.ctl = s.ctl := rfl
@[simp] theorem State.allocate_bl (len : Half) : (s.allocate len).2.bl = s.bl := rfl
@[simp] theorem State.allocate_ram (len : Half) : (s.allocate len).2.ram = s.ram := rfl
@[simp] theorem State.allocate_pma (len : Half) : (s.allocate len).2.pma = s.pma := rfl
@[simp] theorem State.allocate_flash (len : Half) : (s.allocate len).2.flash = s.flash := rfl
@[simp] theorem State.allocate_flashErased (len : Half) : (s.allocate len).2.flashErased = s.flashErased := rfl
@[simp] theorem State.allocate_refused (len : Half) : (s.allocate len).2.refused = s.refused := rfl
@[simp] theorem State.allocate_cfg (len : Half) : (s.allocate len).2.cfg = s.cfg := rfl
@[simp] theorem State.allocate_inputs (len : Half) : (s.allocate len).2.inputs = s.inputs := rfl
@[simp] theorem State.allocate_flashAnswers (len : Half) : (s.allocate len).2.flashAnswers = s.flashAnswers := rfl
@[simp] theorem State.allocate_classAnswers (len : Half) : (s.allocate len).2.classAnswers = s.classAnswers := rfl
@[simp] theorem State.allocate_draws (len : Half) : (s.allocate len).2.draws = s.draws := rfl
@[simp] theorem State.allocate_obs (len : Half) : (s.allocate len).2.obs = s.obs := rfl
@[simp] theorem State.allocate_hostReceived (len : Half) : (s.allocate len).2.hostReceived = s.hostReceived := rfl
@[simp] theorem State.allocate_completions (len : Half) : (s.allocate len).2.completions = s.completions := rfl
@[simp] theorem State.allocate_notices (len : Half) : (s.allocate len).2.notices = s.notices := rfl

@[simp] theorem State.flashErasePage_brk (a : Word) : (s.flashErasePage a).2.brk = s.brk := rfl
@[simp] theorem State.flashErasePage_ep (a : Word) : (s.flashErasePage a).2.ep = s.ep := rfl
@[simp] theorem State.flashErasePage_bdt (a : Word) : (s.flashErasePage a).2.bdt = s.bdt := rfl
@[simp] theorem State.flashErasePage_hw (a : Word) : (s.flashErasePage a).2.hw = s.hw := rfl
@[simp] theorem State.flashErasePage_devAddr (a : Word) : (s.flashErasePage a).2.devAddr = s.devAddr := rfl
@[simp] theorem State.flashErasePage_devEn (a : Word) : (s.flashErasePage a).2.devEn = s.devEn := rfl
@[simp] theorem State.flashErasePage_ctl (a : Word) : (s.flashErasePage a).2.ctl = s.ctl := rfl
@[simp] theorem State.flashErasePage_bl (a : Word) : (s.flashErasePage a).2.bl = s.bl := rfl
@[simp] theorem State.flashErasePage_ram (a : Word) : (s.flashErasePage a).2.ram = s.ram := rfl
@[simp] theorem State.flashErasePage_pma (a : Word) : (s.flashErasePage a).2.pma = s.pma := rfl
@[simp] theorem State.flashErasePage_faults (a : Word) : (s.flashErasePage a).2.faults = s.faults := rfl
@[simp] theorem State.flashErasePage_refused (a : Word) : (s.flashErasePage a).2.refused = s.refused := rfl
@[simp] theorem State.flashErasePage_cfg (a : Word) : (s.flashErasePage a).2.cfg = s.cfg := rfl
@[simp] theorem State.flashErasePage_inputs (a : Word) : (s.flashErasePage a).2.inputs = s.inputs := rfl
@[simp] theorem State.flashErasePage_classAnswers (a : Word) : (s.flashErasePage a).2.classAnswers = s.classAnswers := rfl
@[simp] theorem State.flashErasePage_obs (a : Word) : (s.flashErasePage a).2.obs = s.obs := rfl
@[simp] theorem State.flashErasePage_hostReceived (a : Word) : (s.flashErasePage a).2.hostReceived = s.hostReceived := rfl
@[simp] theorem State.flashErasePage_completions (a : Word) : (s.flashErasePage a).2.completions = s.completions := rfl
@[simp] theorem State.flashErasePage_notices (a : Word) : (s.flashErasePage a).2.notices = s.notices := rfl

@[simp] theorem State.flashWriteHalf_brk (a : Word) (bs : List Byte) : (s.flashWriteHalf a bs).2.brk = s.brk := rfl
@[simp] theorem State.flashWriteHalf_ep (a : Word) (bs : List Byte) : (s.flashWriteHalf a bs).2.ep = s.ep := rfl
@[simp] theorem State.flashWriteHalf_bdt (a : Word) (bs : List Byte) : (s.flashWriteHalf a bs).2.bdt = s.bdt := rfl
@[simp] theorem State.flashWriteHalf_hw (a : Word) (bs : List Byte) : (s.flashWriteHalf a bs).2.hw = s.hw := rfl
@[simp] theorem State.flashWriteHalf_devAddr (a : Word) (bs : List Byte) : (s.flashWriteHalf a bs).2.devAddr = s.devAddr := rfl
@[simp] theorem State.flashWriteHalf_devEn (a : Word) (bs : List Byte) : (s.flashWriteHalf a bs).2.devEn = s.devEn := rfl
@[simp] theorem State.flashWriteHalf_ctl (a : Word) (bs : List Byte) : (s.flashWriteHalf a bs).2.ctl = s.ctl := rfl
@[simp] theorem State.flashWriteHalf_bl (a : Word) (bs : List Byte) : (s.flashWriteHalf a bs).2.bl = s.bl := rfl
@[simp] theorem State.flashWriteHalf_ram (a : Word) (bs : List Byte) : (s.flashWriteHalf a bs).2.ram = s.ram := rfl
@[simp] theorem State.flashWriteHalf_pma (a : Word) (bs : List Byte) : (s.flashWriteHalf a bs).2.pma = s.pma := rfl
@[simp] theorem State.flashWriteHalf_faults (a : Word) (bs : List Byte) : (s.flashWriteHalf a bs).2.faults = s.faults := rfl
@[simp] theorem State.flashWriteHalf_refused (a : Word) (bs : List Byte) : (s.flashWriteHalf a bs).2.refused = s.refused := rfl
@[simp] theorem State.flashWriteHalf_cfg (a : Word) (bs : List Byte) : (s.flashWriteHalf a bs).2.cfg = s.cfg := rfl
@[simp] theorem State.flashWriteHalf_inputs (a : Word) (bs : List Byte) : (s.flashWriteHalf a bs).2.inputs = s.inputs := rfl
@[simp] theorem State.flashWriteHalf_classAnswers (a : Word) (bs : List Byte) : (s.flashWriteHalf a bs).2.classAnswers = s.classAnswers := rfl
@[simp] theorem State.flashWriteHalf_obs (a : Word) (bs : List Byte) : (s.flashWriteHalf a bs).2.obs = s.obs := rfl
@[simp] theorem State.flashWriteHalf_hostReceived (a : Word) (bs : List Byte) : (s.flashWriteHalf a bs).2.hostReceived = s.hostReceived := rfl
@[simp] theorem State.flashWriteHalf_completions (a : Word) (bs : List Byte) : (s.flashWriteHalf a bs).2.completions = s.completions := rfl
@[simp] theorem State.flashWriteHalf_notices (a : Word) (bs : List Byte) : (s.flashWriteHalf a bs).2.notices = s.notices := rfl

@[simp] theorem State.pmaCellOpen_brk (o n : Nat) : (s.pmaCellOpen o n).brk = s.brk := rfl
@[simp] theorem State.pmaCellOpen_ep (o n : Nat) : (s.pmaCellOpen o n).ep = s.ep := rfl
@[simp] theorem State.pmaCellOpen_bdt (o n : Nat) : (s.pmaCellOpen o n).bdt = s.bdt := rfl
@[simp] theorem State.pmaCellOpen_hw (o n : Nat) : (s.pmaCellOpen o n).hw = s.hw := rfl
@[simp] theorem State.pmaCellOpen_devAddr (o n : Nat) : (s.pmaCellOpen o n).devAddr = s.devAddr := rfl
@[simp] theorem State.pmaCellOpen_devEn (o n : Nat) : (s.pmaCellOpen o n).devEn = s.devEn := rfl
@[simp] theorem State.pmaCellOpen_ctl (o n : Nat) : (s.pmaCellOpen o n).ctl = s.ctl := rfl
@[simp] theorem State.pmaCellOpen_bl (o n : Nat) : (s.pmaCellOpen o n).bl = s.bl := rfl
@[simp] theorem State.pmaCellOpen_ram (o n : Nat) : (s.pmaCellOpen o n).ram = s.ram := rfl
@[simp] theorem State.pmaCellOpen_flash (o n : Nat) : (s.pmaCellOpen o n).flash = s.flash := rfl
@[simp] theorem State.pmaCellOpen_flashErased (o n : Nat) : (s.pmaCellOpen o n).flashErased = s.flashErased := rfl
@[simp] theorem State.pmaCellOpen_faults (o n : Nat) : (s.pmaCellOpen o n).faults = s.faults := rfl
@[simp] theorem State.pmaCellOpen_refused (o n : Nat) : (s.pmaCellOpen o n).refused = s.refused := rfl
@[simp] theorem State.pmaCellOpen_cfg (o n : Nat) : (s.pmaCellOpen o n).cfg = s.cfg := rfl
@[simp] theorem State.pmaCellOpen_inputs (o n : Nat) : (s.pmaCellOpen o n).inputs = s.inputs := rfl
@[simp] theorem State.pmaCellOpen_flashAnswers (o n : Nat) : (s.pmaCellOpen o n).flashAnswers = s.flashAnswers := rfl
@[simp] theorem State.pmaCellOpen_classAnswers (o n : Nat) : (s.pmaCellOpen o n).classAnswers = s.classAnswers := rfl
@[simp] theorem State.pmaCellOpen_obs (o n : Nat) : (s.pmaCellOpen o n).obs = s.obs := rfl
@[simp] theorem State.pmaCellOpen_hostReceived (o n : Nat) : (s.pmaCellOpen o n).hostReceived = s.hostReceived := rfl
@[simp] theorem State.pmaCellOpen_completions (o n : Nat) : (s.pmaCellOpen o n).completions = s.completions := rfl
@[simp] theorem State.pmaCellOpen_notices (o n : Nat) : (s.pmaCellOpen o n).notices = s.notices := rfl

@[simp] theorem State.epConfigure_brk (n : EpNum) (ty : EpType) (size : Half) (flags : Word) : (s.epConfigure n ty size flags).brk = s.brk := by
  unfold State.epConfigure; (repeat' split) <;> simp
@[simp] theorem State.epConfigure_bdt (n : EpNum) (ty : EpType) (size : Half) (flags : Word) : (s.epConfigure n ty size flags).bdt = s.bdt := by
  unfold State.epConfigure; (repeat' split) <;> simp
@[simp] theorem State.epConfigure_devAddr (n : EpNum) (ty : EpType) (size : Half) (flags : Word) : (s.epConfigure n ty size flags).devAddr = s.devAddr := by
  unfold State.epConfigure; (repeat' split) <;> simp
@[simp] theorem State.epConfigure_devEn (n : EpNum) (ty : EpType) (size : Half) (flags : Word) : (s.epConfigure n ty size flags).devEn = s.devEn := by
  unfold State.epConfigure; (repeat' split) <;> simp
@[simp] theorem State.epConfigure_ctl (n : EpNum) (ty : EpType) (size : Half) (flags : Word) : (s.epConfigure n ty size flags).ctl = s.ctl := by
  unfold State.epConfigure; (repeat' split) <;> simp
@[simp] theorem State.epConfigure_bl (n : EpNum) (ty : EpType) (size : Half) (flags : Word) : (s.epConfigure n ty size flags).bl = s.bl := by
  unfold State.epConfigure; (repeat' split) <;> simp
@[simp] theorem State.epConfigure_ram (n : EpNum) (ty : EpType) (size : Half) (flags : Word) : (s.epConfigure n ty size flags).ram = s.ram := by
  unfold State.epConfigure; (repeat' split) <;> simp
@[simp] theorem State.epConfigure_pma (n : EpNum) (ty : EpType) (size : Half) (flags : Word) : (s.epConfigure n ty size flags).pma = s.pma := by
  unfold State.epConfigure; (repeat' split) <;> simp
@[simp] theorem State.epConfigure_flash (n : EpNum) (ty : EpType) (size : Half) (flags : Word) : (s.epConfigure n ty size flags).flash = s.flash := by
  unfold State.epConfigure; (repeat' split) <;> simp
@[simp] theorem State.epConfigure_flashErased (n : EpNum) (ty : EpType) (size : Half) (flags : Word) : (s.epConfigure n ty size flags).flashErased = s.flashErased := by
  unfold State.epConfigure; (repeat' split) <;> simp
@[simp] theorem State.epConfigure_cfg (n : EpNum) (ty : EpType) (size : Half) (flags : Word) : (s.epConfigure n ty size flags).cfg = s.cfg := by
  unfold State.epConfigure; (repeat' split) <;> simp
@[simp] theorem State.epConfigure_inputs (n : EpNum) (ty : EpType) (size : Half) (flags : Word) : (s.epConfigure n ty size flags).inputs = s.inputs := by
  unfold State.epConfigure; (repeat' split) <;> simp
@[simp] theorem State.epConfigure_flashAnswers (n : EpNum) (ty : EpType) (size : Half) (flags : Word) : (s.epConfigure n ty size flags).flashAnswers = s.flashAnswers := by
  unfold State.epConfigure; (repeat' split) <;> simp
@[simp] theorem State.epConfigure_classAnswers (n : EpNum) (ty : EpType) (size : Half) (flags : Word) : (s.epConfigure n ty size flags).classAnswers = s.classAnswers := by
  unfold State.epConfigure; (repeat' split) <;> simp
@[simp] theorem State.epConfigure_draws (n : EpNum) (ty : EpType) (size : Half) (flags : Word) : (s.epConfigure n ty size flags).draws = s.draws := by
  unfold State.epConfigure; (repeat' split) <;> simp
@[simp] theorem State.epConfigure_obs (n : EpNum) (ty : EpType) (size : Half) (flags : Word) : (s.epConfigure n ty size flags).obs = s.obs := by
  unfold State.epConfigure; (repeat' split) <;> simp
@[simp] theorem State.epConfigure_hostReceived (n : EpNum) (ty : EpType) (size : Half) (flags : Word) : (s.epConfigure n ty size flags).hostReceived = s.hostReceived := by
  unfold State.epConfigure; (repeat' split) <;> simp
@[simp] theorem State.epConfigure_completions (n : EpNum) (ty : EpType) (size : Half) (flags : Word) : (s.epConfigure n ty size flags).completions = s.completions := by
  unfold State.epConfigure; (repeat' split) <;> simp
@[simp] theorem State.epConfigure_notices (n : EpNum) (ty : EpType) (size : Half) (flags : Word) : (s.epConfigure n ty size flags).notices = s.notices := by
  unfold State.epConfigure; (repeat' split) <;> simp

@[simp] theorem State.ensureTx_ep (n : EpNum) : (s.ensureTx n).ep = s.ep := by
  unfold State.ensureTx; (repeat' split) <;> simp
@[simp] theorem State.ensureTx_hw (n : EpNum) : (s.ensureTx n).hw = s.hw := by
  unfold State.ensureTx; (repeat' split) <;> simp
@[simp] theorem State.ensureTx_devAddr (n : EpNum) : (s.ensureTx n).devAddr = s.devAddr := by
  unfold State.ensureTx; (repeat' split) <;> simp
@[simp] theorem State.ensureTx_devEn (n : EpNum) : (s.ensureTx n).devEn = s.devEn := by
  unfold State.ensureTx; (repeat' split) <;> simp
@[simp] theorem State.ensureTx_ctl (n : EpNum) : (s.ensureTx n).ctl = s.ctl := by
  unfold State.ensureTx; (repeat' split) <;> simp
@[simp] theorem State.ensureTx_bl (n : EpNum) : (s.ensureTx n).bl = s.bl := by
  unfold State.ensureTx; (repeat' split) <;> simp
@[simp] theorem State.ensureTx_ram (n : EpNum) : (s.ensureTx n).ram = s.ram := by
  unfold State.ensureTx; (repeat' split) <;> simp
@[simp] theorem State.ensureTx_pma (n : EpNum) : (s.ensureTx n).pma = s.pma := by
  unfold State.ensureTx; (repeat' split) <;> simp
@[simp] theorem State.ensureTx_flash (n : EpNum) : (s.ensureTx n).flash = s.flash := by
  unfold State.ensureTx; (repeat' split) <;> simp
@[simp] theorem State.ensureTx_flashErased (n : EpNum) : (s.ensureTx n).flashErased = s.flashErased := by
  unfold State.ensureTx; (repeat' split) <;> simp
@[simp] theorem State.ensureTx_refused (n : EpNum) : (s.ensureTx n).refused = s.refused := by
  unfold State.ensureTx; (repeat' split) <;> simp
@[simp] theorem State.ensureTx_cfg (n : EpNum) : (s.ensureTx n).cfg = s.cfg := by
  unfold State.ensureTx; (repeat' split) <;> simp
@[simp] theorem State.ensureTx_inputs (n : EpNum) : (s.ensureTx n).inputs = s.inputs := by
  unfold State.ensureTx; (repeat' split) <;> simp
@[simp] theorem State.ensureTx_flashAnswers (n : EpNum) : (s.ensureTx n).flashAnswers = s.flashAnswers := by
  unfold State.ensureTx; (repeat' split) <;> simp
@[simp] theorem State.ensureTx_classAnswers (n : EpNum) : (s.ensureTx n).classAnswers = s.classAnswers := by
  unfold State.ensureTx; (repeat' split) <;> simp
@[simp] theorem State.ensureTx_draws (n : EpNum) : (s.ensureTx n).draws = s.draws := by
  unfold State.ensureTx; (repeat' split) <;> simp
@[simp] theorem State.ensureTx_obs (n : EpNum) : (s.ensureTx n).obs = s.obs := by
  unfold State.ensureTx; (repeat' split) <;> simp
@[simp] theorem State.ensureTx_hostReceived (n : EpNum) : (s.ensureTx n).hostReceived = s.hostReceived := by
  unfold State.ensureTx; (repeat' split) <;> simp
@[simp] theorem State.ensureTx_completions (n : EpNum) : (s.ensureTx n).completions = s.completions := by
  unfold State.ensureTx; (repeat' split) <;> simp
@[simp] theorem State.ensureTx_notices (n : EpNum) : (s.ensureTx n).notices = s.notices := by
  unfold State.ensureTx; (repeat' split) <;> simp

@[simp] theorem State.ensureRx_ep (n : EpNum) : (s.ensureRx n).ep = s.ep := by
  unfold State.ensureRx; (repeat' split) <;> simp
@[simp] theorem State.ensureRx_hw (n : EpNum) : (s.ensureRx n).hw = s.hw := by
  unfold State.ensureRx; (repeat' split) <;> simp
@[simp] theorem State.ensureRx_devAddr (n : EpNum) : (s.ensureRx n).devAddr = s.devAddr := by
  unfold State.ensureRx; (repeat' split) <;> simp
@[simp] theorem State.ensureRx_devEn (n : EpNum) : (s.ensureRx n).devEn = s.devEn := by
  unfold State.ensureRx; (repeat' split) <;> simp
@[simp] theorem State.ensureRx_ctl (n : EpNum) : (s.ensureRx n).ctl = s.ctl := by
  unfold State.ensureRx; (repeat' split) <;> simp
@[simp] theorem State.ensureRx_bl (n : EpNum) : (s.ensureRx n).bl = s.bl := by
  unfold State.ensureRx; (repeat' split) <;> simp
@[simp] theorem State.ensureRx_ram (n : EpNum) : (s.ensureRx n).ram = s.ram := by
  unfold State.ensureRx; (repeat' split) <;> simp
@[simp] theorem State.ensureRx_pma (n : EpNum) : (s.ensureRx n).pma = s.pma := by
  unfold State.ensureRx; (repeat' split) <;> simp
@[simp] theorem State.ensureRx_flash (n : EpNum) : (s.ensureRx n).flash = s.flash := by
  unfold State.ensureRx; (repeat' split) <;> simp
@[simp] theorem State.ensureRx_flashErased (n : EpNum) : (s.ensureRx n).flashErased = s.flashErased := by
  unfold State.ensureRx; (repeat' split) <;> simp
@[simp] theorem State.ensureRx_refused (n : EpNum) : (s.ensureRx n).refused = s.refused := by
  unfold State.ensureRx; (repeat' split) <;> simp
@[simp] theorem State.ensureRx_cfg (n : EpNum) : (s.ensureRx n).cfg = s.cfg := by
  unfold State.ensureRx; (repeat' split) <;> simp
@[simp] theorem State.ensureRx_inputs (n : EpNum) : (s.ensureRx n).inputs = s.inputs := by
  unfold State.ensureRx; (repeat' split) <;> simp
@[simp] theorem State.ensureRx_flashAnswers (n : EpNum) : (s.ensureRx n).flashAnswers = s.flashAnswers := by
  unfold State.ensureRx; (repeat' split) <;> simp
@[simp] theorem State.ensureRx_classAnswers (n : EpNum) : (s.ensureRx n).classAnswers = s.classAnswers := by
  unfold State.ensureRx; (repeat' split) <;> simp
@[simp] theorem State.ensureRx_draws (n : EpNum) : (s.ensureRx n).draws = s.draws := by
  unfold State.ensureRx; (repeat' split) <;> simp
@[simp] theorem State.ensureRx_obs (n : EpNum) : (s.ensureRx n).obs = s.obs := by
  unfold State.ensureRx; (repeat' split) <;> simp
@[simp] theorem State.ensureRx_hostReceived (n : EpNum) : (s.ensureRx n).hostReceived = s.hostReceived := by
  unfold State.ensureRx; (repeat' split) <;> simp
@[simp] theorem State.ensureRx_completions (n : EpNum) : (s.ensureRx n).completions = s.completions := by
  unfold State.ensureRx; (repeat' split) <;> simp
@[simp] theorem State.ensureRx_notices (n : EpNum) : (s.ensureRx n).notices = s.notices := by
  unfold State.ensureRx; (repeat' split) <;> simp

@[simp] theorem State.producePacket_devAddr (n : EpNum) : (s.producePacket n).devAddr = s.devAddr := by
  unfold State.producePacket; simp
@[simp] theorem State.producePacket_devEn (n : EpNum) : (s.producePacket n).devEn = s.devEn := by
  unfold State.producePacket; simp
@[simp] theorem State.producePacket_ctl (n : EpNum) : (s.producePacket n).ctl = s.ctl := by
  unfold State.producePacket; simp
@[simp] theorem State.producePacket_bl (n : EpNum) : (s.producePacket n).bl = s.bl := by
  unfold State.producePacket; simp
@[simp] theorem State.producePacket_ram (n : EpNum) : (s.producePacket n).ram = s.ram := by
  unfold State.producePacket; simp
@[simp] theorem State.producePacket_flash (n : EpNum) : (s.producePacket n).flash = s.flash := by
  unfold State.producePacket; simp
@[simp] theorem State.producePacket_flashErased (n : EpNum) : (s.producePacket n).flashErased = s.flashErased := by
  unfold State.producePacket; simp
@[simp] theorem State.producePacket_refused (n : EpNum) : (s.producePacket n).refused = s.refused := by
  unfold State.producePacket; simp
@[simp] theorem State.producePacket_cfg (n : EpNum) : (s.producePacket n).cfg = s.cfg := by
  unfold State.producePacket; simp
@[simp] theorem State.producePacket_inputs (n : EpNum) : (s.producePacket n).inputs = s.inputs := by
  unfold State.producePacket; simp
@[simp] theorem State.producePacket_flashAnswers (n : EpNum) : (s.producePacket n).flashAnswers = s.flashAnswers := by
  unfold State.producePacket; simp
@[simp] theorem State.producePacket_classAnswers (n : EpNum) : (s.producePacket n).classAnswers = s.classAnswers := by
  unfold State.producePacket; simp
@[simp] theorem State.producePacket_obs (n : EpNum) : (s.producePacket n).obs = s.obs := by
  unfold State.producePacket; simp
@[simp] theorem State.producePacket_hostReceived (n : EpNum) : (s.producePacket n).hostReceived = s.hostReceived := by
  unfold State.producePacket; simp
@[simp] theorem State.producePacket_completions (n : EpNum) : (s.producePacket n).completions = s.completions := by
  unfold State.producePacket; simp
@[simp] theorem State.producePacket_notices (n : EpNum) : (s.producePacket n).notices = s.notices := by
  unfold State.producePacket; simp

@[simp] theorem State.sendNextPacket_devAddr (n : EpNum) : (s.sendNextPacket n).devAddr = s.devAddr := by
  unfold State.sendNextPacket; (repeat' split) <;> simp
@[simp] theorem State.sendNextPacket_devEn (n : EpNum) : (s.sendNextPacket n).devEn = s.devEn := by
  unfold State.sendNextPacket; (repeat' split) <;> simp
@[simp] theorem State.sendNextPacket_ctl (n : EpNum) : (s.sendNextPacket n).ctl = s.ctl := by
  unfold State.sendNextPacket; (repeat' split) <;> simp
@[simp] theorem State.sendNextPacket_bl (n : EpNum) : (s.sendNextPacket n).bl = s.bl := by
  unfold State.sendNextPacket; (repeat' split) <;> simp
@[simp] theorem State.sendNextPacket_ram (n : EpNum) : (s.sendNextPacket n).ram = s.ram := by
  unfold State.sendNextPacket; (repeat' split) <;> simp
@[simp] theorem State.sendNextPacket_flash (n : EpNum) : (s.sendNextPacket n).flash = s.flash := by
  unfold State.sendNextPacket; (repeat' split) <;> simp
@[simp] theorem State.sendNextPacket_flashErased (n : EpNum) : (s.sendNextPacket n).flashErased = s.flashErased := by
  unfold State.sendNextPacket; (repeat' split) <;> simp
@[simp] theorem State.sendNextPacket_refused (n : EpNum) : (s.sendNextPacket n).refused = s.refused := by
  unfold State.sendNextPacket; (repeat' split) <;> simp
@[simp] theorem State.sendNextPacket_cfg (n : EpNum) : (s.sendNextPacket n).cfg = s.cfg := by
  unfold State.sendNextPacket; (repeat' split) <;> simp
@[simp] theorem State.sendNextPacket_inputs (n : EpNum) : (s.sendNextPacket n).inputs = s.inputs := by
  unfold State.sendNextPacket; (repeat' split) <;> simp
@[simp] theorem State.sendNextPacket_flashAnswers (n : EpNum) : (s.sendNextPacket n).flashAnswers = s.flashAnswers := by
  unfold State.sendNextPacket; (repeat' split) <;> simp
@[simp] theorem State.sendNextPacket_classAnswers (n : EpNum) : (s.sendNextPacket n).classAnswers = s.classAnswers := by
  unfold State.sendNextPacket; (repeat' split) <;> simp
@[simp] theorem State.sendNextPacket_obs (n : EpNum) : (s.sendNextPacket n).obs = s.obs := by
  unfold State.sendNextPacket; (repeat' split) <;> simp
@[simp] theorem State.sendNextPacket_hostReceived (n : EpNum) : (s.sendNextPacket n).hostReceived = s.hostReceived := by
  unfold State.sendNextPacket; (repeat' split) <;> simp
@[simp] theorem State.sendNextPacket_completions (n : EpNum) : (s.sendNextPacket n).completions = s.completions := by
  unfold State.sendNextPacket; (repeat' split) <;> simp
@[simp] theorem State.sendNextPacket_notices (n : EpNum) : (s.sendNextPacket n).notices = s.notices := by
  unfold State.sendNextPacket; (repeat' split) <;> simp

@[simp] theorem State.beginSend_devAddr (n : EpNum) (buf : Word) (len : Half) : (s.beginSend n buf len).devAddr = s.devAddr := by
  unfold State.beginSend; (repeat' split) <;> simp
@[simp] theorem State.beginSend_devEn (n : EpNum) (buf : Word) (len : Half) : (s.beginSend n buf len).devEn = s.devEn := by
  unfold State.beginSend; (repeat' split) <;> simp
@[simp] theorem State.beginSend_ctl (n : EpNum) (buf : Word) (len : Half) : (s.beginSend n buf len).ctl = s.ctl := by
  unfold State.beginSend; (repeat' split) <;> simp
@[simp] theorem State.beginSend_bl (n : EpNum) (buf : Word) (len : Half) : (s.beginSend n buf len).bl = s.bl := by
  unfold State.beginSend; (repeat' split) <;> simp
@[simp] theorem State.beginSend_ram (n : EpNum) (buf : Word) (len : Half) : (s.beginSend n buf len).ram = s.ram := by
  unfold State.beginSend; (repeat' split) <;> simp
@[simp] theorem State.beginSend_flash (n : EpNum) (buf : Word) (len : Half) : (s.beginSend n buf len).flash = s.flash := by
  unfold State.beginSend; (repeat' split) <;> simp
@[simp] theorem State.beginSend_flashErased (n : EpNum) (buf : Word) (len : Half) : (s.beginSend n buf len).flashErased = s.flashErased := by
  unfold State.beginSend; (repeat' split) <;> simp
@[simp] theorem State.beginSend_refused (n : EpNum) (buf : Word) (len : Half) : (s.beginSend n buf len).refused = s.refused := by
  unfold State.beginSend; (repeat' split) <;> simp
@[simp] theorem State.beginSend_cfg (n : EpNum) (buf : Word) (len : Half) : (s.beginSend n buf len).cfg = s.cfg := by
  unfold State.beginSend; (repeat' split) <;> simp
@[simp] theorem State.beginSend_inputs (n : EpNum) (buf : Word) (len : Half) : (s.beginSend n buf len).inputs = s.inputs := by
  unfold State.beginSend; (repeat' split) <;> simp
@[simp] theorem State.beginSend_flashAnswers (n : EpNum) (buf : Word) (len : Half) : (s.beginSend n buf len).flashAnswers = s.flashAnswers := by
  unfold State.beginSend; (repeat' split) <;> simp
@[simp] theorem State.beginSend_classAnswers (n : EpNum) (buf : Word) (len : Half) : (s.beginSend n buf len).classAnswers = s.classAnswers := by
  unfold State.beginSend; (repeat' split) <;> simp
@[simp] theorem State.beginSend_obs (n : EpNum) (buf : Word) (len : Half) : (s.beginSend n buf len).obs = s.obs := by
  unfold State.beginSend; (repeat' split) <;> simp
@[simp] theorem State.beginSend_hostReceived (n : EpNum) (buf : Word) (len : Half) : (s.beginSend n buf len).hostReceived = s.hostReceived := by
  unfold State.beginSend; (repeat' split) <;> simp
@[simp] theorem State.beginSend_completions (n : EpNum) (buf : Word) (len : Half) : (s.beginSend n buf len).completions = s.completions := by
  unfold State.beginSend; (repeat' split) <;> simp
@[simp] theorem State.beginSend_notices (n : EpNum) (buf : Word) (len : Half) : (s.beginSend n buf len).notices = s.notices := by
  unfold State.beginSend; (repeat' split) <;> simp

@[simp] theorem State.beginPacketReceive_ep (n : EpNum) : (s.beginPacketReceive n).ep = s.ep := by
  unfold State.beginPacketReceive; (repeat' split) <;> simp
@[simp] theorem State.beginPacketReceive_devAddr (n : EpNum) : (s.beginPacketReceive n).devAddr = s.devAddr := by
  unfold State.beginPacketReceive; (repeat' split) <;> simp
@[simp] theorem State.beginPacketReceive_devEn (n : EpNum) : (s.beginPacketReceive n).devEn = s.devEn := by
  unfold State.beginPacketReceive; (repeat' split) <;> simp
@[simp] theorem State.beginPacketReceive_ctl (n : EpNum) : (s.beginPacketReceive n).ctl = s.ctl := by
  unfold State.beginPacketReceive; (repeat' split) <;> simp
@[simp] theorem State.beginPacketReceive_bl (n : EpNum) : (s.beginPacketReceive n).bl = s.bl := by
  unfold State.beginPacketReceive; (repeat' split) <;> simp
@[simp] theorem State.beginPacketReceive_ram (n : EpNum) : (s.beginPacketReceive n).ram = s.ram := by
  unfold State.beginPacketReceive; (repeat' split) <;> simp
@[simp] theorem State.beginPacketReceive_pma (n : EpNum) : (s.beginPacketReceive n).pma = s.pma := by
  unfold State.beginPacketReceive; (repeat' split) <;> simp
@[simp] theorem State.beginPacketReceive_flash (n : EpNum) : (s.beginPacketReceive n).flash = s.flash := by
  unfold State.beginPacketReceive; (repeat' split) <;> simp
@[simp] theorem State.beginPacketReceive_flashErased (n : EpNum) : (s.beginPacketReceive n).flashErased = s.flashErased := by
  unfold State.beginPacketReceive; (repeat' split) <;> simp
@[simp] theorem State.beginPacketReceive_refused (n : EpNum) : (s.beginPacketReceive n).refused = s.refused := by
  unfold State.beginPacketReceive; (repeat' split) <;> simp
@[simp] theorem State.beginPacketReceive_cfg (n : EpNum) : (s.beginPacketReceive n).cfg = s.cfg := by
  unfold State.beginPacketReceive; (repeat' split) <;> simp
@[simp] theorem State.beginPacketReceive_inputs (n : EpNum) : (s.beginPacketReceive n).inputs = s.inputs := by
  unfold State.beginPacketReceive; (repeat' split) <;> simp
@[simp] theorem State.beginPacketReceive_flashAnswers (n : EpNum) : (s.beginPacketReceive n).flashAnswers = s.flashAnswers := by
  unfold State.beginPacketReceive; (repeat' split) <;> simp
@[simp] theorem State.beginPacketReceive_classAnswers (n : EpNum) : (s.beginPacketReceive n).classAnswers = s.classAnswers := by
  unfold State.beginPacketReceive; (repeat' split) <;> simp
@[simp] theorem State.beginPacketReceive_draws (n : EpNum) : (s.beginPacketReceive n).draws = s.draws := by
  unfold State.beginPacketReceive; (repeat' split) <;> simp
@[simp] theorem State.beginPacketReceive_obs (n : EpNum) : (s.beginPacketReceive n).obs = s.obs := by
  unfold State.beginPacketReceive; (repeat' split) <;> simp
@[simp] theorem State.beginPacketReceive_hostReceived (n : EpNum) : (s.beginPacketReceive n).hostReceived = s.hostReceived := by
  unfold State.beginPacketReceive; (repeat' split) <;> simp
@[simp] theorem State.beginPacketReceive_completions (n : EpNum) : (s.beginPacketReceive n).completions = s.completions := by
  unfold State.beginPacketReceive; (repeat' split) <;> simp
@[simp] theorem State.beginPacketReceive_notices (n : EpNum) : (s.beginPacketReceive n).notices = s.notices := by
  unfold State.beginPacketReceive; (repeat' split) <;> simp

@[simp] theorem State.beginReceive_devAddr (n : EpNum) (buf : Word) (len : Half) : (s.beginReceive n buf len).devAddr = s.devAddr := by
  unfold State.beginReceive; (repeat' split) <;> simp
@[simp] theorem State.beginReceive_devEn (n : EpNum) (buf : Word) (len : Half) : (s.beginReceive n buf len).devEn = s.devEn := by
  unfold State.beginReceive; (repeat' split) <;> simp
@[simp] theorem State.beginReceive_ctl (n : EpNum) (buf : Word) (len : Half) : (s.beginReceive n buf len).ctl = s.ctl := by
  unfold State.beginReceive; (repeat' split) <;> simp
@[simp] theorem State.beginReceive_bl (n : EpNum) (buf : Word) (len : Half) : (s.beginReceive n buf len).bl = s.bl := by
  unfold State.beginReceive; (repeat' split) <;> simp
@[simp] theorem State.beginReceive_ram (n : EpNum) (buf : Word) (len : Half) : (s.beginReceive n buf len).ram = s.ram := by
  unfold State.beginReceive; (repeat' split) <;> simp
@[simp] theorem State.beginReceive_pma (n : EpNum) (buf : Word) (len : Half) : (s.beginReceive n buf len).pma = s.pma := by
  unfold State.beginReceive; (repeat' split) <;> simp
@[simp] theorem State.beginReceive_flash (n : EpNum) (buf : Word) (len : Half) : (s.beginReceive n buf len).flash = s.flash := by
  unfold State.beginReceive; (repeat' split) <;> simp
@[simp] theorem State.beginReceive_flashErased (n : EpNum) (buf : Word) (len : Half) : (s.beginReceive n buf len).flashErased = s.flashErased := by
  unfold State.beginReceive; (repeat' split) <;> simp
@[simp] theorem State.beginReceive_refused (n : EpNum) (buf : Word) (len : Half) : (s.beginReceive n buf len).refused = s.refused := by
  unfold State.beginReceive; (repeat' split) <;> simp
@[simp] theorem State.beginReceive_cfg (n : EpNum) (buf : Word) (len : Half) : (s.beginReceive n buf len).cfg = s.cfg := by
  unfold State.beginReceive; (repeat' split) <;> simp
@[simp] theorem State.beginReceive_inputs (n : EpNum) (buf : Word) (len : Half) : (s.beginReceive n buf len).inputs = s.inputs := by
  unfold State.beginReceive; (repeat' split) <;> simp
@[simp] theorem State.beginReceive_flashAnswers (n : EpNum) (buf : Word) (len : Half) : (s.beginReceive n buf len).flashAnswers = s.flashAnswers := by
  unfold State.beginReceive; (repeat' split) <;> simp
@[simp] theorem State.beginReceive_classAnswers (n : EpNum) (buf : Word) (len : Half) : (s.beginReceive n buf len).classAnswers = s.classAnswers := by
  unfold State.beginReceive; (repeat' split) <;> simp
@[simp] theorem State.beginReceive_draws (n : EpNum) (buf : Word) (len : Half) : (s.beginReceive n buf len).draws = s.draws := by
  unfold State.beginReceive; (repeat' split) <;> simp
@[simp] theorem State.beginReceive_obs (n : EpNum) (buf : Word) (len : Half) : (s.beginReceive n buf len).obs = s.obs := by
  unfold State.beginReceive; (repeat' split) <;> simp
@[simp] theorem State.beginReceive_hostReceived (n : EpNum) (buf : Word) (len : Half) : (s.beginReceive n buf len).hostReceived = s.hostReceived := by
  unfold State.beginReceive; (repeat' split) <;> simp
@[simp] theorem State.beginReceive_completions (n : EpNum) (buf : Word) (len : Half) : (s.beginReceive n buf len).completions = s.completions := by
  unfold State.beginReceive; (repeat' split) <;> simp
@[simp] theorem State.beginReceive_notices (n : EpNum) (buf : Word) (len : Half) : (s.beginReceive n buf len).notices = s.notices := by
  unfold State.beginReceive; (repeat' split) <;> simp

@[simp] theorem State.takeSetup_brk (n : EpNum) : (s.takeSetup n).brk = s.brk := by
  unfold State.takeSetup; simp
@[simp] theorem State.takeSetup_bdt (n : EpNum) : (s.takeSetup n).bdt = s.bdt := by
  unfold State.takeSetup; simp
@[simp] theorem State.takeSetup_hw (n : EpNum) : (s.takeSetup n).hw = s.hw := by
  unfold State.takeSetup; simp
@[simp] theorem State.takeSetup_devAddr (n : EpNum) : (s.takeSetup n).devAddr = s.devAddr := by
  unfold State.takeSetup; simp
@[simp] theorem State.takeSetup_devEn (n : EpNum) : (s.takeSetup n).devEn = s.devEn := by
  unfold State.takeSetup; simp
@[simp] theorem State.takeSetup_ctl (n : EpNum) : (s.takeSetup n).ctl = s.ctl := by
  unfold State.takeSetup; simp
@[simp] theorem State.takeSetup_bl (n : EpNum) : (s.takeSetup n).bl = s.bl := by
  unfold State.takeSetup; simp
@[simp] theorem State.takeSetup_ram (n : EpNum) : (s.takeSetup n).ram = s.ram := by
  unfold State.takeSetup; simp
@[simp] theorem State.takeSetup_pma (n : EpNum) : (s.takeSetup n).pma = s.pma := by
  unfold State.takeSetup; simp
@[simp] theorem State.takeSetup_flash (n : EpNum) : (s.takeSetup n).flash = s.flash := by
  unfold State.takeSetup; simp
@[simp] theorem State.takeSetup_flashErased (n : EpNum) : (s.takeSetup n).flashErased = s.flashErased := by
  unfold State.takeSetup; simp
@[simp] theorem State.takeSetup_refused (n : EpNum) : (s.takeSetup n).refused = s.refused := by
  unfold State.takeSetup; simp
@[simp] theorem State.takeSetup_cfg (n : EpNum) : (s.takeSetup n).cfg = s.cfg := by
  unfold State.takeSetup; simp
@[simp] theorem State.takeSetup_inputs (n : EpNum) : (s.takeSetup n).inputs = s.inputs := by
  unfold State.takeSetup; simp
@[simp] theorem State.takeSetup_flashAnswers (n : EpNum) : (s.takeSetup n).flashAnswers = s.flashAnswers := by
  unfold State.takeSetup; simp
@[simp] theorem State.takeSetup_classAnswers (n : EpNum) : (s.takeSetup n).classAnswers = s.classAnswers := by
  unfold State.takeSetup; simp
@[simp] theorem State.takeSetup_obs (n : EpNum) : (s.takeSetup n).obs = s.obs := by
  unfold State.takeSetup; simp
@[simp] theorem State.takeSetup_hostReceived (n : EpNum) : (s.takeSetup n).hostReceived = s.hostReceived := by
  unfold State.takeSetup; simp
@[simp] theorem State.takeSetup_completions (n : EpNum) : (s.takeSetup n).completions = s.completions := by
  unfold State.takeSetup; simp
@[simp] theorem State.takeSetup_notices (n : EpNum) : (s.takeSetup n).notices = s.notices := by
  unfold State.takeSetup; simp

@[simp] theorem State.copyReceived_brk (n : EpNum) (count : BitVec 10) : (s.copyReceived n count).brk = s.brk := by
  unfold State.copyReceived; simp
@[simp] theorem State.copyReceived_ep (n : EpNum) (count : BitVec 10) : (s.copyReceived n count).ep = s.ep := by
  unfold State.copyReceived; simp
@[simp] theorem State.copyReceived_bdt (n : EpNum) (count : BitVec 10) : (s.copyReceived n count).bdt = s.bdt := by
  unfold State.copyReceived; simp
@[simp] theorem State.copyReceived_hw (n : EpNum) (count : BitVec 10) : (s.copyReceived n count).hw = s.hw := by
  unfold State.copyReceived; simp
@[simp] theorem State.copyReceived_devAddr (n : EpNum) (count : BitVec 10) : (s.copyReceived n count).devAddr = s.devAddr := by
  unfold State.copyReceived; simp
@[simp] theorem State.copyReceived_devEn (n : EpNum) (count : BitVec 10) : (s.copyReceived n count).devEn = s.devEn := by
  unfold State.copyReceived; simp
@[simp] theorem State.copyReceived_ctl (n : EpNum) (count : BitVec 10) : (s.copyReceived n count).ctl = s.ctl := by
  unfold State.copyReceived; simp
@[simp] theorem State.copyReceived_bl (n : EpNum) (count : BitVec 10) : (s.copyReceived n count).bl = s.bl := by
  unfold State.copyReceived; simp
@[simp] theorem State.copyReceived_pma (n : EpNum) (count : BitVec 10) : (s.copyReceived n count).pma = s.pma := by
  unfold State.copyReceived; simp
@[simp] theorem State.copyReceived_flash (n : EpNum) (count : BitVec 10) : (s.copyReceived n count).flash = s.flash := by
  unfold State.copyReceived; simp
@[simp] theorem State.copyReceived_flashErased (n : EpNum) (count : BitVec 10) : (s.copyReceived n count).flashErased = s.flashErased := by
  unfold State.copyReceived; simp
@[simp] theorem State.copyReceived_refused (n : EpNum) (count : BitVec 10) : (s.copyReceived n count).refused = s.refused := by
  unfold State.copyReceived; simp
@[simp] theorem State.copyReceived_cfg (n : EpNum) (count : BitVec 10) : (s.copyReceived n count).cfg = s.cfg := by
  unfold State.copyReceived; simp
@[simp] theorem State.copyReceived_inputs (n : EpNum) (count : BitVec 10) : (s.copyReceived n count).inputs = s.inputs := by
  unfold State.copyReceived; simp
@[simp] theorem State.copyReceived_flashAnswers (n : EpNum) (count : BitVec 10) : (s.copyReceived n count).flashAnswers = s.flashAnswers := by
  unfold State.copyReceived; simp
@[simp] theorem State.copyReceived_classAnswers (n : EpNum) (count : BitVec 10) : (s.copyReceived n count).classAnswers = s.classAnswers := by
  unfold State.copyReceived; simp
@[simp] theorem State.copyReceived_obs (n : EpNum) (count : BitVec 10) : (s.copyReceived n count).obs = s.obs := by
  unfold State.copyReceived; simp
@[simp] theorem State.copyReceived_hostReceived (n : EpNum) (count : BitVec 10) : (s.copyReceived n count).hostReceived = s.hostReceived := by
  unfold State.copyReceived; simp
@[simp] theorem State.copyReceived_completions (n : EpNum) (count : BitVec 10) : (s.copyReceived n count).completions = s.completions := by
  unfold State.copyReceived; simp
@[simp] theorem State.copyReceived_notices (n : EpNum) (count : BitVec 10) : (s.copyReceived n count).notices = s.notices := by
  unfold State.copyReceived; simp

@[simp] theorem State.takeData_devAddr (n : EpNum) (count : BitVec 10) : (s.takeData n count).2.devAddr = s.devAddr := by
  unfold State.takeData; dsimp only; split <;> simp
@[simp] theorem State.takeData_devEn (n : EpNum) (count : BitVec 10) : (s.takeData n count).2.devEn = s.devEn := by
  unfold State.takeData; dsimp only; split <;> simp
@[simp] theorem State.takeData_ctl (n : EpNum) (count : BitVec 10) : (s.takeData n count).2.ctl = s.ctl := by
  unfold State.takeData; dsimp only; split <;> simp
@[simp] theorem State.takeData_bl (n : EpNum) (count : BitVec 10) : (s.takeData n count).2.bl = s.bl := by
  unfold State.takeData; dsimp only; split <;> simp
@[simp] theorem State.takeData_pma (n : EpNum) (count : BitVec 10) : (s.takeData n count).2.pma = s.pma := by
  unfold State.takeData; dsimp only; split <;> simp
@[simp] theorem State.takeData_flash (n : EpNum) (count : BitVec 10) : (s.takeData n count).2.flash = s.flash := by
  unfold State.takeData; dsimp only; split <;> simp
@[simp] theorem State.takeData_flashErased (n : EpNum) (count : BitVec 10) : (s.takeData n count).2.flashErased = s.flashErased := by
  unfold State.takeData; dsimp only; split <;> simp
@[simp] theorem State.takeData_refused (n : EpNum) (count : BitVec 10) : (s.takeData n count).2.refused = s.refused := by
  unfold State.takeData; dsimp only; split <;> simp
@[simp] theorem State.takeData_cfg (n : EpNum) (count : BitVec 10) : (s.takeData n count).2.cfg = s.cfg := by
  unfold State.takeData; dsimp only; split <;> simp
@[simp] theorem State.takeData_inputs (n : EpNum) (count : BitVec 10) : (s.takeData n count).2.inputs = s.inputs := by
  unfold State.takeData; dsimp only; split <;> simp
@[simp] theorem State.takeData_flashAnswers (n : EpNum) (count : BitVec 10) : (s.takeData n count).2.flashAnswers = s.flashAnswers := by
  unfold State.takeData; dsimp only; split <;> simp
@[simp] theorem State.takeData_classAnswers (n : EpNum) (count : BitVec 10) : (s.takeData n count).2.classAnswers = s.classAnswers := by
  unfold State.takeData; dsimp only; split <;> simp
@[simp] theorem State.takeData_obs (n : EpNum) (count : BitVec 10) : (s.takeData n count).2.obs = s.obs := by
  unfold State.takeData; dsimp only; split <;> simp
@[simp] theorem State.takeData_hostReceived (n : EpNum) (count : BitVec 10) : (s.takeData n count).2.hostReceived = s.hostReceived := by
  unfold State.takeData; dsimp only; split <;> simp
@[simp] theorem State.takeData_completions (n : EpNum) (count : BitVec 10) : (s.takeData n count).2.completions = s.completions := by
  unfold State.takeData; dsimp only; split <;> simp
@[simp] theorem State.takeData_notices (n : EpNum) (count : BitVec 10) : (s.takeData n count).2.notices = s.notices := by
  unfold State.takeData; dsimp only; split <;> simp

@[simp] theorem State.endPacketReceive_devAddr (n : EpNum) (count : BitVec 10) (setup : Bool) :
    (s.endPacketReceive n count setup).2.devAddr = s.devAddr := by
  unfold State.endPacketReceive; (repeat' split) <;> simp
@[simp] theorem State.endPacketReceive_devEn (n : EpNum) (count : BitVec 10) (setup : Bool) :
    (s.endPacketReceive n count setup).2.devEn = s.devEn := by
  unfold State.endPacketReceive; (repeat' split) <;> simp
@[simp] theorem State.endPacketReceive_ctl (n : EpNum) (count : BitVec 10) (setup : Bool) :
    (s.endPacketReceive n count setup).2.ctl = s.ctl := by
  unfold State.endPacketReceive; (repeat' split) <;> simp
@[simp] theorem State.endPacketReceive_bl (n : EpNum) (count : BitVec 10) (setup : Bool) :
    (s.endPacketReceive n count setup).2.bl = s.bl := by
  unfold State.endPacketReceive; (repeat' split) <;> simp
@[simp] theorem State.endPacketReceive_pma (n : EpNum) (count : BitVec 10) (setup : Bool) :
    (s.endPacketReceive n count setup).2.pma = s.pma := by
  unfold State.endPacketReceive; (repeat' split) <;> simp
@[simp] theorem State.endPacketReceive_flash (n : EpNum) (count : BitVec 10) (setup : Bool) :
    (s.endPacketReceive n count setup).2.flash = s.flash := by
  unfold State.endPacketReceive; (repeat' split) <;> simp
@[simp] theorem State.endPacketReceive_flashErased (n : EpNum) (count : BitVec 10) (setup : Bool) :
    (s.endPacketReceive n count setup).2.flashErased = s.flashErased := by
  unfold State.endPacketReceive; (repeat' split) <;> simp
@[simp] theorem State.endPacketReceive_refused (n : EpNum) (count : BitVec 10) (setup : Bool) :
    (s.endPacketReceive n count setup).2.refused = s.refused := by
  unfold State.endPacketReceive; (repeat' split) <;> simp
@[simp] theorem State.endPacketReceive_cfg (n : EpNum) (count : BitVec 10) (setup : Bool) :
    (s.endPacketReceive n count setup).2.cfg = s.cfg := by
  unfold State.endPacketReceive; (repeat' split) <;> simp
@[simp] theorem State.endPacketReceive_inputs (n : EpNum) (count : BitVec 10) (setup : Bool) :
    (s.endPacketReceive n count setup).2.inputs = s.inputs := by
  unfold State.endPacketReceive; (repeat' split) <;> simp
@[simp] theorem State.endPacketReceive_flashAnswers (n : EpNum) (count : BitVec 10) (setup : Bool) :
    (s.endPacketReceive n count setup).2.flashAnswers = s.flashAnswers := by
  unfold State.endPacketReceive; (repeat' split) <;> simp
@[simp] theorem State.endPacketReceive_classAnswers (n : EpNum) (count : BitVec 10) (setup : Bool) :
    (s.endPacketReceive n count setup).2.classAnswers = s.classAnswers := by
  unfold State.endPacketReceive; (repeat' split) <;> simp
@[simp] theorem State.endPacketReceive_obs (n : EpNum) (count : BitVec 10) (setup : Bool) :
    (s.endPacketReceive n count setup).2.obs = s.obs := by
  unfold State.endPacketReceive; (repeat' split) <;> simp
@[simp] theorem State.endPacketReceive_hostReceived (n : EpNum) (count : BitVec 10) (setup : Bool) :
    (s.endPacketReceive n count setup).2.hostReceived = s.hostReceived := by
  unfold State.endPacketReceive; (repeat' split) <;> simp
@[simp] theorem State.endPacketReceive_completions (n : EpNum) (count : BitVec 10) (setup : Bool) :
    (s.endPacketReceive n count setup).2.completions = s.completions := by
  unfold State.endPacketReceive; (repeat' split) <;> simp
@[simp] theorem State.endPacketReceive_notices (n : EpNum) (count : BitVec 10) (setup : Bool) :
    (s.endPacketReceive n count setup).2.notices = s.notices := by
  unfold State.endPacketReceive; (repeat' split) <;> simp

@[simp] theorem State.hidArmOut_devAddr : (s.hidArmOut).devAddr = s.devAddr := by
  unfold State.hidArmOut; simp
@[simp] theorem State.hidArmOut_devEn : (s.hidArmOut).devEn = s.devEn := by
  unfold State.hidArmOut; simp
@[simp] theorem State.hidArmOut_ctl : (s.hidArmOut).ctl = s.ctl := by
  unfold State.hidArmOut; simp
@[simp] theorem State.hidArmOut_bl : (s.hidArmOut).bl = s.bl := by
  unfold State.hidArmOut; simp
@[simp] theorem State.hidArmOut_ram : (s.hidArmOut).ram = s.ram := by
  unfold State.hidArmOut; simp
@[simp] theorem State.hidArmOut_pma : (s.hidArmOut).pma = s.pma := by
  unfold State.hidArmOut; simp
@[simp] theorem State.hidArmOut_flash : (s.hidArmOut).flash = s.flash := by
  unfold State.hidArmOut; simp
@[simp] theorem State.hidArmOut_flashErased : (s.hidArmOut).flashErased = s.flashErased := by
  unfold State.hidArmOut; simp
@[simp] theorem State.hidArmOut_refused : (s.hidArmOut).refused = s.refused := by
  unfold State.hidArmOut; simp
@[simp] theorem State.hidArmOut_cfg : (s.hidArmOut).cfg = s.cfg := by
  unfold State.hidArmOut; simp
@[simp] theorem State.hidArmOut_inputs : (s.hidArmOut).inputs = s.inputs := by
  unfold State.hidArmOut; simp
@[simp] theorem State.hidArmOut_flashAnswers : (s.hidArmOut).flashAnswers = s.flashAnswers := by
  unfold State.hidArmOut; simp
@[simp] theorem State.hidArmOut_classAnswers : (s.hidArmOut).classAnswers = s.classAnswers := by
  unfold State.hidArmOut; simp
@[simp] theorem State.hidArmOut_draws : (s.hidArmOut).draws = s.draws := by
  unfold State.hidArmOut; simp
@[simp] theorem State.hidArmOut_obs : (s.hidArmOut).obs = s.obs := by
  unfold State.hidArmOut; simp
@[simp] theorem State.hidArmOut_hostReceived : (s.hidArmOut).hostReceived = s.hostReceived := by
  unfold State.hidArmOut; simp
@[simp] theorem State.hidArmOut_completions : (s.hidArmOut).completions = s.completions := by
  unfold State.hidArmOut; simp
@[simp] theorem State.hidArmOut_notices : (s.hidArmOut).notices = s.notices := by
  unfold State.hidArmOut; simp

@[simp] theorem State.hidSendIn_devAddr : (s.hidSendIn).devAddr = s.devAddr := by
  unfold State.hidSendIn; simp
@[simp] theorem State.hidSendIn_devEn : (s.hidSendIn).devEn = s.devEn := by
  unfold State.hidSendIn; simp
@[simp] theorem State.hidSendIn_ctl : (s.hidSendIn).ctl = s.ctl := by
  unfold State.hidSendIn; simp
@[simp] theorem State.hidSendIn_bl : (s.hidSendIn).bl = s.bl := by
  unfold State.hidSendIn; simp
@[simp] theorem State.hidSendIn_ram : (s.hidSendIn).ram = s.ram := by
  unfold State.hidSendIn; simp
@[simp] theorem State.hidSendIn_flash : (s.hidSendIn).flash = s.flash := by
  unfold State.hidSendIn; simp
@[simp] theorem State.hidSendIn_flashErased : (s.hidSendIn).flashErased = s.flashErased := by
  unfold State.hidSendIn; simp
@[simp] theorem State.hidSendIn_refused : (s.hidSendIn).refused = s.refused := by
  unfold State.hidSendIn; simp
@[simp] theorem State.hidSendIn_cfg : (s.hidSendIn).cfg = s.cfg := by
  unfold State.hidSendIn; simp
@[simp] theorem State.hidSendIn_inputs : (s.hidSendIn).inputs = s.inputs := by
  unfold State.hidSendIn; simp
@[simp] theorem State.hidSendIn_flashAnswers : (s.hidSendIn).flashAnswers = s.flashAnswers := by
  unfold State.hidSendIn; simp
@[simp] theorem State.hidSendIn_classAnswers : (s.hidSendIn).classAnswers = s.classAnswers := by
  unfold State.hidSendIn; simp
@[simp] theorem State.hidSendIn_obs : (s.hidSendIn).obs = s.obs := by
  unfold State.hidSendIn; simp
@[simp] theorem State.hidSendIn_hostReceived : (s.hidSendIn).hostReceived = s.hostReceived := by
  unfold State.hidSendIn; simp
@[simp] theorem State.hidSendIn_completions : (s.hidSendIn).completions = s.completions := by
  unfold State.hidSendIn; simp
@[simp] theorem State.hidSendIn_notices : (s.hidSendIn).notices = s.notices := by
  unfold State.hidSendIn; simp

@[simp] theorem State.status_devAddr (code : ErrCode) (next : BlState) : (s.status code next).devAddr = s.devAddr := by
  unfold State.status; simp
@[simp] theorem State.status_devEn (code : ErrCode) (next : BlState) : (s.status code next).devEn = s.devEn := by
  unfold State.status; simp
@[simp] theorem State.status_ctl (code : ErrCode) (next : BlState) : (s.status code next).ctl = s.ctl := by
  unfold State.status; simp
@[simp] theorem State.status_flash (code : ErrCode) (next : BlState) : (s.status code next).flash = s.flash := by
  unfold State.status; simp
@[simp] theorem State.status_flashErased (code : ErrCode) (next : BlState) : (s.status code next).flashErased = s.flashErased := by
  unfold State.status; simp
@[simp] theorem State.status_refused (code : ErrCode) (next : BlState) : (s.status code next).refused = s.refused := by
  unfold State.status; simp
@[simp] theorem State.status_cfg (code : ErrCode) (next : BlState) : (s.status code next).cfg = s.cfg := by
  unfold State.status; simp
@[simp] theorem State.status_inputs (code : ErrCode) (next : BlState) : (s.status code next).inputs = s.inputs := by
  unfold State.status; simp
@[simp] theorem State.status_flashAnswers (code : ErrCode) (next : BlState) : (s.status code next).flashAnswers = s.flashAnswers := by
  unfold State.status; simp
@[simp] theorem State.status_classAnswers (code : ErrCode) (next : BlState) : (s.status code next).classAnswers = s.classAnswers := by
  unfold State.status; simp
@[simp] theorem State.status_obs (code : ErrCode) (next : BlState) : (s.status code next).obs = s.obs := by
  unfold State.status; simp
@[simp] theorem State.status_hostReceived (code : ErrCode) (next : BlState) : (s.status code next).hostReceived = s.hostReceived := by
  unfold State.status; simp
@[simp] theorem State.status_completions (code : ErrCode) (next : BlState) : (s.status code next).completions = s.completions := by
  unfold State.status; simp
@[simp] theorem State.status_notices (code : ErrCode) (next : BlState) : (s.status code next).notices = s.notices := by
  unfold State.status; simp

@[simp] theorem State.cmdReset_devAddr : (s.cmdReset).devAddr = s.devAddr := by
  unfold State.cmdReset; simp
@[simp] theorem State.cmdReset_devEn : (s.cmdReset).devEn = s.devEn := by
  unfold State.cmdReset; simp
@[simp] theorem State.cmdReset_ctl : (s.cmdReset).ctl = s.ctl := by
  unfold State.cmdReset; simp
@[simp] theorem State.cmdReset_flash : (s.cmdReset).flash = s.flash := by
  unfold State.cmdReset; simp
@[simp] theorem State.cmdReset_flashErased : (s.cmdReset).flashErased = s.flashErased := by
  unfold State.cmdReset; simp
@[simp] theorem State.cmdReset_refused : (s.cmdReset).refused = s.refused := by
  unfold State.cmdReset; simp
@[simp] theorem State.cmdReset_cfg : (s.cmdReset).cfg = s.cfg := by
  unfold State.cmdReset; simp
@[simp] theorem State.cmdReset_inputs : (s.cmdReset).inputs = s.inputs := by
  unfold State.cmdReset; simp
@[simp] theorem State.cmdReset_flashAnswers : (s.cmdReset).flashAnswers = s.flashAnswers := by
  unfold State.cmdReset; simp
@[simp] theorem State.cmdReset_classAnswers : (s.cmdReset).classAnswers = s.classAnswers := by
  unfold State.cmdReset; simp
@[simp] theorem State.cmdReset_obs : (s.cmdReset).obs = s.obs := by
  unfold State.cmdReset; simp
@[simp] theorem State.cmdReset_hostReceived : (s.cmdReset).hostReceived = s.hostReceived := by
  unfold State.cmdReset; simp
@[simp] theorem State.cmdReset_completions : (s.cmdReset).completions = s.completions := by
  unfold State.cmdReset; simp
@[simp] theorem State.cmdReset_notices : (s.cmdReset).notices = s.notices := by
  unfold State.cmdReset; simp

@[simp] theorem State.cmdProg_devAddr : (s.cmdProg).devAddr = s.devAddr := by
  unfold State.cmdProg; dsimp only; (repeat' split) <;> simp
@[simp] theorem State.cmdProg_devEn : (s.cmdProg).devEn = s.devEn := by
  unfold State.cmdProg; dsimp only; (repeat' split) <;> simp
@[simp] theorem State.cmdProg_ctl : (s.cmdProg).ctl = s.ctl := by
  unfold State.cmdProg; dsimp only; (repeat' split) <;> simp
@[simp] theorem State.cmdProg_refused : (s.cmdProg).refused = s.refused := by
  unfold State.cmdProg; dsimp only; (repeat' split) <;> simp
@[simp] theorem State.cmdProg_cfg : (s.cmdProg).cfg = s.cfg := by
  unfold State.cmdProg; dsimp only; (repeat' split) <;> simp
@[simp] theorem State.cmdProg_inputs : (s.cmdProg).inputs = s.inputs := by
  unfold State.cmdProg; dsimp only; (repeat' split) <;> simp
@[simp] theorem State.cmdProg_classAnswers : (s.cmdProg).classAnswers = s.classAnswers := by
  unfold State.cmdProg; dsimp only; (repeat' split) <;> simp
@[simp] theorem State.cmdProg_obs : (s.cmdProg).obs = s.obs := by
  unfold State.cmdProg; dsimp only; (repeat' split) <;> simp
@[simp] theorem State.cmdProg_hostReceived : (s.cmdProg).hostReceived = s.hostReceived := by
  unfold State.cmdProg; dsimp only; (repeat' split) <;> simp
@[simp] theorem State.cmdProg_completions : (s.cmdProg).completions = s.completions := by
  unfold State.cmdProg; dsimp only; (repeat' split) <;> simp
@[simp] theorem State.cmdProg_notices : (s.cmdProg).notices = s.notices := by
  unfold State.cmdProg; dsimp only; (repeat' split) <;> simp

@[simp] theorem State.cmdRead_devAddr : (s.cmdRead).devAddr = s.devAddr := by
  unfold State.cmdRead; simp
@[simp] theorem State.cmdRead_devEn : (s.cmdRead).devEn = s.devEn := by
  unfold State.cmdRead; simp
@[simp] theorem State.cmdRead_ctl : (s.cmdRead).ctl = s.ctl := by
  unfold State.cmdRead; simp
@[simp] theorem State.cmdRead_flash : (s.cmdRead).flash = s.flash := by
  unfold State.cmdRead; simp
@[simp] theorem State.cmdRead_flashErased : (s.cmdRead).flashErased = s.flashErased := by
  unfold State.cmdRead; simp
@[simp] theorem State.cmdRead_refused : (s.cmdRead).refused = s.refused := by
  unfold State.cmdRead; simp
@[simp] theorem State.cmdRead_cfg : (s.cmdRead).cfg = s.cfg := by
  unfold State.cmdRead; simp
@[simp] theorem State.cmdRead_inputs : (s.cmdRead).inputs = s.inputs := by
  unfold State.cmdRead; simp
@[simp] theorem State.cmdRead_flashAnswers : (s.cmdRead).flashAnswers = s.flashAnswers := by
  unfold State.cmdRead; simp
@[simp] theorem State.cmdRead_classAnswers : (s.cmdRead).classAnswers = s.classAnswers := by
  unfold State.cmdRead; simp
@[simp] theorem State.cmdRead_obs : (s.cmdRead).obs = s.obs := by
  unfold State.cmdRead; simp
@[simp] theorem State.cmdRead_hostReceived : (s.cmdRead).hostReceived = s.hostReceived := by
  unfold State.cmdRead; simp
@[simp] theorem State.cmdRead_completions : (s.cmdRead).completions = s.completions := by
  unfold State.cmdRead; simp
@[simp] theorem State.cmdRead_notices : (s.cmdRead).notices = s.notices := by
  unfold State.cmdRead; simp

@[simp] theorem State.cmdExit_devAddr : (s.cmdExit).devAddr = s.devAddr := by
  unfold State.cmdExit; simp
@[simp] theorem State.cmdExit_devEn : (s.cmdExit).devEn = s.devEn := by
  unfold State.cmdExit; simp
@[simp] theorem State.cmdExit_ctl : (s.cmdExit).ctl = s.ctl := by
  unfold State.cmdExit; simp
@[simp] theorem State.cmdExit_flash : (s.cmdExit).flash = s.flash := by
  unfold State.cmdExit; simp
@[simp] theorem State.cmdExit_flashErased : (s.cmdExit).flashErased = s.flashErased := by
  unfold State.cmdExit; simp
@[simp] theorem State.cmdExit_refused : (s.cmdExit).refused = s.refused := by
  unfold State.cmdExit; simp
@[simp] theorem State.cmdExit_cfg : (s.cmdExit).cfg = s.cfg := by
  unfold State.cmdExit; simp
@[simp] theorem State.cmdExit_inputs : (s.cmdExit).inputs = s.inputs := by
  unfold State.cmdExit; simp
@[simp] theorem State.cmdExit_flashAnswers : (s.cmdExit).flashAnswers = s.flashAnswers := by
  unfold State.cmdExit; simp
@[simp] theorem State.cmdExit_classAnswers : (s.cmdExit).classAnswers = s.classAnswers := by
  unfold State.cmdExit; simp
@[simp] theorem State.cmdExit_obs : (s.cmdExit).obs = s.obs := by
  unfold State.cmdExit; simp
@[simp] theorem State.cmdExit_hostReceived : (s.cmdExit).hostReceived = s.hostReceived := by
  unfold State.cmdExit; simp
@[simp] theorem State.cmdExit_completions : (s.cmdExit).completions = s.completions := by
  unfold State.cmdExit; simp
@[simp] theorem State.cmdExit_notices : (s.cmdExit).notices = s.notices := by
  unfold State.cmdExit; simp

@[simp] theorem State.cmdUnrecognized_devAddr : (s.cmdUnrecognized).devAddr = s.devAddr := by
  unfold State.cmdUnrecognized; simp
@[simp] theorem State.cmdUnrecognized_devEn : (s.cmdUnrecognized).devEn = s.devEn := by
  unfold State.cmdUnrecognized; simp
@[simp] theorem State.cmdUnrecognized_ctl : (s.cmdUnrecognized).ctl = s.ctl := by
  unfold State.cmdUnrecognized; simp
@[simp] theorem State.cmdUnrecognized_flash : (s.cmdUnrecognized).flash = s.flash := by
  unfold State.cmdUnrecognized; simp
@[simp] theorem State.cmdUnrecognized_flashErased : (s.cmdUnrecognized).flashErased = s.flashErased := by
  unfold State.cmdUnrecognized; simp
@[simp] theorem State.cmdUnrecognized_refused : (s.cmdUnrecognized).refused = s.refused := by
  unfold State.cmdUnrecognized; simp
@[simp] theorem State.cmdUnrecognized_cfg : (s.cmdUnrecognized).cfg = s.cfg := by
  unfold State.cmdUnrecognized; simp
@[simp] theorem State.cmdUnrecognized_inputs : (s.cmdUnrecognized).inputs = s.inputs := by
  unfold State.cmdUnrecognized; simp
@[simp] theorem State.cmdUnrecognized_flashAnswers : (s.cmdUnrecognized).flashAnswers = s.flashAnswers := by
  unfold State.cmdUnrecognized; simp
@[simp] theorem State.cmdUnrecognized_classAnswers : (s.cmdUnrecognized).classAnswers = s.classAnswers := by
  unfold State.cmdUnrecognized; simp
@[simp] theorem State.cmdUnrecognized_obs : (s.cmdUnrecognized).obs = s.obs := by
  unfold State.cmdUnrecognized; simp
@[simp] theorem State.cmdUnrecognized_hostReceived : (s.cmdUnrecognized).hostReceived = s.hostReceived := by
  unfold State.cmdUnrecognized; simp
@[simp] theorem State.cmdUnrecognized_completions : (s.cmdUnrecognized).completions = s.completions := by
  unfold State.cmdUnrecognized; simp
@[simp] theorem State.cmdUnrecognized_notices : (s.cmdUnrecognized).notices = s.notices := by
  unfold State.cmdUnrecognized; simp

@[simp] theorem State.halfPage_devAddr (upper : Bool) : (s.halfPage upper).devAddr = s.devAddr := by
  unfold State.halfPage; dsimp only; (repeat' split) <;> simp
@[simp] theorem State.halfPage_devEn (upper : Bool) : (s.halfPage upper).devEn = s.devEn := by
  unfold State.halfPage; dsimp only; (repeat' split) <;> simp
@[simp] theorem State.halfPage_ctl (upper : Bool) : (s.halfPage upper).ctl = s.ctl := by
  unfold State.halfPage; dsimp only; (repeat' split) <;> simp
@[simp] theorem State.halfPage_refused (upper : Bool) : (s.halfPage upper).refused = s.refused := by
  unfold State.halfPage; dsimp only; (repeat' split) <;> simp
@[simp] theorem State.halfPage_cfg (upper : Bool) : (s.halfPage upper).cfg = s.cfg := by
  unfold State.halfPage; dsimp only; (repeat' split) <;> simp
@[simp] theorem State.halfPage_inputs (upper : Bool) : (s.halfPage upper).inputs = s.inputs := by
  unfold State.halfPage; dsimp only; (repeat' split) <;> simp
@[simp] theorem State.halfPage_classAnswers (upper : Bool) : (s.halfPage upper).classAnswers = s.classAnswers := by
  unfold State.halfPage; dsimp only; (repeat' split) <;> simp
@[simp] theorem State.halfPage_obs (upper : Bool) : (s.halfPage upper).obs = s.obs := by
  unfold State.halfPage; dsimp only; (repeat' split) <;> simp
@[simp] theorem State.halfPage_hostReceived (upper : Bool) : (s.halfPage upper).hostReceived = s.hostReceived := by
  unfold State.halfPage; dsimp only; (repeat' split) <;> simp
@[simp] theorem State.halfPage_completions (upper : Bool) : (s.halfPage upper).completions = s.completions := by
  unfold State.halfPage; dsimp only; (repeat' split) <;> simp
@[simp] theorem State.halfPage_notices (upper : Bool) : (s.halfPage upper).notices = s.notices := by
  unfold State.halfPage; dsimp only; (repeat' split) <;> simp

@[simp] theorem State.blRow1_devAddr : (s.blRow1).devAddr = s.devAddr := by
  unfold State.blRow1; simp
@[simp] theorem State.blRow1_devEn : (s.blRow1).devEn = s.devEn := by
  unfold State.blRow1; simp
@[simp] theorem State.blRow1_ctl : (s.blRow1).ctl = s.ctl := by
  unfold State.blRow1; simp
@[simp] theorem State.blRow1_ram : (s.blRow1).ram = s.ram := by
  unfold State.blRow1; simp
@[simp] theorem State.blRow1_pma : (s.blRow1).pma = s.pma := by
  unfold State.blRow1; simp
@[simp] theorem State.blRow1_flash : (s.blRow1).flash = s.flash := by
  unfold State.blRow1; simp
@[simp] theorem State.blRow1_flashErased : (s.blRow1).flashErased = s.flashErased := by
  unfold State.blRow1; simp
@[simp] theorem State.blRow1_refused : (s.blRow1).refused = s.refused := by
  unfold State.blRow1; simp
@[simp] theorem State.blRow1_cfg : (s.blRow1).cfg = s.cfg := by
  unfold State.blRow1; simp
@[simp] theorem State.blRow1_inputs : (s.blRow1).inputs = s.inputs := by
  unfold State.blRow1; simp
@[simp] theorem State.blRow1_flashAnswers : (s.blRow1).flashAnswers = s.flashAnswers := by
  unfold State.blRow1; simp
@[simp] theorem State.blRow1_classAnswers : (s.blRow1).classAnswers = s.classAnswers := by
  unfold State.blRow1; simp
@[simp] theorem State.blRow1_draws : (s.blRow1).draws = s.draws := by
  unfold State.blRow1; simp
@[simp] theorem State.blRow1_obs : (s.blRow1).obs = s.obs := by
  unfold State.blRow1; simp
@[simp] theorem State.blRow1_hostReceived : (s.blRow1).hostReceived = s.hostReceived := by
  unfold State.blRow1; simp
@[simp] theorem State.blRow1_completions : (s.blRow1).completions = s.completions := by
  unfold State.blRow1; simp
@[simp] theorem State.blRow1_notices : (s.blRow1).notices = s.notices := by
  unfold State.blRow1; simp

@[simp] theorem State.blRow2_devAddr : (s.blRow2).devAddr = s.devAddr := by
  unfold State.blRow2; simp
@[simp] theorem State.blRow2_devEn : (s.blRow2).devEn = s.devEn := by
  unfold State.blRow2; simp
@[simp] theorem State.blRow2_ctl : (s.blRow2).ctl = s.ctl := by
  unfold State.blRow2; simp
@[simp] theorem State.blRow2_flash : (s.blRow2).flash = s.flash := by
  unfold State.blRow2; simp
@[simp] theorem State.blRow2_flashErased : (s.blRow2).flashErased = s.flashErased := by
  unfold State.blRow2; simp
@[simp] theorem State.blRow2_refused : (s.blRow2).refused = s.refused := by
  unfold State.blRow2; simp
@[simp] theorem State.blRow2_cfg : (s.blRow2).cfg = s.cfg := by
  unfold State.blRow2; simp
@[simp] theorem State.blRow2_inputs : (s.blRow2).inputs = s.inputs := by
  unfold State.blRow2; simp
@[simp] theorem State.blRow2_flashAnswers : (s.blRow2).flashAnswers = s.flashAnswers := by
  unfold State.blRow2; simp
@[simp] theorem State.blRow2_classAnswers : (s.blRow2).classAnswers = s.classAnswers := by
  unfold State.blRow2; simp
@[simp] theorem State.blRow2_obs : (s.blRow2).obs = s.obs := by
  unfold State.blRow2; simp
@[simp] theorem State.blRow2_hostReceived : (s.blRow2).hostReceived = s.hostReceived := by
  unfold State.blRow2; simp
@[simp] theorem State.blRow2_completions : (s.blRow2).completions = s.completions := by
  unfold State.blRow2; simp
@[simp] theorem State.blRow2_notices : (s.blRow2).notices = s.notices := by
  unfold State.blRow2; simp

@[simp] theorem State.blRow3_devAddr : (s.blRow3).devAddr = s.devAddr := by
  unfold State.blRow3; (repeat' split) <;> simp
@[simp] theorem State.blRow3_devEn : (s.blRow3).devEn = s.devEn := by
  unfold State.blRow3; (repeat' split) <;> simp
@[simp] theorem State.blRow3_ctl : (s.blRow3).ctl = s.ctl := by
  unfold State.blRow3; (repeat' split) <;> simp
@[simp] theorem State.blRow3_refused : (s.blRow3).refused = s.refused := by
  unfold State.blRow3; (repeat' split) <;> simp
@[simp] theorem State.blRow3_cfg : (s.blRow3).cfg = s.cfg := by
  unfold State.blRow3; (repeat' split) <;> simp
@[simp] theorem State.blRow3_inputs : (s.blRow3).inputs = s.inputs := by
  unfold State.blRow3; (repeat' split) <;> simp
@[simp] theorem State.blRow3_classAnswers : (s.blRow3).classAnswers = s.classAnswers := by
  unfold State.blRow3; (repeat' split) <;> simp
@[simp] theorem State.blRow3_obs : (s.blRow3).obs = s.obs := by
  unfold State.blRow3; (repeat' split) <;> simp
@[simp] theorem State.blRow3_hostReceived : (s.blRow3).hostReceived = s.hostReceived := by
  unfold State.blRow3; (repeat' split) <;> simp
@[simp] theorem State.blRow3_completions : (s.blRow3).completions = s.completions := by
  unfold State.blRow3; (repeat' split) <;> simp
@[simp] theorem State.blRow3_notices : (s.blRow3).notices = s.notices := by
  unfold State.blRow3; (repeat' split) <;> simp

@[simp] theorem State.blRow4_devAddr : (s.blRow4).devAddr = s.devAddr := by
  unfold State.blRow4; simp
@[simp] theorem State.blRow4_devEn : (s.blRow4).devEn = s.devEn := by
  unfold State.blRow4; simp
@[simp] theorem State.blRow4_ctl : (s.blRow4).ctl = s.ctl := by
  unfold State.blRow4; simp
@[simp] theorem State.blRow4_ram : (s.blRow4).ram = s.ram := by
  unfold State.blRow4; simp
@[simp] theorem State.blRow4_pma : (s.blRow4).pma = s.pma := by
  unfold State.blRow4; simp
@[simp] theorem State.blRow4_flash : (s.blRow4).flash = s.flash := by
  unfold State.blRow4; simp
@[simp] theorem State.blRow4_flashErased : (s.blRow4).flashErased = s.flashErased := by
  unfold State.blRow4; simp
@[simp] theorem State.blRow4_refused : (s.blRow4).refused = s.refused := by
  unfold State.blRow4; simp
@[simp] theorem State.blRow4_cfg : (s.blRow4).cfg = s.cfg := by
  unfold State.blRow4; simp
@[simp] theorem State.blRow4_inputs : (s.blRow4).inputs = s.inputs := by
  unfold State.blRow4; simp
@[simp] theorem State.blRow4_flashAnswers : (s.blRow4).flashAnswers = s.flashAnswers := by
  unfold State.blRow4; simp
@[simp] theorem State.blRow4_classAnswers : (s.blRow4).classAnswers = s.classAnswers := by
  unfold State.blRow4; simp
@[simp] theorem State.blRow4_draws : (s.blRow4).draws = s.draws := by
  unfold State.blRow4; simp
@[simp] theorem State.blRow4_obs : (s.blRow4).obs = s.obs := by
  unfold State.blRow4; simp
@[simp] theorem State.blRow4_hostReceived : (s.blRow4).hostReceived = s.hostReceived := by
  unfold State.blRow4; simp
@[simp] theorem State.blRow4_completions : (s.blRow4).completions = s.completions := by
  unfold State.blRow4; simp
@[simp] theorem State.blRow4_notices : (s.blRow4).notices = s.notices := by
  unfold State.blRow4; simp

@[simp] theorem State.blReadRefused_brk : (s.blReadRefused).brk = s.brk := by
  unfold State.blReadRefused; simp
@[simp] theorem State.blReadRefused_ep : (s.blReadRefused).ep = s.ep := by
  unfold State.blReadRefused; simp
@[simp] theorem State.blReadRefused_bdt : (s.blReadRefused).bdt = s.bdt := by
  unfold State.blReadRefused; simp
@[simp] theorem State.blReadRefused_hw : (s.blReadRefused).hw = s.hw := by
  unfold State.blReadRefused; simp
@[simp] theorem State.blReadRefused_devAddr : (s.blReadRefused).devAddr = s.devAddr := by
  unfold State.blReadRefused; simp
@[simp] theorem State.blReadRefused_devEn : (s.blReadRefused).devEn = s.devEn := by
  unfold State.blReadRefused; simp
@[simp] theorem State.blReadRefused_ctl : (s.blReadRefused).ctl = s.ctl := by
  unfold State.blReadRefused; simp
@[simp] theorem State.blReadRefused_bl : (s.blReadRefused).bl = s.bl := by
  unfold State.blReadRefused; simp
@[simp] theorem State.blReadRefused_ram : (s.blReadRefused).ram = s.ram := by
  unfold State.blReadRefused; simp
@[simp] theorem State.blReadRefused_pma : (s.blReadRefused).pma = s.pma := by
  unfold State.blReadRefused; simp
@[simp] theorem State.blReadRefused_flash : (s.blReadRefused).flash = s.flash := by
  unfold State.blReadRefused; simp
@[simp] theorem State.blReadRefused_flashErased : (s.blReadRefused).flashErased = s.flashErased := by
  unfold State.blReadRefused; simp
@[simp] theorem State.blReadRefused_faults : (s.blReadRefused).faults = s.faults := by
  unfold State.blReadRefused; simp
@[simp] theorem State.blReadRefused_cfg : (s.blReadRefused).cfg = s.cfg := by
  unfold State.blReadRefused; simp
@[simp] theorem State.blReadRefused_inputs : (s.blReadRefused).inputs = s.inputs := by
  unfold State.blReadRefused; simp
@[simp] theorem State.blReadRefused_flashAnswers : (s.blReadRefused).flashAnswers = s.flashAnswers := by
  unfold State.blReadRefused; simp
@[simp] theorem State.blReadRefused_classAnswers : (s.blReadRefused).classAnswers = s.classAnswers := by
  unfold State.blReadRefused; simp
@[simp] theorem State.blReadRefused_draws : (s.blReadRefused).draws = s.draws := by
  unfold State.blReadRefused; simp
@[simp] theorem State.blReadRefused_obs : (s.blReadRefused).obs = s.obs := by
  unfold State.blReadRefused; simp
@[simp] theorem State.blReadRefused_hostReceived : (s.blReadRefused).hostReceived = s.hostReceived := by
  unfold State.blReadRefused; simp
@[simp] theorem State.blReadRefused_completions : (s.blReadRefused).completions = s.completions := by
  unfold State.blReadRefused; simp
@[simp] theorem State.blReadRefused_notices : (s.blReadRefused).notices = s.notices := by
  unfold State.blReadRefused; simp

@[simp] theorem State.blRow9_devAddr : (s.blRow9).devAddr = s.devAddr := by
  unfold State.blRow9; simp
@[simp] theorem State.blRow9_devEn : (s.blRow9).devEn = s.devEn := by
  unfold State.blRow9; simp
@[simp] theorem State.blRow9_ctl : (s.blRow9).ctl = s.ctl := by
  unfold State.blRow9; simp
@[simp] theorem State.blRow9_flash : (s.blRow9).flash = s.flash := by
  unfold State.blRow9; simp
@[simp] theorem State.blRow9_flashErased : (s.blRow9).flashErased = s.flashErased := by
  unfold State.blRow9; simp
@[simp] theorem State.blRow9_refused : (s.blRow9).refused = s.refused := by
  unfold State.blRow9; simp
@[simp] theorem State.blRow9_cfg : (s.blRow9).cfg = s.cfg := by
  unfold State.blRow9; simp
@[simp] theorem State.blRow9_inputs : (s.blRow9).inputs = s.inputs := by
  unfold State.blRow9; simp
@[simp] theorem State.blRow9_flashAnswers : (s.blRow9).flashAnswers = s.flashAnswers := by
  unfold State.blRow9; simp
@[simp] theorem State.blRow9_classAnswers : (s.blRow9).classAnswers = s.classAnswers := by
  unfold State.blRow9; simp
@[simp] theorem State.blRow9_obs : (s.blRow9).obs = s.obs := by
  unfold State.blRow9; simp
@[simp] theorem State.blRow9_hostReceived : (s.blRow9).hostReceived = s.hostReceived := by
  unfold State.blRow9; simp
@[simp] theorem State.blRow9_completions : (s.blRow9).completions = s.completions := by
  unfold State.blRow9; simp
@[simp] theorem State.blRow9_notices : (s.blRow9).notices = s.notices := by
  unfold State.blRow9; simp

@[simp] theorem State.blEvent_devAddr (e : BlEvent) : (s.blEvent e).devAddr = s.devAddr := by
  unfold State.blEvent; (repeat' split) <;> simp
@[simp] theorem State.blEvent_devEn (e : BlEvent) : (s.blEvent e).devEn = s.devEn := by
  unfold State.blEvent; (repeat' split) <;> simp
@[simp] theorem State.blEvent_ctl (e : BlEvent) : (s.blEvent e).ctl = s.ctl := by
  unfold State.blEvent; (repeat' split) <;> simp
@[simp] theorem State.blEvent_cfg (e : BlEvent) : (s.blEvent e).cfg = s.cfg := by
  unfold State.blEvent; (repeat' split) <;> simp
@[simp] theorem State.blEvent_inputs (e : BlEvent) : (s.blEvent e).inputs = s.inputs := by
  unfold State.blEvent; (repeat' split) <;> simp
@[simp] theorem State.blEvent_classAnswers (e : BlEvent) : (s.blEvent e).classAnswers = s.classAnswers := by
  unfold State.blEvent; (repeat' split) <;> simp
@[simp] theorem State.blEvent_obs (e : BlEvent) : (s.blEvent e).obs = s.obs := by
  unfold State.blEvent; (repeat' split) <;> simp
@[simp] theorem State.blEvent_hostReceived (e : BlEvent) : (s.blEvent e).hostReceived = s.hostReceived := by
  unfold State.blEvent; (repeat' split) <;> simp
@[simp] theorem State.blEvent_completions (e : BlEvent) : (s.blEvent e).completions = s.completions := by
  unfold State.blEvent; (repeat' split) <;> simp
@[simp] theorem State.blEvent_notices (e : BlEvent) : (s.blEvent e).notices = s.notices := by
  unfold State.blEvent; (repeat' split) <;> simp

@[simp] theorem State.armSetup_devAddr : (s.armSetup).devAddr = s.devAddr := by
  unfold State.armSetup; simp
@[simp] theorem State.armSetup_devEn : (s.armSetup).devEn = s.devEn := by
  unfold State.armSetup; simp
@[simp] theorem State.armSetup_ctl : (s.armSetup).ctl = s.ctl := by
  unfold State.armSetup; simp
@[simp] theorem State.armSetup_bl : (s.armSetup).bl = s.bl := by
  unfold State.armSetup; simp
@[simp] theorem State.armSetup_ram : (s.armSetup).ram = s.ram := by
  unfold State.armSetup; simp
@[simp] theorem State.armSetup_pma : (s.armSetup).pma = s.pma := by
  unfold State.armSetup; simp
@[simp] theorem State.armSetup_flash : (s.armSetup).flash = s.flash := by
  unfold State.armSetup; simp
@[simp] theorem State.armSetup_flashErased : (s.armSetup).flashErased = s.flashErased := by
  unfold State.armSetup; simp
@[simp] theorem State.armSetup_refused : (s.armSetup).refused = s.refused := by
  unfold State.armSetup; simp
@[simp] theorem State.armSetup_cfg : (s.armSetup).cfg = s.cfg := by
  unfold State.armSetup; simp
@[simp] theorem State.armSetup_inputs : (s.armSetup).inputs = s.inputs := by
  unfold State.armSetup; simp
@[simp] theorem State.armSetup_flashAnswers : (s.armSetup).flashAnswers = s.flashAnswers := by
  unfold State.armSetup; simp
@[simp] theorem State.armSetup_classAnswers : (s.armSetup).classAnswers = s.classAnswers := by
  unfold State.armSetup; simp
@[simp] theorem State.armSetup_draws : (s.armSetup).draws = s.draws := by
  unfold State.armSetup; simp
@[simp] theorem State.armSetup_obs : (s.armSetup).obs = s.obs := by
  unfold State.armSetup; simp
@[simp] theorem State.armSetup_hostReceived : (s.armSetup).hostReceived = s.hostReceived := by
  unfold State.armSetup; simp
@[simp] theorem State.armSetup_completions : (s.armSetup).completions = s.completions := by
  unfold State.armSetup; simp
@[simp] theorem State.armSetup_notices : (s.armSetup).notices = s.notices := by
  unfold State.armSetup; simp

@[simp] theorem State.stallEp0_devAddr : (s.stallEp0).devAddr = s.devAddr := by
  unfold State.stallEp0; simp
@[simp] theorem State.stallEp0_devEn : (s.stallEp0).devEn = s.devEn := by
  unfold State.stallEp0; simp
@[simp] theorem State.stallEp0_ctl : (s.stallEp0).ctl = s.ctl := by
  unfold State.stallEp0; simp
@[simp] theorem State.stallEp0_bl : (s.stallEp0).bl = s.bl := by
  unfold State.stallEp0; simp
@[simp] theorem State.stallEp0_ram : (s.stallEp0).ram = s.ram := by
  unfold State.stallEp0; simp
@[simp] theorem State.stallEp0_flash : (s.stallEp0).flash = s.flash := by
  unfold State.stallEp0; simp
@[simp] theorem State.stallEp0_flashErased : (s.stallEp0).flashErased = s.flashErased := by
  unfold State.stallEp0; simp
@[simp] theorem State.stallEp0_refused : (s.stallEp0).refused = s.refused := by
  unfold State.stallEp0; simp
@[simp] theorem State.stallEp0_cfg : (s.stallEp0).cfg = s.cfg := by
  unfold State.stallEp0; simp
@[simp] theorem State.stallEp0_inputs : (s.stallEp0).inputs = s.inputs := by
  unfold State.stallEp0; simp
@[simp] theorem State.stallEp0_flashAnswers : (s.stallEp0).flashAnswers = s.flashAnswers := by
  unfold State.stallEp0; simp
@[simp] theorem State.stallEp0_classAnswers : (s.stallEp0).classAnswers = s.classAnswers := by
  unfold State.stallEp0; simp
@[simp] theorem State.stallEp0_obs : (s.stallEp0).obs = s.obs := by
  unfold State.stallEp0; simp
@[simp] theorem State.stallEp0_hostReceived : (s.stallEp0).hostReceived = s.hostReceived := by
  unfold State.stallEp0; simp
@[simp] theorem State.stallEp0_completions : (s.stallEp0).completions = s.completions := by
  unfold State.stallEp0; simp
@[simp] theorem State.stallEp0_notices : (s.stallEp0).notices = s.notices := by
  unfold State.stallEp0; simp

@[simp] theorem State.inZlp_devAddr : (s.inZlp).devAddr = s.devAddr := by
  unfold State.inZlp; simp
@[simp] theorem State.inZlp_devEn : (s.inZlp).devEn = s.devEn := by
  unfold State.inZlp; simp
@[simp] theorem State.inZlp_ctl : (s.inZlp).ctl = s.ctl := by
  unfold State.inZlp; simp
@[simp] theorem State.inZlp_bl : (s.inZlp).bl = s.bl := by
  unfold State.inZlp; simp
@[simp] theorem State.inZlp_ram : (s.inZlp).ram = s.ram := by
  unfold State.inZlp; simp
@[simp] theorem State.inZlp_flash : (s.inZlp).flash = s.flash := by
  unfold State.inZlp; simp
@[simp] theorem State.inZlp_flashErased : (s.inZlp).flashErased = s.flashErased := by
  unfold State.inZlp; simp
@[simp] theorem State.inZlp_refused : (s.inZlp).refused = s.refused := by
  unfold State.inZlp; simp
@[simp] theorem State.inZlp_cfg : (s.inZlp).cfg = s.cfg := by
  unfold State.inZlp; simp
@[simp] theorem State.inZlp_inputs : (s.inZlp).inputs = s.inputs := by
  unfold State.inZlp; simp
@[simp] theorem State.inZlp_flashAnswers : (s.inZlp).flashAnswers = s.flashAnswers := by
  unfold State.inZlp; simp
@[simp] theorem State.inZlp_classAnswers : (s.inZlp).classAnswers = s.classAnswers := by
  unfold State.inZlp; simp
@[simp] theorem State.inZlp_obs : (s.inZlp).obs = s.obs := by
  unfold State.inZlp; simp
@[simp] theorem State.inZlp_hostReceived : (s.inZlp).hostReceived = s.hostReceived := by
  unfold State.inZlp; simp
@[simp] theorem State.inZlp_completions : (s.inZlp).completions = s.completions := by
  unfold State.inZlp; simp
@[simp] theorem State.inZlp_notices : (s.inZlp).notices = s.notices := by
  unfold State.inZlp; simp

@[simp] theorem State.outZlp_devAddr : (s.outZlp).devAddr = s.devAddr := by
  unfold State.outZlp; simp
@[simp] theorem State.outZlp_devEn : (s.outZlp).devEn = s.devEn := by
  unfold State.outZlp; simp
@[simp] theorem State.outZlp_ctl : (s.outZlp).ctl = s.ctl := by
  unfold State.outZlp; simp
@[simp] theorem State.outZlp_bl : (s.outZlp).bl = s.bl := by
  unfold State.outZlp; simp
@[simp] theorem State.outZlp_ram : (s.outZlp).ram = s.ram := by
  unfold State.outZlp; simp
@[simp] theorem State.outZlp_pma : (s.outZlp).pma = s.pma := by
  unfold State.outZlp; simp
@[simp] theorem State.outZlp_flash : (s.outZlp).flash = s.flash := by
  unfold State.outZlp; simp
@[simp] theorem State.outZlp_flashErased : (s.outZlp).flashErased = s.flashErased := by
  unfold State.outZlp; simp
@[simp] theorem State.outZlp_refused : (s.outZlp).refused = s.refused := by
  unfold State.outZlp; simp
@[simp] theorem State.outZlp_cfg : (s.outZlp).cfg = s.cfg := by
  unfold State.outZlp; simp
@[simp] theorem State.outZlp_inputs : (s.outZlp).inputs = s.inputs := by
  unfold State.outZlp; simp
@[simp] theorem State.outZlp_flashAnswers : (s.outZlp).flashAnswers = s.flashAnswers := by
  unfold State.outZlp; simp
@[simp] theorem State.outZlp_classAnswers : (s.outZlp).classAnswers = s.classAnswers := by
  unfold State.outZlp; simp
@[simp] theorem State.outZlp_draws : (s.outZlp).draws = s.draws := by
  unfold State.outZlp; simp
@[simp] theorem State.outZlp_obs : (s.outZlp).obs = s.obs := by
  unfold State.outZlp; simp
@[simp] theorem State.outZlp_hostReceived : (s.outZlp).hostReceived = s.hostReceived := by
  unfold State.outZlp; simp
@[simp] theorem State.outZlp_completions : (s.outZlp).completions = s.completions := by
  unfold State.outZlp; simp
@[simp] theorem State.outZlp_notices : (s.outZlp).notices = s.notices := by
  unfold State.outZlp; simp

@[simp] theorem State.hidBinding_devAddr : (s.hidBinding).devAddr = s.devAddr := by
  unfold State.hidBinding; simp
@[simp] theorem State.hidBinding_devEn : (s.hidBinding).devEn = s.devEn := by
  unfold State.hidBinding; simp
@[simp] theorem State.hidBinding_ctl : (s.hidBinding).ctl = s.ctl := by
  unfold State.hidBinding; simp
@[simp] theorem State.hidBinding_cfg : (s.hidBinding).cfg = s.cfg := by
  unfold State.hidBinding; simp
@[simp] theorem State.hidBinding_inputs : (s.hidBinding).inputs = s.inputs := by
  unfold State.hidBinding; simp
@[simp] theorem State.hidBinding_classAnswers : (s.hidBinding).classAnswers = s.classAnswers := by
  unfold State.hidBinding; simp
@[simp] theorem State.hidBinding_obs : (s.hidBinding).obs = s.obs := by
  unfold State.hidBinding; simp
@[simp] theorem State.hidBinding_hostReceived : (s.hidBinding).hostReceived = s.hostReceived := by
  unfold State.hidBinding; simp
@[simp] theorem State.hidBinding_completions : (s.hidBinding).completions = s.completions := by
  unfold State.hidBinding; simp
@[simp] theorem State.hidBinding_notices : (s.hidBinding).notices = s.notices := by
  unfold State.hidBinding; simp

@[simp] theorem State.setupDispatch_devAddr : s.setupDispatch.2.devAddr = s.devAddr := by
  unfold State.setupDispatch; split <;> simp [State.reqGetStatus, State.reqGetDescriptor, State.reqSetAddress,
    State.reqSetConfiguration, State.reqOther]
@[simp] theorem State.setupDispatch_devEn : s.setupDispatch.2.devEn = s.devEn := by
  unfold State.setupDispatch; split <;> simp [State.reqGetStatus, State.reqGetDescriptor, State.reqSetAddress,
    State.reqSetConfiguration, State.reqOther]
@[simp] theorem State.setupDispatch_ctl : s.setupDispatch.2.ctl = s.ctl := by
  unfold State.setupDispatch; split <;> simp [State.reqGetStatus, State.reqGetDescriptor, State.reqSetAddress,
    State.reqSetConfiguration, State.reqOther]
@[simp] theorem State.setupDispatch_cfg : s.setupDispatch.2.cfg = s.cfg := by
  unfold State.setupDispatch; split <;> simp [State.reqGetStatus, State.reqGetDescriptor, State.reqSetAddress,
    State.reqSetConfiguration, State.reqOther]
@[simp] theorem State.setupDispatch_inputs : s.setupDispatch.2.inputs = s.inputs := by
  unfold State.setupDispatch; split <;> simp [State.reqGetStatus, State.reqGetDescriptor, State.reqSetAddress,
    State.reqSetConfiguration, State.reqOther]
@[simp] theorem State.setupDispatch_obs : s.setupDispatch.2.obs = s.obs := by
  unfold State.setupDispatch; split <;> simp [State.reqGetStatus, State.reqGetDescriptor, State.reqSetAddress,
    State.reqSetConfiguration, State.reqOther]
@[simp] theorem State.setupDispatch_hostReceived : s.setupDispatch.2.hostReceived = s.hostReceived := by
  unfold State.setupDispatch; split <;> simp [State.reqGetStatus, State.reqGetDescriptor, State.reqSetAddress,
    State.reqSetConfiguration, State.reqOther]
@[simp] theorem State.setupDispatch_completions : s.setupDispatch.2.completions = s.completions := by
  unfold State.setupDispatch; split <;> simp [State.reqGetStatus, State.reqGetDescriptor, State.reqSetAddress,
    State.reqSetConfiguration, State.reqOther]
@[simp] theorem State.setupDispatch_notices : s.setupDispatch.2.notices = s.notices := by
  unfold State.setupDispatch; split <;> simp [State.reqGetStatus, State.reqGetDescriptor, State.reqSetAddress,
    State.reqSetConfiguration, State.reqOther]

@[simp] theorem State.startStage_devAddr (p : SetupPacket) (r : Answer) : (s.startStage p r).devAddr = s.devAddr := by
  unfold State.startStage; (repeat' split) <;> simp
@[simp] theorem State.startStage_devEn (p : SetupPacket) (r : Answer) : (s.startStage p r).devEn = s.devEn := by
  unfold State.startStage; (repeat' split) <;> simp
@[simp] theorem State.startStage_bl (p : SetupPacket) (r : Answer) : (s.startStage p r).bl = s.bl := by
  unfold State.startStage; (repeat' split) <;> simp
@[simp] theorem State.startStage_ram (p : SetupPacket) (r : Answer) : (s.startStage p r).ram = s.ram := by
  unfold State.startStage; (repeat' split) <;> simp
@[simp] theorem State.startStage_flash (p : SetupPacket) (r : Answer) : (s.startStage p r).flash = s.flash := by
  unfold State.startStage; (repeat' split) <;> simp
@[simp] theorem State.startStage_flashErased (p : SetupPacket) (r : Answer) : (s.startStage p r).flashErased = s.flashErased := by
  unfold State.startStage; (repeat' split) <;> simp
@[simp] theorem State.startStage_refused (p : SetupPacket) (r : Answer) : (s.startStage p r).refused = s.refused := by
  unfold State.startStage; (repeat' split) <;> simp
@[simp] theorem State.startStage_cfg (p : SetupPacket) (r : Answer) : (s.startStage p r).cfg = s.cfg := by
  unfold State.startStage; (repeat' split) <;> simp
@[simp] theorem State.startStage_inputs (p : SetupPacket) (r : Answer) : (s.startStage p r).inputs = s.inputs := by
  unfold State.startStage; (repeat' split) <;> simp
@[simp] theorem State.startStage_flashAnswers (p : SetupPacket) (r : Answer) : (s.startStage p r).flashAnswers = s.flashAnswers := by
  unfold State.startStage; (repeat' split) <;> simp
@[simp] theorem State.startStage_classAnswers (p : SetupPacket) (r : Answer) : (s.startStage p r).classAnswers = s.classAnswers := by
  unfold State.startStage; (repeat' split) <;> simp
@[simp] theorem State.startStage_obs (p : SetupPacket) (r : Answer) : (s.startStage p r).obs = s.obs := by
  unfold State.startStage; (repeat' split) <;> simp
@[simp] theorem State.startStage_hostReceived (p : SetupPacket) (r : Answer) : (s.startStage p r).hostReceived = s.hostReceived := by
  unfold State.startStage; (repeat' split) <;> simp
@[simp] theorem State.startStage_completions (p : SetupPacket) (r : Answer) : (s.startStage p r).completions = s.completions := by
  unfold State.startStage; (repeat' split) <;> simp
@[simp] theorem State.startStage_notices (p : SetupPacket) (r : Answer) : (s.startStage p r).notices = s.notices := by
  unfold State.startStage; (repeat' split) <;> simp

@[simp] theorem State.ctlRow2_devAddr : s.ctlRow2.devAddr = s.devAddr := by
  unfold State.ctlRow2; simp
@[simp] theorem State.ctlRow2_devEn : s.ctlRow2.devEn = s.devEn := by
  unfold State.ctlRow2; simp
@[simp] theorem State.ctlRow2_cfg : s.ctlRow2.cfg = s.cfg := by
  unfold State.ctlRow2; simp
@[simp] theorem State.ctlRow2_inputs : s.ctlRow2.inputs = s.inputs := by
  unfold State.ctlRow2; simp
@[simp] theorem State.ctlRow2_obs : s.ctlRow2.obs = s.obs := by
  unfold State.ctlRow2; simp
@[simp] theorem State.ctlRow2_hostReceived : s.ctlRow2.hostReceived = s.hostReceived := by
  unfold State.ctlRow2; simp
@[simp] theorem State.ctlRow2_completions : s.ctlRow2.completions = s.completions := by
  unfold State.ctlRow2; simp
@[simp] theorem State.ctlRow2_notices : s.ctlRow2.notices = s.notices := by
  unfold State.ctlRow2; simp

@[simp] theorem State.ctlRow1_devAddr : (s.ctlRow1).devAddr = s.devAddr := by
  unfold State.ctlRow1; simp
@[simp] theorem State.ctlRow1_devEn : (s.ctlRow1).devEn = s.devEn := by
  unfold State.ctlRow1; simp
@[simp] theorem State.ctlRow1_bl : (s.ctlRow1).bl = s.bl := by
  unfold State.ctlRow1; simp
@[simp] theorem State.ctlRow1_ram : (s.ctlRow1).ram = s.ram := by
  unfold State.ctlRow1; simp
@[simp] theorem State.ctlRow1_pma : (s.ctlRow1).pma = s.pma := by
  unfold State.ctlRow1; simp
@[simp] theorem State.ctlRow1_flash : (s.ctlRow1).flash = s.flash := by
  unfold State.ctlRow1; simp
@[simp] theorem State.ctlRow1_flashErased : (s.ctlRow1).flashErased = s.flashErased := by
  unfold State.ctlRow1; simp
@[simp] theorem State.ctlRow1_cfg : (s.ctlRow1).cfg = s.cfg := by
  unfold State.ctlRow1; simp
@[simp] theorem State.ctlRow1_inputs : (s.ctlRow1).inputs = s.inputs := by
  unfold State.ctlRow1; simp
@[simp] theorem State.ctlRow1_flashAnswers : (s.ctlRow1).flashAnswers = s.flashAnswers := by
  unfold State.ctlRow1; simp
@[simp] theorem State.ctlRow1_classAnswers : (s.ctlRow1).classAnswers = s.classAnswers := by
  unfold State.ctlRow1; simp
@[simp] theorem State.ctlRow1_draws : (s.ctlRow1).draws = s.draws := by
  unfold State.ctlRow1; simp
@[simp] theorem State.ctlRow1_obs : (s.ctlRow1).obs = s.obs := by
  unfold State.ctlRow1; simp
@[simp] theorem State.ctlRow1_hostReceived : (s.ctlRow1).hostReceived = s.hostReceived := by
  unfold State.ctlRow1; simp
@[simp] theorem State.ctlRow1_completions : (s.ctlRow1).completions = s.completions := by
  unfold State.ctlRow1; simp
@[simp] theorem State.ctlRow1_notices : (s.ctlRow1).notices = s.notices := by
  unfold State.ctlRow1; simp

@[simp] theorem State.ctlRow3_devAddr : (s.ctlRow3).devAddr = s.devAddr := by
  unfold State.ctlRow3; (repeat' split) <;> simp
@[simp] theorem State.ctlRow3_devEn : (s.ctlRow3).devEn = s.devEn := by
  unfold State.ctlRow3; (repeat' split) <;> simp
@[simp] theorem State.ctlRow3_bl : (s.ctlRow3).bl = s.bl := by
  unfold State.ctlRow3; (repeat' split) <;> simp
@[simp] theorem State.ctlRow3_ram : (s.ctlRow3).ram = s.ram := by
  unfold State.ctlRow3; (repeat' split) <;> simp
@[simp] theorem State.ctlRow3_flash : (s.ctlRow3).flash = s.flash := by
  unfold State.ctlRow3; (repeat' split) <;> simp
@[simp] theorem State.ctlRow3_flashErased : (s.ctlRow3).flashErased = s.flashErased := by
  unfold State.ctlRow3; (repeat' split) <;> simp
@[simp] theorem State.ctlRow3_refused : (s.ctlRow3).refused = s.refused := by
  unfold State.ctlRow3; (repeat' split) <;> simp
@[simp] theorem State.ctlRow3_cfg : (s.ctlRow3).cfg = s.cfg := by
  unfold State.ctlRow3; (repeat' split) <;> simp
@[simp] theorem State.ctlRow3_inputs : (s.ctlRow3).inputs = s.inputs := by
  unfold State.ctlRow3; (repeat' split) <;> simp
@[simp] theorem State.ctlRow3_flashAnswers : (s.ctlRow3).flashAnswers = s.flashAnswers := by
  unfold State.ctlRow3; (repeat' split) <;> simp
@[simp] theorem State.ctlRow3_classAnswers : (s.ctlRow3).classAnswers = s.classAnswers := by
  unfold State.ctlRow3; (repeat' split) <;> simp
@[simp] theorem State.ctlRow3_obs : (s.ctlRow3).obs = s.obs := by
  unfold State.ctlRow3; (repeat' split) <;> simp
@[simp] theorem State.ctlRow3_hostReceived : (s.ctlRow3).hostReceived = s.hostReceived := by
  unfold State.ctlRow3; (repeat' split) <;> simp
@[simp] theorem State.ctlRow3_completions : (s.ctlRow3).completions = s.completions := by
  unfold State.ctlRow3; (repeat' split) <;> simp
@[simp] theorem State.ctlRow3_notices : (s.ctlRow3).notices = s.notices := by
  unfold State.ctlRow3; (repeat' split) <;> simp

@[simp] theorem State.ctlRow4_devEn : (s.ctlRow4).devEn = s.devEn := by
  unfold State.ctlRow4; simp
@[simp] theorem State.ctlRow4_bl : (s.ctlRow4).bl = s.bl := by
  unfold State.ctlRow4; simp
@[simp] theorem State.ctlRow4_pma : (s.ctlRow4).pma = s.pma := by
  unfold State.ctlRow4; simp
@[simp] theorem State.ctlRow4_flash : (s.ctlRow4).flash = s.flash := by
  unfold State.ctlRow4; simp
@[simp] theorem State.ctlRow4_flashErased : (s.ctlRow4).flashErased = s.flashErased := by
  unfold State.ctlRow4; simp
@[simp] theorem State.ctlRow4_refused : (s.ctlRow4).refused = s.refused := by
  unfold State.ctlRow4; simp
@[simp] theorem State.ctlRow4_cfg : (s.ctlRow4).cfg = s.cfg := by
  unfold State.ctlRow4; simp
@[simp] theorem State.ctlRow4_inputs : (s.ctlRow4).inputs = s.inputs := by
  unfold State.ctlRow4; simp
@[simp] theorem State.ctlRow4_flashAnswers : (s.ctlRow4).flashAnswers = s.flashAnswers := by
  unfold State.ctlRow4; simp
@[simp] theorem State.ctlRow4_classAnswers : (s.ctlRow4).classAnswers = s.classAnswers := by
  unfold State.ctlRow4; simp
@[simp] theorem State.ctlRow4_draws : (s.ctlRow4).draws = s.draws := by
  unfold State.ctlRow4; simp
@[simp] theorem State.ctlRow4_obs : (s.ctlRow4).obs = s.obs := by
  unfold State.ctlRow4; simp
@[simp] theorem State.ctlRow4_hostReceived : (s.ctlRow4).hostReceived = s.hostReceived := by
  unfold State.ctlRow4; simp

@[simp] theorem State.ctlRow5_devAddr : (s.ctlRow5).devAddr = s.devAddr := by
  unfold State.ctlRow5; simp
@[simp] theorem State.ctlRow5_devEn : (s.ctlRow5).devEn = s.devEn := by
  unfold State.ctlRow5; simp
@[simp] theorem State.ctlRow5_bl : (s.ctlRow5).bl = s.bl := by
  unfold State.ctlRow5; simp
@[simp] theorem State.ctlRow5_ram : (s.ctlRow5).ram = s.ram := by
  unfold State.ctlRow5; simp
@[simp] theorem State.ctlRow5_flash : (s.ctlRow5).flash = s.flash := by
  unfold State.ctlRow5; simp
@[simp] theorem State.ctlRow5_flashErased : (s.ctlRow5).flashErased = s.flashErased := by
  unfold State.ctlRow5; simp
@[simp] theorem State.ctlRow5_refused : (s.ctlRow5).refused = s.refused := by
  unfold State.ctlRow5; simp
@[simp] theorem State.ctlRow5_cfg : (s.ctlRow5).cfg = s.cfg := by
  unfold State.ctlRow5; simp
@[simp] theorem State.ctlRow5_inputs : (s.ctlRow5).inputs = s.inputs := by
  unfold State.ctlRow5; simp
@[simp] theorem State.ctlRow5_flashAnswers : (s.ctlRow5).flashAnswers = s.flashAnswers := by
  unfold State.ctlRow5; simp
@[simp] theorem State.ctlRow5_classAnswers : (s.ctlRow5).classAnswers = s.classAnswers := by
  unfold State.ctlRow5; simp
@[simp] theorem State.ctlRow5_obs : (s.ctlRow5).obs = s.obs := by
  unfold State.ctlRow5; simp
@[simp] theorem State.ctlRow5_hostReceived : (s.ctlRow5).hostReceived = s.hostReceived := by
  unfold State.ctlRow5; simp
@[simp] theorem State.ctlRow5_completions : (s.ctlRow5).completions = s.completions := by
  unfold State.ctlRow5; simp
@[simp] theorem State.ctlRow5_notices : (s.ctlRow5).notices = s.notices := by
  unfold State.ctlRow5; simp

@[simp] theorem State.ctlEvent_devEn (e : CtlEvent) : (s.ctlEvent e).devEn = s.devEn := by
  unfold State.ctlEvent; split <;> simp
@[simp] theorem State.ctlEvent_cfg (e : CtlEvent) : (s.ctlEvent e).cfg = s.cfg := by
  unfold State.ctlEvent; split <;> simp
@[simp] theorem State.ctlEvent_inputs (e : CtlEvent) : (s.ctlEvent e).inputs = s.inputs := by
  unfold State.ctlEvent; split <;> simp
@[simp] theorem State.ctlEvent_obs (e : CtlEvent) : (s.ctlEvent e).obs = s.obs := by
  unfold State.ctlEvent; split <;> simp
@[simp] theorem State.ctlEvent_hostReceived (e : CtlEvent) : (s.ctlEvent e).hostReceived = s.hostReceived := by
  unfold State.ctlEvent; split <;> simp

end Sys2Proof.Machine
end

