-- ==== Sys2Proof/Laws/Memory.lean ====
section
/-! SUPPORT. The laws of the byte memories: a read after a write, the canonical form, and what the copies do. -/

namespace Sys2Proof.Machine

variable {α : Type}

theorem assocGet_put (k j : Nat) (v : α) (l : List (Nat × α)) :
    assocGet j (assocPut k v l) = if j = k then some v else assocGet j l := by
  induction l with
  | nil => simp [assocPut, assocGet, eq_comm]
  | cons c rest ih =>
    obtain ⟨a, u⟩ := c
    simp only [assocPut]
    split
    · simp [assocGet, eq_comm]
    · split
      · subst_vars
        by_cases h : j = a <;> simp [assocGet, h, eq_comm]
      · simp only [assocGet, ih]
        grind

/-- Every key of the list is above `lo`. -/
def Above (lo : Nat) (l : List (Nat × α)) : Prop := ∀ c ∈ l, lo < c.1

theorem assocSorted_cons (lo : Option Nat) (c : Nat × α) (rest : List (Nat × α)) :
    assocSorted lo (c :: rest) = true ↔ (∀ l ∈ lo, l < c.1) ∧ assocSorted (some c.1) rest = true := by
  obtain ⟨a, u⟩ := c
  cases lo <;> simp [assocSorted]

theorem assocSorted_above {lo : Nat} {l : List (Nat × α)} (h : assocSorted (some lo) l = true) : Above lo l := by
  induction l generalizing lo with
  | nil => simp [Above]
  | cons c rest ih =>
    rw [assocSorted_cons] at h
    intro d hd
    rcases List.mem_cons.mp hd with rfl | hd
    · exact h.1 lo rfl
    · exact lt_trans (h.1 lo rfl) (ih h.2 d hd)

theorem assocSorted_none {lo : Option Nat} {l : List (Nat × α)} (h : assocSorted lo l = true) :
    assocSorted none l = true := by
  cases l with
  | nil => rfl
  | cons c rest => rw [assocSorted_cons] at *; simp [h.2]

theorem assocGet_above {lo k : Nat} {l : List (Nat × α)} (h : Above lo l) (hk : k ≤ lo) : assocGet k l = none := by
  induction l with
  | nil => rfl
  | cons c rest ih =>
    obtain ⟨a, u⟩ := c
    have ha : lo < a := h (a, u) (by simp)
    rw [assocGet, if_neg (by omega)]
    exact ih fun d hd => h d (List.mem_cons_of_mem _ hd)

theorem assocSorted_put (k : Nat) (v : α) {l : List (Nat × α)} {lo : Option Nat}
    (h : assocSorted lo l = true) (hk : ∀ x ∈ lo, x < k) : assocSorted lo (assocPut k v l) = true := by
  induction l generalizing lo with
  | nil =>
    rw [assocPut, assocSorted_cons]
    exact ⟨hk, rfl⟩
  | cons c rest ih =>
    obtain ⟨a, u⟩ := c
    rw [assocSorted_cons] at h
    simp only [assocPut]
    split
    · rw [assocSorted_cons, assocSorted_cons]
      exact ⟨hk, by simpa using ‹k < a›, h.2⟩
    · split
      · subst_vars
        rw [assocSorted_cons]
        exact ⟨hk, h.2⟩
      · rw [assocSorted_cons]
        refine ⟨h.1, ih h.2 fun x hx => ?_⟩
        obtain rfl : a = x := by simpa using hx
        omega

theorem assocSorted_lower {lo lo' : Nat} (hl : lo' ≤ lo) {l : List (Nat × α)}
    (h : assocSorted (some lo) l = true) : assocSorted (some lo') l = true := by
  cases l with
  | nil => rfl
  | cons c rest =>
    rw [assocSorted_cons] at *
    exact ⟨fun x hx => by
      obtain rfl : lo' = x := by simpa using hx
      exact lt_of_le_of_lt hl (h.1 lo rfl), h.2⟩

theorem assocSorted_del (k : Nat) {l : List (Nat × α)} {lo : Option Nat} (h : assocSorted lo l = true) :
    assocSorted lo (assocDel k l) = true := by
  induction l generalizing lo with
  | nil => rfl
  | cons c rest ih =>
    obtain ⟨a, u⟩ := c
    have h' := h
    rw [assocSorted_cons] at h'
    simp only [assocDel]
    split
    · cases lo with
      | none => exact assocSorted_none h'.2
      | some x => exact assocSorted_lower (le_of_lt (h'.1 x rfl)) h'.2
    · rw [assocSorted_cons]
      exact ⟨h'.1, ih h'.2⟩

theorem assocGet_del (k j : Nat) {l : List (Nat × α)} {lo : Option Nat} (h : assocSorted lo l = true) :
    assocGet j (assocDel k l) = if j = k then none else assocGet j l := by
  induction l generalizing lo with
  | nil => simp [assocDel, assocGet]
  | cons c rest ih =>
    obtain ⟨a, u⟩ := c
    rw [assocSorted_cons] at h
    simp only [assocDel]
    split
    · subst_vars
      by_cases hj : j = a
      · subst hj
        simp [assocGet_above (assocSorted_above h.2) (le_refl _)]
      · simp [assocGet, hj, Ne.symm hj]
    · simp only [assocGet, ih h.2]
      grind

theorem mem_assocPut {k : Nat} {v : α} {l : List (Nat × α)} {c : Nat × α} (h : c ∈ assocPut k v l) :
    c = (k, v) ∨ c ∈ l := by
  induction l with
  | nil => simpa [assocPut] using h
  | cons d rest ih =>
    obtain ⟨a, u⟩ := d
    simp only [assocPut] at h
    split at h
    · simpa using h
    · split at h
      · rcases List.mem_cons.mp h with h | h
        · exact .inl h
        · exact .inr (List.mem_cons_of_mem _ h)
      · rcases List.mem_cons.mp h with h | h
        · exact .inr (by simp [h])
        · exact (ih h).imp id (List.mem_cons_of_mem _)

theorem mem_assocDel {k : Nat} {l : List (Nat × α)} {c : Nat × α} (h : c ∈ assocDel k l) : c ∈ l := by
  induction l with
  | nil => simp [assocDel] at h
  | cons d rest ih =>
    obtain ⟨a, u⟩ := d
    simp only [assocDel] at h
    split at h
    · exact List.mem_cons_of_mem _ h
    · rcases List.mem_cons.mp h with h | h
      · simp [h]
      · exact List.mem_cons_of_mem _ (ih h)

theorem assocGet_of_mem {l : List (Nat × α)} {lo : Option Nat} (h : assocSorted lo l = true) {c : Nat × α}
    (hc : c ∈ l) : assocGet c.1 l = some c.2 := by
  induction l generalizing lo with
  | nil => simp at hc
  | cons d rest ih =>
    obtain ⟨a, u⟩ := d
    rw [assocSorted_cons] at h
    rcases List.mem_cons.mp hc with rfl | hc
    · simp [assocGet]
    · have : a < c.1 := assocSorted_above h.2 c hc
      rw [assocGet, if_neg (by omega)]
      exact ih h.2 hc

/-- The canonical form, spelled out. -/
theorem Memory.wf_iff (m : Memory) :
    m.wf = true ↔ assocSorted none m.cells = true ∧ assocSorted none m.opened = true ∧ (∀ c ∈ m.cells, c.2 ≠ 0)
      ∧ ∀ o ∈ m.opened, assocGet o.1 m.cells = none := by
  simp [Memory.wf, and_assoc]

theorem Memory.wf_empty : Memory.empty.wf = true := rfl

/-- A write keeps the canonical form. -/
theorem Memory.wf_write {m : Memory} (h : m.wf = true) (a : Nat) (b : Byte) : (m.write a b).wf = true := by
  rw [Memory.wf_iff] at *
  obtain ⟨hc, ho, hz, hd⟩ := h
  have ho' : assocSorted none (assocDel a m.opened) = true := assocSorted_del a ho
  have hne : ∀ o ∈ assocDel a m.opened, o.1 ≠ a := by
    intro o hmem heq
    have := assocGet_of_mem ho' hmem
    rw [heq, assocGet_del a a ho, if_pos rfl] at this
    exact absurd this (by simp)
  by_cases hb : b = 0
  · refine ⟨by simpa [Memory.write, hb] using assocSorted_del a hc, ho', ?_, ?_⟩
    · intro c hcm
      simp only [Memory.write, hb, if_true] at hcm
      exact hz c (mem_assocDel hcm)
    · intro o hom
      simp only [Memory.write, hb, if_true] at hom ⊢
      rw [assocGet_del _ _ hc, hd o (mem_assocDel hom)]
      simp
  · refine ⟨by simp only [Memory.write, if_neg hb]; exact assocSorted_put a b hc (by simp), ho', ?_, ?_⟩
    · intro c hcm
      simp only [Memory.write, hb, if_false] at hcm
      rcases mem_assocPut hcm with rfl | h
      · exact hb
      · exact hz c h
    · intro o hom
      simp only [Memory.write, hb, if_false] at hom ⊢
      rw [assocGet_put, if_neg (hne o hom), hd o (mem_assocDel hom)]

/-- Opening a byte keeps the canonical form. -/
theorem Memory.wf_openByte {m : Memory} (h : m.wf = true) (a d : Nat) : (m.openByte a d).wf = true := by
  rw [Memory.wf_iff] at *
  obtain ⟨hc, ho, hz, hd⟩ := h
  refine ⟨assocSorted_del a hc, assocSorted_put a d ho (by simp), fun c hcm => hz c (mem_assocDel hcm), ?_⟩
  intro o hom
  simp only [Memory.openByte] at hom ⊢
  rw [assocGet_del _ _ hc]
  rcases mem_assocPut hom with rfl | h
  · simp
  · simp [hd o h]

theorem Memory.wf_store {m : Memory} (h : m.wf = true) (a : Word) (k : Nat) (bs : List Byte) :
    (m.store a k bs).wf = true := by
  induction bs generalizing m k with
  | nil => exact h
  | cons b bs ih => exact ih (Memory.wf_write h _ _) _

theorem Memory.wf_openWindow {m : Memory} (h : m.wf = true) (lo hi : Nat) (a : Word) (k d n : Nat) :
    (m.openWindow lo hi a k d n).wf = true := by
  induction n generalizing m k with
  | zero => exact h
  | succ n ih =>
    rw [Memory.openWindow]
    split
    · exact ih (Memory.wf_openByte h _ _) _
    · exact ih h _

theorem pmaStore_wf {m : Memory} (h : m.wf = true) (size o : Nat) (bs : List Byte) :
    (pmaStore size m o bs).wf = true := by
  induction bs generalizing m o with
  | nil => exact h
  | cons b bs ih =>
    rw [pmaStore]
    split
    · exact ih (Memory.wf_write h _ _) _
    · exact ih h _

theorem pmaOpen_wf {m : Memory} (h : m.wf = true) (size o d n : Nat) : (pmaOpen size m o d n).wf = true := by
  induction n generalizing m o with
  | zero => exact h
  | succ n ih =>
    rw [pmaOpen]
    split
    · exact ih (Memory.wf_openByte h _ _) _
    · exact ih h _

/-- A read after a write of one byte. -/
theorem Memory.read_write {m : Memory} (h : m.wf = true) (a j : Nat) (b : Byte) :
    (m.write a b).read j = if j = a then b else m.read j := by
  rw [Memory.wf_iff] at h
  obtain ⟨hc, ho, hz, hd⟩ := h
  by_cases hj : j = a
  · subst hj
    simp only [Memory.read, Memory.write, assocGet_del _ _ ho, if_true]
    by_cases hb : b = 0
    · simp [hb, assocGet_del _ _ hc]
    · simp only [if_neg hb, assocGet_put, if_true, Option.getD_some]
  · simp only [Memory.read, Memory.write, assocGet_del _ _ ho, if_neg hj]
    by_cases hb : b = 0
    · simp [hb, assocGet_del _ _ hc, hj]
    · simp only [if_neg hb, assocGet_put, if_neg hj]

/-- A read after a byte was opened: the free value there, every other byte as before. -/
theorem Memory.read_openByte {m : Memory} (h : m.wf = true) (a d j : Nat) :
    (m.openByte a d).read j = if j = a then Config.freeByte d a else m.read j := by
  rw [Memory.wf_iff] at h
  obtain ⟨hc, ho, hz, hd⟩ := h
  by_cases hj : j = a
  · subst hj
    simp [Memory.read, Memory.openByte, assocGet_put]
  · simp [Memory.read, Memory.openByte, assocGet_put, hj, assocGet_del _ _ hc]

@[simp] theorem Memory.length_load (m : Memory) (a : Word) (k n : Nat) : (m.load a k n).length = n := by
  induction n generalizing k with
  | zero => rfl
  | succ n ih => simp [Memory.load, ih]

/-- Byte `i` of a load is the byte at the pointer `a + (k + i)`. -/
theorem Memory.getElem_load (m : Memory) (a : Word) (k n i : Nat) (h : i < (m.load a k n).length) :
    (m.load a k n)[i] = m.read (ptrKey a (k + i)) := by
  induction n generalizing k i with
  | zero => simp [Memory.load] at h
  | succ n ih =>
    cases i with
    | zero => rfl
    | succ i =>
      simp only [Memory.load, List.getElem_cons_succ]
      rw [ih]
      congr 2
      omega

/-- Two offsets below `2^32` have different keys. -/
theorem ptrKey_inj {a : Word} {i j : Nat} (hi : i < 2 ^ 32) (hj : j < 2 ^ 32) (h : ptrKey a i = ptrKey a j) :
    i = j := by
  simp only [ptrKey, BitVec.toNat_add, BitVec.toNat_ofNat] at h
  have := a.isLt
  omega

/-- A pointer that does not wrap has its key in plain arithmetic. -/
theorem ptrKey_eq {a : Word} {k : Nat} (h : a.toNat + k < 2 ^ 32) : ptrKey a k = a.toNat + k := by
  simp only [ptrKey, BitVec.toNat_add, BitVec.toNat_ofNat]
  omega

/-- What a store does to one byte that it does not reach. -/
theorem Memory.read_store_of_ne {m : Memory} (h : m.wf = true) (a : Word) (k j : Nat) (bs : List Byte)
    (hj : ∀ i < bs.length, j ≠ ptrKey a (k + i)) : (m.store a k bs).read j = m.read j := by
  induction bs generalizing m k with
  | nil => rfl
  | cons b bs ih =>
    rw [Memory.store, ih (Memory.wf_write h _ _) (k + 1), Memory.read_write h,
      if_neg (by simpa using hj 0 (by simp))]
    intro i hi
    have := hj (i + 1) (by simpa using hi)
    rwa [show k + 1 + i = k + (i + 1) by omega]

/-- What a store does to the bytes it reaches. -/
theorem Memory.read_store {m : Memory} (h : m.wf = true) (a : Word) (k : Nat) (bs : List Byte)
    (hk : k + bs.length ≤ 2 ^ 32) (i : Nat) (hi : i < bs.length) :
    (m.store a k bs).read (ptrKey a (k + i)) = bs[i] := by
  induction bs generalizing m k i with
  | nil => simp at hi
  | cons b bs ih =>
    simp only [List.length_cons] at hk hi
    cases i with
    | zero =>
      rw [Memory.store, Memory.read_store_of_ne (Memory.wf_write h _ _), Memory.read_write h]
      · simp
      · intro i hi' heq
        have := ptrKey_inj (by omega) (by omega) heq
        omega
    | succ i =>
      rw [Memory.store, show k + (i + 1) = k + 1 + i by omega,
        ih (Memory.wf_write h _ _) (k + 1) (by omega) i (by omega)]
      simp

/-- Opening a range leaves every byte outside it, and every byte outside the window. -/
theorem Memory.read_openWindow_of_ne {m : Memory} (h : m.wf = true) (lo hi : Nat) (a : Word) (k d j n : Nat)
    (hj : (∀ i < n, j ≠ ptrKey a (k + i)) ∨ j < lo ∨ hi < j) :
    (m.openWindow lo hi a k d n).read j = m.read j := by
  induction n generalizing m k with
  | zero => rfl
  | succ n ih =>
    have h0 : (if lo ≤ ptrKey a k ∧ ptrKey a k ≤ hi then m.openByte (ptrKey a k) d else m).wf = true := by
      split
      · exact Memory.wf_openByte h _ _
      · exact h
    rw [Memory.openWindow, ih h0 (k + 1)]
    · split
      · rw [Memory.read_openByte h, if_neg]
        rcases hj with hj | hj
        · simpa using hj 0 (by omega)
        · omega
      · rfl
    · refine hj.imp_left fun hj i hi' => ?_
      have := hj (i + 1) (by omega)
      rwa [show k + 1 + i = k + (i + 1) by omega]

/-- What a packet-memory write does to every byte. -/
theorem read_pmaStore {m : Memory} (h : m.wf = true) (size o j : Nat) (bs : List Byte) :
    (pmaStore size m o bs).read j =
      if hj : o ≤ j ∧ j < o + bs.length ∧ j < size then bs[j - o]'(by omega) else m.read j := by
  induction bs generalizing m o with
  | nil => rw [pmaStore, dif_neg (by simp only [List.length_nil]; omega)]
  | cons b bs ih =>
    have hw : (if o < size then m.write o b else m).wf = true := by
      split
      · exact Memory.wf_write h _ _
      · exact h
    rw [pmaStore, ih hw]
    by_cases h1 : o + 1 ≤ j ∧ j < o + 1 + bs.length ∧ j < size
    · rw [dif_pos h1, dif_pos (by simp only [List.length_cons]; omega)]
      obtain ⟨i, rfl⟩ : ∃ i, j = o + 1 + i := ⟨j - (o + 1), by omega⟩
      simp [show o + 1 + i - o = i + 1 by omega]
    · rw [dif_neg h1]
      by_cases h2 : j = o
      · subst h2
        by_cases h3 : j < size
        · rw [dif_pos (by simp [h3]), if_pos h3, Memory.read_write h, if_pos rfl]
          simp
        · rw [dif_neg (by omega), if_neg h3]
      · rw [dif_neg (by simp only [List.length_cons]; omega)]
        split
        · rw [Memory.read_write h, if_neg h2]
        · rfl

/-- What opening a range of packet memory does to every byte. -/
theorem read_pmaOpen {m : Memory} (h : m.wf = true) (size o d j n : Nat) :
    (pmaOpen size m o d n).read j = if o ≤ j ∧ j < o + n ∧ j < size then Config.freeByte d j else m.read j := by
  induction n generalizing m o with
  | zero => rw [pmaOpen, if_neg (by omega)]
  | succ n ih =>
    have hw : (if o < size then m.openByte o d else m).wf = true := by
      split
      · exact Memory.wf_openByte h _ _
      · exact h
    rw [pmaOpen, ih hw]
    by_cases h2 : j = o
    · subst h2
      rw [if_neg (by omega)]
      by_cases h3 : j < size
      · rw [if_pos h3, if_pos (by omega), Memory.read_openByte h, if_pos rfl]
      · rw [if_neg h3, if_neg (by omega)]
    · have : (if o < size then m.openByte o d else m).read j = m.read j := by
        split
        · rw [Memory.read_openByte h, if_neg h2]
        · rfl
      rw [this]
      exact if_congr (by omega) rfl rfl

/-- The stores of a hook keep the canonical form. -/
theorem Memory.wf_storeAll {m : Memory} (h : m.wf = true) (ws : List RamStore) : (m.storeAll ws).wf = true := by
  induction ws generalizing m with
  | nil => exact h
  | cons w ws ih => exact ih (Memory.wf_store h _ _ _)

/-- An empty memory reads as zeros. -/
theorem Memory.load_empty (a : Word) (k n : Nat) : Memory.empty.load a k n = List.replicate n 0 := by
  induction n generalizing k with
  | zero => rfl
  | succ n ih => rw [Memory.load, ih]; rfl

/-- What inserting an address does to the list. -/
@[simp] theorem mem_insertHalf (a h : Word) (hs : List Word) : h ∈ insertHalf a hs ↔ h = a ∨ h ∈ hs := by
  induction hs with
  | nil => simp [insertHalf]
  | cons b hs ih =>
    rw [insertHalf]
    split
    · simp
    · split
      · simp_all
      · simp only [List.mem_cons, ih]; tauto

/-- Inserting an address keeps the list rising. -/
theorem pairwise_insertHalf {hs : List Word} (h : hs.Pairwise (· < ·)) (a : Word) :
    (insertHalf a hs).Pairwise (· < ·) := by
  induction hs with
  | nil => simp [insertHalf]
  | cons b hs ih =>
    have hb := List.pairwise_cons.mp h
    rw [insertHalf]
    split
    · rename_i hab
      refine List.pairwise_cons.mpr ⟨fun x hx => ?_, h⟩
      rcases List.mem_cons.mp hx with rfl | hx
      · exact hab
      · exact BitVec.lt_trans hab (hb.1 x hx)
    · split
      · exact h
      · refine List.pairwise_cons.mpr ⟨fun x hx => ?_, ih hb.2⟩
        rcases (mem_insertHalf a x hs).mp hx with rfl | hx
        · simp only [BitVec.lt_def] at *
          have : x ≠ b := by assumption
          have := mt BitVec.eq_of_toNat_eq this
          omega
        · exact hb.1 x hx

/-- Which half-pages share no byte with a range. -/
theorem mem_halvesApart (a h : Word) (n : Nat) (hs : List Word) :
    h ∈ halvesApart a n hs ↔ h ∈ hs ∧ n ≤ (h - a).toNat ∧ 64 ≤ (a - h).toNat := by
  rw [halvesApart, List.mem_filter]
  exact and_congr_right fun _ => decide_eq_true_iff

/-- Leaving out half-pages keeps the list rising. -/
theorem pairwise_halvesApart {hs : List Word} (h : hs.Pairwise (· < ·)) (a : Word) (n : Nat) :
    (halvesApart a n hs).Pairwise (· < ·) := h.filter _

@[simp] theorem State.length_pmaBytes (s : State) (o n : Nat) : (s.pmaBytes o n).length = n := by
  induction n generalizing o with
  | zero => rfl
  | succ n ih => simp [State.pmaBytes, ih]

/-- Byte `i` of a packet-memory read is the byte at offset `o + i`. -/
theorem State.getElem_pmaBytes (s : State) (o n i : Nat) (h : i < (s.pmaBytes o n).length) :
    (s.pmaBytes o n)[i] = s.pmaByte (o + i) := by
  induction n generalizing o i with
  | zero => simp [State.pmaBytes] at h
  | succ n ih =>
    cases i with
    | zero => rfl
    | succ i =>
      simp only [State.pmaBytes, List.getElem_cons_succ]
      rw [ih]
      congr 1
      omega

@[simp] theorem length_wordBytes (w : Word) (n : Nat) : (wordBytes w n).length = 4 * n := by
  induction n with
  | zero => rfl
  | succ n ih => simp [wordBytes, leBytes, ih]; omega

end Sys2Proof.Machine
end

