-- ==== Sys2Proof/Laws/Engine.lean ====
section
/-! SUPPORT. One equation for each operation of the transfer engine: all it can do to the state, from the rules, so that
no proof unfolds it. -/

namespace Sys2Proof.Machine

variable (s : State) (n : EpNum)

/-- Every endpoint number is listed. -/
theorem mem_allEps (n : EpNum) : n ∈ allEps := by revert n; decide

/-- The handler is draining exactly when some completion flag is set (rule R175). -/
theorem State.draining_iff : s.draining = false ↔ ∀ n : EpNum, s.hw[n].ctrTx = false ∧ s.hw[n].ctrRx = false := by
  simp [State.draining, mem_allEps]

/-- Taking an input clears no flag. -/
@[simp] theorem State.taken_draining (rest : List Input) : (s.taken rest).draining = s.draining := rfl

/-- An application request outside draining. -/
theorem State.request_idle (f : State → State) (h : s.draining = false) : s.request f = f s := by
  simp [State.request, h]

/-- An application request while draining. -/
theorem State.request_draining (f : State → State) (h : s.draining = true) : s.request f = s.noStep := by
  simp [State.request, h]

/-- Recording one fault kind under a condition (rule R170). -/
theorem State.raiseIf_pmaOverflow (c : Bool) : s.raiseIf c .pmaOverflow =
    { s with faults := { s.faults with pmaOverflow := s.faults.pmaOverflow || c } } := by
  cases c <;> simp [State.raiseIf, FaultSet.insert]

/-- Recording one fault kind under a condition (rule R170). -/
theorem State.raiseIf_txOverwrite (c : Bool) : s.raiseIf c .txOverwrite =
    { s with faults := { s.faults with txOverwrite := s.faults.txOverwrite || c } } := by
  cases c <;> simp [State.raiseIf, FaultSet.insert]

/-- Recording one fault kind under a condition (rule R170). -/
theorem State.raiseIf_rxOverwrite (c : Bool) : s.raiseIf c .rxOverwrite =
    { s with faults := { s.faults with rxOverwrite := s.faults.rxOverwrite || c } } := by
  cases c <;> simp [State.raiseIf, FaultSet.insert]

/-- Recording one fault kind under a condition (rule R170). -/
theorem State.raiseIf_bufferWrap (c : Bool) : s.raiseIf c .bufferWrap =
    { s with faults := { s.faults with bufferWrap := s.faults.bufferWrap || c } } := by
  cases c <;> simp [State.raiseIf, FaultSet.insert]

/-- Recording one fault kind under a condition (rule R170). -/
theorem State.raiseIf_eventOverrun (c : Bool) : s.raiseIf c .eventOverrun =
    { s with faults := { s.faults with eventOverrun := s.faults.eventOverrun || c } } := by
  cases c <;> simp [State.raiseIf, FaultSet.insert]

/-- Recording one fault kind under a condition (rule R170). -/
theorem State.raiseIf_resizeAllocated (c : Bool) : s.raiseIf c .resizeAllocated =
    { s with faults := { s.faults with resizeAllocated := s.faults.resizeAllocated || c } } := by
  cases c <;> simp [State.raiseIf, FaultSet.insert]

/-- Reading an entry back, by endpoint number. -/
theorem vset_self {α : Type} (v : Vector α 8) (n : EpNum) (x : α) : (v.set n x)[n] = x := by simp

/-- Another endpoint's entry. -/
theorem vset_ne {α : Type} (v : Vector α 8) {n m : EpNum} (x : α) (h : m ≠ n) : (v.set n x)[m] = v[m] := by
  rw [Fin.getElem_fin, Vector.getElem_set_ne, Fin.getElem_fin]
  exact fun hc => h (Fin.ext hc.symm)

/-- The second of two writes to an entry stays. -/
theorem vset_set {α : Type} (v : Vector α 8) (n : EpNum) (x y : α) : (v.set n x).set n y = v.set n y := by simp

/-- Writing an entry its own value. -/
theorem vset_get {α : Type} (v : Vector α 8) (n : EpNum) : v.set n v[n] = v := by simp

/-- Where the next packet of a transmit side goes (rules R90, R97). -/
def State.txOffset (s : State) (n : EpNum) : Half := if s.bdt[n].addrTx = 0 then s.brk else s.bdt[n].addrTx
/-- Where the next packet of a receive side arrives (rules R90, R104). -/
def State.rxOffset (s : State) (n : EpNum) : Half := if s.bdt[n].addrRx = 0 then s.brk else s.bdt[n].addrRx
/-- The break after the first use of a side with descriptor address `addr` (rules R87, R90). -/
def State.brkAfter (s : State) (n : EpNum) (addr : Half) : Half :=
  if addr = 0 then s.brk + BitVec.ofNat 16 (roundUp s.ep[n].size.toNat s.cfg.mau) else s.brk
/-- The first use of a side passes the end of packet memory (rules R87, R88). -/
def State.overAllocates (s : State) (n : EpNum) (addr : Half) : Bool :=
  decide (addr = 0 ∧ s.cfg.pmaSize < s.brk.toNat + roundUp s.ep[n].size.toNat s.cfg.mau)
/-- The first use of a transmit side allocates its buffer; later uses change nothing (rules R87, R90). -/
theorem State.ensureTx_eq :
    s.ensureTx n = { s with
      brk := s.brkAfter n s.bdt[n].addrTx
      bdt := s.bdt.set n { s.bdt[n] with addrTx := s.txOffset n }
      faults := { s.faults with
        pmaOverflow := s.faults.pmaOverflow || s.overAllocates n s.bdt[n].addrTx } } := by
  by_cases h : s.bdt[n].addrTx = 0
  · simp only [State.ensureTx, State.txOffset, State.brkAfter, State.overAllocates, h, if_true, State.allocate,
      State.raiseIf_pmaOverflow, State.modBdt, true_and, gt_iff_lt]
  · have hv : s.bdt.set n s.bdt[n] = s.bdt := by simp
    simp only [State.ensureTx, State.txOffset, State.brkAfter, State.overAllocates, h, if_false, false_and,
        decide_false, Bool.or_false]
    exact congrArg (fun b => ({ s with bdt := b } : State)) hv.symm

/-- The first use of a receive side allocates its buffer; later uses change nothing (rules R87, R90). -/
theorem State.ensureRx_eq :
    s.ensureRx n = { s with
      brk := s.brkAfter n s.bdt[n].addrRx
      bdt := s.bdt.set n { s.bdt[n] with addrRx := s.rxOffset n }
      faults := { s.faults with
        pmaOverflow := s.faults.pmaOverflow || s.overAllocates n s.bdt[n].addrRx } } := by
  by_cases h : s.bdt[n].addrRx = 0
  · simp only [State.ensureRx, State.rxOffset, State.brkAfter, State.overAllocates, h, if_true, State.allocate,
      State.raiseIf_pmaOverflow, State.modBdt, true_and, gt_iff_lt]
  · have hv : s.bdt.set n s.bdt[n] = s.bdt := by simp
    simp only [State.ensureRx, State.rxOffset, State.brkAfter, State.overAllocates, h, if_false, false_and,
        decide_false, Bool.or_false]
    exact congrArg (fun b => ({ s with bdt := b } : State)) hv.symm

/-- BEGIN_PACKET_RECEIVE on an endpoint of size 0 (rule R104). -/
theorem State.beginPacketReceive_idle (h : s.ep[n].size = 0) : s.beginPacketReceive n = s := by
  simp at h; simp [State.beginPacketReceive, h]

/-- BEGIN_PACKET_RECEIVE on a configured endpoint (rule R104). -/
theorem State.beginPacketReceive_eq (h : s.ep[n].size ≠ 0) :
    s.beginPacketReceive n = { s with
      brk := s.brkAfter n s.bdt[n].addrRx
      bdt := s.bdt.set n { s.bdt[n] with
        addrRx := s.rxOffset n
        countRx := rxCountEncode s.ep[n].size }
      hw := s.hw.set n { s.hw[n] with rxStatus := .valid }
      faults := { s.faults with
        rxOverwrite := s.faults.rxOverwrite || (s.hw[n].ctrRx && !s.hw[n].setup)
        pmaOverflow := s.faults.pmaOverflow || s.overAllocates n s.bdt[n].addrRx } } := by
  rw [State.beginPacketReceive, if_neg h, State.raiseIf_rxOverwrite, State.ensureRx_eq]
  simp only [State.modBdt, State.setRxStatus, State.modHw, vset_self, vset_set]
  rfl

/-- BEGIN_SEND of the null buffer (rule R94). -/
theorem State.beginSend_null (len : Half) :
    s.beginSend n 0 len = { s with
      ep := s.ep.set n { s.ep[n] with txBuf := 0, txPos := 0, txLen := 0 }
      hw := s.hw.set n { s.hw[n] with txStatus := .stall } } := rfl

/-- BEGIN_RECEIVE of the null buffer (rule R102). -/
theorem State.beginReceive_null (len : Half) :
    s.beginReceive n 0 len = { s with
      ep := s.ep.set n { s.ep[n] with rxBuf := 0, rxPos := 0, rxLen := 0 }
      hw := s.hw.set n { s.hw[n] with rxStatus := .stall } } := rfl

/-- BEGIN_SEND of a buffer (rule R95). -/
theorem State.beginSend_eq {buf : Word} (len : Half) (h : buf ≠ 0) :
    s.beginSend n buf len = ({ s with
      ep := s.ep.set n { s.ep[n] with txBuf := buf, txLen := len, txPos := buf }
      faults := { s.faults with bufferWrap := s.faults.bufferWrap || decide (2 ^ 32 < buf.toNat + len.toNat) } } :
        State).sendNextPacket n := by
  rw [State.beginSend, if_neg h, State.raiseIf_bufferWrap]
  rfl

/-- BEGIN_RECEIVE of a buffer (rule R103). -/
theorem State.beginReceive_eq {buf : Word} (len : Half) (h : buf ≠ 0) :
    s.beginReceive n buf len = ({ s with
      ep := s.ep.set n { s.ep[n] with rxBuf := buf, rxLen := len, rxPos := buf }
      faults := { s.faults with bufferWrap := s.faults.bufferWrap || decide (2 ^ 32 < buf.toNat + len.toNat) } } :
        State).beginPacketReceive n := by
  rw [State.beginReceive, if_neg h, State.raiseIf_bufferWrap]
  rfl

/-- SEND_NEXT_PACKET with nothing to send (rule R96). -/
theorem State.sendNextPacket_idle (h : s.ep[n].txPos = 0 ∨ s.ep[n].size = 0) : s.sendNextPacket n = s := by
  rw [State.sendNextPacket, if_pos h]

/-- A copy into packet memory with the rest of its last cell open (rules R47, R49). -/
theorem State.pmaCopy_eq (o : Nat) (bs : List Byte) :
    (s.pmaWrite o bs).pmaCellOpen o bs.length = { s with
      pma :=
        pmaOpen s.cfg.pmaSize (pmaStore s.cfg.pmaSize s.pma o bs) (o + bs.length) s.draws
          (cellRest s.cfg.mau o bs.length)
      draws := s.draws + 1
      faults := { s.faults with
        pmaOverflow := s.faults.pmaOverflow || decide (0 < bs.length ∧ s.cfg.pmaSize < o + bs.length) } } := by
  simp only [State.pmaWrite, State.raiseIf_pmaOverflow, State.pmaCellOpen]

/-- The packet memory after the next packet of a transmit side (rules R49, R97). -/
def State.txPma (s : State) (n : EpNum) : Memory :=
  pmaOpen s.cfg.pmaSize (pmaStore s.cfg.pmaSize s.pma (s.txOffset n).toNat (s.txBytes n))
    ((s.txOffset n).toNat + s.ep[n].txChunk.toNat) s.draws
    (cellRest s.cfg.mau (s.txOffset n).toNat s.ep[n].txChunk.toNat)

/-- SEND_NEXT_PACKET with a packet to send (rules R97, R98). -/
theorem State.sendNextPacket_eq (hp : s.ep[n].txPos ≠ 0) (hs : s.ep[n].size ≠ 0) :
    s.sendNextPacket n = { s with
      brk := s.brkAfter n s.bdt[n].addrTx
      ep := s.ep.set n { s.ep[n] with
        txPos := if s.ep[n].txTerminal then 0 else s.ep[n].txPos + s.ep[n].txChunk.setWidth 32 }
      bdt := s.bdt.set n { s.bdt[n] with
        addrTx := s.txOffset n
        countTx := (countOf s.ep[n].txChunk).setWidth 16 }
      hw := s.hw.set n { s.hw[n] with txStatus := .valid }
      pma := s.txPma n
      draws := s.draws + 1
      faults := { s.faults with
        txOverwrite := s.faults.txOverwrite || decide (s.hw[n].txStatus = .valid)
        pmaOverflow := s.faults.pmaOverflow || s.overAllocates n s.bdt[n].addrTx
          || decide (0 < s.ep[n].txChunk.toNat
              ∧ s.cfg.pmaSize < (s.txOffset n).toNat + s.ep[n].txChunk.toNat) } } := by
  have hn : ¬(s.ep[n].txPos = 0 ∨ s.ep[n].size = 0) := by tauto
  rw [State.sendNextPacket, if_neg hn]
  have hl : (s.txBytes n).length = s.ep[n].txChunk.toNat := by simp [State.txBytes]
  have hc (u : State) := u.pmaCopy_eq (s.txOffset n).toNat (s.txBytes n)
  rw [hl] at hc
  simp only [State.producePacket, State.raiseIf_txOverwrite]
  have h2 (u : State) (h : u.bdt[n].addrTx = s.txOffset n) (h' : u.txBytes n = s.txBytes n)
      (h3 : u.cfg = s.cfg) :
      (((((u.pmaWrite u.bdt[n].addrTx.toNat (u.txBytes n)).pmaCellOpen u.bdt[n].addrTx.toNat
            s.ep[n].txChunk.toNat).modBdt n fun d =>
          { d with countTx := (countOf s.ep[n].txChunk).setWidth 16 }).modEp n fun e =>
        { e with txPos := if e.txTerminal then 0 else e.txPos + e.txChunk.setWidth 32 }).setTxStatus n .valid) = { u with
      ep := u.ep.set n { u.ep[n] with
        txPos := if u.ep[n].txTerminal then 0 else u.ep[n].txPos + u.ep[n].txChunk.setWidth 32 }
      bdt := u.bdt.set n { u.bdt[n] with countTx := (countOf s.ep[n].txChunk).setWidth 16 }
      hw := u.hw.set n { u.hw[n] with txStatus := .valid }
      pma :=
        pmaOpen s.cfg.pmaSize (pmaStore s.cfg.pmaSize u.pma (s.txOffset n).toNat (s.txBytes n))
          ((s.txOffset n).toNat + s.ep[n].txChunk.toNat) u.draws
          (cellRest s.cfg.mau (s.txOffset n).toNat s.ep[n].txChunk.toNat)
      draws := u.draws + 1
      faults := { u.faults with
        pmaOverflow := u.faults.pmaOverflow || decide (0 < s.ep[n].txChunk.toNat
            ∧ s.cfg.pmaSize < (s.txOffset n).toNat + s.ep[n].txChunk.toNat) } } := by
    rw [h, h', hc, h3]; rfl
  rw [h2]
  · apply State.ext <;> simp only [State.ensureTx_eq, vset_self, vset_set] <;> rfl
  · rw [State.ensureTx_eq, vset_self]; rfl
  · rw [State.ensureTx_eq]; rfl
  · rw [State.ensureTx_eq]

end Sys2Proof.Machine
end

