-- ==== Sys2Proof/Laws/Kept.lean ====
section
/-! SUPPORT. The one induction over the machine: a property that every shared operation keeps is kept by every
instruction and by every step. A proof of an invariant fills in `Kept` and applies `Kept.step`. -/

namespace Sys2Proof.Machine

/-- An instruction the decoder reads from the operation port is one of the port's. -/
theorem decode_port_channel {bytes : List Byte} {i : Instr} (h : decode .port bytes = .instr i) :
    i.channel = .port := by
  have hops : ∀ row ∈ opTable, row.internal = false → row.op ∈ [Op.epConfigure, .beginSend, .beginReceive, .busReset,
      .txComplete, .rxComplete, .hostIn, .hostOut, .hostSetup] := by decide
  simp only [decode] at h
  split at h
  · cases h
  · unfold decodeIface at h
    simp only at h
    split at h
    · cases h
    · rename_i row hrow
      split at h
      · cases h
      · rename_i hint
        split at h
        · cases h
        · have hop := hops row (List.mem_of_find?_eq_some hrow) (by simpa using hint)
          cases ho : row.op <;> rw [ho] at hop h <;> simp at hop <;>
            simp only [buildIface, noPacket] at h <;> repeat' (split at h)
          all_goals first
            | (injection h with h; subst h; rfl)
            | cases h

/-- Every shared operation that an instruction of the operation port can run keeps the property. -/
structure Kept (P : State → Prop) : Prop where
  obs : ∀ s o, P s → P { s with obs := o }
  refuse : ∀ s r, P s → P (s.refuse r)
  notify : ∀ s x, P s → P (s.notify x)
  completed : ∀ s p, P s → P (s.controlComplete p)
  answered : ∀ s, P s → P { s with classAnswers := s.classAnswers.tail }
  setCtl : ∀ s v, P s → P (s.setCtl v)
  devAddr : ∀ s a, P s → P { s with devAddr := a }
  modBl : ∀ s (f : Boot → Boot), (∀ b, b.exitRequest = true → (f b).exitRequest = true) → P s → P (s.modBl f)
  setInWord : ∀ s i v, P s → P (s.setInWord i v)
  ramWrite : ∀ s a bs, P s → P (s.ramWrite a bs)
  erase : ∀ s a, P s → P (s.flashErasePage a).2
  writeHalf : ∀ s a bs, bs.length = 64 → P s → P (s.flashWriteHalf a bs).2
  epConfigure : ∀ s n type size flags, P s → P (s.epConfigure n type size flags)
  beginSend : ∀ s n buf len, P s → P (s.beginSend n buf len)
  beginReceive : ∀ s n buf len, P s → P (s.beginReceive n buf len)
  sendNextPacket : ∀ s n, P s → P (s.sendNextPacket n)
  takeSetup : ∀ s n, P s → P (s.takeSetup n)
  takeData : ∀ s n count, s.ep[n].rxPos ≠ 0 → P s → P (s.takeData n count).2
  modHw : ∀ s n f, P s → P (s.modHw n f)
  packetIn : ∀ s n bs setup, P s → P (s.packetIn n bs setup)
  overrun : ∀ s c, P s → P (s.raiseIf c .eventOverrun)
  pmaTouch : ∀ s o n, P s → P (s.pmaTouch o n)
  received : ∀ s o bs, P s → P { s with obs := o, hostReceived := bs }
  busCleared : ∀ s, P s → P s.busCleared

/-- The operations only an internal input runs by itself keep the property too. -/
structure KeptInside (P : State → Prop) : Prop extends Kept P where
  beginPacketReceive : ∀ s n, P s → P (s.beginPacketReceive n)
  allocate : ∀ s len, P s → P (s.allocate len).2
  allocReset : ∀ s, P s → P s.allocReset

namespace Kept

variable {P : State → Prop} (h : Kept P) {s : State}
include h

theorem noStep (hs : P s) : P s.noStep := h.obs s _ hs

theorem request (f : State → State) (hf : P (f s)) (hs : P s) : P (s.request f) := by
  unfold State.request
  split
  · exact h.noStep hs
  · exact hf

theorem status (code : ErrCode) (next : BlState) (hs : P s) : P (s.status code next) := by
  unfold State.status
  exact h.modBl _ _ (fun _ e => e) (h.beginSend _ _ _ _ (h.setInWord _ _ _ (h.setInWord _ _ _ hs)))

theorem cmdProg (hs : P s) : P s.cmdProg := by
  have hb := h.modBl s (fun b => { b with address := s.outWord 1, crcLower := s.outWord 2, crcUpper := s.outWord 3 })
    (fun _ e => e) hs
  unfold State.cmdProg
  simp only
  split
  · exact h.status _ _ hb
  · split
    · exact h.status _ _ (h.erase _ _ hb)
    · exact h.status _ _ (h.erase _ _ hb)

theorem halfPage (upper : Bool) (hs : P s) : P (s.halfPage upper) := by
  unfold State.halfPage
  cases upper <;> simp only [Bool.false_eq_true, if_false, if_true]
  all_goals
    split
    · exact h.status _ _ (h.setInWord _ _ _ hs)
    · split
      · exact h.status _ _ (h.writeHalf _ _ _ (Memory.length_load _ _ _ _) (h.setInWord _ _ _ hs))
      · exact h.status _ _ (h.writeHalf _ _ _ (Memory.length_load _ _ _ _) (h.setInWord _ _ _ hs))

theorem blRow3 (hs : P s) : P s.blRow3 := by
  unfold State.blRow3
  split
  · exact h.status _ _ (h.ramWrite _ _ _ hs)
  · exact h.cmdProg hs
  · exact h.status _ _ (h.modBl _ _ (fun _ e => e) hs)
  · exact h.status _ _ (h.modBl _ _ (fun _ _ => rfl) hs)
  · exact h.status _ _ hs

theorem hidArmOut (f : Boot → Boot) (hf : ∀ b, b.exitRequest = true → (f b).exitRequest = true) (hs : P s) :
    P (s.hidArmOut.modBl f) := h.modBl _ _ hf (h.beginReceive _ _ _ _ hs)

theorem blEvent (e : BlEvent) (hs : P s) : P (s.blEvent e) := by
  unfold State.blEvent
  split
  · exact h.hidArmOut _ (fun _ e => e) hs
  · exact h.status _ _ hs
  · exact h.blRow3 hs
  · exact h.hidArmOut _ (fun _ e => e) hs
  · exact h.halfPage _ hs
  · exact h.halfPage _ hs
  · exact h.refuse _ _ hs
  · exact h.refuse _ _ hs
  · exact h.status _ _ hs

theorem stallEp0 (hs : P s) : P s.stallEp0 := h.beginReceive _ _ _ _ (h.beginSend _ _ _ _ hs)

theorem setupDispatch (hs : P s) : P s.setupDispatch.2 := by
  unfold State.setupDispatch
  split
  · exact hs
  · exact hs
  · exact hs
  · exact h.blEvent _ (h.epConfigure _ _ _ _ _ hs)
  · exact h.answered _ hs

theorem startStage (p : SetupPacket) (a : Answer) (hs : P s) : P (s.startStage p a) := by
  unfold State.startStage
  split
  · exact h.setCtl _ _ (h.stallEp0 hs)
  · simp only
    split
    · exact h.setCtl _ _ (h.beginSend _ _ _ _ hs)
    · split
      · exact h.setCtl _ _ (h.beginSend _ _ _ _ hs)
      · exact h.setCtl _ _ (h.beginReceive _ _ _ _ hs)

theorem ctlRow1 (hs : P s) : P s.ctlRow1 := h.setCtl _ _ (h.beginReceive _ _ _ _ (h.epConfigure _ _ _ _ _ hs))

theorem ctlRow2 (hs : P s) : P s.ctlRow2 := h.startStage _ _ (h.setupDispatch hs)

theorem ctlRow3 (hs : P s) : P s.ctlRow3 := by
  unfold State.ctlRow3
  split
  · exact h.setCtl _ _ (h.beginReceive _ _ _ _ hs)
  · exact h.setCtl _ _ (h.beginSend _ _ _ _ hs)

theorem ctlRow4 (hs : P s) : P s.ctlRow4 :=
  h.setCtl _ _ (h.beginReceive _ _ _ _ (h.completed _ _ (h.devAddr _ _ hs)))

theorem ctlRow5 (hs : P s) : P s.ctlRow5 := h.setCtl _ _ (h.stallEp0 hs)

theorem ctlEvent (e : CtlEvent) (hs : P s) : P (s.ctlEvent e) := by
  unfold State.ctlEvent
  split
  · exact h.ctlRow1 hs
  · exact h.ctlRow2 hs
  · exact h.ctlRow3 hs
  · exact h.ctlRow4 hs
  · exact h.ctlRow5 hs

theorem notifySent (n : EpNum) (hs : P s) : P (s.notifySent n) := by
  unfold State.notifySent
  split
  · exact h.ctlEvent _ hs
  · split
    · exact h.blEvent _ hs
    · exact h.notify _ _ hs

theorem notifyReceived (n : EpNum) (r : RecvResult) (hs : P s) : P (s.notifyReceived n r) := by
  cases r with
  | none => exact hs
  | working => exact hs
  | setupDone =>
    simp only [State.notifyReceived]
    split
    · exact h.ctlEvent _ hs
    · exact h.notify _ _ hs
  | done t =>
    simp only [State.notifyReceived]
    split
    · exact h.ctlEvent _ hs
    · split
      · exact h.blEvent _ hs
      · exact h.notify _ _ hs

theorem endPacketReceive (n : EpNum) (count : BitVec 10) (setup : Bool) (hs : P s) :
    P (s.endPacketReceive n count setup).2 := by
  unfold State.endPacketReceive
  split
  · exact h.takeSetup _ _ hs
  · split
    · exact hs
    · exact h.takeData _ _ _ ‹_› hs

/-- What an instruction of the operation port answers. -/
theorem exec_port {i : Instr} {t : State} (hi : i.channel = .port) (hs : P s) (he : exec i s = .next t) : P t := by
  cases i <;> simp only [Instr.channel, reduceCtorEq] at hi <;> simp only [exec] at he
  case epConfigure => injection he with he; subst he; exact h.request _ (h.epConfigure _ _ _ _ _ hs) hs
  case beginSend => injection he with he; subst he; exact h.request _ (h.beginSend _ _ _ _ hs) hs
  case beginReceive => injection he with he; subst he; exact h.request _ (h.beginReceive _ _ _ _ hs) hs
  case busReset => injection he with he; subst he; exact h.ctlEvent _ (h.busCleared _ hs)
  case txComplete n =>
    simp only [execTxComplete] at he
    split at he
    · injection he with he; subst he; exact h.noStep hs
    · have hk := h.sendNextPacket (s.clearCtrTx n) n (h.modHw _ _ _ hs)
      split at he <;> injection he with he <;> subst he
      · exact h.notifySent _ hk
      · exact hk
  case rxComplete n =>
    simp only [execRxComplete] at he
    split at he <;> injection he with he <;> subst he
    · exact h.noStep hs
    · exact h.notifyReceived _ _ (h.endPacketReceive _ _ _ (h.modHw _ _ _ hs))
  case hostIn n =>
    simp only [execHostIn] at he
    split at he <;> injection he with he <;> subst he
    · exact h.received _ _ _ (h.modHw _ _ _ (h.pmaTouch _ _ _ (h.overrun _ _ hs)))
    · exact h.obs _ _ hs
  case hostOut n bs =>
    simp only [execHostOut] at he
    split at he <;> injection he with he <;> subst he
    · exact h.packetIn _ _ _ _ hs
    · exact h.obs _ _ hs
  case hostSetup n len bs =>
    simp only [execHostSetup] at he
    split at he
    · injection he with he; subst he; exact h.modHw _ _ _ (h.packetIn _ _ _ _ hs)
    · split at he <;> injection he with he <;> subst he
      · exact h.noStep hs
      · exact h.obs _ _ hs

/-- What the platform acting on an exit leaves: the property must hold where the block is restarted. -/
theorem platformExit (hr : s.cfg.exitEffect = .restart → P s.restarted) (hs : P s) : P s.platformExit := by
  unfold State.platformExit
  split
  · exact h.noStep hs
  · split
    · exact hs
    · exact hr ‹_›

/-- What a step answers when its input comes from outside. -/
theorem step_outside {t : State} (ho : s.outsideNext = true) (hs : s.inputs = [] → P s)
    (ht : ∀ x rest, s.inputs = x :: rest → P (s.taken rest))
    (hr : ∀ rest, s.inputs = .platformExit :: rest → s.cfg.exitEffect = .restart → P (s.taken rest).restarted)
    (he : step s = .next t) : P t := by
  unfold step at he
  unfold State.outsideNext at ho
  split at he
  · injection he with he; subst he; exact hs ‹_›
  · injection he with he; subst he
    exact h.request _ (h.ramWrite _ _ _ (ht _ _ ‹_›)) (ht _ _ ‹_›)
  · injection he with he; subst he
    exact h.platformExit (hr _ ‹_›) (ht _ _ ‹_›)
  · rename_i ch bytes rest hin
    rw [hin] at ho
    simp only [decide_eq_true_eq] at ho
    subst ho
    split at he
    · rename_i i hi
      exact h.exec_port (decode_port_channel hi) (ht _ _ hin) he
    · injection he with he; subst he; exact h.refuse _ _ (ht _ _ hin)
    · cases he

end Kept

namespace KeptInside

variable {P : State → Prop} (h : KeptInside P) {s : State}
include h

/-- What any instruction answers. -/
theorem exec {i : Instr} {t : State} (hs : P s) (he : exec i s = .next t) : P t := by
  have k := h.toKept
  cases i <;> simp only [Machine.exec] at he
  case epConfigure => exact k.exec_port (i := .epConfigure _ _ _ _) rfl hs he
  case beginSend => exact k.exec_port (i := .beginSend _ _ _) rfl hs he
  case beginReceive => exact k.exec_port (i := .beginReceive _ _ _) rfl hs he
  case busReset => exact k.exec_port (i := .busReset) rfl hs he
  case txComplete => exact k.exec_port (i := .txComplete _) rfl hs he
  case rxComplete => exact k.exec_port (i := .rxComplete _) rfl hs he
  case hostIn => exact k.exec_port (i := .hostIn _) rfl hs he
  case hostOut => exact k.exec_port (i := .hostOut _ _) rfl hs he
  case hostSetup => exact k.exec_port (i := .hostSetup _ _ _) rfl hs he
  all_goals
    injection he with he
    subst he
  case sendNextPacket => exact k.sendNextPacket _ _ hs
  case beginPacketReceive => exact h.beginPacketReceive _ _ hs
  case endPacketReceive => exact k.obs _ _ (k.endPacketReceive _ _ _ hs)
  case allocate => exact k.obs _ _ (h.allocate _ _ hs)
  case allocReset => exact h.allocReset _ hs
  case ctlReset => exact k.ctlEvent _ hs
  case ctlSetup => exact k.ctlEvent _ hs
  case ctlIn => exact k.ctlEvent _ hs
  case ctlOut => exact k.ctlEvent _ hs
  case blConfigured => exact k.blEvent _ hs
  case blOutFull => exact k.blEvent _ hs
  case blOutShort => exact k.blEvent _ hs
  case blInSent => exact k.blEvent _ hs
  case ctlRow1Reset => exact k.ctlRow1 hs
  case ctlRow2Setup => exact k.ctlRow2 hs
  case ctlRow3DataDone => exact k.ctlRow3 hs
  case ctlRow4StatusDone => exact k.ctlRow4 hs
  case ctlRow5Other => exact k.ctlRow5 hs
  case reqGetStatus => exact k.obs _ _ hs
  case reqGetDescriptor => exact k.obs _ _ hs
  case reqSetAddress => exact k.obs _ _ hs
  case reqSetConfiguration => exact k.obs _ _ (k.blEvent _ (k.epConfigure _ _ _ _ _ hs))
  case reqOther => exact k.obs _ _ (k.answered _ hs)
  case blRow1Configured => exact k.hidArmOut _ (fun _ e => e) hs
  case blRow2OutShort => exact k.status _ _ hs
  case blRow3Command => exact k.blRow3 hs
  case blRow4StatusSent => exact k.hidArmOut _ (fun _ e => e) hs
  case blRow5LowerHalf => exact k.halfPage _ hs
  case blRow6UpperHalf => exact k.halfPage _ hs
  case blRow7Lread => exact k.refuse _ _ hs
  case blRow8Uread => exact k.refuse _ _ hs
  case blRow9Fsm => exact k.status _ _ hs
  case cmdReset => exact k.status _ _ (k.ramWrite _ _ _ hs)
  case cmdProg => exact k.cmdProg hs
  case cmdRead => exact k.status _ _ (k.modBl _ _ (fun _ e => e) hs)
  case cmdExit => exact k.status _ _ (k.modBl _ _ (fun _ _ => rfl) hs)
  case cmdUnrecognized => exact k.status _ _ hs

/-- What a step answers. -/
theorem step {t : State} (hs : s.inputs = [] → P s) (ht : ∀ x rest, s.inputs = x :: rest → P (s.taken rest))
    (hr : ∀ rest, s.inputs = .platformExit :: rest → s.cfg.exitEffect = .restart → P (s.taken rest).restarted)
    (he : step s = .next t) : P t := by
  have k := h.toKept
  unfold Machine.step at he
  split at he
  · injection he with he; subst he; exact hs ‹_›
  · injection he with he; subst he
    exact k.request _ (k.ramWrite _ _ _ (ht _ _ ‹_›)) (ht _ _ ‹_›)
  · injection he with he; subst he
    exact k.platformExit (hr _ ‹_›) (ht _ _ ‹_›)
  · split at he
    · exact h.exec (ht _ _ ‹_›) he
    · injection he with he; subst he; exact k.refuse _ _ (ht _ _ ‹_›)
    · cases he

end KeptInside

end Sys2Proof.Machine
end

