-- ==== Sys2Proof/Laws/Operands.lean ====
section
/-! SUPPORT. What every operand function gives, once: byte order, sizes, counts, the completion rule of a reception,
the descriptor lookup and the fields of a record. -/

namespace Sys2Proof.Machine

/-- A byte list is a number below 256 to its length. -/
theorem leNat_lt (bs : List Byte) : leNat bs < 256 ^ bs.length := by
  induction bs with
  | nil => simp [leNat]
  | cons b bs ih => simp only [leNat, List.length_cons, pow_succ]; have := b.isLt; omega

/-- Byte `k` of the number of a byte list. -/
theorem leNat_byte (bs : List Byte) (k : Nat) (h : k < bs.length) : leNat bs / 256 ^ k % 256 = bs[k].toNat := by
  induction bs generalizing k with
  | nil => simp at h
  | cons b bs ih =>
    cases k with
    | zero => simp [leNat]; have := b.isLt; omega
    | succ k =>
      simp only [leNat, List.getElem_cons_succ]
      rw [Nat.pow_succ', ← Nat.div_div_eq_div_mul]
      have : (b.toNat + 256 * leNat bs) / 256 = leNat bs := by have := b.isLt; omega
      rw [this]
      exact ih k (by simpa using h)

/-- Byte `k` of a word read from four bytes. -/
theorem leVal_byte (bs : List Byte) (h4 : bs.length = 4) (k : Nat) (h : k < 4) :
    (leVal 32 bs).extractLsb' (8 * k) 8 = bs[k] := by
  apply BitVec.eq_of_toNat_eq
  have hl := leNat_lt bs
  rw [h4] at hl
  rw [← leNat_byte bs k (by omega), BitVec.extractLsb'_toNat, leVal, BitVec.toNat_ofNat,
      Nat.mod_eq_of_lt (a := leNat bs) (by simpa using hl), Nat.shiftRight_eq_div_pow]
  rw [Nat.pow_mul]

/-- Byte `k` of the bytes of a value. -/
theorem leBytes_get {w : Nat} (n k : Nat) (v : BitVec w) (h : k < (leBytes n v).length) :
    (leBytes n v)[k] = v.extractLsb' (8 * k) 8 := by
  simp [leBytes]

/-- A value gives as many bytes as asked for. -/
theorem leBytes_len {w : Nat} (n : Nat) (v : BitVec w) : (leBytes n v).length = n := by simp [leBytes]

/-- The number of two byte lists in a row. -/
theorem leNat_append (a b : List Byte) : leNat (a ++ b) = leNat a + 256 ^ a.length * leNat b := by
  induction a with
  | nil => simp [leNat]
  | cons x xs ih => simp only [List.cons_append, leNat, ih, List.length_cons, pow_succ]; ring

/-- The number of the bytes of a value. -/
theorem leNat_leBytes {w : Nat} (n : Nat) (v : BitVec w) : leNat (leBytes n v) = v.toNat % 256 ^ n := by
  induction n with
  | zero => simp [leBytes, leNat, Nat.mod_one]
  | succ n ih =>
    have : leBytes (n + 1) v = leBytes n v ++ [v.extractLsb' (8 * n) 8] := by simp [leBytes, List.range_succ]
    rw [this, leNat_append, ih, leBytes_len]
    have hm := Nat.mod_mul (x := v.toNat) (a := 256 ^ n) (b := 256)
    rw [Nat.pow_succ, hm]
    simp only [leNat, BitVec.extractLsb'_toNat, Nat.shiftRight_eq_div_pow, Nat.mul_zero, Nat.add_zero, Nat.pow_mul]

/-- Reading back the bytes of a value. -/
theorem leVal_leBytes {w : Nat} (n : Nat) (v : BitVec w) (h : w = 8 * n) : leVal w (leBytes n v) = v := by
  apply BitVec.eq_of_toNat_eq
  rw [leVal, leNat_leBytes, BitVec.toNat_ofNat]
  have : (256 : Nat) ^ n = 2 ^ w := by rw [h, Nat.pow_mul]
  rw [this, Nat.mod_mod, Nat.mod_eq_of_lt v.isLt]

/-- The bytes of the value read from bytes. -/
theorem leBytes_leVal (n : Nat) (bs : List Byte) (h : bs.length = n) : leBytes n (leVal (8 * n) bs) = bs := by
  apply List.ext_getElem
  · simp [leBytes_len, h]
  intro k h1 h2
  rw [leBytes_get]
  apply BitVec.eq_of_toNat_eq
  have hl := leNat_lt bs
  rw [h] at hl
  rw [← leNat_byte bs k h2, BitVec.extractLsb'_toNat, leVal, BitVec.toNat_ofNat, Nat.pow_mul,
      Nat.mod_eq_of_lt (a := leNat bs) hl, Nat.shiftRight_eq_div_pow, Nat.pow_mul]

/-- Page alignment as a remainder (rule R152). -/
theorem pageAligned_iff (a : Word) : pageAligned a = true ↔ a.toNat % 128 = 0 := by
  rw [pageAligned, beq_iff_eq, ← BitVec.toNat_inj]
  simp [BitVec.extractLsb'_toNat]

/-- The address test of PROG as bounds (rule R152). -/
theorem progOk_iff (p : Params) (a : Word) : p.progAddressOk a = true ↔ (a.toNat % 128 = 0
    ∧ p.flashLo.toNat ≤ a.toNat ∧ a.toNat + 127 ≤ p.flashHi.toNat) := by
  have hp : Config.pageSize = 128 := rfl
  rw [Params.progAddressOk, Bool.and_eq_true, Bool.and_eq_true, pageAligned_iff, decide_eq_true_iff, decide_eq_true_iff]
  rw [hp, and_assoc]
  constructor <;> rintro ⟨a, b, c⟩ <;> exact ⟨a, b, by omega⟩

/-- The precondition of a half-page write as bounds (rule R56). -/
theorem halfOk_iff (p : Params) (a : Word) : p.halfAddressOk a = true ↔ (a.toNat % 64 = 0
    ∧ p.flashLo.toNat ≤ a.toNat ∧ a.toNat + 63 ≤ p.flashHi.toNat) := by
  have hp : Config.halfSize = 64 := rfl
  have h6 : (a.extractLsb' 0 6 == 0) = true ↔ a.toNat % 64 = 0 := by
    rw [beq_iff_eq, ← BitVec.toNat_inj]
    simp [BitVec.extractLsb'_toNat]
  rw [Params.halfAddressOk, Bool.and_eq_true, Bool.and_eq_true, h6, decide_eq_true_iff, decide_eq_true_iff]
  rw [hp, and_assoc]
  constructor <;> rintro ⟨a, b, c⟩ <;> exact ⟨a, b, by omega⟩

/-- Both halves of an accepted page meet the precondition of a half-page write (rules R53, R152). -/
theorem halves_of_prog {p : Params} {a : Word} (h : p.progAddressOk a = true) :
    p.halfAddressOk a = true ∧ p.halfAddressOk (a + 64) = true := by
  rw [progOk_iff] at h
  have hi := p.flashHi.isLt
  have : (a + 64).toNat = a.toNat + 64 := by rw [BitVec.toNat_add]; simp; omega
  rw [halfOk_iff, halfOk_iff, this]
  omega

/-- The bytes copied of a packet (rule R108). -/
theorem rxCopied_eq (e : Endpoint) (c : BitVec 10) :
    (e.rxCopied c).toNat = min c.toNat (e.rxLen - e.rxCompleted).toNat := by
  rw [Endpoint.rxCopied]
  have hc : (c.setWidth 16).toNat = c.toNat := by simp; omega
  by_cases h : c.setWidth 16 ≤ e.rxLen - e.rxCompleted
  · rw [if_pos h, hc]; simp only [BitVec.le_def, hc] at h; omega
  · rw [if_neg h]; simp only [BitVec.le_def, hc] at h; omega

/-- The receive completion rule on numbers (rule R108). -/
theorem rxTerminal_iff (e : Endpoint) (c : BitVec 10) : e.rxTerminal c = true ↔
    (c.toNat ≠ e.size.toNat ∨ (e.flags.getLsbD 0 = true ∧ c.toNat = e.size.toNat
        ∧ e.rxCompleted + BitVec.ofNat 16 (e.rxCopied c).toNat = e.rxLen)) := by
  have hc : (c.setWidth 16).toNat = c.toNat := by simp; omega
  have h : c.setWidth 16 = e.size ↔ c.toNat = e.size.toNat := by rw [← BitVec.toNat_inj, hc]
  simp only [Endpoint.rxTerminal, Endpoint.noZlp, Bool.or_eq_true, Bool.and_eq_true, decide_eq_true_eq, ne_eq, h,
      and_assoc, BitVec.ofNat_toNat, BitVec.setWidth_eq]

/-- A table without the two keys answers nothing (rule R130). -/
theorem descLookup_none (v i : Half) (t : List DescEntry) (h : ∀ e ∈ t, e.value = v → e.lang ≠ i) :
    descLookup v i t = none := by
  induction t with
  | nil => rfl
  | cons e r ih =>
    rw [descLookup]
    split
    · rfl
    · rw [if_neg (fun hc => h e (by simp) hc.1 hc.2)]
      exact ih fun e he => h e (by simp [he])

/-- Entries with other keys are passed over (rule R130). -/
theorem descLookup_skip (v i : Half) (before after : List DescEntry) (hb : ∀ d ∈ before, d.ptr ≠ 0 ∧ ¬(d.value = v
    ∧ d.lang = i)) :
   descLookup v i (before ++ after) = descLookup v i after := by
  induction before with
  | nil => rfl
  | cons x xs ih =>
    have hx := hb x (by simp)
    rw [List.cons_append, descLookup, if_neg hx.1, if_neg hx.2]
    exact ih fun y hy => hb y (by simp [hy])

/-- The byte count does not change the capacity (rule R105). -/
theorem capacity_with (c : Half) (x : BitVec 10) : capacity (c.extractLsb' 10 6 ++ x) = capacity c := by
  have h1 : (c.extractLsb' 10 6 ++ x).extractLsb' 10 5 = c.extractLsb' 10 5 := by
    apply BitVec.eq_of_getElem_eq; intro i hi
    simp only [BitVec.getElem_extractLsb', BitVec.getLsbD_append]
    simp [show i < 6 by omega]
  have h2 : (c.extractLsb' 10 6 ++ x).getLsbD 15 = c.getLsbD 15 := by
    rw [BitVec.getLsbD_append]; simp
  simp only [capacity, h1, h2]

/-- The byte count written is the one read (rules R180, R181). -/
theorem countOf_with (c : Half) (x : BitVec 10) : countOf (c.extractLsb' 10 6 ++ x) = x := by
  apply BitVec.eq_of_getElem_eq; intro i hi
  simp only [countOf, BitVec.getElem_extractLsb', BitVec.getLsbD_append]
  simp [hi]

/-- No reserved flag bit, in both ways of writing it (rule R23). -/
theorem flags_iff (flags : Word) : flags >>> 1 = 0 ↔ flags.extractLsb' 1 31 = 0 := by
  rw [← BitVec.toNat_inj, ← BitVec.toNat_inj]
  simp [BitVec.extractLsb'_toNat, Nat.shiftRight_eq_div_pow]
  omega

/-- The fields of an encoded record (rule R64). -/
theorem fields_word (code : Byte) (ep : EpNum) (ty : BitVec 2) (len : Half) (arg : Word) :
   ifaceFields (ifaceWord code ep ty len arg) = ⟨code, ep, 0, ty, 0, len, arg⟩ := by
  have h1 : (ifaceWord code ep ty len arg).extractLsb' 0 8 = code := by
    apply BitVec.eq_of_getElem_eq; intro i hi
    simp only [ifaceWord, BitVec.getElem_extractLsb', BitVec.getLsbD_append]
    simp [hi]
  have h2 : (ifaceWord code ep ty len arg).extractLsb' 8 3 = BitVec.ofFin (w := 3) ep := by
    apply BitVec.eq_of_getElem_eq; intro i hi
    simp only [ifaceWord, BitVec.getElem_extractLsb', BitVec.getLsbD_append]
    simp [show ¬ (8 + i < 8) by omega, hi]
  have h3 : (ifaceWord code ep ty len arg).extractLsb' 11 1 = 0 := by
    apply BitVec.eq_of_getElem_eq; intro i hi
    have : i = 0 := by omega
    subst this
    simp only [ifaceWord, BitVec.getElem_extractLsb', BitVec.getLsbD_append]
    simp
  have h4 : (ifaceWord code ep ty len arg).extractLsb' 12 2 = ty := by
    apply BitVec.eq_of_getElem_eq; intro i hi
    simp only [ifaceWord, BitVec.getElem_extractLsb', BitVec.getLsbD_append]
    simp [show ¬ (12 + i < 8) by omega, show ¬ (12 + i - 8 < 3) by omega, show ¬ (12 + i - 8 - 3 < 1) by omega,
        show 12 + i - 8 - 3 - 1 = i by omega, hi]
  have h5 : (ifaceWord code ep ty len arg).extractLsb' 14 2 = 0 := by
    apply BitVec.eq_of_getElem_eq; intro i hi
    simp only [ifaceWord, BitVec.getElem_extractLsb', BitVec.getLsbD_append]
    simp [show ¬ (14 + i < 8) by omega, show ¬ (14 + i - 8 < 3) by omega, show ¬ (14 + i - 8 - 3 < 1) by omega,
        show ¬(14 + i - 8 - 3 - 1 < 2) by omega, show 14 + i - 8 - 3 - 1 - 2 < 2 by omega]
  have h6 : (ifaceWord code ep ty len arg).extractLsb' 16 16 = len := by
    apply BitVec.eq_of_getElem_eq; intro i hi
    simp only [ifaceWord, BitVec.getElem_extractLsb', BitVec.getLsbD_append]
    simp [show ¬ (16 + i < 8) by omega, show ¬ (16 + i - 8 < 3) by omega, show ¬ (16 + i - 8 - 3 < 1) by omega,
        show ¬(16 + i - 8 - 3 - 1 < 2) by omega, show ¬ (16 + i - 8 - 3 - 1 - 2 < 2) by omega, show 16 + i - 8 - 3 - 1 - 2 - 2 = i by omega, hi]
  have h7 : (ifaceWord code ep ty len arg).extractLsb' 32 32 = arg := by
    apply BitVec.eq_of_getElem_eq; intro i hi
    simp only [ifaceWord, BitVec.getElem_extractLsb', BitVec.getLsbD_append]
    simp [show ¬ (32 + i < 8) by omega, show ¬ (32 + i - 8 < 3) by omega, show ¬ (32 + i - 8 - 3 < 1) by omega,
        show ¬(32 + i - 8 - 3 - 1 < 2) by omega, show ¬ (32 + i - 8 - 3 - 1 - 2 < 2) by omega, show ¬ (32 + i - 8 - 3 - 1 - 2 - 2 < 16) by omega, show 32 + i - 8 - 3 - 1 - 2 - 2 - 16 = i by omega, hi]
  simp only [ifaceFields, h1, h2, h3, h4, h5, h6, h7]

end Sys2Proof.Machine
end

