-- ==== Sys2Proof/Laws/PerInstr.lean ====
section
/-! SUPPORT. Statements made once per instruction. FixedBits: the word the encoder gives an instruction carries the
fixed bits of its row in spec/opcode_table.json. -/

namespace Sys2Proof.Laws

/-- The `match` and `mask` columns of spec/opcode_table.json. -/
def tableRow : Instr → BitVec 64 × BitVec 64
  | .epConfigure _ _ _ _ => (0x1, 0xC8FF)
  | .beginSend _ _ _ => (0x2, 0xF8FF)
  | .beginReceive _ _ _ => (0x3, 0xF8FF)
  | .busReset => (0x10, 0xFFFFFFFFFFFFFFFF)
  | .txComplete _ => (0x11, 0xFFFFFFFFFFFFF8FF)
  | .rxComplete _ => (0x12, 0xFFFFFFFFFFFFF8FF)
  | .hostIn _ => (0x19, 0xFFFFFFFFFFFFF8FF)
  | .hostOut _ _ => (0x1A, 0xFFFFFFFF0000F8FF)
  | .hostSetup _ _ _ => (0x8001B, 0xFFFFFFFFFFFFF8FF)
  | .sendNextPacket _ => (0x20, 0xFFFFFFFFFFFFF8FF)
  | .beginPacketReceive _ => (0x21, 0xFFFFFFFFFFFFF8FF)
  | .endPacketReceive _ => (0x22, 0xFFFFFFFFFFFFF8FF)
  | .allocate _ => (0x23, 0xFFFFFFFF0000FFFF)
  | .allocReset => (0x24, 0xFFFFFFFFFFFFFFFF)
  | .ctlReset => (0x30, 0xFFFFFFFFFFFFFFFF)
  | .ctlSetup => (0x31, 0xFFFFFFFFFFFFFFFF)
  | .ctlIn => (0x32, 0xFFFFFFFFFFFFFFFF)
  | .ctlOut => (0x33, 0xFFFFFFFFFFFFFFFF)
  | .blConfigured => (0x40, 0xFFFFFFFFFFFFFFFF)
  | .blOutFull => (0x41, 0xFFFFFFFFFFFFFFFF)
  | .blOutShort => (0x42, 0xFFFFFFFFFFFFFFFF)
  | .blInSent => (0x43, 0xFFFFFFFFFFFFFFFF)
  | .ctlRow1Reset _ => (0x0, 0xF)
  | .ctlRow2Setup _ => (0x1, 0xF)
  | .ctlRow3DataDone _ => (0x12, 0xFE)
  | .ctlRow4StatusDone _ => (0x22, 0xFE)
  | .ctlRow5Other _ => (0x0, 0x0)
  | .reqGetStatus _ _ => (0x0, 0xFF60)
  | .reqGetDescriptor _ _ => (0x600, 0xFF60)
  | .reqSetAddress _ _ => (0x500, 0xFF60)
  | .reqSetConfiguration _ _ => (0x900, 0xFF60)
  | .reqOther _ => (0x0, 0x0)
  | .blRow1Configured _ => (0x0, 0xF)
  | .blRow2OutShort _ => (0x2, 0xF)
  | .blRow3Command => (0x1, 0xFF)
  | .blRow4StatusSent => (0x13, 0xFF)
  | .blRow5LowerHalf => (0x21, 0xFF)
  | .blRow6UpperHalf => (0x31, 0xFF)
  | .blRow7Lread _ => (0x40, 0xF0)
  | .blRow8Uread _ => (0x50, 0xF0)
  | .blRow9Fsm _ => (0x0, 0x0)
  | .cmdReset => (0x0, 0xFFFFFFFF)
  | .cmdProg => (0x80, 0xFFFFFFFF)
  | .cmdRead => (0x40, 0xFFFFFFFF)
  | .cmdExit => (0xC3, 0xFFFFFFFF)
  | .cmdUnrecognized _ => (0x0, 0x0)

/-- The encoded word agrees with the row's `match` on the bits of its `mask`. -/
abbrev agrees (i : Instr) : Prop := i.word &&& (tableRow i).2 = (tableRow i).1

/-- The encoded word agrees with the row's `match` on the bits of the row's `mask`. A HOST_SETUP row fixes the length
8, which a well-formed record that has a step carries (rules R66, R180). -/
def FixedBits.Statement (i : Instr) : Prop :=
  (∀ ep len bytes, i = .hostSetup ep len bytes → len = 8) → agrees i

/-- An IFACE word masked field by field. -/
theorem ifaceWord_and (code : Byte) (ep : EpNum) (type : BitVec 2) (len : Half) (arg : Word) (ma : Word) (ml : Half)
    (mt : BitVec 2) (me : BitVec 3) :
    ifaceWord code ep type len arg
        &&& (ma ++ ml ++ (3 : BitVec 2) ++ mt ++ (1 : BitVec 1) ++ me ++ (0xFF : BitVec 8) : BitVec 64) =
      ((arg &&& ma) ++ (len &&& ml) ++ (0 : BitVec 2) ++ (type &&& mt) ++ (0 : BitVec 1)
        ++ (BitVec.ofFin (w := 3) ep &&& me) ++ code : BitVec 64) := by
  have h : code &&& 0xFF = code := by
    rw [show (0xFF : BitVec 8) = BitVec.allOnes 8 from rfl, BitVec.and_allOnes]
  change ((arg ++ len ++ (0 : BitVec 2) ++ type ++ (0 : BitVec 1) ++ BitVec.ofFin (w := 3) ep ++ code)
    &&& (ma ++ ml ++ (3 : BitVec 2) ++ mt ++ (1 : BitVec 1) ++ me ++ (0xFF : BitVec 8)) : BitVec (32 + 16 + 2 + 2 + 1 + 3 + 8)) = _
  rw [BitVec.and_append, BitVec.and_append, BitVec.and_append, BitVec.and_append, BitVec.and_append,
    BitVec.and_append, h]
  rfl

namespace FixedBits

theorem epConfigure (ep : EpNum) (type : EpType) (size : Half) (flags : Word) : Statement (.epConfigure ep type size flags) := by
  intro _
  refine (ifaceWord_and 0x01 ep type.code size flags 0x0 0x0 0 0).trans ?_
  simp [tableRow]

theorem beginSend (ep : EpNum) (buf : Word) (len : Half) : Statement (.beginSend ep buf len) := by
  intro _
  refine (ifaceWord_and 0x02 ep 0 len buf 0x0 0x0 3 0).trans ?_
  simp [tableRow]

theorem beginReceive (ep : EpNum) (buf : Word) (len : Half) : Statement (.beginReceive ep buf len) := by
  intro _
  refine (ifaceWord_and 0x03 ep 0 len buf 0x0 0x0 3 0).trans ?_
  simp [tableRow]

theorem busReset : Statement (.busReset) := by
  intro _
  refine (ifaceWord_and 0x10 0 0 0 0 0xFFFFFFFF 0xFFFF 3 7).trans ?_
  simp [tableRow]

theorem txComplete (ep : EpNum) : Statement (.txComplete ep) := by
  intro _
  refine (ifaceWord_and 0x11 ep 0 0 0 0xFFFFFFFF 0xFFFF 3 0).trans ?_
  simp [tableRow]

theorem rxComplete (ep : EpNum) : Statement (.rxComplete ep) := by
  intro _
  refine (ifaceWord_and 0x12 ep 0 0 0 0xFFFFFFFF 0xFFFF 3 0).trans ?_
  simp [tableRow]

theorem hostIn (ep : EpNum) : Statement (.hostIn ep) := by
  intro _
  refine (ifaceWord_and 0x19 ep 0 0 0 0xFFFFFFFF 0xFFFF 3 0).trans ?_
  simp [tableRow]

theorem hostOut (ep : EpNum) (bytes : List Byte) : Statement (.hostOut ep bytes) := by
  intro _
  refine (ifaceWord_and 0x1A ep 0 (BitVec.ofNat 16 bytes.length) 0 0xFFFFFFFF 0x0 3 0).trans ?_
  simp [tableRow]

theorem hostSetup (ep : EpNum) (len : Half) (bytes : List Byte) : Statement (.hostSetup ep len bytes) := by
  intro h
  obtain rfl := h ep len bytes rfl
  refine (ifaceWord_and 0x1B ep 0 8 0 0xFFFFFFFF 0xFFFF 3 0).trans ?_
  simp [tableRow]

theorem sendNextPacket (ep : EpNum) : Statement (.sendNextPacket ep) := by
  intro _
  refine (ifaceWord_and 0x20 ep 0 0 0 0xFFFFFFFF 0xFFFF 3 0).trans ?_
  simp [tableRow]

theorem beginPacketReceive (ep : EpNum) : Statement (.beginPacketReceive ep) := by
  intro _
  refine (ifaceWord_and 0x21 ep 0 0 0 0xFFFFFFFF 0xFFFF 3 0).trans ?_
  simp [tableRow]

theorem endPacketReceive (ep : EpNum) : Statement (.endPacketReceive ep) := by
  intro _
  refine (ifaceWord_and 0x22 ep 0 0 0 0xFFFFFFFF 0xFFFF 3 0).trans ?_
  simp [tableRow]

theorem allocate (len : Half) : Statement (.allocate len) := by
  intro _
  refine (ifaceWord_and 0x23 0 0 len 0 0xFFFFFFFF 0x0 3 7).trans ?_
  simp [tableRow]

theorem allocReset : Statement (.allocReset) := by
  intro _
  refine (ifaceWord_and 0x24 0 0 0 0 0xFFFFFFFF 0xFFFF 3 7).trans ?_
  simp [tableRow]

theorem ctlReset : Statement (.ctlReset) := by
  intro _
  refine (ifaceWord_and 0x30 0 0 0 0 0xFFFFFFFF 0xFFFF 3 7).trans ?_
  simp [tableRow]

theorem ctlSetup : Statement (.ctlSetup) := by
  intro _
  refine (ifaceWord_and 0x31 0 0 0 0 0xFFFFFFFF 0xFFFF 3 7).trans ?_
  simp [tableRow]

theorem ctlIn : Statement (.ctlIn) := by
  intro _
  refine (ifaceWord_and 0x32 0 0 0 0 0xFFFFFFFF 0xFFFF 3 7).trans ?_
  simp [tableRow]

theorem ctlOut : Statement (.ctlOut) := by
  intro _
  refine (ifaceWord_and 0x33 0 0 0 0 0xFFFFFFFF 0xFFFF 3 7).trans ?_
  simp [tableRow]

theorem blConfigured : Statement (.blConfigured) := by
  intro _
  refine (ifaceWord_and 0x40 0 0 0 0 0xFFFFFFFF 0xFFFF 3 7).trans ?_
  simp [tableRow]

theorem blOutFull : Statement (.blOutFull) := by
  intro _
  refine (ifaceWord_and 0x41 0 0 0 0 0xFFFFFFFF 0xFFFF 3 7).trans ?_
  simp [tableRow]

theorem blOutShort : Statement (.blOutShort) := by
  intro _
  refine (ifaceWord_and 0x42 0 0 0 0 0xFFFFFFFF 0xFFFF 3 7).trans ?_
  simp [tableRow]

theorem blInSent : Statement (.blInSent) := by
  intro _
  refine (ifaceWord_and 0x43 0 0 0 0 0xFFFFFFFF 0xFFFF 3 7).trans ?_
  simp [tableRow]

theorem ctlRow1Reset (state : BitVec 4) : Statement (.ctlRow1Reset state) :=
  fun _ => (by decide : ∀ (state : BitVec 4), agrees (.ctlRow1Reset state)) state

theorem ctlRow2Setup (state : BitVec 4) : Statement (.ctlRow2Setup state) :=
  fun _ => (by decide : ∀ (state : BitVec 4), agrees (.ctlRow2Setup state)) state

theorem ctlRow3DataDone (event : BitVec 1) : Statement (.ctlRow3DataDone event) :=
  fun _ => (by decide : ∀ (event : BitVec 1), agrees (.ctlRow3DataDone event)) event

theorem ctlRow4StatusDone (event : BitVec 1) : Statement (.ctlRow4StatusDone event) :=
  fun _ => (by decide : ∀ (event : BitVec 1), agrees (.ctlRow4StatusDone event)) event

theorem ctlRow5Other (key : BitVec 8) : Statement (.ctlRow5Other key) := by
  intro _
  exact BitVec.and_zero

theorem reqGetStatus (dir : BitVec 1) (recipient : BitVec 5) : Statement (.reqGetStatus dir recipient) :=
  fun _ => (by decide : ∀ (dir : BitVec 1) (recipient : BitVec 5), agrees (.reqGetStatus dir recipient)) dir recipient

theorem reqGetDescriptor (dir : BitVec 1) (recipient : BitVec 5) : Statement (.reqGetDescriptor dir recipient) :=
  fun _ => (by decide : ∀ (dir : BitVec 1) (recipient : BitVec 5), agrees (.reqGetDescriptor dir recipient)) dir recipient

theorem reqSetAddress (dir : BitVec 1) (recipient : BitVec 5) : Statement (.reqSetAddress dir recipient) :=
  fun _ => (by decide : ∀ (dir : BitVec 1) (recipient : BitVec 5), agrees (.reqSetAddress dir recipient)) dir recipient

theorem reqSetConfiguration (dir : BitVec 1) (recipient : BitVec 5) : Statement (.reqSetConfiguration dir recipient) :=
  fun _ => (by decide : ∀ (dir : BitVec 1) (recipient : BitVec 5), agrees (.reqSetConfiguration dir recipient)) dir recipient

theorem reqOther (key : Half) : Statement (.reqOther key) := by
  intro _
  exact BitVec.and_zero

theorem blRow1Configured (state : BitVec 4) : Statement (.blRow1Configured state) :=
  fun _ => (by decide : ∀ (state : BitVec 4), agrees (.blRow1Configured state)) state

theorem blRow2OutShort (state : BitVec 4) : Statement (.blRow2OutShort state) :=
  fun _ => (by decide : ∀ (state : BitVec 4), agrees (.blRow2OutShort state)) state

theorem blRow3Command : Statement (.blRow3Command) := by
  intro _
  decide

theorem blRow4StatusSent : Statement (.blRow4StatusSent) := by
  intro _
  decide

theorem blRow5LowerHalf : Statement (.blRow5LowerHalf) := by
  intro _
  decide

theorem blRow6UpperHalf : Statement (.blRow6UpperHalf) := by
  intro _
  decide

theorem blRow7Lread (event : BitVec 4) : Statement (.blRow7Lread event) :=
  fun _ => (by decide : ∀ (event : BitVec 4), agrees (.blRow7Lread event)) event

theorem blRow8Uread (event : BitVec 4) : Statement (.blRow8Uread event) :=
  fun _ => (by decide : ∀ (event : BitVec 4), agrees (.blRow8Uread event)) event

theorem blRow9Fsm (key : BitVec 8) : Statement (.blRow9Fsm key) := by
  intro _
  exact BitVec.and_zero

theorem cmdReset : Statement (.cmdReset) := by
  intro _
  decide

theorem cmdProg : Statement (.cmdProg) := by
  intro _
  decide

theorem cmdRead : Statement (.cmdRead) := by
  intro _
  decide

theorem cmdExit : Statement (.cmdExit) := by
  intro _
  decide

theorem cmdUnrecognized (command : Word) : Statement (.cmdUnrecognized command) := by
  intro _
  exact BitVec.and_zero

end FixedBits

end Sys2Proof.Laws
end

