-- ==== Sys2Proof/Laws/Port.lean ====
section
/-! SUPPORT. What the shared operations at the block's edges give, once: packet memory, deliveries from the host,
dispatch and decoding; and that every instruction ends in a next state. -/

namespace Sys2Proof.Machine

/-- A byte inside packet memory (rule R47). -/
theorem pmaByte_lt (s : State) {o : Nat} (h : o < s.cfg.pmaSize) :
    s.pmaByte o = s.pma.read o := by simp [State.pmaByte, h]

/-- Reading inside packet memory changes nothing (rule R47). -/
theorem pmaTouch_ok (s : State) (o n : Nat) (h : o + n ≤ s.cfg.pmaSize) : s.pmaTouch o n = s := by
  simp only [State.pmaTouch, State.raiseIf_pmaOverflow]
  rw [if_neg (by omega)]
  have : decide (0 < n ∧ s.cfg.pmaSize < o + n) = false := by simp; omega
  rw [this]; simp

/-- Taking a setup packet from inside packet memory (rule R106). -/
theorem takeSetup_eq (s : State) (n : EpNum) (h : s.bdt[n].addrRx.toNat + 8 ≤ s.cfg.pmaSize) :
    s.takeSetup n =
      { s with
        ep := s.ep.set n
          { s.ep[n] with
            lastSetup := SetupPacket.ofFun fun k => s.pmaByte (s.bdt[n].addrRx.toNat + k)
            rxPos := 0 } } := by
  rw [State.takeSetup, pmaTouch_ok _ _ _ h]; rfl

/-- A packet delivered inside packet memory (rules R180, R181). -/
theorem packetIn_eq (s : State) (n : EpNum) (bs : List Byte) (setup : Bool)
    (hb : s.bdt[n].addrRx.toNat + bs.length ≤ s.cfg.pmaSize) :
  s.packetIn n bs setup = { s with
          bdt := s.bdt.set n
            { s.bdt[n] with countRx := s.bdt[n].countRx.extractLsb' 10 6 ++ BitVec.ofNat 10 bs.length }
          hw := s.hw.set n ⟨s.hw[n].txStatus, .nak, s.hw[n].ctrTx, true, setup⟩
          pma := pmaStore s.cfg.pmaSize s.pma s.bdt[n].addrRx.toNat bs
          faults := { s.faults with eventOverrun := s.faults.eventOverrun || s.hw[n].ctrRx } } := by
  have hpw (u : State) (h : u.bdt = s.bdt) (hc : u.cfg = s.cfg) :
      u.pmaWrite u.bdt[n].addrRx.toNat bs = { u with pma := pmaStore u.cfg.pmaSize u.pma s.bdt[n].addrRx.toNat bs } := by
    have hd : decide (0 < bs.length
        ∧ u.cfg.pmaSize < s.bdt[n].addrRx.toNat + bs.length) = false := decide_eq_false (by rw [hc]; omega)
    rw [h, State.pmaWrite, hd]; simp only [State.raiseIf, Bool.false_eq_true, if_false, h]
  rw [State.packetIn, State.raiseIf_eventOverrun]
  have := hpw { s with faults := { s.faults with eventOverrun := s.faults.eventOverrun || s.hw[n].ctrRx } } rfl rfl
  simp only at this ⊢
  rw [this]
  rfl

/-- Packet memory after a delivery. -/
theorem pm_in (s t : State) (hd : t.draws = s.draws) (hc : t.cfg = s.cfg) (o : Nat) (bs : List Byte) (hw : s.pma.wf = true)
    (hp : t.pma = pmaStore s.cfg.pmaSize s.pma o bs) (hb : o + bs.length ≤ s.cfg.pmaSize) :
   (∀ k (h : k < bs.length), t.pmaByte (o + k) = bs[k])
      ∧ (∀ j, j < o ∨ o + bs.length ≤ j → t.pmaByte j = s.pmaByte j) := by
  constructor
  · intro k h
    rw [pmaByte_lt _ (by rw [hc]; omega), hp, read_pmaStore hw, dif_pos (by omega)]
    congr 1; omega
  · intro j hj
    by_cases hl : j < s.cfg.pmaSize
    · rw [pmaByte_lt _ (by rwa [hc]), pmaByte_lt _ hl, hp, read_pmaStore hw, dif_neg (by omega)]
    · simp only [State.pmaByte, hc, if_neg hl, hd]

/-- A pointer plus an offset. -/
theorem ptrKey_add (a : Word) (i k : Nat) : ptrKey (a + BitVec.ofNat 32 i) k = ptrKey a (i + k) := by
  simp only [ptrKey]; congr 1; rw [BitVec.add_assoc]; congr 1; apply BitVec.eq_of_toNat_eq; simp

/-- A SETUP fires row 2 in every control state (rule R118). -/
theorem ctlSetup_row (s : State) : s.ctlEvent .setup = s.ctlRow2 := by
  cases h : s.ctl <;> simp [State.ctlEvent, State.ctlKey, h, CtlState.code, CtlEvent.code, ctlRowOf, firstMatch]

/-- CONFIGURED fires row 1 in every bootloader state (rule R141). -/
theorem blConf_row (s : State) : s.blEvent .configured = s.blRow1 := by
  cases h : s.bl.state <;> simp [State.blEvent, State.blKey, h, BlState.code, BlEvent.code, blRowOf, firstMatch]

/-- Running the request row of the setup key by itself gives what the dispatcher gives (rule R119). -/
theorem setupKey_row (s : State) : ∃ u a, exec (decodeSetupKey (s.ep[(0 : EpNum)]).lastSetup.key) s = .next u
    ∧ u.obs = .answer a ∧ s.setupDispatch = (a, { u with obs := s.obs }) := by
  simp only [decodeSetupKey, State.setupDispatch, State.setupPacket]
  cases h : setupRowOf (s.ep[(0 : EpNum)]).lastSetup.key
  · exact ⟨_, _, rfl, rfl, rfl⟩
  · exact ⟨_, _, rfl, rfl, rfl⟩
  · exact ⟨_, _, rfl, rfl, rfl⟩
  · refine ⟨_, _, rfl, rfl, ?_⟩
    simp only [State.reqSetConfiguration, Prod.mk.injEq, true_and]
    apply State.ext <;> first | rfl | simp
  · refine ⟨_, _, rfl, rfl, ?_⟩
    simp only [State.reqOther]

/-- The port decodes a record laid out as its bytes (rules R50, R64). -/
theorem decode_port (R : BitVec 64) (p : List Byte) : decode .port (leBytes 8 R ++ p) = decodeIface true R p := by
  have h8 : (leBytes 8 R).length = 8 := leBytes_len _ _
  simp only [decode]
  rw [if_neg (by simp [h8]), List.take_left' h8, List.drop_left' h8, leVal_leBytes 8 R rfl]

/-- The internal channel decodes a record laid out as its bytes (rules R50, R64). -/
theorem decode_internal (R : BitVec 64) (p : List Byte) :
    decode .internal (leBytes 8 R ++ p) = decodeIface false R p := by
  have h8 : (leBytes 8 R).length = 8 := leBytes_len _ _
  simp only [decode]
  rw [if_neg (by simp [h8]), List.take_left' h8, List.drop_left' h8, leVal_leBytes 8 R rfl]

/-- What valid parameters say of the buffers (rules R8, R189). -/
theorem valid_addr (p : Params) (h : p.valid = true) : p.ep0Buf ≠ 0 ∧ p.statusBuf ≠ 0 ∧ p.inBuf ≠ 0 ∧ p.outBuf ≠ 0
    ∧ p.ep0Buf.toNat + 64 ≤ 2 ^ 32 ∧ p.inBuf.toNat + 64 ≤ 2 ^ 32 ∧ p.outBuf.toNat + 64 ≤ 2 ^ 32
    ∧ (p.inBuf.toNat + 64 ≤ p.outBuf.toNat ∨ p.outBuf.toNat + 64 ≤ p.inBuf.toNat) := by
  simp only [Params.valid, Params.buffersOk, Params.apart, Bool.and_eq_true, decide_eq_true_eq] at h
  tauto

/-- What valid parameters say of packet memory (rules R44, R48, R113); whole units divide every power of two the model
counts in. -/
theorem valid_pma (p : Params) (h : p.valid = true) : p.pmaSize < 2 ^ 16 ∧ 64 ≤ p.arenaStart.toNat
    ∧ p.arenaStart.toNat + 64 ≤ p.pmaSize ∧ p.arenaStart.toNat % p.mau = 0 ∧ 64 % p.mau = 0 ∧ 0 < p.mau
    ∧ 2 ^ 16 % p.mau = 0 ∧ p.epHid ≠ 0 := by
  have h64 : Config.ep0Size.toNat = 64 := rfl
  simp only [Params.valid, Params.pmaOk, h64, Bool.and_eq_true, decide_eq_true_eq] at h
  obtain ⟨⟨-, h1, h2, h3, h4, h5⟩, h6⟩ := h
  refine ⟨h1, h2, h3, h4, h5, ?_, ?_, h6⟩
  · rcases Nat.eq_zero_or_pos p.mau with h0 | h0
    · rw [h0] at h5; simp at h5
    · exact h0
  · exact Nat.mod_eq_zero_of_dvd (Nat.dvd_trans (Nat.dvd_of_mod_eq_zero h5) (by decide))

/-- The parameters of State.reset are valid, whatever the platform's are (log 8). -/
theorem atReset_valid : Params.atReset.valid = true := by
  rw [Params.atReset]
  split
  · assumption
  · decide

/-- The "decision" parameters of State.reset are the defaults of rule R8. -/
theorem atReset_defaults : Params.atReset.withDefaults = Params.atReset := rfl

/-- A page erase writes no flash outside the window (rule R54). -/
theorem flashErasePage_outside {s : State} (h : s.flash.wf = true) (a : Word) {j : Nat}
    (hj : j < s.cfg.flashLo.toNat ∨ s.cfg.flashHi.toNat < j) : (s.flashErasePage a).2.flash.read j = s.flash.read j := by
  simp only [State.flashErasePage]
  split
  · rename_i hc
    have hp := (progOk_iff _ _).mp (Bool.and_eq_true _ _ ▸ hc).2
    have := s.cfg.flashHi.isLt
    refine Memory.read_store_of_ne h _ _ _ _ fun i hi => ?_
    rw [length_wordBytes] at hi
    rw [ptrKey_eq (by omega)]
    omega
  · exact Memory.read_openWindow_of_ne h _ _ _ _ _ _ _ (.inr hj)

/-- A half-page write writes no flash outside the window (rule R54). -/
theorem flashWriteHalf_outside {s : State} (h : s.flash.wf = true) (a : Word) {bs : List Byte} (hl : bs.length ≤ 64)
    {j : Nat} (hj : j < s.cfg.flashLo.toNat ∨ s.cfg.flashHi.toNat < j) :
    (s.flashWriteHalf a bs).2.flash.read j = s.flash.read j := by
  simp only [State.flashWriteHalf]
  split
  · rename_i hc
    simp only [State.halfErased, Bool.and_eq_true, halfOk_iff] at hc
    have := s.cfg.flashHi.isLt
    refine Memory.read_store_of_ne h _ _ _ _ fun i hi => ?_
    rw [ptrKey_eq (by omega)]
    omega
  · exact Memory.read_openWindow_of_ne h _ _ _ _ _ _ _ (.inr hj)

/-- Every instruction ends in a next state. -/
theorem exec_isNext (i : Instr) (s : State) : ∃ t, exec i s = .next t := by
  cases i <;> simp only [exec]
  all_goals
    first
    | exact ⟨_, rfl⟩
    | (simp only [execTxComplete, execRxComplete, execHostIn, execHostOut, execHostSetup]
       split <;> first | exact ⟨_, rfl⟩ | (split <;> exact ⟨_, rfl⟩))

end Sys2Proof.Machine
end

