-- ==== Sys2Proof/Machine/Text.lean ====
section
/-! DEFINITION. The textual syntax of rule R85: the line of each operation of the port. -/

namespace Sys2Proof

/-- A hexadecimal digit. -/
def hexDigit (n : Nat) : Char := if n < 10 then Char.ofNat (48 + n) else Char.ofNat (55 + n)

/-- A byte as two hexadecimal digits. -/
def hexByte (b : Byte) : String := String.ofList [hexDigit (b.toNat / 16), hexDigit (b.toNat % 16)]

/-- The packet bytes after the colon. -/
def hexBytes (bs : List Byte) : String := String.intercalate " " (bs.map hexByte)

/-- A number operand, in decimal. -/
def number (n : Nat) : String := toString n

/-- The type operand. -/
def EpType.text : EpType → String
  | .bulk => "BULK"
  | .control => "CONTROL"
  | .iso => "ISO"
  | .interrupt => "INTERRUPT"

/-- The operands after a mnemonic, separated by commas. -/
def operands (mnemonic : String) (ops : List String) : String := mnemonic ++ " " ++ String.intercalate ", " ops

/-- The line of an operation of the port (rule R85); the other instructions have no line. A HOST_SETUP line has no
length operand, so only the record with length 8 has one. -/
def Instr.line (i : Instr) : Option String :=
  match i with
  | .epConfigure ep type size flags =>
    some (operands "EP_CONFIGURE" [number ep.val, type.text, number size.toNat,
      if flags = 1 then "NOZLP" else number flags.toNat])
  | .beginSend ep buf len => some (operands "BEGIN_SEND" [number ep.val, number buf.toNat, number len.toNat])
  | .beginReceive ep buf len => some (operands "BEGIN_RECEIVE" [number ep.val, number buf.toNat, number len.toNat])
  | .busReset => some "BUS_RESET"
  | .txComplete ep => some (operands "TX_COMPLETE" [number ep.val])
  | .rxComplete ep => some (operands "RX_COMPLETE" [number ep.val])
  | .hostIn ep => some (operands "HOST_IN" [number ep.val])
  | .hostOut ep bytes =>
    some (operands "HOST_OUT" [number ep.val, number bytes.length] ++ " : " ++ hexBytes bytes)
  | .hostSetup ep len bytes =>
    if len = 8 then some (operands "HOST_SETUP" [number ep.val] ++ " : " ++ hexBytes bytes) else none
  | _ => none

end Sys2Proof
end

