-- ==== Sys2Proof/Tests/Slice0.lean ====
section
/-! SUPPORT. The tests: decoding of words written out from the spec's encodings, ill-formed terms, single steps whose
expected values are those of 95_test_vectors.md, and for each obligation with hypotheses a state that meets them. -/

namespace Sys2Proof.Tests

/-! One theorem at a time: a `decide +kernel` waits for all before it, and a hundred waiting threads exhaust memory. -/
set_option Elab.async false

open Sys2Proof Sys2Proof.Machine Sys2Proof.Expected

/-- The instruction ends in a next state that passes the check. -/
def after (i : Instr) (s : State) (check : State → Bool) : Bool :=
  match exec i s with
  | .next t => check t
  | .fault _ => false
  | .refused _ => false

/-- The next state of an instruction. -/
def next (i : Instr) (s : State) : State :=
  match exec i s with
  | .next t => t
  | .fault _ => s
  | .refused _ => s

/-! Decoding: every constructor from a word of the spec (V2, V6, V7, V8 and rules R64, R65, R71, R77 to R79). -/

theorem test_decode_application :
    decode .port [0x01, 0x10, 0x40, 0x00, 0x00, 0x00, 0x00, 0x00] = .instr (.epConfigure 0 .control 64 0)
    ∧ decode .port [0x02, 0x02, 0x80, 0x00, 0x00, 0x04, 0x00, 0x20] = .instr (.beginSend 2 0x20000400 128)
    ∧ decode .port [0x03, 0x03, 0x80, 0x00, 0x00, 0x06, 0x00, 0x20] = .instr (.beginReceive 3 0x20000600 128)
    ∧ decode .port [0x10, 0x00, 0x00, 0x00, 0x00, 0x00, 0x00, 0x00] = .instr .busReset
    ∧ decode .port [0x11, 0x02, 0x00, 0x00, 0x00, 0x00, 0x00, 0x00] = .instr (.txComplete 2)
    ∧ decode .port [0x12, 0x03, 0x00, 0x00, 0x00, 0x00, 0x00, 0x00] = .instr (.rxComplete 3) := by
  decide +kernel

theorem test_decode_host :
    decode .port [0x19, 0x07, 0x00, 0x00, 0x00, 0x00, 0x00, 0x00] = .instr (.hostIn 7)
    ∧ decode .port [0x1A, 0x00, 0x04, 0x00, 0x00, 0x00, 0x00, 0x00, 0x09, 0x08, 0x07, 0x06] =
      .instr (.hostOut 0 [0x09, 0x08, 0x07, 0x06])
    ∧ decode .port [0x1B, 0x00, 0x08, 0x00, 0x00, 0x00, 0x00, 0x00, 0x80, 0x06, 0x00, 0x01, 0x00, 0x00, 0x40, 0x00] =
      .instr (.hostSetup 0 8 [0x80, 0x06, 0x00, 0x01, 0x00, 0x00, 0x40, 0x00])
    ∧ decode .port [0x1B, 0x00, 0x07, 0x00, 0x00, 0x00, 0x00, 0x00] = .instr (.hostSetup 0 7 []) := by
  decide +kernel

theorem test_decode_internal :
    decode .internal [0x20, 0x02, 0, 0, 0, 0, 0, 0] = .instr (.sendNextPacket 2)
    ∧ decode .internal [0x21, 0x03, 0, 0, 0, 0, 0, 0] = .instr (.beginPacketReceive 3)
    ∧ decode .internal [0x22, 0x07, 0, 0, 0, 0, 0, 0] = .instr (.endPacketReceive 7)
    ∧ decode .internal [0x23, 0x00, 0x07, 0x01, 0, 0, 0, 0] = .instr (.allocate 0x0107)
    ∧ decode .internal [0x24, 0, 0, 0, 0, 0, 0, 0] = .instr .allocReset
    ∧ decode .internal [0x30, 0, 0, 0, 0, 0, 0, 0] = .instr .ctlReset
    ∧ decode .internal [0x31, 0, 0, 0, 0, 0, 0, 0] = .instr .ctlSetup
    ∧ decode .internal [0x32, 0, 0, 0, 0, 0, 0, 0] = .instr .ctlIn
    ∧ decode .internal [0x33, 0, 0, 0, 0, 0, 0, 0] = .instr .ctlOut
    ∧ decode .internal [0x40, 0, 0, 0, 0, 0, 0, 0] = .instr .blConfigured
    ∧ decode .internal [0x41, 0, 0, 0, 0, 0, 0, 0] = .instr .blOutFull
    ∧ decode .internal [0x42, 0, 0, 0, 0, 0, 0, 0] = .instr .blOutShort
    ∧ decode .internal [0x43, 0, 0, 0, 0, 0, 0, 0] = .instr .blInSent := by
  decide +kernel

/-- V6. -/
theorem test_decode_control_keys :
    decode .ctlKey [0x20] = .instr (.ctlRow1Reset 2) ∧ decode .ctlKey [0x11] = .instr (.ctlRow2Setup 1)
    ∧ decode .ctlKey [0x12] = .instr (.ctlRow3DataDone 0) ∧ decode .ctlKey [0x13] = .instr (.ctlRow3DataDone 1)
    ∧ decode .ctlKey [0x22] = .instr (.ctlRow4StatusDone 0) ∧ decode .ctlKey [0x23] = .instr (.ctlRow4StatusDone 1)
    ∧ decode .ctlKey [0x02] = .instr (.ctlRow5Other 0x02) ∧ decode .ctlKey [0x03] = .instr (.ctlRow5Other 0x03) := by
  decide +kernel

/-- V7; the low byte of a setup key comes first. -/
theorem test_decode_setup_keys :
    decode .setupKey [0x82, 0x00] = .instr (.reqGetStatus 1 2)
    ∧ decode .setupKey [0x81, 0x06] = .instr (.reqGetDescriptor 1 1)
    ∧ decode .setupKey [0x00, 0x05] = .instr (.reqSetAddress 0 0)
    ∧ decode .setupKey [0x00, 0x09] = .instr (.reqSetConfiguration 0 0)
    ∧ decode .setupKey [0x21, 0x09] = .instr (.reqOther 0x0921)
    ∧ decode .setupKey [0xA1, 0x01] = .instr (.reqOther 0x01A1)
    ∧ decode .setupKey [0x40, 0x06] = .instr (.reqOther 0x0640)
    ∧ decode .setupKey [0xC0, 0x00] = .instr (.reqOther 0x00C0) := by
  decide +kernel

/-- V8.1. -/
theorem test_decode_bootloader_keys :
    decode .blKey [0x50] = .instr (.blRow1Configured 5) ∧ decode .blKey [0x42] = .instr (.blRow2OutShort 4)
    ∧ decode .blKey [0x01] = .instr .blRow3Command ∧ decode .blKey [0x13] = .instr .blRow4StatusSent
    ∧ decode .blKey [0x21] = .instr .blRow5LowerHalf ∧ decode .blKey [0x31] = .instr .blRow6UpperHalf
    ∧ decode .blKey [0x41] = .instr (.blRow7Lread 1) ∧ decode .blKey [0x53] = .instr (.blRow8Uread 3)
    ∧ decode .blKey [0x03] = .instr (.blRow9Fsm 0x03) ∧ decode .blKey [0x11] = .instr (.blRow9Fsm 0x11) := by
  decide +kernel

/-- Rule R77 and V8.2g. -/
theorem test_decode_command_words :
    decode .cmd32 [0x00, 0x00, 0x00, 0x00] = .instr .cmdReset ∧ decode .cmd32 [0x80, 0x00, 0x00, 0x00] = .instr .cmdProg
    ∧ decode .cmd32 [0x40, 0x00, 0x00, 0x00] = .instr .cmdRead ∧ decode .cmd32 [0xC3, 0x00, 0x00, 0x00] = .instr .cmdExit
    ∧ decode .cmd32 [0x81, 0x00, 0x00, 0x00] = .instr (.cmdUnrecognized 0x81)
    ∧ decode .cmd32 [0x00, 0x00, 0x00, 0x80] = .instr (.cmdUnrecognized 0x80000000) := by
  decide +kernel

/-- V2.1 to V2.8. -/
theorem test_decode_refuses :
    decode .port [0x05, 0, 0, 0, 0, 0, 0, 0] = .refuse .reservedOpcode
    ∧ decode .port [0x20, 0x02, 0, 0, 0, 0, 0, 0] = .refuse .internalOpcode
    ∧ decode .port [0x11, 0x02, 0x01, 0, 0, 0, 0, 0] = .refuse .reservedField
    ∧ decode .port [0x11, 0x09, 0, 0, 0, 0, 0, 0] = .refuse .reservedField
    ∧ decode .port [0x02, 0x12, 0x0A, 0x00, 0x00, 0x04, 0x00, 0x20] = .refuse .reservedField
    ∧ decode .port [0x01, 0x22, 0x40, 0, 0, 0, 0, 0] = .refuse .isoEndpoint
    ∧ decode .port [0x01, 0x02, 0x3F, 0, 0, 0, 0, 0] = .refuse .badConfig
    ∧ decode .port [0x01, 0x02, 0x40, 0, 0x02, 0, 0, 0] = .refuse .badConfig := by
  decide +kernel

/-- Bytes of no input of the channel's kind (log 6). -/
theorem test_decode_bad_frames :
    decode .port [0x10, 0, 0, 0, 0, 0, 0] = .badFrame ∧ decode .port [0x10, 0, 0, 0, 0, 0, 0, 0, 0] = .badFrame
    ∧ decode .port [0x1A, 0, 0x02, 0, 0, 0, 0, 0, 0x61] = .badFrame ∧ decode .ctlKey [] = .badFrame
    ∧ decode .cmd32 [0x80, 0, 0] = .badFrame := by
  decide +kernel

/-- A few table words as spec/opcode_table.json numbers them. -/
theorem test_decode_table_words :
    decodeTableWord 64 0x2000040000800202 = some (.beginSend 2 0x20000400 128)
    ∧ decodeTableWord 64 0x11 = some (.txComplete 0) ∧ decodeTableWord 16 0x0680 = some (.reqGetDescriptor 1 0)
    ∧ decodeTableWord 32 0xC3 = some .cmdExit ∧ decodeTableWord 8 0x31 = some .blRow6UpperHalf
    ∧ decodeTableWord 64 0x0005 = none := by
  decide +kernel

/-! Well-formedness: one ill-formed term for each check, and a well-formed neighbour. -/

theorem test_wellFormed_configure :
    (Instr.epConfigure 1 .iso 64 0).wellFormed = false ∧ (Instr.epConfigure 1 .bulk 63 0).wellFormed = false
    ∧ (Instr.epConfigure 1 .bulk 1056 0).wellFormed = false ∧ (Instr.epConfigure 1 .bulk 64 2).wellFormed = false
    ∧ (Instr.epConfigure 1 .bulk 64 1).wellFormed = true := by
  decide +kernel

theorem test_wellFormed_host :
    (Instr.hostSetup 0 8 [0, 0, 0, 0, 0, 0, 0]).wellFormed = false
    ∧ (Instr.hostSetup 0 8 [0, 0, 0, 0, 0, 0, 0, 0]).wellFormed = true
    ∧ (Instr.hostOut 0 []).wellFormed = true := by
  decide +kernel

theorem test_wellFormed_hostOut_too_long : (Instr.hostOut 0 (List.replicate 65536 0)).wellFormed = false := by
  simp only [Instr.wellFormed, List.length_replicate]
  decide

theorem test_wellFormed_keys :
    (Instr.ctlRow5Other 0x10).wellFormed = false ∧ (Instr.ctlRow5Other 0x21).wellFormed = false
    ∧ (Instr.ctlRow5Other 0x13).wellFormed = false ∧ (Instr.ctlRow5Other 0x22).wellFormed = false
    ∧ (Instr.reqOther 0x0081).wellFormed = false ∧ (Instr.reqOther 0x0680).wellFormed = false
    ∧ (Instr.reqOther 0x0500).wellFormed = false ∧ (Instr.reqOther 0x0900).wellFormed = false
    ∧ (Instr.blRow7Lread 0).wellFormed = false ∧ (Instr.blRow8Uread 2).wellFormed = false
    ∧ (Instr.blRow9Fsm 0x30).wellFormed = false ∧ (Instr.blRow9Fsm 0x02).wellFormed = false
    ∧ (Instr.blRow9Fsm 0x01).wellFormed = false ∧ (Instr.blRow9Fsm 0x13).wellFormed = false
    ∧ (Instr.blRow9Fsm 0x21).wellFormed = false ∧ (Instr.blRow9Fsm 0x31).wellFormed = false
    ∧ (Instr.blRow9Fsm 0x41).wellFormed = false ∧ (Instr.blRow9Fsm 0x53).wellFormed = false
    ∧ (Instr.cmdUnrecognized 0x00).wellFormed = false ∧ (Instr.cmdUnrecognized 0x80).wellFormed = false
    ∧ (Instr.cmdUnrecognized 0x40).wellFormed = false ∧ (Instr.cmdUnrecognized 0xC3).wellFormed = false := by
  decide +kernel

/-- The lines of rule R85, as 95_test_vectors.md prints them. -/
theorem test_lines :
    (Instr.epConfigure 2 .bulk 64 0).line = some "EP_CONFIGURE 2, BULK, 64, 0"
    ∧ (Instr.epConfigure 1 .interrupt 64 1).line = some "EP_CONFIGURE 1, INTERRUPT, 64, NOZLP"
    ∧ (Instr.hostOut 1 [0xC3, 0, 0, 0]).line = some "HOST_OUT 1, 4 : C3 00 00 00"
    ∧ (Instr.hostSetup 0 8 [0x80, 6, 0, 1, 0, 0, 0x40, 0]).line = some "HOST_SETUP 0 : 80 06 00 01 00 00 40 00"
    ∧ Instr.allocReset.line = none := by
  decide +kernel

/-! Small states. -/

/-- The power-on state of a platform with the sample parameters of 95_test_vectors.md section 0. -/
def base : State := { State.reset with cfg := Params.sample }

/-- The device after a bus reset: endpoint 0 configured, a SETUP armed (V11). -/
def idle : State := next .busReset base

/-- `idle` with endpoint 2 configured as a bulk endpoint of 64 bytes and 4 bytes at 0x20000400. -/
def bulk2 (flags : Word) : State :=
  next (.epConfigure 2 .bulk 64 flags) { idle with ram := idle.ram.store 0x20000400 0 [0x0A, 0x0B, 0x0C, 0x0D] }

/-- `idle` with endpoint 3 configured as a bulk endpoint of 64 bytes and a reception of `len` bytes armed. -/
def armed3 (flags : Word) (len : Half) : State :=
  next (.beginReceive 3 0x20000600 len) (next (.epConfigure 3 .bulk 64 flags) idle)

/-- A packet of `n` bytes waits on endpoint 3. -/
def waiting3 (flags : Word) (len : Half) (n : Nat) : State :=
  next (.hostOut 3 (List.replicate n 0x55)) (armed3 flags len)

/-- `idle` with a setup packet waiting on endpoint 0. -/
def waitingSetup (bytes : List Byte) : State := next (.hostSetup 0 8 bytes) idle

/-- The HID endpoint configured and its OUT side armed, the bootloader in `st` awaiting a half-page of the erased page at
0x08002000 with both CRCs those of 64 zero bytes, and an OUT report that starts with `report`. -/
def hid (st : BlState) (report : List Byte) : State :=
  let s := next (.reqSetConfiguration 0 0) idle
  { s with
    bl := { s.bl with state := st, resume := .lprog, address := 0x08002000, crcLower := 0x758D6336, crcUpper := 0x758D6336 }
    ram := s.ram.store s.cfg.outBuf 0 report
    flashErased := [0x08002000, 0x08002040]
    flashAnswers := [true]
    obs := .none }

/-- A full OUT report waits on the HID endpoint. -/
def waitingHid (n : Nat) : State := next (.hostOut 1 (List.replicate n 0)) (hid .reset [])

/-! The allocator (V1). -/

theorem test_allocate :
    after (.allocate 7) { base with brk := 64 } (fun t => t.brk = 72 ∧ t.obs = .handle 64 ∧ t.clean) = true
    ∧ after (.allocate 896) { base with brk := 128 } (fun t => t.brk = 1024 ∧ t.clean) = true := by
  decide +kernel

theorem test_allocate_overflow :
    after (.allocate 2) { base with brk := 1024 } (fun t => t.brk = 1026 ∧ t.faults.pmaOverflow) = true
    ∧ after (.allocate 1024) { base with brk := 128 } (fun t => t.brk = 1152 ∧ t.faults.pmaOverflow) = true := by
  decide +kernel

theorem test_alloc_reset : after .allocReset { base with brk := 320 } (fun t => t.brk = 64) = true := by
  decide +kernel

/-- V1.10: a side is allocated when first armed. -/
theorem test_lazy_allocation :
    after (.beginSend 2 0x20000400 10) (next (.beginReceive 2 0x20000400 10) (bulk2 0))
      (fun t => t.bdt[2] = ⟨192, 10, 128, 0x8400⟩ ∧ t.brk = 256) = true := by
  decide +kernel

/-! Receive sizes (V3). -/

theorem test_legal_sizes :
    ([0, 2, 8, 30, 32, 62, 64, 96, 512, 1024].all fun s => legalSize s) = true
    ∧ ([1, 63, 1000, 1056].all fun s => !legalSize s) = true := by
  decide +kernel

theorem test_receive_size_encodings :
    [2, 8, 30, 32, 62, 64, 96, 512, 1024].map rxCountEncode =
      [0x0400, 0x1000, 0x3C00, 0x4000, 0x7C00, 0x8400, 0x8800, 0xBC00, 0xFC00]
    ∧ [0x0400, 0x1000, 0x3C00, 0x4000, 0x7C00, 0x8400, 0x8800, 0xBC00, 0xFC00].map capacity =
      [2, 8, 30, 32, 62, 64, 96, 512, 1024] := by
  decide +kernel

/-! Bus reset (V11). -/

theorem test_bus_reset :
    after .busReset base (fun t =>
      t.brk = 128 ∧ t.bdt[0] = ⟨0, 0, 64, 0x8400⟩ ∧ t.hw[0] = ⟨.nak, .valid, false, false, false⟩
      ∧ t.ep[0].size = 64 ∧ t.ep[0].type = .control ∧ t.devEn ∧ t.clean) = true := by
  decide +kernel

/-! Configuration and the send engine (V4). -/

theorem test_configure :
    after (.epConfigure 2 .bulk 64 1) idle (fun t =>
      t.ep[2].size = 64 ∧ t.ep[2].flags = 1 ∧ t.hw[2].txStatus = .nak ∧ t.hw[2].rxStatus = .nak ∧ t.brk = 128) = true
    ∧ after (.epConfigure 2 .bulk 32 0) (next (.beginSend 2 0x20000400 10) (bulk2 0))
      (fun t => t.faults.resizeAllocated ∧ t.ep[2].size = 32) = true := by
  decide +kernel

/-- V4.3, after BEGIN_SEND; P5 step 3. -/
theorem test_begin_send :
    after (.beginSend 2 0x20000400 128) (bulk2 0) (fun t =>
      t.ep[2].txPos = 0x20000440 ∧ t.bdt[2] = ⟨128, 64, 0, 0⟩ ∧ t.hw[2].txStatus = .valid ∧ t.brk = 192
      ∧ t.pmaByte 128 = 0x0A ∧ t.pmaByte 131 = 0x0D) = true := by
  decide +kernel

/-- V4.5, V4.6, V4.9. -/
theorem test_begin_send_faults :
    after (.beginSend 2 0x20000400 10) (next (.beginSend 2 0x20000400 10) (bulk2 0)) (fun t => t.faults.txOverwrite) = true
    ∧ after (.beginSend 2 0xFFFFFFF0 32) (bulk2 0) (fun t => t.faults.bufferWrap) = true
    ∧ after (.beginSend 2 0 0) (bulk2 0) (fun t => t.hw[2].txStatus = .stall ∧ t.ep[2].txPos = 0) = true := by
  decide +kernel

/-- V4.3, the second packet; V4.4 with NOZLP. -/
theorem test_tx_complete :
    (let sent (flags : Word) : State := next (.hostIn 2) (next (.beginSend 2 0x20000400 128) (bulk2 flags))
    after (.txComplete 2) (sent 0) (fun t => t.ep[2].txPos = 0x20000480 ∧ t.bdt[2].countTx = 0x40) = true
    ∧ after (.txComplete 2) (sent 1) (fun t => t.ep[2].txPos = 0 ∧ t.bdt[2].countTx = 0x40) = true) := by
  decide +kernel

/-- P5 step 9: the event that finds the transfer ended calls the hook. -/
theorem test_tx_complete_reports :
    after (.txComplete 2) { bulk2 0 with hw := (bulk2 0).hw.set 2 ⟨.nak, .nak, true, false, false⟩ }
      (fun t => t.notices = [.sent 2] ∧ t.hw[2].ctrTx = false) = true := by
  decide +kernel

/-- V4.3, the zero-length packet that ends the transfer; V4.8, an endpoint of size 0. -/
theorem test_send_next_packet :
    (let s := bulk2 0
    after (.sendNextPacket 2)
      { s with ep := s.ep.set 2 { s.ep[2] with txBuf := 0x20000400, txPos := 0x20000480, txLen := 128 } }
      (fun t => t.ep[2].txPos = 0 ∧ t.bdt[2].countTx = 0 ∧ t.hw[2].txStatus = .valid) = true)
    ∧ after (.beginSend 4 0x20000400 10) idle (fun t =>
      t.ep[4].txPos = 0x20000400 ∧ t.hw[4].txStatus = .disabled ∧ t.brk = 128) = true := by
  decide +kernel

/-! The receive engine (V5). -/

theorem test_begin_receive :
    (armed3 0 128).bdt[3] = ⟨0, 0, 128, 0x8400⟩ ∧ (armed3 0 128).brk = 192 ∧ (armed3 0 128).hw[3].rxStatus = .valid
    ∧ after (.beginReceive 3 0 0) (armed3 0 128) (fun t => t.hw[3].rxStatus = .stall ∧ t.ep[3].rxPos = 0) = true := by
  decide +kernel

/-- V5.1 and V5.5: a full packet goes on, a short one ends the transfer; P6 step 4. -/
theorem test_rx_complete :
    after (.rxComplete 3) (waiting3 0 128 64) (fun t =>
      t.ep[3].rxPos = 0x20000640 ∧ t.bdt[3].countRx = 0x8400 ∧ t.hw[3].rxStatus = .valid ∧ t.notices = []) = true
    ∧ after (.rxComplete 3) (waiting3 0 128 10) (fun t =>
      t.notices = [.received 3 10] ∧ t.ram.read 0x20000609 = 0x55 ∧ t.ram.read 0x2000060A = 0) = true := by
  decide +kernel

/-- V5.3: bytes beyond the room are dropped. -/
theorem test_end_packet_receive :
    after (.endPacketReceive 3) (waiting3 1 36 64) (fun t =>
      t.obs = .result (.done 36) ∧ t.ram.read 0x20000623 = 0x55 ∧ t.ram.read 0x20000624 = 0) = true
    ∧ after (.endPacketReceive 3) (waiting3 1 64 64) (fun t => t.obs = .result (.done 64)) = true := by
  decide +kernel

/-- V5.7: re-arming under a data packet not yet taken. -/
theorem test_begin_packet_receive :
    after (.beginPacketReceive 3) (waiting3 0 10 2) (fun t => t.faults.rxOverwrite) = true
    ∧ after (.beginPacketReceive 4) idle (fun t => t.hw[4].rxStatus = .disabled) = true := by
  decide +kernel

/-! The host (V10; V5.9). -/

theorem test_host_setup :
    after (.hostSetup 0 8 [0x80, 6, 0, 1, 0, 0, 0x40, 0]) idle (fun t =>
      t.bdt[0].countRx = 0x8408 ∧ t.hw[0] = ⟨.nak, .nak, false, true, true⟩ ∧ t.pmaByte 64 = 0x80) = true
    ∧ after (.hostSetup 0 8 [0, 5, 5, 0, 0, 0, 0, 0]) (waitingSetup [0x80, 6, 0, 1, 0, 0, 0x40, 0])
      (fun t => t.faults.eventOverrun) = true := by
  decide +kernel

theorem test_host_out :
    after (.hostOut 3 [0x61, 0x62]) (armed3 0 10) (fun t =>
      t.bdt[3].countRx = 0x8402 ∧ t.hw[3] = ⟨.nak, .nak, false, true, false⟩ ∧ t.pmaByte 129 = 0x62) = true
    ∧ after (.hostOut 3 (List.replicate 65 0)) (armed3 0 10) (fun t => t.obs = .noStep ∧ !t.hw[3].ctrRx) = true := by
  decide +kernel

theorem test_host_in :
    after (.hostIn 2) (next (.beginSend 2 0x20000400 3) (bulk2 0)) (fun t =>
      t.obs = .packet [0x0A, 0x0B, 0x0C] ∧ t.hw[2].ctrTx ∧ t.hw[2].txStatus = .nak) = true
    ∧ after (.hostIn 2) (bulk2 0) (fun t => t.obs = .handshake .nak ∧ !t.hw[2].ctrTx) = true := by
  decide +kernel

/-! The control pipeline (V6, V7, P7 to P9). -/

/-- P7 step 2 (E4). -/
theorem test_missing_descriptor :
    after (.rxComplete 0) (waitingSetup [0x80, 6, 0, 1, 0, 0, 0x40, 0]) (fun t =>
      t.hw[0] = ⟨.stall, .stall, false, false, false⟩ ∧ t.ctl = .setup ∧ t.bdt[0] = ⟨0, 0, 64, 0x8408⟩
      ∧ t.ep[0].lastSetup = ⟨0x80, 6, 0, 1, 0, 0, 0x40, 0⟩) = true := by
  decide +kernel

/-- P7 step 3. -/
theorem test_get_status :
    after (.rxComplete 0) (waitingSetup [0x80, 0, 0, 0, 0, 0, 2, 0]) (fun t =>
      t.bdt[0].addrTx = 128 ∧ t.bdt[0].countTx = 2 ∧ t.hw[0].txStatus = .valid ∧ t.ctl = .data ∧ t.brk = 192) = true := by
  decide +kernel

/-- P8 step 2: a descriptor of exactly one packet. -/
theorem test_get_descriptor :
    (let s := waitingSetup [0x80, 6, 0, 2, 0, 0, 0x40, 0]
    after (.rxComplete 0)
      { s with cfg := { s.cfg with descTable := [⟨0x0200, 0, 64, 0x20000200⟩, ⟨0, 0, 0, 0⟩] } }
      (fun t => t.ep[0].txPos = 0x20000240 ∧ t.bdt[0].countTx = 64 ∧ t.ctl = .data) = true) := by
  decide +kernel

/-- P1: SET_ADDRESS goes straight to STATUS and waits for its end. -/
theorem test_set_address :
    (let s := next (.rxComplete 0) (waitingSetup [0, 5, 5, 0, 0, 0, 0, 0])
    s.devAddr = 0 ∧ s.ctl = .status ∧ s.bdt[0].countTx = 0
    ∧ after (.txComplete 0) (next (.hostIn 0) s) (fun t => t.devAddr = 5 ∧ t.ctl = .setup ∧ t.hw[0].rxStatus = .valid) = true) := by
  decide +kernel

/-- P9 step 2: a class request with an OUT data stage. -/
theorem test_class_request :
    after (.rxComplete 0)
      { waitingSetup [0x21, 9, 0, 2, 0, 0, 4, 0] with classAnswers := [.ok 0x20000300 4] }
      (fun t => t.ctl = .data ∧ t.ep[0].rxPos = 0x20000300 ∧ t.ep[0].rxLen = 4 ∧ t.bdt[0].countRx = 0x8400) = true := by
  decide +kernel

/-- P7 steps 5 and 6, as events. -/
theorem test_control_rows :
    (let s := next (.rxComplete 0) (waitingSetup [0x80, 0, 0, 0, 0, 0, 2, 0])
    after .ctlIn s (fun t => t.ctl = .status ∧ t.hw[0].rxStatus = .valid ∧ t.ep[0].rxLen = 0) = true
    ∧ after .ctlOut { s with ctl := .status } (fun t => t.ctl = .setup ∧ t.ep[0].rxLen = 64) = true
    ∧ after .ctlIn { s with ctl := .setup } (fun t => t.hw[0].txStatus = .stall ∧ t.hw[0].rxStatus = .stall) = true
    ∧ after .ctlReset { s with ctl := .data } (fun t => t.ctl = .setup) = true) := by
  decide +kernel

/-- P2 step 1: SET_CONFIGURATION binds the HID endpoint. -/
theorem test_set_configuration :
    after (.rxComplete 0) (waitingSetup [0, 9, 1, 0, 0, 0, 0, 0]) (fun t =>
      t.ep[1].size = 64 ∧ t.ep[1].flags = 1 ∧ t.ep[1].type = .interrupt ∧ t.hw[1].rxStatus = .valid
      ∧ t.bl.state = .reset ∧ t.ctl = .status) = true := by
  decide +kernel

/-! The bootloader (V8). -/

/-- V8.2a. -/
theorem test_cmd_reset :
    after .blOutFull (hid .reset []) (fun t =>
      t.inReport = List.replicate 64 0 ∧ t.bl.state = .status ∧ t.bl.resume = .reset ∧ t.hw[1].txStatus = .valid) = true := by
  decide +kernel

/-- V8.2b and V8.4: an erase that passes and one that fails. -/
theorem test_cmd_prog :
    (let s := hid .reset [0x80, 0, 0, 0, 0, 0x20, 0, 8]
    after .blOutFull s (fun t => t.inWord 0 = 0x80 ∧ t.inWord 1 = 0 ∧ t.bl.resume = .lprog ∧ t.bl.crcLower = 0) = true
    ∧ after .blOutFull { s with flashAnswers := [false] } (fun t => t.inWord 1 = 0x10 ∧ t.bl.resume = .reset) = true) := by
  decide +kernel

/-- V8.2c (E5): a misaligned address is captured and refused, with no erase. -/
theorem test_cmd_prog_bad_address :
    (let s := { hid .reset [0x80, 0, 0, 0, 1, 0x20, 0, 8] with flash := Memory.empty.write 0x08002000 0x77 }
    after .cmdProg s (fun t =>
      t.inWord 1 = 0x04 ∧ t.bl.address = 0x08002001 ∧ t.bl.resume = .reset ∧ t.flash.read 0x08002000 = 0x77) = true) := by
  decide +kernel

/-- V8.3. -/
theorem test_prog_window :
    [0x08001F80, 0x08002000, 0x0800FF80, 0x0800FF81, 0x08010000, 0x08002001].map Params.sample.progAddressOk =
      [false, true, true, false, false, false] := by
  decide +kernel

/-- V8.2d, V8.2e, V8.2f. -/
theorem test_other_commands :
    after .blOutFull (hid .reset [0x40, 0, 0, 0, 0, 0x30, 0, 8])
      (fun t => t.inWord 0 = 0x40 ∧ t.inWord 1 = 0 ∧ t.bl.address = 0x08003000 ∧ t.bl.resume = .lread) = true
    ∧ after .blOutFull (hid .reset [0xC3]) (fun t => t.bl.exitRequest ∧ t.inWord 0 = 0xC3 ∧ t.inWord 1 = 0) = true
    ∧ after .blOutFull (hid .reset [0x81]) (fun t => !t.bl.exitRequest ∧ t.inWord 0 = 0x81 ∧ t.inWord 1 = 2) = true := by
  decide +kernel

/-- V8.10: 64 zero bytes with the matching CRC are written; P3 step 3 (E6): with another CRC they are not. -/
theorem test_lower_half :
    after .blOutFull (hid .lprog []) (fun t =>
      t.inWord 1 = 0 ∧ t.inWord 2 = 0x758D6336 ∧ t.bl.resume = .uprog) = true
    ∧ (let s := hid .lprog []
      after .blOutFull { s with bl := { s.bl with crcLower := 0 } } (fun t =>
        t.inWord 1 = 8 ∧ t.inWord 2 = 0x758D6336 ∧ t.bl.resume = .reset ∧ t.flashAnswers = [true]) = true) := by
  decide +kernel

/-- Rule R161: the upper half goes to the address plus 64. -/
theorem test_upper_half :
    (let s := hid .uprog []
    after .blOutFull { s with flash := (Memory.empty.write 0x0800203F 0x77).write 0x08002040 0x78 } (fun t =>
      t.inWord 1 = 0 ∧ t.inWord 3 = 0x758D6336 ∧ t.bl.resume = .reset ∧ t.flash.read 0x0800203F = 0x77
      ∧ t.flash.read 0x08002040 = 0) = true) := by
  decide +kernel

/-- A half-page not erased since it was last written, and one outside the window: the bytes in the window are open, no
other byte is written (93_implementation_defined.md row 13, rule R54, log 31). -/
theorem test_half_not_erased :
    (let s := hid .lprog []
    after .blRow5LowerHalf { s with flashErased := [0x08002040] } (fun t =>
      t.flash.opened.map Prod.fst = (List.range 64).map (0x08002000 + ·) ∧ t.flashErased = [0x08002040]) = true
    ∧ after .blRow5LowerHalf { s with bl := { s.bl with address := 0x08001FE0 }, flash := Memory.empty.write 0x08001FFF 7 }
      (fun t => t.flash.opened.map Prod.fst = (List.range 32).map (0x08002000 + ·) ∧ t.flash.read 0x08001FFF = 7
        ∧ t.flashErased = [0x08002040]) = true) := by
  decide +kernel

/-- V8.6, V8.7, V8.8 and row 9. -/
theorem test_bootloader_events :
    after .blOutShort (hid .lprog []) (fun t => t.inWord 1 = 0x20 ∧ t.bl.resume = .reset) = true
    ∧ after .blOutShort (hid .reset [0xC3]) (fun t => t.inWord 0 = 0xC3 ∧ t.inWord 1 = 0x20 ∧ !t.bl.exitRequest) = true
    ∧ after .blOutFull (hid .lread []) (fun t => t.refused = some .reservedReadState ∧ t.bl.state = .lread) = true
    ∧ after .blInSent (hid .reset []) (fun t => t.inWord 1 = 1 ∧ t.bl.state = .status) = true := by
  decide +kernel

/-- Rules R141, R144. -/
theorem test_bootloader_arms :
    after .blInSent (hid .status []) (fun t => t.bl.state = .lprog ∧ t.hw[1].rxStatus = .valid) = true
    ∧ after .blConfigured (hid .uread []) (fun t => t.bl.state = .reset ∧ t.hw[1].rxStatus = .valid) = true := by
  decide +kernel

/-- V9. -/
theorem test_crc :
    crc32 [] = 0 ∧ crc32 [0, 0, 0, 0] = 0x2144DF1C ∧ crc32 [0x80, 0, 0, 0] = 0xCC1D6927
    ∧ crc32 (List.replicate 64 0xA5) = 0x74465CC5
    ∧ crc32 ((List.range 64).map fun k => BitVec.ofNat 8 (0x40 + k)) = 0x5A8FC61F := by
  decide +kernel

/-! Steps. -/

/-- The step runs the instruction that `withFetchWord` places, as the first one after reset. -/
theorem test_fetch_word :
    (match step (base.withFetchWord 64 0x10) with
      | .next t => decide (t.brk = 128 ∧ t.devEn = true ∧ t.inputs = [])
      | .fault _ => false
      | .refused _ => false) = true := by
  decide +kernel

/-- The instruction is the first one after reset whatever the platform's parameters are. -/
theorem test_fetch_word_at_reset :
    (match step (State.reset.withFetchWord 64 0x10) with
      | .next _ => true
      | .fault _ => false
      | .refused _ => false) = true := by
  decide +kernel

/-- Rules R38, R155: the platform acts on a requested exit, and on no other. -/
theorem test_platform_exit :
    (let s := { hid .lprog [7] with inputs := [.platformExit], refused := some .badConfig }
    let e := { s with bl := { s.bl with exitRequest := true } }
    (match step s, step { e with cfg := { e.cfg with exitEffect := .restart } } with
      | .next t, .next u => decide (t.obs = .noStep ∧ t.bl = s.bl ∧ u.bl = Boot.reset ∧ u.brk = 64 ∧ !u.devEn
          ∧ u.outReport = List.replicate 64 0 ∧ u.refused = some .badConfig ∧ u.flashErased = s.flashErased)
      | _, _ => false) = true) := by
  decide +kernel

/-- Rule R132: what the completion hook stores is in RAM after row 4. -/
theorem test_completion_hook :
    after (.ctlRow4StatusDone 0) { idle with completions := [[⟨0x20000300, [1, 2]⟩], []] } (fun t =>
      t.ram.read 0x20000301 = 2 ∧ t.completions = [[]] ∧ t.ctl = .setup) = true := by
  decide +kernel

/-- Rule R80: the packet-memory layout of a descriptor; rule R83: the address register. -/
theorem test_views :
    (let s := { armed3 0 10 with devAddr := 5 }
    s.bdtByte 28 = 0x80 ∧ s.bdtByte 29 = 0x00 ∧ s.bdtByte 30 = 0x00 ∧ s.bdtByte 31 = 0x84 ∧ s.daddr = 0x0085) := by
  decide +kernel

/-! Witnesses: for each obligation with hypotheses, states and operands that meet them, each clause at a boundary. -/

/-- The instruction's next state, which it has. -/
theorem exec_eq_next {i : Instr} {s : State} (h : after i s (fun _ => true) = true) : exec i s = .next (next i s) := by
  unfold after at h
  unfold next
  split at h <;> simp_all

/-- The next state of a step. -/
def stepNext (s : State) : State :=
  match step s with
  | .next t => t
  | .fault _ => s
  | .refused _ => s

/-- A step ends in a next state. -/
def steps (s : State) : Bool :=
  match step s with
  | .next _ => true
  | .fault _ => false
  | .refused _ => false

theorem step_eq_stepNext {s : State} (h : steps s = true) : step s = .next (stepNext s) := by
  unfold steps at h
  unfold stepNext
  split at h <;> simp_all

/-- The state with one record from outside as its next input. -/
def withPort (s : State) (i : Instr) : State := { s with inputs := [.message .port (encode i)] }

/-- DecodeOfEncodeIsInstruction: an instruction of each kind, at the ends of its operands. -/
theorem witness_decodeOfEncode :
    (Instr.epConfigure 7 .interrupt 1024 1).wellFormed = true ∧ (Instr.beginSend 7 0xFFFFFFFF 0xFFFF).wellFormed = true
    ∧ (Instr.hostSetup 0 0xFFFF [1]).wellFormed = true ∧ (Instr.allocate 0xFFFF).wellFormed = true
    ∧ (Instr.ctlRow5Other 0xFF).wellFormed = true ∧ (Instr.reqOther 0xFFFF).wellFormed = true
    ∧ (Instr.blRow7Lread 0xF).wellFormed = true ∧ (Instr.blRow9Fsm 0xF3).wellFormed = true
    ∧ (Instr.cmdUnrecognized 0xFFFFFFFF).wellFormed = true := by
  decide +kernel

/-- EncodeOfDecodeIsBytes: on the instruction's own channel, and a port record on the internal one. -/
theorem witness_encodeOfDecode :
    decode .port [0x12, 0x07, 0, 0, 0, 0, 0, 0] = .instr (.rxComplete 7)
    ∧ decode .internal [0x12, 0x07, 0, 0, 0, 0, 0, 0] = .instr (.rxComplete 7) := by
  decide +kernel

/-- StepRunsDecodedInstruction. -/
theorem witness_stepRuns :
    ∃ (s : State) (ch : Channel) (bytes : List Byte) (rest : List Input) (i : Instr),
      s.inputs = .message ch bytes :: rest ∧ decode ch bytes = .instr i :=
  ⟨withPort idle .busReset, .port, encode .busReset, [], .busReset, by decide +kernel⟩

/-- StepOnOtherInputs: no input, a refused record, a store in each mode, bytes of the wrong number, the platform with no
exit requested and with one, its effect either one. -/
theorem witness_stepOnOtherInputs :
    idle.inputs = [] ∧ decode .port [0x05, 0, 0, 0, 0, 0, 0, 0] = .refuse .reservedOpcode
    ∧ idle.draining = false ∧ (waitingHid 64).draining = true ∧ decode .port [] = .badFrame
    ∧ idle.bl.exitRequest = false
    ∧ (∀ e : ExitEffect, e = .goesOn ∨ e = .restart →
      let s := { next .cmdExit idle with cfg := { Params.sample with exitEffect := e }, inputs := [.platformExit] }
      s.bl.exitRequest = true ∧ s.cfg.exitEffect = e ∧ s.cfg.valid = true ∧ s.ram.wf = true) := by
  refine ⟨by decide +kernel, by decide +kernel, by decide +kernel, by decide +kernel, by decide +kernel, by decide +kernel,
    ?_⟩
  rintro e (rfl | rfl) <;>
  decide +kernel

/-- ResetValues, SetConfigurationBindsHid, ControlRow1ConfiguresEndpoint0: valid parameters. -/
theorem witness_validParameters : base.cfg.valid = true := by decide +kernel

/-- BreakNeverDecreases: an instruction that moves the break. -/
theorem witness_breakNeverDecreases :
    ∃ (i : Instr) (s t : State), s.cfg.valid = true ∧ i ≠ .busReset ∧ i ≠ .allocReset ∧ exec i s = .next t ∧ t.faults.pmaOverflow = false
      ∧ s.brk.toNat < t.brk.toNat :=
  ⟨.beginSend 2 0x20000400 4, bulk2 0, next (.beginSend 2 0x20000400 4) (bulk2 0), by decide +kernel, by decide +kernel,
    by decide +kernel, exec_eq_next (by decide +kernel), by decide +kernel, by decide +kernel⟩

/-- EpConfigureEffect: its three refusals and the two ways it configures. -/
theorem witness_epConfigureEffect :
    idle.draining = false ∧ EpType.iso = .iso ∧ (EpType.bulk ≠ .iso ∧ ¬LegalSize 1025)
    ∧ (EpType.bulk ≠ .iso ∧ LegalSize 1024 ∧ BitVec.extractLsb' 1 31 (2 : Word) ≠ 0)
    ∧ (EpType.bulk ≠ .iso ∧ LegalSize 1024 ∧ BitVec.extractLsb' 1 31 (1 : Word) = 0)
    ∧ (EpType.control ≠ .iso ∧ LegalSize 0 ∧ BitVec.extractLsb' 1 31 (0 : Word) = 0) := by
  unfold LegalSize
  decide +kernel

/-- RecordsWithoutAStep: a transmit flag, a receive flag, and neither. -/
theorem witness_recordsWithoutAStep :
    (∃ (s : State) (n : EpNum), s.hw[n].ctrTx = true) ∧ (waiting3 0 10 2).hw[(3 : EpNum)].ctrRx = true
    ∧ (idle.hw[(3 : EpNum)].ctrTx = false ∧ idle.hw[(3 : EpNum)].ctrRx = false) :=
  ⟨⟨next (.hostIn 2) (next (.beginSend 2 0x20000400 4) (bulk2 0)), 2, by decide +kernel⟩, by decide +kernel,
    by decide +kernel⟩

/-- BeginSendEffect and BeginReceiveEffect. -/
theorem witness_beginTransfer : (bulk2 0).draining = false ∧ (0xFFFFFFFF : Word) ≠ 0 := by decide +kernel

/-- SendNextPacketEffect: a null cursor, a size of 0, and a packet to produce. -/
theorem witness_sendNextPacket :
    idle.ep[(2 : EpNum)].txPos = 0 ∧ idle.ep[(4 : EpNum)].size = 0
    ∧ (let s := next (.beginSend 2 0x20000400 128) (bulk2 0)
      s.ep[(2 : EpNum)].txPos ≠ 0 ∧ s.ep[(2 : EpNum)].size ≠ 0 ∧ s.pma.wf = true) := by
  decide +kernel

/-- TxCompleteReportsOrContinues: a transfer that goes on, and one that ended on each kind of endpoint. -/
theorem witness_txComplete :
    (let s := next (.hostIn 2) (next (.beginSend 2 0x20000400 128) (bulk2 0))
    s.hw[(2 : EpNum)].ctrTx = true ∧ s.ep[(2 : EpNum)].txPos ≠ 0)
    ∧ (∀ n : EpNum, n = 0 ∨ n = idle.cfg.epHid ∨ n = 7 →
      let s := { idle with hw := idle.hw.set n ⟨.nak, .nak, true, false, false⟩ }
      s.hw[n].ctrTx = true ∧ s.ep[n].txPos = 0) := by
  decide +kernel

/-- BeginPacketReceiveArms. -/
theorem witness_beginPacketReceive : idle.ep[(4 : EpNum)].size = 0 ∧ (bulk2 0).ep[(2 : EpNum)].size ≠ 0 := by
  decide +kernel

/-- ReceiveSizeEncodingIsExact: the ends of both forms. -/
theorem witness_receiveSizes :
    (LegalSize 2 ∧ (2 : Half) ≠ 0) ∧ (LegalSize 62 ∧ (62 : Half) ≠ 0) ∧ (LegalSize 64 ∧ (64 : Half) ≠ 0)
    ∧ (LegalSize 1024 ∧ (1024 : Half) ≠ 0) ∧ (63 : Half).toNat ≤ 1024 := by
  unfold LegalSize
  decide +kernel

/-- EndPacketReceiveSetupAndIdle: a setup packet that ends at the end of packet memory, and no reception. -/
theorem witness_endPacketReceive :
    (let s := { waitingSetup [0, 5, 5, 0, 0, 0, 0, 0] with bdt := idle.bdt.set 0 ⟨0, 0, 1016, 0x8408⟩ }
    s.hw[(0 : EpNum)].setup = true ∧ s.bdt[(0 : EpNum)].addrRx.toNat + 8 ≤ s.cfg.pmaSize)
    ∧ (idle.hw[(3 : EpNum)].setup = false ∧ idle.ep[(3 : EpNum)].rxPos = 0) := by
  decide +kernel

/-- EndPacketReceiveCopiesData: a full packet that goes on, one that fills the room, one beyond the room, an empty
one. -/
theorem witness_endPacketReceiveCopies :
    ∀ c ∈ ([(0, 128, 64), (1, 64, 64), (1, 36, 64), (0, 128, 0)] : List (Word × Half × Nat)),
      let s := waiting3 c.1 c.2.1 c.2.2
      s.hw[(3 : EpNum)].setup = false ∧ s.ep[(3 : EpNum)].rxPos ≠ 0 ∧ s.ram.wf = true
      ∧ s.bdt[(3 : EpNum)].addrRx.toNat
          + min (countOf s.bdt[(3 : EpNum)].countRx).toNat (s.ep[(3 : EpNum)].rxLen - s.ep[(3 : EpNum)].rxCompleted).toNat
        ≤ s.cfg.pmaSize := by
  decide +kernel

/-- RxCompleteDelivers: every result of a data packet, and a setup packet on endpoint 0 and elsewhere. -/
theorem witness_rxComplete :
    ((waiting3 0 128 64).hw[(3 : EpNum)].ctrRx = true ∧ (waiting3 0 128 64).hw[(3 : EpNum)].setup = false)
    ∧ (waiting3 0 128 10).hw[(3 : EpNum)].ctrRx = true
    ∧ ((waitingHid 64).hw[(1 : EpNum)].ctrRx = true ∧ (waitingHid 64).hw[(1 : EpNum)].setup = false)
    ∧ ((waitingHid 63).hw[(1 : EpNum)].ctrRx = true ∧ (waitingHid 63).hw[(1 : EpNum)].setup = false)
    ∧ (let s := next (.hostOut 0 []) idle
      s.hw[(0 : EpNum)].ctrRx = true ∧ s.hw[(0 : EpNum)].setup = false ∧ s.ep[(0 : EpNum)].rxPos ≠ 0)
    ∧ (let s := waitingSetup [0, 5, 5, 0, 0, 0, 0, 0]
      s.hw[(0 : EpNum)].ctrRx = true ∧ s.hw[(0 : EpNum)].setup = true
      ∧ s.bdt[(0 : EpNum)].addrRx.toNat + 8 ≤ s.cfg.pmaSize)
    ∧ (let s := { armed3 0 10 with hw := idle.hw.set 3 ⟨.nak, .nak, false, true, true⟩ }
      s.hw[(3 : EpNum)].ctrRx = true ∧ s.hw[(3 : EpNum)].setup = true
      ∧ s.bdt[(3 : EpNum)].addrRx.toNat + 8 ≤ s.cfg.pmaSize) := by
  decide +kernel

/-- The hypotheses of SendLaw on endpoint 2. -/
abbrev SendPremises (s : State) (buf : Word) (L : Half) : Prop :=
  (2 : EpNum) ≠ 0 ∧ (2 : EpNum) ≠ s.cfg.epHid ∧ s.draining = false ∧ s.devEn = true ∧ s.memoriesOk = true ∧ buf ≠ 0
    ∧ buf.toNat + L.toNat < 2 ^ 32 ∧ s.ep[(2 : EpNum)].size ≠ 0 ∧ s.ep[(2 : EpNum)].size.toNat < 1024
    ∧ 0 < s.brk.toNat ∧ (txAddr s 2).toNat + s.ep[(2 : EpNum)].size.toNat ≤ s.cfg.pmaSize

/-- SendLaw: an empty transfer, one of whole packets, and one that ends below the top of the address space. -/
theorem witness_sendLaw :
    SendPremises (bulk2 0) 0x20000400 0 ∧ SendPremises (bulk2 1) 0x20000400 0 ∧ SendPremises (bulk2 0) 0x20000400 128
    ∧ SendPremises (bulk2 1) 0x20000400 128 ∧ SendPremises (bulk2 0) 0xFFFF0000 0xFFFF := by
  refine ⟨?_, ?_, ?_, ?_, ?_⟩ <;> (unfold SendPremises; decide +kernel)

/-- ReceiveLaw: two packets and a zero-length one (E3); with NOZLP, two full packets; one short packet. -/
theorem witness_receiveLaw :
    ∀ c ∈ ([(0, 128, [List.replicate 64 1, List.replicate 64 2], []), (1, 128, [List.replicate 64 1], List.replicate 64 2),
        (1, 100, [List.replicate 64 1], List.replicate 64 2), (0, 0, [], [])] :
        List (Word × Half × List (List Byte) × List Byte)),
      let s := next (.epConfigure 3 .bulk 64 c.1) idle
      (3 : EpNum) ≠ 0 ∧ (3 : EpNum) ≠ s.cfg.epHid ∧ s.draining = false ∧ s.devEn = true ∧ s.memoriesOk = true
      ∧ (0x20000600 : Word) ≠ 0 ∧ (0x20000600 : Word).toNat + c.2.1.toNat < 2 ^ 32
      ∧ (s.ep[(3 : EpNum)].size = 64 ∧ s.ep[(3 : EpNum)].size ≠ 0) ∧ 0 < s.brk.toNat
      ∧ (rxAddr s 3).toNat + s.ep[(3 : EpNum)].size.toNat ≤ s.cfg.pmaSize
      ∧ (∀ p ∈ c.2.2.1, p.length = s.ep[(3 : EpNum)].size.toNat) ∧ c.2.2.2.length ≤ s.ep[(3 : EpNum)].size.toNat
      ∧ (s.ep[(3 : EpNum)].flags.getLsbD 0 = true → c.2.2.1.flatten.length < c.2.1.toNat ∨ c.2.2.1 = [])
      ∧ (c.2.2.2.length ≠ s.ep[(3 : EpNum)].size.toNat ∨ (s.ep[(3 : EpNum)].flags.getLsbD 0 = true
        ∧ c.2.1.toNat ≤ (c.2.2.1.flatten ++ c.2.2.2).length)) := by
  decide +kernel

/-! The control pipeline. -/

/-- `idle` with a setup packet already in `last_setup` and the control state `st`. -/
def withSetup (st : CtlState) (p : SetupPacket) : State :=
  { idle with ctl := st, ep := idle.ep.set 0 { idle.ep[(0 : EpNum)] with lastSetup := p } }

/-- ControlEventFiresItsRow. -/
theorem witness_controlStates :
    (withSetup .setup ⟨0, 0, 0, 0, 0, 0, 0, 0⟩).ctl = .setup ∧ (withSetup .data ⟨0, 0, 0, 0, 0, 0, 0, 0⟩).ctl = .data
    ∧ (withSetup .status ⟨0, 0, 0, 0, 0, 0, 0, 0⟩).ctl = .status := by
  decide +kernel

/-- ControlRow2DispatchesRequest: a request stalled, one without a data stage, one with each direction. -/
theorem witness_controlRow2 :
    (let s := withSetup .setup ⟨0x80, 6, 0, 1, 0, 0, 0x40, 0⟩
    after (decodeSetupKey (s.ep[(0 : EpNum)]).lastSetup.key) s (fun u => u.obs = .answer .stall) = true)
    ∧ (let s := withSetup .setup ⟨0, 5, 5, 0, 0, 0, 0, 0⟩
    after (decodeSetupKey (s.ep[(0 : EpNum)]).lastSetup.key) s (fun u =>
      u.obs = .answer (.ok s.cfg.ep0Buf 0) ∧ (s.ep[(0 : EpNum)]).lastSetup.wLength = 0 ∧ s.cfg.valid
      ∧ (u.ep[(0 : EpNum)]).size ≠ 0) = true)
    ∧ (let s := withSetup .setup ⟨0x80, 0, 0, 0, 0, 0, 1, 0⟩
    after (decodeSetupKey (s.ep[(0 : EpNum)]).lastSetup.key) s (fun u =>
      u.obs = .answer (.ok s.cfg.statusBuf 2) ∧ (s.ep[(0 : EpNum)]).lastSetup.wLength = 1
      ∧ (s.ep[(0 : EpNum)]).lastSetup.b0.getLsbD 7) = true)
    ∧ (let s := { withSetup .setup ⟨0x21, 9, 0, 2, 0, 0, 4, 0⟩ with classAnswers := [.ok 0x20000300 4] }
    after (decodeSetupKey (s.ep[(0 : EpNum)]).lastSetup.key) s (fun u =>
      u.obs = .answer (.ok 0x20000300 4) ∧ (s.ep[(0 : EpNum)]).lastSetup.wLength = 4
      ∧ !(s.ep[(0 : EpNum)]).lastSetup.b0.getLsbD 7) = true) := by
  decide +kernel

/-- MissingDescriptorStalls: a table whose one entry has another language. -/
theorem witness_missingDescriptor :
    ∃ s : State, (s.ep[(0 : EpNum)]).lastSetup.key &&& 0xFF60 = 0x0600
      ∧ s.cfg.descTable ≠ []
      ∧ ∀ e ∈ s.cfg.descTable, e.value = (s.ep[(0 : EpNum)]).lastSetup.wValue → e.lang ≠ (s.ep[(0 : EpNum)]).lastSetup.wIndex := by
  refine ⟨{ withSetup .status ⟨0x80, 6, 0, 1, 0, 0, 0x40, 0⟩ with
    cfg := { Params.sample with descTable := [⟨0x0100, 0x0409, 18, 0x20000200⟩] } }, by decide +kernel, by decide +kernel, ?_⟩
  intro e he _
  obtain rfl : e = ⟨0x0100, 0x0409, 18, 0x20000200⟩ := by simpa using he
  decide +kernel

/-- ControlRow3FlipsDirection, both directions; ControlRow4Finalizes, with and without an address. -/
theorem witness_controlRows34 :
    idle.cfg.valid = true ∧ (idle.ep[(0 : EpNum)]).size ≠ 0
    ∧ ((withSetup .data ⟨0x80, 0, 0, 0, 0, 0, 2, 0⟩).ep[(0 : EpNum)]).lastSetup.b0.getLsbD 7 = true
    ∧ ((withSetup .data ⟨0x21, 9, 0, 2, 0, 0, 4, 0⟩).ep[(0 : EpNum)]).lastSetup.b0.getLsbD 7 = false
    ∧ (withSetup .status ⟨0, 5, 0x7F, 0, 0, 0, 0, 0⟩).cfg.valid = true
    ∧ ((withSetup .status ⟨0, 5, 0x7F, 0, 0, 0, 0, 0⟩).ep[(0 : EpNum)]).size ≠ 0 := by
  decide +kernel

/-- StatusAddressAndOtherRequests: an answer installed and none. -/
theorem witness_otherRequests :
    ({ idle with classAnswers := [.ok 0 0] } : State).classAnswers = .ok 0 0 :: [] ∧ idle.classAnswers = [] := by
  decide +kernel

/-- DescriptorRequestFirstMatch: the second entry matches, the third does not count; and no entry before the end. -/
theorem witness_descriptorRequest :
    ∃ (s : State) (before : List DescEntry) (e : DescEntry) (after : List DescEntry),
      s.cfg.descTable = before ++ e :: after
      ∧ (∀ d ∈ before, d.ptr ≠ 0 ∧ ¬(d.value = (s.ep[(0 : EpNum)]).lastSetup.wValue
          ∧ d.lang = (s.ep[(0 : EpNum)]).lastSetup.wIndex))
      ∧ e.ptr ≠ 0 ∧ (e.value = (s.ep[(0 : EpNum)]).lastSetup.wValue ∧ e.lang = (s.ep[(0 : EpNum)]).lastSetup.wIndex) := by
  refine ⟨{ withSetup .setup ⟨0x80, 6, 0, 2, 0, 0, 0x40, 0⟩ with
    cfg := { Params.sample with descTable := [⟨0x0100, 0, 18, 0x20000200⟩, ⟨0x0200, 0, 9, 0x20000220⟩, ⟨0x0200, 0, 8, 1⟩] } },
    [⟨0x0100, 0, 18, 0x20000200⟩], ⟨0x0200, 0, 9, 0x20000220⟩, [⟨0x0200, 0, 8, 1⟩], by decide +kernel, ?_, by decide +kernel,
    by decide +kernel⟩
  intro d hd
  obtain rfl : d = ⟨0x0100, 0, 18, 0x20000200⟩ := by simpa using hd
  decide +kernel

theorem witness_descriptorRequest_none :
    ∃ (s : State) (before after : List DescEntry), s.cfg.descTable = before ++ after
      ∧ (∀ d ∈ before, d.ptr ≠ 0 ∧ ¬(d.value = (s.ep[(0 : EpNum)]).lastSetup.wValue
          ∧ d.lang = (s.ep[(0 : EpNum)]).lastSetup.wIndex))
      ∧ (after = [] ∨ ∃ z rest, after = z :: rest ∧ z.ptr = 0) := by
  refine ⟨{ withSetup .setup ⟨0x80, 6, 0, 2, 0, 0, 0x40, 0⟩ with
    cfg := { Params.sample with descTable := [⟨0x0100, 0, 18, 0x20000200⟩, ⟨0, 0, 0, 0⟩] } },
    [⟨0x0100, 0, 18, 0x20000200⟩], [⟨0, 0, 0, 0⟩], by decide +kernel, ?_, .inr ⟨⟨0, 0, 0, 0⟩, [], rfl, rfl⟩⟩
  intro d hd
  obtain rfl : d = ⟨0x0100, 0, 18, 0x20000200⟩ := by simpa using hd
  decide +kernel

/-! The bootloader. -/

/-- BootloaderEventFiresItsRow. -/
theorem witness_bootloaderStates :
    (hid .reset []).bl.state = .reset ∧ (hid .status []).bl.state = .status ∧ (hid .lprog []).bl.state = .lprog
    ∧ (hid .uprog []).bl.state = .uprog ∧ (hid .lread []).bl.state = .lread ∧ (hid .uread []).bl.state = .uread := by
  decide +kernel

/-- BootloaderArmsOut. -/
theorem witness_armsOut :
    (let s := hid .status []
    s.cfg.valid = true ∧ (s.ep[s.cfg.epHid]).size ≠ 0) := by
  decide +kernel

/-- BootloaderErrorReports, ReadAndExitCommands, ResetCommandZeroesReport: the HID endpoint is ready, and a command
word of 0. -/
theorem witness_hidReady : HidReady (hid .reset []) ∧ (hid .reset []).outWord 0 = 0 := by
  unfold HidReady
  decide +kernel

/-- CommandWordSelectsCommand. -/
theorem witness_commandWords :
    (hid .reset []).outWord 0 = 0x00000000 ∧ (hid .reset [0x80]).outWord 0 = 0x00000080
    ∧ (hid .reset [0x40]).outWord 0 = 0x00000040 ∧ (hid .reset [0xC3]).outWord 0 = 0x000000C3
    ∧ (hid .reset [0, 0, 0, 0x80]).outWord 0 ∉ ([0x00000000, 0x00000080, 0x00000040, 0x000000C3] : List Word) := by
  decide +kernel

/-- ProgRejectsBadAddress: the addresses of V8.3 that are refused, on a ready endpoint. -/
theorem witness_progRejects :
    (HidReady (hid .reset [0x80, 0, 0, 0, 0x80, 0x1F, 0, 8])
      ∧ ((hid .reset [0x80, 0, 0, 0, 0x80, 0x1F, 0, 8]).outWord 1).toNat < Params.sample.flashLo.toNat)
    ∧ (HidReady (hid .reset [0x80, 0, 0, 0, 0x81, 0xFF, 0, 8])
      ∧ ((hid .reset [0x80, 0, 0, 0, 0x81, 0xFF, 0, 8]).outWord 1).toNat % 128 ≠ 0)
    ∧ (HidReady (hid .reset [0x80, 0, 0, 0, 0, 0, 1, 8])
      ∧ Params.sample.flashHi.toNat < ((hid .reset [0x80, 0, 0, 0, 0, 0, 1, 8]).outWord 1).toNat + 127) := by
  unfold HidReady
  decide +kernel

/-- ProgErasesPage: the first and the last page, with the erase passing and failing. -/
theorem witness_progErases :
    (let s := hid .reset [0x80, 0, 0, 0, 0, 0x20, 0, 8]
    HidReady s ∧ (s.outWord 1).toNat % 128 = 0 ∧ s.cfg.flashLo.toNat ≤ (s.outWord 1).toNat
      ∧ (s.outWord 1).toNat + 127 ≤ s.cfg.flashHi.toNat ∧ flashPasses s = true)
    ∧ (let s := { hid .reset [0x80, 0, 0, 0, 0x80, 0xFF, 0, 8] with flashAnswers := [false] }
    HidReady s ∧ (s.outWord 1).toNat % 128 = 0 ∧ s.cfg.flashLo.toNat ≤ (s.outWord 1).toNat
      ∧ (s.outWord 1).toNat + 127 ≤ s.cfg.flashHi.toNat ∧ flashPasses s = false) := by
  unfold HidReady
  decide +kernel

/-- HalfPageRejectsBadCrc and HalfPageWritesFlash: each half, with a CRC that differs and one that matches, the write
passing and failing. -/
theorem witness_halfPage :
    (let s := { hid .lprog [] with flashAnswers := [false] }
    HidReady s ∧ crc32 s.outReport = s.bl.crcLower ∧ crc32 s.outReport = s.bl.crcUpper ∧ flashPasses s = false)
    ∧ (let s := hid .uprog []
    HidReady s ∧ crc32 s.outReport = s.bl.crcLower ∧ crc32 s.outReport = s.bl.crcUpper ∧ flashPasses s = true
      ∧ Writable s s.bl.address ∧ Writable s (s.bl.address + 64))
    ∧ (let s := hid .lprog [1]
    HidReady s ∧ crc32 s.outReport ≠ s.bl.crcLower ∧ crc32 s.outReport ≠ s.bl.crcUpper) := by
  unfold HidReady Writable
  decide +kernel

/-! The host. -/

/-- HostSetupIsAccepted: 8 bytes at the end of packet memory, into a buffer that holds exactly 8. -/
theorem witness_hostSetup :
    (let s := { idle with bdt := idle.bdt.set 0 ⟨0, 0, 1016, 0x1000⟩ }
    ([0, 5, 5, 0, 0, 0, 0, 0] : List Byte).length = 8 ∧ s.devEn = true ∧ (s.ep[(0 : EpNum)]).type = .control
      ∧ (s.bdt[(0 : EpNum)]).addrRx ≠ 0 ∧ 8 ≤ capacity (s.bdt[(0 : EpNum)]).countRx ∧ s.pma.wf = true
      ∧ (s.bdt[(0 : EpNum)]).addrRx.toNat + 8 ≤ s.cfg.pmaSize) := by
  decide +kernel

/-- HostOutIsDelivered: an empty packet, and one of the whole capacity. -/
theorem witness_hostOut :
    (let s := armed3 0 128
    s.devEn = true ∧ (s.hw[(3 : EpNum)]).rxStatus = .valid
      ∧ ([] : List Byte).length ≤ capacity (s.bdt[(3 : EpNum)]).countRx
      ∧ (List.replicate 64 (0x55 : Byte)).length ≤ capacity (s.bdt[(3 : EpNum)]).countRx ∧ s.pma.wf = true
      ∧ (s.bdt[(3 : EpNum)]).addrRx.toNat + (List.replicate 64 (0x55 : Byte)).length ≤ s.cfg.pmaSize) := by
  decide +kernel

/-- HostInTakesPacket. -/
theorem witness_hostIn :
    (let s := next (.beginSend 2 0x20000400 64) (bulk2 0)
    s.devEn = true ∧ (s.hw[(2 : EpNum)]).txStatus = .valid
      ∧ (s.bdt[(2 : EpNum)]).addrTx.toNat + ((s.bdt[(2 : EpNum)]).countTx.extractLsb' 0 10).toNat ≤ s.cfg.pmaSize) := by
  decide +kernel

/-- DeclinedTransactionsChangeNothing: a device not enabled, and each status on each side. -/
theorem witness_declined :
    base.devEn = false ∧ idle.devEn = true
    ∧ ((bulk2 0).hw[(2 : EpNum)].txStatus = .nak ∧ (bulk2 0).hw[(2 : EpNum)].rxStatus = .nak)
    ∧ (idle.hw[(7 : EpNum)].txStatus = .disabled ∧ idle.hw[(7 : EpNum)].rxStatus = .disabled)
    ∧ ((next (.ctlRow5Other 0x02) idle).hw[(0 : EpNum)].txStatus = .stall
      ∧ (next (.ctlRow5Other 0x02) idle).hw[(0 : EpNum)].rxStatus = .stall)
    ∧ (let s := armed3 0 128
      s.devEn = true ∧ s.hw[(3 : EpNum)].rxStatus = .valid ∧ capacity s.bdt[(3 : EpNum)].countRx < 65
      ∧ s.ep[(3 : EpNum)].type ≠ .control)
    ∧ (let s := { idle with bdt := idle.bdt.set 0 ⟨0, 0, 0, 0x8400⟩ }
      s.devEn = true ∧ s.ep[(0 : EpNum)].type = .control ∧ s.bdt[(0 : EpNum)].addrRx = 0)
    ∧ (let s := { idle with bdt := idle.bdt.set 0 ⟨0, 0, 64, 0x0C00⟩ }
      s.devEn = true ∧ s.ep[(0 : EpNum)].type = .control ∧ s.bdt[(0 : EpNum)].addrRx ≠ 0
      ∧ capacity s.bdt[(0 : EpNum)].countRx < 8)
    ∧ (7 : Half) ≠ 8 := by
  decide +kernel

/-! The whole machine. -/

/-- The three invariants every step keeps, FaultsAndRefusalsAreSticky and ParametersAndExitRequestStay: a step from a
state that meets them, with a fault and a refusal recorded and the exit requested. -/
theorem witness_invariants :
    ∃ s t : State, s.cfg.valid = true ∧ s.memoriesOk = true ∧ s.registersOk = true ∧ s.cursorsOk = true ∧ step s = .next t
      ∧ s.faults.has .eventOverrun = true ∧ s.refused = some .badConfig ∧ s.bl.exitRequest = true
      ∧ t.ram.read 0x20000609 = 0x55 := by
  let s : State :=
    { withPort (waiting3 0 128 10) (.rxComplete 3) with
      faults := ⟨false, false, false, false, false, true⟩, refused := some .badConfig
      bl := ⟨.reset, 0, 0, 0, .reset, true⟩ }
  exact ⟨s, stepNext s, by decide +kernel, by decide +kernel, by decide +kernel, by decide +kernel,
    step_eq_stepNext (by decide +kernel), by decide +kernel, by decide +kernel, by decide +kernel, by decide +kernel⟩

/-- OutsideStepsKeepBuffersApart: a step that allocates beside a buffer already there. -/
theorem witness_buffersApart :
    ∃ s t : State, s.outsideNext = true ∧ s.cfg.valid = true ∧ s.registersOk = true ∧ s.arenaOk = true ∧ step s = .next t
      ∧ s.buffers.length = 2 ∧ t.buffers.length = 3 := by
  let s : State := withPort (next (.beginReceive 2 0x20000400 10) (bulk2 0)) (.beginSend 2 0x20000400 10)
  exact ⟨s, stepNext s, by decide +kernel, by decide +kernel, by decide +kernel, by decide +kernel,
    step_eq_stepNext (by decide +kernel), by decide +kernel, by decide +kernel⟩

/-- OutsideStepsKeepProgrammingLegal and FlashOutsideWindowNeverWritten: the host's lower half is written to flash, just
above an address outside the window. -/
theorem witness_programming :
    ∃ s t : State, s.outsideNext = true ∧ s.programmingOk = true ∧ s.flash.wf = true ∧ step s = .next t
      ∧ s.bl.state = .lprog ∧ t.bl.resume = .uprog ∧ s.flash.read 0x08002000 ≠ t.flash.read 0x08002000
      ∧ 0x08001FFF < s.cfg.flashLo.toNat := by
  let s : State :=
    { withPort (next (.hostOut 1 (List.replicate 64 0)) (hid .lprog [])) (.rxComplete 1) with
      flash := Memory.empty.write 0x08002000 0x77 }
  exact ⟨s, stepNext s, by decide +kernel, by decide +kernel, by decide +kernel, step_eq_stepNext (by decide +kernel),
    by decide +kernel, by decide +kernel, by decide +kernel, by decide +kernel⟩

/-- LastSetupHasTwoWriters: both writers write. -/
theorem witness_lastSetup :
    (∃ s t : State, exec (.rxComplete 0) s = .next t ∧ t.ep[(0 : EpNum)].lastSetup ≠ s.ep[(0 : EpNum)].lastSetup)
    ∧ ∃ s t : State, exec .busReset s = .next t ∧ t.ep[(0 : EpNum)].lastSetup ≠ s.ep[(0 : EpNum)].lastSetup :=
  ⟨⟨waitingSetup [0, 5, 5, 0, 0, 0, 0, 0], _, exec_eq_next (by decide +kernel), by decide +kernel⟩,
    ⟨withSetup .setup ⟨0, 5, 5, 0, 0, 0, 0, 0⟩, _, exec_eq_next (by decide +kernel), by decide +kernel⟩⟩

/-- DeviceAddressHasTwoWriters: the enable by BUS_RESET, the address at the end of a status stage by each event. -/
theorem witness_deviceAddress :
    (∃ s t : State, exec .busReset s = .next t ∧ t.devEn ≠ s.devEn)
    ∧ (∃ s t : State, exec .ctlIn s = .next t ∧ t.devAddr ≠ s.devAddr ∧ s.ctl = .status)
    ∧ (∃ s t : State, exec (.txComplete 0) s = .next t ∧ t.devAddr ≠ s.devAddr ∧ s.ctl = .status)
    ∧ ∃ s t : State, exec (.rxComplete 0) s = .next t ∧ t.devAddr ≠ s.devAddr ∧ s.ctl = .status :=
  ⟨⟨base, _, exec_eq_next (by decide +kernel), by decide +kernel⟩,
    ⟨withSetup .status ⟨0, 5, 0x7F, 0, 0, 0, 0, 0⟩, _, exec_eq_next (by decide +kernel), by decide +kernel⟩,
    ⟨{ withSetup .status ⟨0, 5, 0x7F, 0, 0, 0, 0, 0⟩ with hw := idle.hw.set 0 ⟨.nak, .valid, true, false, false⟩ }, _,
      exec_eq_next (by decide +kernel), by decide +kernel⟩,
    ⟨{ withSetup .status ⟨0, 5, 0x7F, 0, 0, 0, 0, 0⟩ with hw := idle.hw.set 0 ⟨.nak, .nak, false, true, false⟩ }, _,
      exec_eq_next (by decide +kernel), by decide +kernel⟩⟩

end Sys2Proof.Tests
end

section
/-! The laws an obligation's proof shares with others: the engine's equations in the words of the statements,
one equation per kind of input of `step`, and memory loads after stores. -/

namespace Sys2Proof.Machine

open Sys2Proof.Expected

/-- The two spellings of rounding up to whole units (rules R10, R87). -/
theorem roundUp_eq_rounded (s : State) (x : Nat) : roundUp x s.cfg.mau = rounded s x := Nat.mul_comm _ _

theorem State.brkAfter_eq (s : State) (n : EpNum) (addr : Half) : s.brkAfter n addr = breakAfter s n addr := by
  rw [State.brkAfter, breakAfter, roundUp_eq_rounded]

theorem State.overAllocates_eq (s : State) (n : EpNum) (addr : Half) :
    s.overAllocates n addr = overflows s n addr := by
  rw [State.overAllocates, overflows, roundUp_eq_rounded]

/-- BEGIN_RECEIVE of a buffer that does not wrap, on a configured endpoint (rules R103, R104). -/
theorem State.beginReceive_eq_armedReceive (s : State) (n : EpNum) {buf : Word} {len : Half} (hs : s.ep[n].size ≠ 0)
    (hb : buf ≠ 0) (hw : buf.toNat + len.toNat ≤ 2 ^ 32) : s.beginReceive n buf len = armedReceive s n buf len := by
  rw [State.beginReceive_eq _ _ _ hb, State.beginPacketReceive_eq _ _ (by rw [vset_self]; exact hs)]
  have hnw : ¬ 2 ^ 32 < buf.toNat + len.toNat := Nat.not_lt.mpr hw
  apply State.ext <;>
    simp only [armedReceive, State.brkAfter_eq, State.overAllocates_eq, breakAfter, overflows, vset_self, hnw,
      decide_false, Bool.or_false] <;> rfl

/-- ARM_SETUP on a configured endpoint 0 with valid parameters (rule R117). -/
theorem State.armSetup_eq_armedReceive (s : State) (hv : s.cfg.valid = true) (hs : (s.ep[(0 : EpNum)]).size ≠ 0) :
    s.armSetup = armedReceive s 0 s.cfg.ep0Buf Config.ep0Size := by
  obtain ⟨hb, -, -, -, hw, -⟩ := valid_addr _ hv
  exact State.beginReceive_eq_armedReceive _ _ hs hb hw

theorem Memory.storeAll_eq_hookStores (m : Memory) (ws : List RamStore) : m.storeAll ws = hookStores m ws := by
  induction ws generalizing m with
  | nil => rfl
  | cons w ws ih => exact ih _

/-- A load of the bytes just stored. -/
theorem Memory.load_store {m : Memory} (h : m.wf = true) (a : Word) (k : Nat) (bs : List Byte)
    (hk : k + bs.length ≤ 2 ^ 32) : (m.store a k bs).load a k bs.length = bs :=
  List.ext_getElem (Memory.length_load _ _ _ _) fun i _ hi => by
    rw [Memory.getElem_load, Memory.read_store h _ _ _ hk i hi]

/-- Two memories with the same bytes in a range load the same from it. -/
theorem Memory.load_congr {m m' : Memory} {a : Word} {k n : Nat}
    (h : ∀ i < n, m.read (ptrKey a (k + i)) = m'.read (ptrKey a (k + i))) : m.load a k n = m'.load a k n :=
  List.ext_getElem (by simp) fun i hi _ => by
    rw [Memory.getElem_load, Memory.getElem_load, h i (by simpa using hi)]

section Frames

variable (s : State)

@[simp] theorem State.packetIn_cfg (n : EpNum) (bs : List Byte) (setup : Bool) :
    (s.packetIn n bs setup).cfg = s.cfg := rfl

@[simp] theorem State.packetIn_inputs (n : EpNum) (bs : List Byte) (setup : Bool) :
    (s.packetIn n bs setup).inputs = s.inputs := rfl

@[simp] theorem State.packetIn_bl (n : EpNum) (bs : List Byte) (setup : Bool) :
    (s.packetIn n bs setup).bl = s.bl := rfl

@[simp] theorem State.busCleared_cfg : s.busCleared.cfg = s.cfg := rfl

@[simp] theorem State.busCleared_inputs : s.busCleared.inputs = s.inputs := rfl

@[simp] theorem State.busCleared_bl : s.busCleared.bl = s.bl := rfl

end Frames

variable {s : State}

/-- With no input the block waits (rule R201, log 2). -/
theorem step_of_inputs_nil (h : s.inputs = []) : step s = .next s := by
  rw [step, h]

/-- A store by main-line software (log 17). -/
theorem step_of_ramWrite {a : Word} {bs : List Byte} {rest : List Input} (h : s.inputs = .ramWrite a bs :: rest) :
    step s = .next ((s.taken rest).mainLineStore a bs) := by
  rw [step, h]

/-- The platform acts on the exit request (log 19). -/
theorem step_of_platformExit {rest : List Input} (h : s.inputs = .platformExit :: rest) :
    step s = .next (s.taken rest).platformExit := by
  rw [step, h]

/-- A record the decoder refuses (rules R66, R171). -/
theorem step_of_refuse {ch : Channel} {bytes : List Byte} {rest : List Input} {r : RefusalReason}
    (h : s.inputs = .message ch bytes :: rest) (hd : decode ch bytes = .refuse r) :
    step s = .next ((s.taken rest).refuse r) := by
  simp only [step, h, hd]

/-- Bytes of the wrong number (log 6). -/
theorem step_of_badFrame {ch : Channel} {bytes : List Byte} {rest : List Input}
    (h : s.inputs = .message ch bytes :: rest) (hd : decode ch bytes = .badFrame) : step s = .fault .badFrame := by
  simp only [step, h, hd]

/-- The platform's exit while none is requested has no step. -/
theorem State.platformExit_of_notRequested (h : s.bl.exitRequest = false) : s.platformExit = s.noStep := by
  simp [State.platformExit, h]

/-- The platform's exit where the block goes on. -/
theorem State.platformExit_of_goesOn (h : s.bl.exitRequest = true) (he : s.cfg.exitEffect = .goesOn) :
    s.platformExit = s := by
  simp [State.platformExit, h, he]

/-- The platform's exit where the block is restarted. -/
theorem State.platformExit_of_restart (h : s.bl.exitRequest = true) (he : s.cfg.exitEffect = .restart) :
    s.platformExit = s.restarted := by
  simp [State.platformExit, h, he]

/-- The restart touches no byte of RAM outside the two reports. -/
theorem State.restarted_ram_outside (h : s.ram.wf = true) {j : Nat}
    (hj : ∀ k < 64, j ≠ ptrKey s.cfg.inBuf k ∧ j ≠ ptrKey s.cfg.outBuf k) :
    s.restarted.ram.read j = s.ram.read j := by
  rw [State.restarted_ram, Memory.read_store_of_ne (Memory.wf_store h _ _ _), Memory.read_store_of_ne h]
  · intro i hi; simpa using (hj i (by simpa using hi)).1
  · intro i hi; simpa using (hj i (by simpa using hi)).2

/-- The restart zeroes the OUT report (rule R42). -/
theorem State.restarted_outReport (h : s.ram.wf = true) : s.restarted.outReport = List.replicate 64 0 := by
  have hz := Memory.load_store (Memory.wf_store h s.cfg.inBuf 0 (List.replicate 64 0)) s.cfg.outBuf 0
    (List.replicate 64 0) (by simp)
  rwa [List.length_replicate] at hz

/-- The restart zeroes the IN report: the two reports lie apart, so the second store leaves the first (rules R42,
R189). -/
theorem State.restarted_inReport (hv : s.cfg.valid = true) (h : s.ram.wf = true) :
    s.restarted.inReport = List.replicate 64 0 := by
  obtain ⟨-, -, -, -, -, hin, hout, hapart⟩ := valid_addr _ hv
  have hz := Memory.load_store h s.cfg.inBuf 0 (List.replicate 64 0) (by simp)
  rw [List.length_replicate] at hz
  refine Eq.trans (Memory.load_congr fun i hi => ?_) hz
  refine Memory.read_store_of_ne (Memory.wf_store h _ _ _) _ _ _ _ fun k hk => ?_
  rw [List.length_replicate] at hk
  rw [State.restarted_cfg, ptrKey_eq (by omega), ptrKey_eq (by omega)]
  omega

end Sys2Proof.Machine
end

section
/-! The statements of 00_scope.md: row 4 of the control table, what no step changes, the steps on inputs that
are no instruction, and the power-on state. -/

namespace Sys2Proof.Proofs

open Sys2Proof.Machine Sys2Proof.Expected

theorem exec_ctlRow4StatusDone (e : BitVec 1) (s : State) : exec (.ctlRow4StatusDone e) s = .next s.ctlRow4 := rfl

/-- Settles O28: row 4 is the hook's call followed by ARM_SETUP, which arms the reception the statement names. -/
theorem controlRow4Finalizes : Obligations.ControlRow4Finalizes := by
  unfold Obligations.ControlRow4Finalizes
  intro s e hv hs
  rw [exec_ctlRow4StatusDone, State.ctlRow4, State.armSetup_eq_armedReceive _ (by exact hv) (by exact hs),
    ← Memory.storeAll_eq_hookStores]
  simp only [SetupPacket.isSetAddress, beq_iff_eq]
  rfl

/-- What `t`, reached within a step of `s`, has carried over: the parameters, the inputs after the first, and a set exit
request unless the platform restarts the block. -/
def Carries (s t : State) : Prop :=
  t.cfg = s.cfg ∧ t.inputs = s.inputs.tail
  ∧ (s.bl.exitRequest = true → t.bl.exitRequest = true
    ∨ (s.inputs.head? = some .platformExit ∧ s.cfg.exitEffect = .restart))

/-- An operation that leaves the parameters and the inputs, and keeps a set exit request, keeps `Carries`. -/
theorem Carries.of_frame {s u v : State} (hcfg : v.cfg = u.cfg) (hinputs : v.inputs = u.inputs)
    (hexit : u.bl.exitRequest = true → v.bl.exitRequest = true) (h : Carries s u) : Carries s v :=
  ⟨hcfg.trans h.1, hinputs.trans h.2.1, fun hset => (h.2.2 hset).imp_left hexit⟩

/-- Every shared operation keeps what a step carries over: a frame fact for each, and for a change of the bootloader
session the condition `Kept` puts on it. -/
theorem carries_kept (s : State) : KeptInside (Carries s) := by
  constructor
  case toKept =>
    constructor
    case modBl => exact fun u f hf => .of_frame (by simp) (by simp) (hf u.bl)
    all_goals intros; refine Carries.of_frame ?_ ?_ ?_ ‹_› <;> simp
  all_goals intros; refine Carries.of_frame ?_ ?_ ?_ ‹_› <;> simp

/-- Settles O58: every operation keeps `Carries`, and only a restart by the platform clears the exit request. -/
theorem parametersAndExitRequestStay : Obligations.ParametersAndExitRequestStay := by
  unfold Obligations.ParametersAndExitRequestStay
  intro s t hstep
  refine (carries_kept s).step (fun hnil => ?_) (fun x rest hin => ?_) (fun rest hin hrestart => ?_) hstep
  · exact ⟨rfl, by simp [hnil], .inl⟩
  · exact ⟨rfl, by simp [hin], .inl⟩
  · exact ⟨rfl, by simp [hin], fun _ => .inr ⟨by simp [hin], hrestart⟩⟩

/-- Settles O6: one equation of `step` per kind of input; the restart's RAM is read through its two stores. -/
theorem stepOnOtherInputs : Obligations.StepOnOtherInputs := by
  unfold Obligations.StepOnOtherInputs
  intro s
  refine ⟨step_of_inputs_nil, fun _ _ _ _ => step_of_refuse, fun a bs rest hin hd => ?_, fun a bs rest hin hd => ?_,
    fun _ _ _ => step_of_badFrame, fun rest hin hx => ?_, fun rest hin hx he => ?_, fun rest hin hx he hv hw => ?_⟩
  · rw [step_of_ramWrite hin, State.mainLineStore, State.request_idle (s.taken rest) _ hd]
    rfl
  · rw [step_of_ramWrite hin, State.mainLineStore, State.request_draining (s.taken rest) _ hd]
    rfl
  · rw [step_of_platformExit hin, State.platformExit_of_notRequested (s := s.taken rest) hx]
    rfl
  · rw [step_of_platformExit hin, State.platformExit_of_goesOn (s := s.taken rest) hx he]
    rfl
  · refine ⟨(s.taken rest).restarted, ?_, fun n => ?_, State.restarted_inReport hv hw, State.restarted_outReport hw,
      fun j hj => State.restarted_ram_outside (s := s.taken rest) hw hj, rfl⟩
    · rw [step_of_platformExit hin, State.platformExit_of_restart (s := s.taken rest) hx he]
    · simp [Endpoint.reset, Descriptor.reset, EpHardware.reset]

/-! The power-on registers of the endpoints (rule R42). -/

@[simp] theorem reset_ep : State.reset.ep = Vector.replicate 8 Endpoint.reset := rfl

@[simp] theorem reset_bdt : State.reset.bdt = Vector.replicate 8 Descriptor.reset := rfl

@[simp] theorem reset_hw : State.reset.hw = Vector.replicate 8 EpHardware.reset := rfl

@[simp] theorem reset_brk : State.reset.brk = State.reset.cfg.arenaStart := rfl

theorem reset_cfg_valid : State.reset.cfg.valid = true := atReset_valid

/-- The break starts at the arena, which starts at a whole unit; the endpoints' reset values are legal. -/
theorem reset_registersOk : State.reset.registersOk = true := by
  obtain ⟨-, -, -, hunits, -⟩ := valid_pma _ reset_cfg_valid
  have hep : Endpoint.reset.ok = true := by decide
  have hbdt : Descriptor.reset.ok State.reset.cfg.mau = true := by decide
  rw [State.registersOk, Bool.and_eq_true, decide_eq_true_eq]
  exact ⟨hunits, List.all_eq_true.mpr fun n _ => by simp [hep, hbdt]⟩

/-- Every cursor is null. -/
theorem reset_cursorsOk : State.reset.cursorsOk = true := by
  simp [State.cursorsOk, Endpoint.reset, cursorInside]

theorem reset_buffers : State.reset.buffers = [] := by
  simp [State.buffers, Descriptor.reset]

/-- No buffer is in use, and the arena starts inside packet memory. -/
theorem reset_arenaOk : State.reset.arenaOk = true := by
  obtain ⟨-, -, hroom, -⟩ := valid_pma _ reset_cfg_valid
  have hinside := Nat.le_of_add_right_le hroom
  simp [State.arenaOk, reset_buffers, hinside]

theorem reset_clean : State.reset.clean = true := rfl

/-- No completion flag is set. -/
theorem reset_final : State.reset.final = true := by
  have hidle : State.reset.draining = false :=
    (State.draining_iff _).mpr fun n => by simp [EpHardware.reset]
  simp [State.final, reset_clean, hidle]

/-- Settles O59: the memories are empty, the bootloader awaits no payload, and the rest is said above. -/
theorem resetMeetsTheInvariants : Obligations.ResetMeetsTheInvariants := by
  unfold Obligations.ResetMeetsTheInvariants
  exact ⟨rfl, reset_registersOk, reset_cursorsOk, reset_arenaOk, rfl, reset_clean, reset_final, reset_cfg_valid,
      atReset_defaults⟩

end Sys2Proof.Proofs
end

section
/-! The laws the statements of 10_state.md share: the rows a control event fires, EP_CONFIGURE and END_PACKET_RECEIVE
by cases, the first reception of an endpoint, and what a delivery leaves unchanged. -/

namespace Sys2Proof.Machine

open Sys2Proof.Expected

/-- A property of every entry stays one where the entry written has it. -/
theorem vset_all {α : Type} {p : α → Prop} {v : Vector α 8} (h : ∀ m : EpNum, p v[m]) (n : EpNum) {x : α} (hx : p x)
    (m : EpNum) : p (v.set n x)[m] := by
  by_cases hm : m = n
  · rw [hm, vset_self]; exact hx
  · rw [vset_ne _ _ hm]; exact h m

/-- A RESET fires row 1 in every control state (rule R116). -/
theorem ctlReset_row (s : State) : s.ctlEvent .reset = s.ctlRow1 := by
  cases h : s.ctl <;> simp [State.ctlEvent, State.ctlKey, h, CtlState.code, CtlEvent.code, ctlRowOf, firstMatch]

/-- EP_CONFIGURE with operands it accepts (rule R92). -/
theorem State.epConfigure_of_configOk (s : State) (n : EpNum) {type : EpType} {size : Half} {flags : Word}
    (h : configOk type size flags = true) :
    s.epConfigure n type size flags =
      ((s.raiseIf (decide ((s.bdt[n].addrTx ≠ 0 ∨ s.bdt[n].addrRx ≠ 0) ∧ size ≠ s.ep[n].size)) .resizeAllocated).modEp n
        fun e => e.configured type size flags).modHw n fun h => { h with txStatus := .nak, rxStatus := .nak } := by
  simp only [configOk, Bool.and_eq_true, decide_eq_true_eq] at h
  obtain ⟨⟨htype, hsize⟩, hflags⟩ := h
  rw [State.epConfigure, if_neg htype, if_neg (by simp [hsize]), if_neg (by simp [hflags])]

/-- EP_CONFIGURE with operands it does not accept (rules R92, R171). -/
theorem State.epConfigure_refuses (s : State) (n : EpNum) {type : EpType} {size : Half} {flags : Word}
    (h : ¬ configOk type size flags = true) : ∃ r, s.epConfigure n type size flags = s.refuse r := by
  unfold State.epConfigure
  split
  · exact ⟨_, rfl⟩
  · split
    · exact ⟨_, rfl⟩
    · split
      · exact ⟨_, rfl⟩
      next htype hsize hflags =>
        simp only [Bool.not_eq_true', Bool.not_eq_false, ne_eq, not_not] at hsize hflags
        exact absurd (by simp [configOk, htype, hsize, hflags]) h

section Receive

variable (s : State) (n : EpNum) (count : BitVec 10)

/-- The data case where the packet ends the reception (rule R108). -/
theorem State.takeData_of_terminal (h : s.ep[n].rxTerminal count = true) :
    s.takeData n count = (.done (s.ep[n].rxCompleted + s.ep[n].rxCopied count),
      (s.copyReceived n count).modEp n fun e => { e with rxPos := 0 }) :=
  if_pos h

/-- The data case where the reception goes on (rule R108). -/
theorem State.takeData_of_not_terminal (h : ¬ s.ep[n].rxTerminal count = true) :
    s.takeData n count = (.working,
      ((s.copyReceived n count).modEp n fun e =>
        { e with rxPos := e.rxPos + (e.rxCopied count).setWidth 32 }).beginPacketReceive n) :=
  if_neg h

/-- The data case of END_PACKET_RECEIVE moves or ends the cursor of its endpoint (rule R108). -/
theorem State.takeData_ep :
    (s.takeData n count).2.ep = s.ep.set n { s.ep[n] with
      rxPos := if s.ep[n].rxTerminal count then 0 else s.ep[n].rxPos + (s.ep[n].rxCopied count).setWidth 32 } := by
  by_cases h : s.ep[n].rxTerminal count = true
  · rw [State.takeData_of_terminal s n count h, if_pos h, State.modEp_ep, State.copyReceived_ep]
  · rw [State.takeData_of_not_terminal s n count h, if_neg h, State.beginPacketReceive_ep, State.modEp_ep,
      State.copyReceived_ep]

/-- The SETUP case of END_PACKET_RECEIVE writes its endpoint's setup packet and ends its cursor (rule R106). -/
theorem State.takeSetup_ep :
    (s.takeSetup n).ep = s.ep.set n { s.ep[n] with
      lastSetup := SetupPacket.ofFun fun k => s.pmaByte (s.bdt[n].addrRx.toNat + k), rxPos := 0 } := by
  simp [State.takeSetup]

end Receive

section Delivery

variable (s : State) (n : EpNum) (bs : List Byte) (setup : Bool)

@[simp] theorem State.packetIn_brk : (s.packetIn n bs setup).brk = s.brk := by
  simp [State.packetIn]

@[simp] theorem State.packetIn_ep : (s.packetIn n bs setup).ep = s.ep := by
  simp [State.packetIn]

theorem State.packetIn_bdt :
    (s.packetIn n bs setup).bdt = s.bdt.set n { s.bdt[n] with
      countRx := withCount s.bdt[n].countRx (BitVec.ofNat 10 bs.length) } := by
  simp [State.packetIn]

@[simp] theorem State.packetIn_devEn : (s.packetIn n bs setup).devEn = s.devEn := by
  simp [State.packetIn]

@[simp] theorem State.packetIn_devAddr : (s.packetIn n bs setup).devAddr = s.devAddr := by
  simp [State.packetIn]

end Delivery

/-- Whole units stay as they are when rounded up (rule R10). -/
theorem rounded_of_units (s : State) {x : Nat} (h : x % s.cfg.mau = 0) (hmau : 0 < s.cfg.mau) : rounded s x = x := by
  obtain ⟨q, rfl⟩ := Nat.dvd_of_mod_eq_zero h
  rw [rounded, Nat.add_sub_assoc hmau, Nat.mul_add_div hmau, Nat.div_eq_of_lt (by omega), Nat.add_zero]

/-- The first reception of an endpoint whose buffer fits, with no event pending, raises no fault (rules R88, R104). -/
theorem armedReceive_of_room (s : State) (n : EpNum) (buf : Word) (len : Half) (hfirst : s.bdt[n].addrRx = 0)
    (hidle : s.hw[n].ctrRx = false) (hroom : s.brk.toNat + rounded s s.ep[n].size.toNat ≤ s.cfg.pmaSize) :
    armedReceive s n buf len = { s with
      brk := s.brk + BitVec.ofNat 16 (rounded s s.ep[n].size.toNat)
      ep := s.ep.set n { s.ep[n] with rxBuf := buf, rxPos := buf, rxLen := len }
      bdt := s.bdt.set n { s.bdt[n] with addrRx := s.brk, countRx := rxCountEncode s.ep[n].size }
      hw := s.hw.set n { s.hw[n] with rxStatus := .valid } } := by
  simp only [armedReceive, breakAfter, rxAddr, overflows, hfirst, hidle, if_true, true_and, Nat.not_lt.mpr hroom,
    decide_false, Bool.or_false, Bool.false_and]

end Sys2Proof.Machine
end

section
/-! The sticky record of faults and refusals (rule R38): every shared operation keeps it, so every step does. -/

namespace Sys2Proof.Proofs

open Sys2Proof.Machine Sys2Proof.Expected

/-- `t` records every fault `s` records, and a refusal reason of `s` is that of `t` (rule R38, log 4). -/
structure Remembers (s t : State) : Prop where
  faults : ∀ k, s.faults.has k = true → t.faults.has k = true
  refused : ∀ r, s.refused = some r → t.refused = some r

theorem Remembers.refl (s : State) : Remembers s s := ⟨fun _ => id, fun _ => id⟩

namespace Remembers

variable {s u : State} (h : Remembers s u)
include h

/-- An operation that touches neither mark keeps the record. -/
theorem frame {v : State} (hf : v.faults = u.faults) (hr : v.refused = u.refused) : Remembers s v :=
  ⟨fun k hk => hf ▸ h.faults k hk, fun r hs => hr.trans (h.refused r hs)⟩

theorem modEp (n : EpNum) (f : Endpoint → Endpoint) : Remembers s (u.modEp n f) := h.frame rfl rfl

theorem modBdt (n : EpNum) (f : Descriptor → Descriptor) : Remembers s (u.modBdt n f) := h.frame rfl rfl

theorem modHw (n : EpNum) (f : EpHardware → EpHardware) : Remembers s (u.modHw n f) := h.frame rfl rfl

theorem pmaCellOpen (o n : Nat) : Remembers s (u.pmaCellOpen o n) := h.frame rfl rfl

theorem raiseIf (c : Bool) (k : FaultKind) : Remembers s (u.raiseIf c k) where
  faults j hj := by
    rw [State.raiseIf_faults]
    split
    · rw [FaultSet.has_insert, h.faults j hj, Bool.or_true]
    · exact h.faults j hj
  refused := h.refused

/-- The first reason stays (log 4). -/
theorem refuse (r : RefusalReason) : Remembers s (u.refuse r) where
  faults := h.faults
  refused r' hr := by rw [State.refuse, h.refused r' hr]; rfl

theorem epConfigure (n : EpNum) (type : EpType) (size : Half) (flags : Word) :
    Remembers s (u.epConfigure n type size flags) := by
  by_cases hok : configOk type size flags = true
  · rw [State.epConfigure_of_configOk u n hok]
    exact ((h.raiseIf _ _).modEp n _).modHw n _
  · obtain ⟨r, hr⟩ := u.epConfigure_refuses n hok
    rw [hr]
    exact h.refuse r

theorem allocate (len : Half) : Remembers s (u.allocate len).2 := (h.raiseIf _ _).frame rfl rfl

theorem ensureTx (n : EpNum) : Remembers s (u.ensureTx n) := by
  unfold State.ensureTx
  split
  · exact (h.allocate _).modBdt n _
  · exact h

theorem ensureRx (n : EpNum) : Remembers s (u.ensureRx n) := by
  unfold State.ensureRx
  split
  · exact (h.allocate _).modBdt n _
  · exact h

theorem pmaWrite (o : Nat) (bs : List Byte) : Remembers s (u.pmaWrite o bs) := (h.raiseIf _ _).frame rfl rfl

theorem pmaTouch (o n : Nat) : Remembers s (u.pmaTouch o n) := (h.raiseIf _ _).frame rfl rfl

theorem producePacket (n : EpNum) : Remembers s (u.producePacket n) := by
  unfold State.producePacket
  exact ((((((h.raiseIf _ _).ensureTx n).pmaWrite _ _).pmaCellOpen _ _).modBdt n _).modEp n _).modHw n _

theorem sendNextPacket (n : EpNum) : Remembers s (u.sendNextPacket n) := by
  unfold State.sendNextPacket
  split
  · exact h
  · exact h.producePacket n

theorem beginSend (n : EpNum) (buf : Word) (len : Half) : Remembers s (u.beginSend n buf len) := by
  unfold State.beginSend
  split
  · exact h.frame rfl rfl
  · exact ((h.raiseIf _ _).modEp n _).sendNextPacket n

theorem beginPacketReceive (n : EpNum) : Remembers s (u.beginPacketReceive n) := by
  unfold State.beginPacketReceive
  split
  · exact h
  · exact (((h.raiseIf _ _).ensureRx n).modBdt n _).modHw n _

theorem beginReceive (n : EpNum) (buf : Word) (len : Half) : Remembers s (u.beginReceive n buf len) := by
  unfold State.beginReceive
  split
  · exact h.frame rfl rfl
  · exact ((h.raiseIf _ _).modEp n _).beginPacketReceive n

theorem takeSetup (n : EpNum) : Remembers s (u.takeSetup n) := by
  unfold State.takeSetup
  exact (h.pmaTouch _ _).modEp n _

theorem takeData (n : EpNum) (count : BitVec 10) : Remembers s (u.takeData n count).2 := by
  have hcopy : Remembers s (u.copyReceived n count) := (h.pmaTouch _ _).frame rfl rfl
  by_cases hc : u.ep[n].rxTerminal count = true
  · rw [State.takeData_of_terminal u n count hc]
    exact hcopy.frame rfl rfl
  · rw [State.takeData_of_not_terminal u n count hc]
    exact (hcopy.modEp n _).beginPacketReceive n

theorem packetIn (n : EpNum) (bs : List Byte) (setup : Bool) : Remembers s (u.packetIn n bs setup) := by
  unfold State.packetIn
  exact (((h.raiseIf _ _).pmaWrite _ _).modBdt n _).modHw n _

end Remembers

/-- The operations that raise or refuse are those above; the others touch neither mark. -/
theorem remembers_kept (s : State) : KeptInside (Remembers s) where
  refuse _ r h := h.refuse r
  epConfigure _ n type size flags h := h.epConfigure n type size flags
  beginSend _ n buf len h := h.beginSend n buf len
  beginReceive _ n buf len h := h.beginReceive n buf len
  sendNextPacket _ n h := h.sendNextPacket n
  takeSetup _ n h := h.takeSetup n
  takeData _ n count _ h := h.takeData n count
  packetIn _ n bs setup h := h.packetIn n bs setup
  overrun _ c h := h.raiseIf c _
  pmaTouch _ o n h := h.pmaTouch o n
  beginPacketReceive _ n h := h.beginPacketReceive n
  allocate _ len h := h.allocate len
  obs _ _ h := h.frame rfl rfl
  notify _ _ h := h.frame rfl rfl
  completed _ _ h := h.frame rfl rfl
  answered _ h := h.frame rfl rfl
  setCtl _ _ h := h.frame rfl rfl
  devAddr _ _ h := h.frame rfl rfl
  modBl _ _ _ h := h.frame rfl rfl
  setInWord _ _ _ h := h.frame rfl rfl
  ramWrite _ _ _ h := h.frame rfl rfl
  erase _ _ h := h.frame rfl rfl
  writeHalf _ _ _ _ h := h.frame rfl rfl
  modHw _ n f h := h.modHw n f
  received _ _ _ h := h.frame rfl rfl
  busCleared _ h := h.frame rfl rfl
  allocReset _ h := h.frame rfl rfl

/-- Settles O55: the record is kept by every operation, and by the platform's restart. -/
theorem faultsAndRefusalsAreSticky : Obligations.FaultsAndRefusalsAreSticky := by
  unfold Obligations.FaultsAndRefusalsAreSticky
  intro s t hstep
  have hrec : Remembers s t := (remembers_kept s).step (fun _ => .refl s)
    (fun _ _ _ => (Remembers.refl s).frame rfl rfl) (fun _ _ _ => (Remembers.refl s).frame rfl rfl) hstep
  exact ⟨hrec.faults, hrec.refused⟩

end Sys2Proof.Proofs
end

section
/-! The cursors stay in their buffers (rules R25, R26). -/

namespace Sys2Proof.Proofs

open Sys2Proof.Machine Sys2Proof.Expected

theorem cursorInside_iff {buf pos : Word} {len : Half} : cursorInside buf pos len = true ↔
    pos = 0 ∨ (buf.toNat ≤ pos.toNat ∧ pos.toNat ≤ buf.toNat + len.toNat ∧ buf.toNat + len.toNat ≤ 2 ^ 32) :=
  decide_eq_true_iff

theorem cursorInside_null (buf : Word) (len : Half) : cursorInside buf 0 len = true := cursorInside_iff.mpr (.inl rfl)

theorem cursorInside_start {buf : Word} {len : Half} (h : buf.toNat + len.toNat ≤ 2 ^ 32) :
    cursorInside buf buf len = true :=
  cursorInside_iff.mpr (.inr ⟨le_rfl, Nat.le_add_right _ _, h⟩)

/-- A cursor inside its buffer that moves by no more than what is left stays inside, or wraps to null at 2^32
(log 33). -/
theorem cursorInside_advance {buf pos : Word} {len c : Half} (h : cursorInside buf pos len = true) (hpos : pos ≠ 0)
    (hc : c ≤ len - (pos - buf).setWidth 16) : cursorInside buf (pos + c.setWidth 32) len = true := by
  rw [cursorInside_iff] at h ⊢
  obtain ⟨hle, hlen, hwrap⟩ := h.resolve_left hpos
  have hdone : ((pos - buf).setWidth 16).toNat = pos.toNat - buf.toNat := by
    rw [BitVec.toNat_setWidth, BitVec.toNat_sub_of_le hle]
    omega
  have hleft : (len - (pos - buf).setWidth 16).toNat = len.toNat - (pos.toNat - buf.toNat) := by
    rw [BitVec.toNat_sub_of_le (by rw [BitVec.le_def]; omega), hdone]
  have hmove : c.toNat ≤ len.toNat - (pos.toNat - buf.toNat) := hleft ▸ hc
  have hnew : (pos + c.setWidth 32).toNat = (pos.toNat + c.toNat) % 2 ^ 32 := by
    simp
  have hend : pos.toNat + c.toNat ≤ 2 ^ 32 := by omega
  rcases hend.lt_or_eq with hlt | heq
  · right; omega
  · left
    rw [← BitVec.toNat_inj, hnew, heq]
    rfl

/-- A packet takes no more than what is left to send (rule R97). -/
theorem txChunk_le (e : Endpoint) : e.txChunk ≤ e.txLen - e.txCompleted := by
  unfold Endpoint.txChunk
  split
  · exact BitVec.le_refl _
  next h => exact BitVec.le_of_lt (BitVec.not_le.mp h)

/-- A packet is copied only into the room that is left (rule R108). -/
theorem rxCopied_le (e : Endpoint) (count : BitVec 10) : e.rxCopied count ≤ e.rxLen - e.rxCompleted := by
  unfold Endpoint.rxCopied
  split
  next h => exact h
  · exact BitVec.le_refl _

/-- Both cursors of an endpoint are null or inside their buffers. -/
structure CursorsInside (e : Endpoint) : Prop where
  tx : cursorInside e.txBuf e.txPos e.txLen = true
  rx : cursorInside e.rxBuf e.rxPos e.rxLen = true

theorem cursorsInside_reset : CursorsInside Endpoint.reset := ⟨cursorInside_null _ _, cursorInside_null _ _⟩

theorem cursorsOk_iff {s : State} :
    s.cursorsOk = true ↔ s.faults.bufferWrap = true ∨ ∀ n : EpNum, CursorsInside s.ep[n] := by
  have hep (n : EpNum) : CursorsInside s.ep[n] ↔ (cursorInside s.ep[n].txBuf s.ep[n].txPos s.ep[n].txLen = true
      ∧ cursorInside s.ep[n].rxBuf s.ep[n].rxPos s.ep[n].rxLen = true) := ⟨fun h => ⟨h.tx, h.rx⟩, fun h => ⟨h.1, h.2⟩⟩
  simp only [State.cursorsOk, Bool.or_eq_true, allEps_all, Bool.and_eq_true, hep]

/-- An operation keeps the cursors inside where it does so for the endpoints it writes: a recorded wrap stays. -/
theorem cursorsOk_of_remembers {s t : State} (h : s.cursorsOk = true) (hrec : Remembers s t)
    (hep : (∀ n : EpNum, CursorsInside s.ep[n]) → ∀ n : EpNum, CursorsInside t.ep[n]) : t.cursorsOk = true :=
  cursorsOk_iff.mpr ((cursorsOk_iff.mp h).imp (hrec.faults .bufferWrap) hep)

/-- An operation that writes no endpoint record and forgets no fault. -/
theorem cursorsOk_of_ep_eq {s t : State} (h : s.cursorsOk = true) (hrec : Remembers s t) (hep : t.ep = s.ep) :
    t.cursorsOk = true :=
  cursorsOk_of_remembers h hrec fun hin => hep ▸ hin

/-- An operation that writes one endpoint record and forgets no fault. -/
theorem cursorsOk_of_ep_set {s t : State} {n : EpNum} {e : Endpoint} (h : s.cursorsOk = true) (hrec : Remembers s t)
    (hep : t.ep = s.ep.set n e) (he : CursorsInside s.ep[n] → CursorsInside e) : t.cursorsOk = true :=
  cursorsOk_of_remembers h hrec fun hin => hep ▸ vset_all hin n (he (hin n))

theorem sendNextPacket_cursorsOk {s : State} (n : EpNum) (h : s.cursorsOk = true) :
    (s.sendNextPacket n).cursorsOk = true := by
  by_cases hidle : s.ep[n].txPos = 0 ∨ s.ep[n].size = 0
  · rwa [State.sendNextPacket_idle s n hidle]
  · obtain ⟨hpos, hsize⟩ := not_or.mp hidle
    refine cursorsOk_of_ep_set h ((Remembers.refl s).sendNextPacket n)
      (congrArg State.ep (State.sendNextPacket_eq s n hpos hsize)) fun hin => ⟨?_, hin.rx⟩
    dsimp only
    split
    · exact cursorInside_null _ _
    · exact cursorInside_advance hin.tx hpos (txChunk_le _)

theorem beginPacketReceive_cursorsOk {s : State} (n : EpNum) (h : s.cursorsOk = true) :
    (s.beginPacketReceive n).cursorsOk = true :=
  cursorsOk_of_ep_eq h ((Remembers.refl s).beginPacketReceive n) (State.beginPacketReceive_ep s n)

/-- Where a transfer starts: at the start of its buffer, and a buffer that wraps is recorded (rules R95, R103). -/
theorem cursorsOk_of_start {s : State} (n : EpNum) {e : Endpoint} {buf : Word} {len : Half} (h : s.cursorsOk = true)
    (he : cursorInside buf buf len = true → CursorsInside s.ep[n] → CursorsInside e) :
    ({ s with
      ep := s.ep.set n e
      faults := { s.faults with bufferWrap := s.faults.bufferWrap || decide (2 ^ 32 < buf.toNat + len.toNat) } } :
        State).cursorsOk = true := by
  rw [cursorsOk_iff] at h ⊢
  by_cases hwrap : 2 ^ 32 < buf.toNat + len.toNat
  · exact .inl (by rw [decide_eq_true hwrap, Bool.or_true])
  · exact h.imp (fun hrec => by simp [hrec]) fun hin =>
      vset_all hin n (he (cursorInside_start (Nat.not_lt.mp hwrap)) (hin n))

theorem beginSend_cursorsOk {s : State} (n : EpNum) (buf : Word) (len : Half) (h : s.cursorsOk = true) :
    (s.beginSend n buf len).cursorsOk = true := by
  by_cases hbuf : buf = 0
  · subst hbuf
    exact cursorsOk_of_ep_set h ((Remembers.refl s).beginSend n 0 len)
      (congrArg State.ep (State.beginSend_null s n len)) fun hin => ⟨cursorInside_null _ _, hin.rx⟩
  · rw [State.beginSend_eq s n len hbuf]
    exact sendNextPacket_cursorsOk n (cursorsOk_of_start n h fun hstart hin => ⟨hstart, hin.rx⟩)

theorem beginReceive_cursorsOk {s : State} (n : EpNum) (buf : Word) (len : Half) (h : s.cursorsOk = true) :
    (s.beginReceive n buf len).cursorsOk = true := by
  by_cases hbuf : buf = 0
  · subst hbuf
    exact cursorsOk_of_ep_set h ((Remembers.refl s).beginReceive n 0 len)
      (congrArg State.ep (State.beginReceive_null s n len)) fun hin => ⟨hin.tx, cursorInside_null _ _⟩
  · rw [State.beginReceive_eq s n len hbuf]
    exact beginPacketReceive_cursorsOk n (cursorsOk_of_start n h fun hstart hin => ⟨hin.tx, hstart⟩)

theorem epConfigure_cursorsOk {s : State} (n : EpNum) (type : EpType) (size : Half) (flags : Word)
    (h : s.cursorsOk = true) : (s.epConfigure n type size flags).cursorsOk = true := by
  by_cases hok : configOk type size flags = true
  · refine cursorsOk_of_ep_set h ((Remembers.refl s).epConfigure n type size flags)
      (congrArg State.ep (State.epConfigure_of_configOk s n hok))
      fun _ => ⟨cursorInside_null _ _, cursorInside_null _ _⟩
  · obtain ⟨r, hr⟩ := s.epConfigure_refuses n hok
    rw [hr]
    exact h

theorem takeSetup_cursorsOk {s : State} (n : EpNum) (h : s.cursorsOk = true) : (s.takeSetup n).cursorsOk = true :=
  cursorsOk_of_ep_set h ((Remembers.refl s).takeSetup n) (State.takeSetup_ep s n)
    fun hin => ⟨hin.tx, cursorInside_null _ _⟩

theorem takeData_cursorsOk {s : State} (n : EpNum) (count : BitVec 10) (hpos : s.ep[n].rxPos ≠ 0)
    (h : s.cursorsOk = true) : (s.takeData n count).2.cursorsOk = true := by
  refine cursorsOk_of_ep_set h ((Remembers.refl s).takeData n count) (State.takeData_ep s n count)
    fun hin => ⟨hin.tx, ?_⟩
  dsimp only
  split
  · exact cursorInside_null _ _
  · exact cursorInside_advance hin.rx hpos (rxCopied_le _ _)

/-- A block whose endpoints are at their reset values has only null cursors. -/
theorem cursorsOk_of_ep_reset {t : State} (hep : t.ep = Vector.replicate 8 Endpoint.reset) : t.cursorsOk = true :=
  cursorsOk_iff.mpr (.inr fun n => by simpa [hep] using cursorsInside_reset)

/-- The operations that move, start or end a cursor are those above; the others write no endpoint record. -/
theorem cursorsOk_kept : KeptInside fun s => s.cursorsOk = true where
  epConfigure _ n type size flags h := epConfigure_cursorsOk n type size flags h
  beginSend _ n buf len h := beginSend_cursorsOk n buf len h
  beginReceive _ n buf len h := beginReceive_cursorsOk n buf len h
  sendNextPacket _ n h := sendNextPacket_cursorsOk n h
  takeSetup _ n h := takeSetup_cursorsOk n h
  takeData _ n count hpos h := takeData_cursorsOk n count hpos h
  beginPacketReceive _ n h := beginPacketReceive_cursorsOk n h
  busCleared _ _ := cursorsOk_of_ep_reset rfl
  packetIn s n bs setup h := cursorsOk_of_ep_eq h ((Remembers.refl s).packetIn n bs setup) (by simp)
  overrun s c h := cursorsOk_of_ep_eq h ((Remembers.refl s).raiseIf c _) rfl
  pmaTouch s o n h := cursorsOk_of_ep_eq h ((Remembers.refl s).pmaTouch o n) rfl
  allocate s len h := cursorsOk_of_ep_eq h ((Remembers.refl s).allocate len) rfl
  refuse _ _ h := h
  obs _ _ h := h
  notify _ _ h := h
  completed _ _ h := h
  answered _ h := h
  setCtl _ _ h := h
  devAddr _ _ h := h
  modBl _ _ _ h := h
  setInWord _ _ _ h := h
  ramWrite _ _ _ h := h
  erase _ _ h := h
  writeHalf _ _ _ _ h := h
  modHw _ _ _ h := h
  received _ _ _ h := h
  allocReset _ h := h

/-- Settles O51: every operation keeps the cursors inside, and a restart makes them null. -/
theorem stepKeepsCursorsInside : Obligations.StepKeepsCursorsInside := by
  unfold Obligations.StepKeepsCursorsInside
  exact fun s t h hstep =>
    cursorsOk_kept.step (fun _ => h) (fun _ _ _ => h) (fun _ _ _ => cursorsOk_of_ep_reset rfl) hstep

end Sys2Proof.Proofs
end

section
/-! The registers stay within what the spec admits (rules R20, R22 to R24, R28, R81, R91). -/

namespace Sys2Proof.Proofs

open Sys2Proof.Machine Sys2Proof.Expected

/-- The registers are legal, and the parameters are such as the spec admits. -/
structure LegalRegisters (s : State) : Prop where
  valid : s.cfg.valid = true
  brk : s.brk.toNat % s.cfg.mau = 0
  ep : ∀ n : EpNum, s.ep[n].ok = true
  bdt : ∀ n : EpNum, s.bdt[n].ok s.cfg.mau = true

theorem registersOk_iff {s : State} : s.registersOk = true ↔
    s.brk.toNat % s.cfg.mau = 0 ∧ ∀ n : EpNum, s.ep[n].ok = true ∧ s.bdt[n].ok s.cfg.mau = true := by
  simp only [State.registersOk, Bool.and_eq_true, decide_eq_true_eq, allEps_all]

theorem LegalRegisters.registersOk {s : State} (h : LegalRegisters s) : s.registersOk = true :=
  registersOk_iff.mpr ⟨h.brk, fun n => ⟨h.ep n, h.bdt n⟩⟩

theorem legalRegisters_of_registersOk {s : State} (hv : s.cfg.valid = true) (h : s.registersOk = true) :
    LegalRegisters s := by
  obtain ⟨hbrk, hall⟩ := registersOk_iff.mp h
  exact ⟨hv, hbrk, fun n => (hall n).1, fun n => (hall n).2⟩

theorem descriptorOk_iff {d : Descriptor} {mau : Nat} : d.ok mau = true ↔
    d.addrTx.toNat % mau = 0 ∧ d.addrRx.toNat % mau = 0 ∧ d.countTx.toNat < 1024 :=
  decide_eq_true_iff

/-- Flags with no reserved bit are NOZLP or nothing (rule R23). -/
theorem flags_of_shiftRight {flags : Word} (h : flags >>> 1 = 0) : flags = 0 ∨ flags = 1 := by
  have hhalf : flags.toNat / 2 = 0 := by
    simpa [Nat.shiftRight_eq_div_pow] using congrArg BitVec.toNat h
  have hsmall : flags.toNat = 0 ∨ flags.toNat = 1 := by omega
  exact hsmall.imp (BitVec.eq_of_toNat_eq ·) (BitVec.eq_of_toNat_eq ·)

/-- The operands EP_CONFIGURE accepts leave a legal record (rules R22 to R24, R66). -/
theorem configured_ok (e : Endpoint) {type : EpType} {size : Half} {flags : Word}
    (h : configOk type size flags = true) : (e.configured type size flags).ok = true := by
  simp only [configOk, Bool.and_eq_true, decide_eq_true_eq] at h
  obtain ⟨⟨htype, hsize⟩, hflags⟩ := h
  have hreserved : flags.setWidth 8 &&& (0xFE : Byte) = 0 := by
    rcases flags_of_shiftRight hflags with rfl | rfl <;> decide
  simp only [Endpoint.ok, Endpoint.configured, hsize, hreserved, decide_true, Bool.true_and]
  exact decide_eq_true htype

namespace LegalRegisters

variable {s : State} (h : LegalRegisters s)
include h

/-- The endpoint records after a legal one is written. -/
theorem ep_set (n : EpNum) {e : Endpoint} (he : e.ok = true) : ∀ m : EpNum, (s.ep.set n e)[m].ok = true :=
  vset_all (p := fun e : Endpoint => e.ok = true) h.ep n he

/-- The descriptors after a legal one is written. -/
theorem bdt_set (n : EpNum) {d : Descriptor} (hd : d.ok s.cfg.mau = true) :
    ∀ m : EpNum, (s.bdt.set n d)[m].ok s.cfg.mau = true :=
  vset_all (p := fun d : Descriptor => d.ok s.cfg.mau = true) h.bdt n hd

/-- An operation that writes one endpoint record, and no other of these registers. -/
theorem setEp {t : State} (n : EpNum) {e : Endpoint} (hep : t.ep = s.ep.set n e) (he : e.ok = true)
    (hcfg : t.cfg = s.cfg) (hbrk : t.brk = s.brk) (hbdt : t.bdt = s.bdt) : LegalRegisters t where
  valid := hcfg ▸ h.valid
  brk := hcfg ▸ hbrk ▸ h.brk
  ep := hep ▸ h.ep_set n he
  bdt := hcfg ▸ hbdt ▸ h.bdt

/-- The break advances by whole units, and wraps at a whole unit (rules R87, R91). -/
theorem brk_advanced (x : Nat) : (s.brk + BitVec.ofNat 16 (roundUp x s.cfg.mau)).toNat % s.cfg.mau = 0 := by
  obtain ⟨-, -, -, -, -, -, hwrap, -⟩ := valid_pma _ h.valid
  have hunits : roundUp x s.cfg.mau % s.cfg.mau = 0 := Nat.mul_mod_left _ _
  rw [BitVec.toNat_add, BitVec.toNat_ofNat, Nat.add_mod_mod, Nat.mod_mod_of_dvd _ (Nat.dvd_of_mod_eq_zero hwrap),
    Nat.add_mod, h.brk, hunits, Nat.zero_mod]

theorem brkAfter (n : EpNum) (addr : Half) : (s.brkAfter n addr).toNat % s.cfg.mau = 0 := by
  unfold State.brkAfter
  split
  · exact h.brk_advanced _
  · exact h.brk

theorem txOffset (n : EpNum) : (s.txOffset n).toNat % s.cfg.mau = 0 := by
  obtain ⟨htx, -, -⟩ := descriptorOk_iff.mp (h.bdt n)
  unfold State.txOffset
  split
  · exact h.brk
  · exact htx

theorem rxOffset (n : EpNum) : (s.rxOffset n).toNat % s.cfg.mau = 0 := by
  obtain ⟨-, hrx, -⟩ := descriptorOk_iff.mp (h.bdt n)
  unfold State.rxOffset
  split
  · exact h.brk
  · exact hrx

theorem sendNextPacket (n : EpNum) : LegalRegisters (s.sendNextPacket n) := by
  by_cases hidle : s.ep[n].txPos = 0 ∨ s.ep[n].size = 0
  · rwa [State.sendNextPacket_idle s n hidle]
  · obtain ⟨hpos, hsize⟩ := not_or.mp hidle
    obtain ⟨-, hrx, -⟩ := descriptorOk_iff.mp (h.bdt n)
    have hcount : ((countOf s.ep[n].txChunk).setWidth 16).toNat < 1024 := by
      rw [BitVec.toNat_setWidth]
      omega
    rw [State.sendNextPacket_eq s n hpos hsize]
    exact ⟨h.valid, h.brkAfter n _, h.ep_set n (h.ep n),
      h.bdt_set n (descriptorOk_iff.mpr ⟨h.txOffset n, hrx, hcount⟩)⟩

theorem beginPacketReceive (n : EpNum) : LegalRegisters (s.beginPacketReceive n) := by
  by_cases hidle : s.ep[n].size = 0
  · rwa [State.beginPacketReceive_idle s n hidle]
  · obtain ⟨htx, -, hcount⟩ := descriptorOk_iff.mp (h.bdt n)
    rw [State.beginPacketReceive_eq s n hidle]
    exact ⟨h.valid, h.brkAfter n _, h.ep, h.bdt_set n (descriptorOk_iff.mpr ⟨htx, h.rxOffset n, hcount⟩)⟩

theorem beginSend (n : EpNum) (buf : Word) (len : Half) : LegalRegisters (s.beginSend n buf len) := by
  by_cases hbuf : buf = 0
  · subst hbuf
    exact ⟨h.valid, h.brk, h.ep_set n (h.ep n), h.bdt⟩
  · rw [State.beginSend_eq s n len hbuf]
    apply sendNextPacket
    exact h.setEp n rfl (h.ep n) rfl rfl rfl

theorem beginReceive (n : EpNum) (buf : Word) (len : Half) : LegalRegisters (s.beginReceive n buf len) := by
  by_cases hbuf : buf = 0
  · subst hbuf
    exact ⟨h.valid, h.brk, h.ep_set n (h.ep n), h.bdt⟩
  · rw [State.beginReceive_eq s n len hbuf]
    apply beginPacketReceive
    exact h.setEp n rfl (h.ep n) rfl rfl rfl

theorem epConfigure (n : EpNum) (type : EpType) (size : Half) (flags : Word) :
    LegalRegisters (s.epConfigure n type size flags) := by
  by_cases hok : configOk type size flags = true
  · rw [State.epConfigure_of_configOk s n hok]
    exact ⟨h.valid, h.brk, h.ep_set n (configured_ok _ hok), h.bdt⟩
  · obtain ⟨r, hr⟩ := s.epConfigure_refuses n hok
    rw [hr]
    exact ⟨h.valid, h.brk, h.ep, h.bdt⟩

theorem takeSetup (n : EpNum) : LegalRegisters (s.takeSetup n) :=
  h.setEp n (State.takeSetup_ep s n) (h.ep n) (by simp) (by simp) (by simp)

theorem takeData (n : EpNum) (count : BitVec 10) : LegalRegisters (s.takeData n count).2 := by
  have hmoved (pos : Word) : LegalRegisters ((s.copyReceived n count).modEp n fun e => { e with rxPos := pos }) :=
    h.setEp n (e := { s.ep[n] with rxPos := pos }) (by simp) (h.ep n) (by simp) (by simp) (by simp)
  by_cases hc : s.ep[n].rxTerminal count = true
  · rw [State.takeData_of_terminal s n count hc]
    exact hmoved 0
  · rw [State.takeData_of_not_terminal s n count hc]
    exact beginPacketReceive (hmoved _) n

theorem packetIn (n : EpNum) (bs : List Byte) (setup : Bool) : LegalRegisters (s.packetIn n bs setup) where
  valid := by simpa using h.valid
  brk := by simpa using h.brk
  ep := by simpa using h.ep
  bdt := by
    rw [State.packetIn_bdt, State.packetIn_cfg]
    exact h.bdt_set n (h.bdt n)

/-- The allocator starts at a whole unit (rule R89). -/
theorem allocReset : LegalRegisters s.allocReset := by
  obtain ⟨-, -, -, hunits, -⟩ := valid_pma _ h.valid
  exact ⟨h.valid, hunits, h.ep, h.bdt⟩

/-- The registers at their reset values are legal (rule R42). -/
theorem of_cleared {t : State} (hcfg : t.cfg = s.cfg) (hbrk : t.brk = s.cfg.arenaStart)
    (hep : t.ep = Vector.replicate 8 Endpoint.reset) (hbdt : t.bdt = Vector.replicate 8 Descriptor.reset) :
    LegalRegisters t := by
  have hepReset : Endpoint.reset.ok = true := by decide
  have hbdtReset : Descriptor.reset.ok t.cfg.mau = true := descriptorOk_iff.mpr (by simp [Descriptor.reset])
  exact ⟨hcfg ▸ h.valid, hcfg ▸ hbrk ▸ h.allocReset.brk, fun n => by simpa [hep] using hepReset,
    fun n => by simpa [hbdt] using hbdtReset⟩

end LegalRegisters

/-- The operations that write one of these registers are those above; the others leave all of them. -/
theorem legalRegisters_kept : KeptInside LegalRegisters where
  epConfigure _ n type size flags h := h.epConfigure n type size flags
  beginSend _ n buf len h := h.beginSend n buf len
  beginReceive _ n buf len h := h.beginReceive n buf len
  sendNextPacket _ n h := h.sendNextPacket n
  takeSetup _ n h := h.takeSetup n
  takeData _ n count _ h := h.takeData n count
  beginPacketReceive _ n h := h.beginPacketReceive n
  packetIn _ n bs setup h := h.packetIn n bs setup
  busCleared _ h := h.of_cleared rfl rfl rfl rfl
  allocate _ len h := ⟨h.valid, h.brk_advanced len.toNat, h.ep, h.bdt⟩
  allocReset _ h := h.allocReset
  overrun _ _ h := ⟨h.valid, h.brk, h.ep, h.bdt⟩
  pmaTouch _ _ _ h := ⟨h.valid, h.brk, h.ep, h.bdt⟩
  refuse _ _ h := ⟨h.valid, h.brk, h.ep, h.bdt⟩
  obs _ _ h := ⟨h.valid, h.brk, h.ep, h.bdt⟩
  notify _ _ h := ⟨h.valid, h.brk, h.ep, h.bdt⟩
  completed _ _ h := ⟨h.valid, h.brk, h.ep, h.bdt⟩
  answered _ h := ⟨h.valid, h.brk, h.ep, h.bdt⟩
  setCtl _ _ h := ⟨h.valid, h.brk, h.ep, h.bdt⟩
  devAddr _ _ h := ⟨h.valid, h.brk, h.ep, h.bdt⟩
  modBl _ _ _ h := ⟨h.valid, h.brk, h.ep, h.bdt⟩
  setInWord _ _ _ h := ⟨h.valid, h.brk, h.ep, h.bdt⟩
  ramWrite _ _ _ h := ⟨h.valid, h.brk, h.ep, h.bdt⟩
  erase _ _ h := ⟨h.valid, h.brk, h.ep, h.bdt⟩
  writeHalf _ _ _ _ h := ⟨h.valid, h.brk, h.ep, h.bdt⟩
  modHw _ _ _ h := ⟨h.valid, h.brk, h.ep, h.bdt⟩
  received _ _ _ h := ⟨h.valid, h.brk, h.ep, h.bdt⟩

/-- Settles O50: every operation keeps the registers legal, and a restart clears them. -/
theorem stepKeepsRegistersLegal : Obligations.StepKeepsRegistersLegal := by
  unfold Obligations.StepKeepsRegistersLegal
  intro s t hv hok hstep
  have h := legalRegisters_of_registersOk hv hok
  have hlegal : LegalRegisters t := legalRegisters_kept.step (fun _ => h)
    (fun _ _ _ => ⟨h.valid, h.brk, h.ep, h.bdt⟩) (fun _ _ _ => h.of_cleared rfl rfl rfl rfl) hstep
  exact hlegal.registersOk

end Sys2Proof.Proofs
end

section
/-! The device address and its enable (rules R31, R122, R129): only row 4 of the control table and the bus reset
write them. -/

namespace Sys2Proof.Proofs

open Sys2Proof.Machine Sys2Proof.Expected

/-- The address of `t` is the one a SET_ADDRESS in the setup packet of `s` asks for (rule R129). -/
def SetsAddress (s t : State) : Prop :=
  s.setupPacket.key &&& 0xFF60 = 0x0500 ∧ t.devAddr = s.setupPacket.wValue.extractLsb' 0 7

theorem ctlRow4_devAddr (s : State) :
    s.ctlRow4.devAddr = if s.setupPacket.isSetAddress then s.setupPacket.wValue.extractLsb' 0 7 else s.devAddr := by
  simp [State.ctlRow4]

/-- Row 4 leaves the address, or sets the one asked for. -/
theorem setsAddress_of_ctlRow4 {s : State} (h : s.ctlRow4.devAddr ≠ s.devAddr) : SetsAddress s s.ctlRow4 := by
  rw [ctlRow4_devAddr] at h
  split at h
  next hset => exact ⟨by simpa [SetupPacket.isSetAddress] using hset, by rw [ctlRow4_devAddr, if_pos hset]⟩
  next => exact absurd rfl h

/-- Row 4 takes the completions in state STATUS and no other key (rule R129). -/
theorem status_of_ctlRowOf {s : State} {e : CtlEvent} (h : ctlRowOf (s.ctlKey e) = .row4) :
    s.ctl = .status ∧ (e = .inDone ∨ e = .outDone) := by
  revert h
  rw [State.ctlKey]
  cases s.ctl <;> cases e <;> decide

/-- A control event sets the address only as the end of a status stage. -/
theorem ctlEvent_setsAddress {s : State} {e : CtlEvent} (h : (s.ctlEvent e).devAddr ≠ s.devAddr) :
    s.ctl = .status ∧ (e = .inDone ∨ e = .outDone) ∧ SetsAddress s (s.ctlEvent e) := by
  unfold State.ctlEvent at h ⊢
  split at h
  case h_4 hrow =>
    obtain ⟨hstatus, hevent⟩ := status_of_ctlRowOf hrow
    exact ⟨hstatus, hevent, by simpa only [hrow] using setsAddress_of_ctlRow4 h⟩
  all_goals simp at h

/-- A packet sent sets the address only on endpoint 0 (rule R100). -/
theorem notifySent_setsAddress {s : State} {n : EpNum} (h : (s.notifySent n).devAddr ≠ s.devAddr) :
    n = 0 ∧ s.ctl = .status ∧ SetsAddress s (s.notifySent n) := by
  unfold State.notifySent at h ⊢
  split at h
  next hn =>
    obtain ⟨hstatus, -, hset⟩ := ctlEvent_setsAddress h
    exact ⟨hn, hstatus, by rwa [if_pos hn]⟩
  next => split at h <;> simp at h

/-- A reception sets the address only where data of endpoint 0 is complete (rule R111). -/
theorem notifyReceived_setsAddress {s : State} {n : EpNum} {r : RecvResult}
    (h : (s.notifyReceived n r).devAddr ≠ s.devAddr) :
    n = 0 ∧ (∃ total, r = .done total) ∧ s.ctl = .status ∧ SetsAddress s (s.notifyReceived n r) := by
  cases r with
  | none => exact absurd rfl h
  | working => exact absurd rfl h
  | setupDone =>
    simp only [State.notifyReceived, ctlSetup_row] at h
    split at h <;> simp at h
  | done total =>
    simp only [State.notifyReceived] at h ⊢
    split at h
    next hn =>
      obtain ⟨hstatus, -, hset⟩ := ctlEvent_setsAddress h
      exact ⟨hn, ⟨total, rfl⟩, hstatus, by rwa [if_pos hn]⟩
    next => split at h <;> simp at h

theorem notifySent_devEn (s : State) (n : EpNum) : (s.notifySent n).devEn = s.devEn := by
  unfold State.notifySent
  split
  · simp
  · split <;> simp

theorem notifyReceived_devEn (s : State) (n : EpNum) (r : RecvResult) : (s.notifyReceived n r).devEn = s.devEn := by
  cases r with
  | none => rfl
  | working => rfl
  | setupDone =>
    simp only [State.notifyReceived]
    split <;> simp
  | done total =>
    simp only [State.notifyReceived]
    split
    · simp
    · split <;> simp

/-- The data case leaves the setup packet (rule R133). -/
theorem takeData_setupPacket (s : State) (n : EpNum) (count : BitVec 10) :
    (s.takeData n count).2.setupPacket = s.setupPacket := by
  simp only [State.setupPacket, State.takeData_ep]
  by_cases hn : 0 = n
  · subst hn
    rw [vset_self]
  · rw [vset_ne _ _ hn]

/-- END_PACKET_RECEIVE completes data only in its data case (rules R106 to R109). -/
theorem endPacketReceive_done {s : State} {n : EpNum} {count : BitVec 10} {setup : Bool} {total : Half}
    (h : (s.endPacketReceive n count setup).1 = .done total) :
    setup = false ∧ s.ep[n].rxPos ≠ 0 ∧ (s.endPacketReceive n count setup).2.setupPacket = s.setupPacket := by
  unfold State.endPacketReceive at h ⊢
  split at h
  · cases h
  · split at h
    · cases h
    next hsetup hpos =>
      refine ⟨by simpa using hsetup, hpos, ?_⟩
      rw [if_neg hsetup, if_neg hpos]
      exact takeData_setupPacket s n count

/-- Where an instruction other than BUS_RESET may set the address: the end of a status stage, or row 4 by itself. -/
def EndsStatusStage (i : Instr) (s : State) : Prop :=
  (s.ctl = .status
    ∧ ((i = .txComplete 0 ∧ (s.hw[(0 : EpNum)]).ctrTx = true ∧ (s.ep[(0 : EpNum)]).txPos = 0)
      ∨ (i = .rxComplete 0 ∧ (s.hw[(0 : EpNum)]).ctrRx = true ∧ (s.hw[(0 : EpNum)]).setup = false
        ∧ (s.ep[(0 : EpNum)]).rxPos ≠ 0)
      ∨ i = .ctlIn ∨ i = .ctlOut))
  ∨ ∃ e, i = .ctlRow4StatusDone e

/-- What an instruction other than BUS_RESET may do to the address and its enable. -/
def AddressLaw (i : Instr) (s t : State) : Prop :=
  t.devEn = s.devEn ∧ (t.devAddr ≠ s.devAddr → SetsAddress s t ∧ EndsStatusStage i s)

theorem AddressLaw.of_frame {i : Instr} {s t : State} (hen : t.devEn = s.devEn) (haddr : t.devAddr = s.devAddr) :
    AddressLaw i s t :=
  ⟨hen, fun h => absurd haddr h⟩

/-- A control event by itself: only a completion can end a status stage. -/
theorem ctlEvent_addressLaw {i : Instr} {s : State} {e : CtlEvent}
    (hi : e = .inDone ∨ e = .outDone → i = .ctlIn ∨ i = .ctlOut) : AddressLaw i s (s.ctlEvent e) := by
  refine ⟨State.ctlEvent_devEn s e, fun hne => ?_⟩
  obtain ⟨hstatus, hevent, hset⟩ := ctlEvent_setsAddress hne
  exact ⟨hset, .inl ⟨hstatus, .inr (.inr (hi hevent))⟩⟩

theorem request_addressLaw {i : Instr} {s : State} {f : State → State} (hen : (f s).devEn = s.devEn)
    (haddr : (f s).devAddr = s.devAddr) : AddressLaw i s (s.request f) := by
  unfold State.request
  split
  · exact .of_frame rfl rfl
  · exact .of_frame hen haddr

/-- TX_COMPLETE reports a sent packet only where no transfer goes on, and then has sent nothing itself (rule R99). -/
theorem txComplete_addressLaw {n : EpNum} {s t : State} (h : exec (.txComplete n) s = .next t) :
    AddressLaw (.txComplete n) s t := by
  simp only [exec, execTxComplete] at h
  split at h
  · cases h; exact .of_frame rfl rfl
  next hctr =>
    split at h <;> cases h
    next hpos =>
      rw [State.sendNextPacket_idle (s.clearCtrTx n) n (.inl hpos)]
      refine ⟨notifySent_devEn _ _, fun hne => ?_⟩
      obtain ⟨rfl, hstatus, hset⟩ := notifySent_setsAddress hne
      exact ⟨hset, .inl ⟨hstatus, .inl ⟨rfl, by simpa using hctr, hpos⟩⟩⟩
    next => exact .of_frame (by simp) (by simp)

/-- RX_COMPLETE reports completed data only from the data case (rules R107, R108, R110). -/
theorem rxComplete_addressLaw {n : EpNum} {s t : State} (h : exec (.rxComplete n) s = .next t) :
    AddressLaw (.rxComplete n) s t := by
  simp only [exec, execRxComplete] at h
  split at h <;> cases h
  · exact .of_frame rfl rfl
  next hctr =>
    have hsame : ((s.clearCtrRx n).endPacketReceive n (countOf s.bdt[n].countRx) s.hw[n].setup).2.devAddr
        = s.devAddr := by
      simp
    refine ⟨by rw [notifyReceived_devEn]; simp, fun hne => ?_⟩
    obtain ⟨rfl, ⟨total, hdone⟩, hstatus, hkey, haddr⟩ := notifyReceived_setsAddress (hsame.symm ▸ hne)
    obtain ⟨hsetup, hpos, hpacket⟩ := endPacketReceive_done hdone
    rw [hpacket] at hkey haddr
    exact ⟨⟨hkey, haddr⟩, .inl ⟨by simpa using hstatus, .inr (.inl ⟨rfl, by simpa using hctr, hsetup, hpos⟩)⟩⟩

/-- The instructions that can run row 4 are named; the others leave both fields. -/
theorem exec_addressLaw {i : Instr} {s t : State} (hi : i ≠ .busReset) (h : exec i s = .next t) : AddressLaw i s t := by
  cases i
  case busReset => exact absurd rfl hi
  case txComplete => exact txComplete_addressLaw h
  case rxComplete => exact rxComplete_addressLaw h
  case epConfigure => cases h; exact request_addressLaw (by simp) (by simp)
  case beginSend => cases h; exact request_addressLaw (by simp) (by simp)
  case beginReceive => cases h; exact request_addressLaw (by simp) (by simp)
  case ctlReset => cases h; exact ctlEvent_addressLaw (by simp)
  case ctlSetup => cases h; exact ctlEvent_addressLaw (by simp)
  case ctlIn => cases h; exact ctlEvent_addressLaw (by simp)
  case ctlOut => cases h; exact ctlEvent_addressLaw (by simp)
  case ctlRow4StatusDone e =>
    cases h
    exact ⟨by simp, fun hne => ⟨setsAddress_of_ctlRow4 hne, .inr ⟨e, rfl⟩⟩⟩
  case hostIn =>
    simp only [exec, execHostIn] at h
    split at h <;> cases h <;> exact .of_frame (by simp) (by simp)
  case hostOut =>
    simp only [exec, execHostOut] at h
    split at h <;> cases h <;> exact .of_frame (by simp) (by simp)
  case hostSetup =>
    simp only [exec, execHostSetup] at h
    split at h
    · cases h; exact .of_frame (by simp) (by simp)
    · split at h <;> cases h <;> exact .of_frame (by simp) (by simp)
  all_goals
    cases h
    refine .of_frame ?_ ?_ <;>
      simp [State.reqGetStatus, State.reqGetDescriptor, State.reqSetAddress, State.reqSetConfiguration, State.reqOther]

/-- Settles O57: BUS_RESET is the one other writer, and every other instruction keeps to `AddressLaw`. -/
theorem deviceAddressHasTwoWriters : Obligations.DeviceAddressHasTwoWriters := by
  unfold Obligations.DeviceAddressHasTwoWriters
  intro i s t h
  by_cases hi : i = .busReset
  · exact ⟨fun _ => hi, fun _ => .inl hi⟩
  · obtain ⟨hen, haddr⟩ := exec_addressLaw hi h
    refine ⟨fun hne => absurd hen hne, fun hne => .inr ?_⟩
    obtain ⟨⟨hkey, hvalue⟩, hends⟩ := haddr hne
    exact ⟨hkey, hvalue, hends⟩

end Sys2Proof.Proofs
end

section
/-! The reset values (rule R42). -/

namespace Sys2Proof.Proofs

open Sys2Proof.Machine Sys2Proof.Expected

/-- The cleared block with endpoint 0 configured by row 1 (rules R113, R116). -/
def busConfigured (s : State) : State :=
  { s.busCleared with
    ep := (Vector.replicate 8 Endpoint.reset).set (0 : EpNum) (Endpoint.reset.configured .control Config.ep0Size 0)
    hw := (Vector.replicate 8 EpHardware.reset).set (0 : EpNum) ⟨.nak, .nak, false, false, false⟩ }

theorem busCleared_epConfigure (s : State) :
    s.busCleared.epConfigure 0 .control Config.ep0Size 0 = busConfigured s := by
  rw [State.epConfigure_of_configOk _ _ (by decide)]
  rfl

/-- The whole state a bus reset leaves: the reception ARM_SETUP arms takes the first 64 bytes of the arena (rules R42,
R113, R116). -/
theorem exec_busReset_eq {s : State} (hv : s.cfg.valid = true) : exec .busReset s = .next { s with
    brk := s.cfg.arenaStart + Config.ep0Size
    ep := (Vector.replicate 8 Endpoint.reset).set (0 : EpNum) { Endpoint.reset with
      type := .control, size := Config.ep0Size, rxBuf := s.cfg.ep0Buf, rxPos := s.cfg.ep0Buf, rxLen := Config.ep0Size }
    bdt := (Vector.replicate 8 Descriptor.reset).set (0 : EpNum) { Descriptor.reset with
      addrRx := s.cfg.arenaStart, countRx := rxCountEncode Config.ep0Size }
    hw := (Vector.replicate 8 EpHardware.reset).set (0 : EpNum) ⟨.nak, .valid, false, false, false⟩
    devAddr := 0
    devEn := true
    ctl := .setup } := by
  obtain ⟨-, -, hroom, -, hunits, hmau, -⟩ := valid_pma _ hv
  have hexec : exec .busReset s = .next (s.busCleared.ctlEvent .reset) := rfl
  have hround : rounded (busConfigured s) 64 = 64 := rounded_of_units _ hunits hmau
  have harm : (busConfigured s).armSetup = armedReceive (busConfigured s) 0 s.cfg.ep0Buf Config.ep0Size :=
    State.armSetup_eq_armedReceive _ hv (by simp [busConfigured, Endpoint.configured, Config.ep0Size])
  rw [hexec, ctlReset_row, State.ctlRow1, busCleared_epConfigure, harm,
    armedReceive_of_room _ _ _ _ rfl rfl (by exact hround ▸ hroom)]
  have hbrk : s.cfg.arenaStart + BitVec.ofNat 16 (rounded (busConfigured s) 64)
      = s.cfg.arenaStart + Config.ep0Size := by
    rw [hround]
    rfl
  apply congrArg Host.Outcome.next
  apply State.ext
  case brk => exact hbrk
  all_goals rfl

/-- Settles O7: the power-on column is State.reset's definition; the bus-reset column is the state above, read off. -/
theorem resetValues : Obligations.ResetValues := by
  unfold Obligations.ResetValues
  refine ⟨⟨rfl, fun n => ?_, rfl, rfl, rfl, rfl, rfl, rfl, fun k => ?_, rfl⟩, fun s hv =>
    ⟨_, exec_busReset_eq hv, rfl, fun n hn => ?_, rfl, rfl, rfl, rfl⟩⟩
  · simp [Endpoint.reset, Descriptor.reset, EpHardware.reset]
  · cases k <;> rfl
  · simp only [vset_ne _ _ hn]
    simp [Endpoint.reset, Descriptor.reset, EpHardware.reset]

end Sys2Proof.Proofs
end

section
/-! The laws the statements of 20_memory.md share: a step on a record that decodes, the canonical form by its four
parts, and what the packets leave of RAM and flash. -/

namespace Sys2Proof.Machine

/-- A record or key that decodes to an instruction (rules R58, R174). -/
theorem step_of_instr {s : State} {ch : Channel} {bytes : List Byte} {rest : List Input} {i : Instr}
    (h : s.inputs = .message ch bytes :: rest) (hd : decode ch bytes = .instr i) : step s = exec i (s.taken rest) := by
  simp only [step, h, hd]

/-- The data case of END_PACKET_RECEIVE stores the packet's bytes at the cursor (rule R108). -/
theorem State.takeData_ram (s : State) (n : EpNum) (count : BitVec 10) :
    (s.takeData n count).2.ram =
      s.ram.store s.ep[n].rxPos 0 (s.pmaBytes s.bdt[n].addrRx.toNat (s.ep[n].rxCopied count).toNat) := by
  have hcopy : (s.copyReceived n count).ram = s.ram.store s.ep[n].rxPos 0
      (s.pmaBytes s.bdt[n].addrRx.toNat (s.ep[n].rxCopied count).toNat) := rfl
  by_cases h : s.ep[n].rxTerminal count = true
  · rw [State.takeData_of_terminal s n count h, State.modEp_ram, hcopy]
  · rw [State.takeData_of_not_terminal s n count h, State.beginPacketReceive_ram, State.modEp_ram, hcopy]

@[simp] theorem State.packetIn_flash (s : State) (n : EpNum) (bs : List Byte) (setup : Bool) :
    (s.packetIn n bs setup).flash = s.flash := rfl

@[simp] theorem State.busCleared_flash (s : State) : s.busCleared.flash = s.flash := rfl

theorem State.txPma_wf {s : State} (n : EpNum) (h : s.pma.wf = true) : (s.txPma n).wf = true :=
  pmaOpen_wf (pmaStore_wf h _ _ _) _ _ _ _

/-- A page erase keeps flash canonical: it stores the words or opens the bytes. -/
theorem State.flashErasePage_wf {s : State} (a : Word) (h : s.flash.wf = true) :
    (s.flashErasePage a).2.flash.wf = true := by
  simp only [State.flashErasePage]
  split
  · exact Memory.wf_store h _ _ _
  · exact Memory.wf_openWindow h _ _ _ _ _ _

/-- A half-page write keeps flash canonical. -/
theorem State.flashWriteHalf_wf {s : State} (a : Word) (bs : List Byte) (h : s.flash.wf = true) :
    (s.flashWriteHalf a bs).2.flash.wf = true := by
  simp only [State.flashWriteHalf]
  split
  · exact Memory.wf_store h _ _ _
  · exact Memory.wf_openWindow h _ _ _ _ _ _

/-- The three memories and the list of erased half-pages are in canonical form, by parts. -/
structure Canonical (s : State) : Prop where
  ram : s.ram.wf = true
  pma : s.pma.wf = true
  flash : s.flash.wf = true
  erased : s.flashErased.Pairwise (· < ·)

theorem memoriesOk_iff {s : State} : s.memoriesOk = true ↔ Canonical s := by
  simp only [State.memoriesOk, Bool.and_eq_true, decide_eq_true_eq]
  exact ⟨fun ⟨⟨⟨hram, hpma⟩, hflash⟩, herased⟩ => ⟨hram, hpma, hflash, herased⟩,
    fun ⟨hram, hpma, hflash, herased⟩ => ⟨⟨⟨hram, hpma⟩, hflash⟩, herased⟩⟩

namespace Canonical

variable {s : State} (h : Canonical s)
include h

/-- An operation that writes none of the four. -/
theorem frame {t : State} (hram : t.ram = s.ram) (hpma : t.pma = s.pma) (hflash : t.flash = s.flash)
    (herased : t.flashErased = s.flashErased) : Canonical t :=
  ⟨hram ▸ h.ram, hpma ▸ h.pma, hflash ▸ h.flash, herased ▸ h.erased⟩

theorem setInWord (i : Nat) (v : Word) : Canonical (s.setInWord i v) :=
  ⟨Memory.wf_store h.ram _ _ _, h.pma, h.flash, h.erased⟩

theorem ramWrite (a : Word) (bs : List Byte) : Canonical (s.ramWrite a bs) :=
  ⟨Memory.wf_store h.ram _ _ _, h.pma, h.flash, h.erased⟩

theorem controlComplete (p : SetupPacket) : Canonical (s.controlComplete p) :=
  ⟨Memory.wf_storeAll h.ram _, h.pma, h.flash, h.erased⟩

/-- Where the erase passes, the page's two halves join the list; elsewhere the halves it touches leave it (log 14). -/
theorem flashErasePage (a : Word) : Canonical (s.flashErasePage a).2 := by
  refine ⟨h.ram, h.pma, State.flashErasePage_wf a h.flash, ?_⟩
  have hapart := pairwise_halvesApart h.erased a Config.pageSize
  simp only [State.flashErasePage]
  split
  · exact pairwise_insertHalf (pairwise_insertHalf hapart _) _
  · exact hapart

theorem flashWriteHalf (a : Word) (bs : List Byte) : Canonical (s.flashWriteHalf a bs).2 :=
  ⟨h.ram, h.pma, State.flashWriteHalf_wf a bs h.flash, pairwise_halvesApart h.erased _ _⟩

theorem sendNextPacket (n : EpNum) : Canonical (s.sendNextPacket n) := by
  by_cases hidle : s.ep[n].txPos = 0 ∨ s.ep[n].size = 0
  · rwa [State.sendNextPacket_idle s n hidle]
  · obtain ⟨hpos, hsize⟩ := not_or.mp hidle
    rw [State.sendNextPacket_eq s n hpos hsize]
    exact ⟨h.ram, State.txPma_wf n h.pma, h.flash, h.erased⟩

theorem beginSend (n : EpNum) (buf : Word) (len : Half) : Canonical (s.beginSend n buf len) := by
  by_cases hbuf : buf = 0
  · subst hbuf
    exact h.frame rfl rfl rfl rfl
  · rw [State.beginSend_eq s n len hbuf]
    apply sendNextPacket
    exact h.frame rfl rfl rfl rfl

theorem takeData (n : EpNum) (count : BitVec 10) : Canonical (s.takeData n count).2 :=
  ⟨State.takeData_ram s n count ▸ Memory.wf_store h.ram _ _ _, by simpa using h.pma, by simpa using h.flash,
    by simpa using h.erased⟩

theorem packetIn (n : EpNum) (bs : List Byte) (setup : Bool) : Canonical (s.packetIn n bs setup) :=
  ⟨h.ram, pmaStore_wf h.pma _ _ _, h.flash, h.erased⟩

/-- A restart zeroes the two reports in RAM (rule R42). -/
theorem restarted : Canonical s.restarted :=
  ⟨Memory.wf_store (Memory.wf_store h.ram _ _ _) _ _ _, h.pma, h.flash, h.erased⟩

end Canonical

/-- The operations that write a memory or the list are those above; the others leave all four. -/
theorem canonical_kept : KeptInside Canonical where
  setInWord _ i v h := h.setInWord i v
  ramWrite _ a bs h := h.ramWrite a bs
  completed _ p h := h.controlComplete p
  erase _ a h := h.flashErasePage a
  writeHalf _ a bs _ h := h.flashWriteHalf a bs
  sendNextPacket _ n h := h.sendNextPacket n
  beginSend _ n buf len h := h.beginSend n buf len
  takeData _ n count _ h := h.takeData n count
  packetIn _ n bs setup h := h.packetIn n bs setup
  epConfigure s n type size flags h := h.frame (by simp) (by simp) (by simp) (by simp)
  beginReceive s n buf len h := h.frame (by simp) (by simp) (by simp) (by simp)
  beginPacketReceive s n h := h.frame (by simp) (by simp) (by simp) (by simp)
  takeSetup s n h := h.frame (by simp) (by simp) (by simp) (by simp)
  obs _ _ h := h.frame rfl rfl rfl rfl
  refuse _ _ h := h.frame rfl rfl rfl rfl
  notify _ _ h := h.frame rfl rfl rfl rfl
  answered _ h := h.frame rfl rfl rfl rfl
  setCtl _ _ h := h.frame rfl rfl rfl rfl
  devAddr _ _ h := h.frame rfl rfl rfl rfl
  modBl _ _ _ h := h.frame rfl rfl rfl rfl
  modHw _ _ _ h := h.frame rfl rfl rfl rfl
  overrun _ _ h := h.frame rfl rfl rfl rfl
  pmaTouch _ _ _ h := h.frame rfl rfl rfl rfl
  received _ _ _ h := h.frame rfl rfl rfl rfl
  busCleared _ h := h.frame rfl rfl rfl rfl
  allocate _ _ h := h.frame rfl rfl rfl rfl
  allocReset _ h := h.frame rfl rfl rfl rfl

end Sys2Proof.Machine
end

section
/-! Whole-machine statements of 20_memory.md: the canonical form, and flash outside the window. -/

namespace Sys2Proof.Proofs

open Sys2Proof.Machine Sys2Proof.Expected

/-- Settles O5: one equation of `step`. -/
theorem stepRunsDecodedInstruction : Obligations.StepRunsDecodedInstruction := by
  unfold Obligations.StepRunsDecodedInstruction
  exact fun _ _ _ _ _ => step_of_instr

/-- Settles O49: every operation keeps the four parts canonical, and so does a restart. -/
theorem stepKeepsMemoriesCanonical : Obligations.StepKeepsMemoriesCanonical := by
  unfold Obligations.StepKeepsMemoriesCanonical
  intro s t hok hstep
  have h := memoriesOk_iff.mp hok
  have htaken (rest : List Input) : Canonical (s.taken rest) := h.frame rfl rfl rfl rfl
  exact memoriesOk_iff.mpr
    (canonical_kept.step (fun _ => h) (fun _ _ _ => htaken _) (fun _ _ _ => (htaken _).restarted) hstep)

/-- `t`, reached within a step of `s`, has the window of `s`, canonical flash, and the bytes of `s` outside the window
(rule R54). -/
structure SameOutsideWindow (s t : State) : Prop where
  cfg : t.cfg = s.cfg
  wf : t.flash.wf = true
  same : ∀ a : Nat, a < s.cfg.flashLo.toNat ∨ s.cfg.flashHi.toNat < a → t.flash.read a = s.flash.read a

namespace SameOutsideWindow

variable {s u : State} (h : SameOutsideWindow s u)
include h

/-- An operation that leaves the parameters and flash. -/
theorem frame {v : State} (hcfg : v.cfg = u.cfg) (hflash : v.flash = u.flash) : SameOutsideWindow s v :=
  ⟨hcfg.trans h.cfg, hflash ▸ h.wf, hflash ▸ h.same⟩

theorem flashErasePage (a : Word) : SameOutsideWindow s (u.flashErasePage a).2 where
  cfg := h.cfg
  wf := State.flashErasePage_wf a h.wf
  same j hj := (flashErasePage_outside h.wf a (by rwa [h.cfg])).trans (h.same j hj)

theorem flashWriteHalf (a : Word) {bs : List Byte} (hlen : bs.length = 64) :
    SameOutsideWindow s (u.flashWriteHalf a bs).2 where
  cfg := h.cfg
  wf := State.flashWriteHalf_wf a bs h.wf
  same j hj := (flashWriteHalf_outside h.wf a hlen.le (by rwa [h.cfg])).trans (h.same j hj)

end SameOutsideWindow

/-- Only the two flash primitives write flash, and each stays in the window; every other operation is a frame. -/
theorem sameOutsideWindow_kept (s : State) : KeptInside (SameOutsideWindow s) := by
  constructor
  case toKept =>
    constructor
    case erase => exact fun _ a h => h.flashErasePage a
    case writeHalf => exact fun _ a _ hlen h => h.flashWriteHalf a hlen
    all_goals intros; refine SameOutsideWindow.frame ‹_› ?_ ?_ <;> simp
  all_goals intros; refine SameOutsideWindow.frame ‹_› ?_ ?_ <;> simp

/-- Settles O54: every operation keeps flash outside the window, and a restart leaves flash. -/
theorem flashOutsideWindowNeverWritten : Obligations.FlashOutsideWindowNeverWritten := by
  unfold Obligations.FlashOutsideWindowNeverWritten
  intro s t hwf hstep
  have hrefl : SameOutsideWindow s s := ⟨rfl, hwf, fun _ _ => rfl⟩
  have ht : SameOutsideWindow s t := (sameOutsideWindow_kept s).step (fun _ => hrefl)
    (fun _ _ _ => hrefl.frame rfl rfl) (fun _ _ _ => hrefl.frame rfl rfl) hstep
  exact ht.same

end Sys2Proof.Proofs
end

section
/-! The status helper (rule R149): what the report's two words leave in RAM, what the packet leaves in packet memory,
and the whole report. -/

namespace Sys2Proof.Machine

open Sys2Proof.Expected

/-! Bytes of the two reports. -/

/-- Byte `k` of a word of the OUT report. -/
theorem State.outWord_byte (s : State) (i k : Nat) (hk : k < 4) :
    (s.outWord i).extractLsb' (8 * k) 8 = outByte s (4 * i + k) := by
  rw [State.outWord, leVal_byte _ (Memory.length_load _ _ _ _) k hk, Memory.getElem_load, outByte]

/-- Byte `k` of a byte widened to a word. -/
theorem setWidth_byte (b : Byte) {k : Nat} (hk : k < 4) :
    (b.setWidth 32).extractLsb' (8 * k) 8 = if k = 0 then b else 0 := by
  have hb := b.isLt
  apply BitVec.eq_of_toNat_eq
  interval_cases k <;> simp [Nat.shiftRight_eq_div_pow] <;> omega

/-- A word stored in the IN report, byte by byte (rule R75). -/
theorem inByte_setInWord {s : State} (h : s.ram.wf = true) {i : Nat} (hi : i < 16) (v : Word) {k : Nat} (hk : k < 4) :
    inByte (s.setInWord i v) (4 * i + k) = v.extractLsb' (8 * k) 8 := by
  have hlen := leBytes_len 4 v
  rw [inByte, State.setInWord_cfg, State.setInWord_ram, Memory.read_store h _ _ _ (by omega) k (by omega), leBytes_get]

/-- A word stored in the IN report touches no other byte of RAM. -/
theorem setInWord_ramSame (s : State) (h : s.ram.wf = true) (i : Nat) (v : Word) {j : Nat}
    (hj : ∀ k < 4, j ≠ ptrKey s.cfg.inBuf (4 * i + k)) : (s.setInWord i v).ram.read j = s.ram.read j :=
  Memory.read_store_of_ne h _ _ _ _ fun k hk => hj k (leBytes_len 4 v ▸ hk)

/-- A word stored in the IN report leaves the report's other bytes. -/
theorem inByte_setInWord_of_ne {s : State} (h : s.ram.wf = true) {i : Nat} (hi : i < 16) (v : Word) {j : Nat}
    (hj : j < 64) (hne : j < 4 * i ∨ 4 * i + 4 ≤ j) : inByte (s.setInWord i v) j = inByte s j := by
  refine setInWord_ramSame s h i v fun k hk heq => ?_
  have := ptrKey_inj (by omega) (by omega) heq
  omega

/-! The report as a packet. -/

/-- The first packet of a transfer of one packet's length takes all of it (rule R97). -/
theorem txChunk_start {e : Endpoint} (hpos : e.txPos = e.txBuf) (hlen : e.txLen = e.size) : e.txChunk = e.size := by
  simp [Endpoint.txChunk, Endpoint.txCompleted, hpos, hlen]

/-- With NOZLP it is the last one (rule R98). -/
theorem txTerminal_start {e : Endpoint} (hpos : e.txPos = e.txBuf) (hlen : e.txLen = e.size)
    (hzlp : e.flags.getLsbD 0 = true) : e.txTerminal = true := by
  simp only [Endpoint.txTerminal, txChunk_start hpos hlen]
  simp [Endpoint.txCompleted, Endpoint.noZlp, hpos, hlen, hzlp]

/-- Packet memory after one packet of the `len` bytes of RAM from `buf` is sent on endpoint `n` (rules R49, R97). -/
def State.sentPma (s : State) (n : EpNum) (buf : Word) (len : Nat) : Memory :=
  pmaOpen s.cfg.pmaSize (pmaStore s.cfg.pmaSize s.pma (txAddr s n).toNat (s.ram.load buf 0 len))
    ((txAddr s n).toNat + len) s.draws (cellRest s.cfg.mau (txAddr s n).toNat len)

/-- SEND_NEXT_PACKET where one full packet is the whole transfer and NOZLP is set (rules R97, R98). -/
theorem State.sendNextPacket_whole (s : State) (n : EpNum) (hstart : s.ep[n].txPos = s.ep[n].txBuf)
    (hbuf : s.ep[n].txPos ≠ 0) (hlen : s.ep[n].txLen = s.ep[n].size) (hsize : s.ep[n].size ≠ 0)
    (hzlp : s.ep[n].flags.getLsbD 0 = true) :
    s.sendNextPacket n = { s with
      brk := breakAfter s n s.bdt[n].addrTx
      ep := s.ep.set n { s.ep[n] with txPos := 0 }
      bdt := s.bdt.set n { s.bdt[n] with addrTx := txAddr s n, countTx := (countOf s.ep[n].size).setWidth 16 }
      hw := s.hw.set n { s.hw[n] with txStatus := .valid }
      pma := s.sentPma n s.ep[n].txPos s.ep[n].size.toNat
      draws := s.draws + 1
      faults := { s.faults with
        txOverwrite := s.faults.txOverwrite || decide (s.hw[n].txStatus = .valid)
        pmaOverflow := s.faults.pmaOverflow || overflows s n s.bdt[n].addrTx
          || decide (s.cfg.pmaSize < (txAddr s n).toNat + s.ep[n].size.toNat) } } := by
  have hsome : 0 < s.ep[n].size.toNat := Nat.pos_of_ne_zero fun h => hsize (BitVec.eq_of_toNat_eq h)
  rw [State.sendNextPacket_eq s n hbuf hsize]
  simp only [State.txPma, State.txBytes, txChunk_start hstart hlen, txTerminal_start hstart hlen hzlp,
    State.brkAfter_eq, State.overAllocates_eq, hsome, true_and, if_true]
  rfl

/-- Packet memory after the IN report is sent on the HID endpoint. -/
def State.reportPma (s : State) : Memory := s.sentPma s.cfg.epHid s.cfg.inBuf 64

/-- HID_SEND_IN: the report is one packet of 64 bytes, produced at once, and ends the transfer (rules R86, R97, R98). -/
theorem State.hidSendIn_eq {s : State} (h : HidReady s) :
    s.hidSendIn = { s with
      brk := breakAfter s s.cfg.epHid s.bdt[s.cfg.epHid].addrTx
      ep := s.ep.set s.cfg.epHid { s.ep[s.cfg.epHid] with txBuf := s.cfg.inBuf, txPos := 0, txLen := Config.hidSize }
      bdt := s.bdt.set s.cfg.epHid { s.bdt[s.cfg.epHid] with addrTx := txAddr s s.cfg.epHid, countTx := Config.hidSize }
      hw := s.hw.set s.cfg.epHid { s.hw[s.cfg.epHid] with txStatus := .valid }
      pma := s.reportPma
      draws := s.draws + 1
      faults :=
        { s.faults with
          txOverwrite := s.faults.txOverwrite || decide (s.hw[s.cfg.epHid].txStatus = .valid)
          pmaOverflow := s.faults.pmaOverflow || overflows s s.cfg.epHid s.bdt[s.cfg.epHid].addrTx
            || decide (s.cfg.pmaSize < (txAddr s s.cfg.epHid).toNat + 64) } } := by
  obtain ⟨hsize, hzlp, hv, -⟩ := h
  obtain ⟨-, -, hbuf, -, -, hend, -⟩ := valid_addr _ hv
  have hfits : ¬ 2 ^ 32 < s.cfg.inBuf.toNat + Config.hidSize.toNat := Nat.not_lt.mpr hend
  have hnonzero : Config.hidSize ≠ 0 := by decide
  have hcount : (countOf Config.hidSize).setWidth 16 = Config.hidSize := by decide
  rw [State.hidSendIn, State.beginSend_eq _ _ _ hbuf, State.sendNextPacket_whole _ _ (by simp only [vset_self])
    (by simpa only [vset_self] using hbuf) (by simp only [vset_self, hsize])
    (by simpa only [vset_self, hsize] using hnonzero) (by simpa only [vset_self] using hzlp)]
  simp only [breakAfter, overflows, vset_self, vset_set, hsize, hcount, hfits, decide_false, Bool.or_false]
  rfl

/-- The packet holds the report, as far as packet memory reaches. -/
theorem State.reportPma_inside {s : State} (h : s.pma.wf = true) {k : Nat} (hk : k < 64)
    (hin : (txAddr s s.cfg.epHid).toNat + k < s.cfg.pmaSize) :
    s.reportPma.read ((txAddr s s.cfg.epHid).toNat + k) = inByte s k := by
  have hlen : (s.ram.load s.cfg.inBuf 0 64).length = 64 := Memory.length_load _ _ _ _
  rw [State.reportPma, State.sentPma, read_pmaOpen (pmaStore_wf h _ _ _), if_neg (by omega), read_pmaStore h,
    dif_pos (by omega)]
  simp only [Nat.add_sub_cancel_left, Memory.getElem_load, Nat.zero_add, inByte]

/-- The packet leaves every byte before it and beyond the unit it ends in (rule R49). -/
theorem State.reportPma_outside {s : State} (h : s.pma.wf = true) {o : Nat}
    (ho : o < (txAddr s s.cfg.epHid).toNat ∨ copyEnd s (txAddr s s.cfg.epHid).toNat 64 ≤ o) :
    s.reportPma.read o = s.pma.read o := by
  have hlen : (s.ram.load s.cfg.inBuf 0 64).length = 64 := Memory.length_load _ _ _ _
  simp only [copyEnd, ← roundUp_eq_rounded, if_neg (show ¬ 64 = 0 by decide)] at ho
  rw [State.reportPma, State.sentPma, cellRest, if_neg (by decide), read_pmaOpen (pmaStore_wf h _ _ _),
    if_neg (by omega), read_pmaStore h, dif_neg (by omega)]

/-! The report. -/

/-- The HID endpoint stays ready where its record and the parameters stay and the memories stay canonical. -/
theorem hidReady_of_frame {s t : State} (h : HidReady s) (hep : t.ep = s.ep) (hcfg : t.cfg = s.cfg)
    (hcanon : Canonical t) : HidReady t := by
  obtain ⟨hsize, hzlp, hv, -⟩ := h
  exact ⟨by simpa only [hep, hcfg] using hsize, by simpa only [hep, hcfg] using hzlp, hcfg ▸ hv,
    memoriesOk_iff.mpr hcanon⟩

theorem canonical_of_hidReady {s : State} (h : HidReady s) : Canonical s := by
  obtain ⟨-, -, -, hok⟩ := h
  exact memoriesOk_iff.mp hok

theorem hidReady_setInWord {s : State} (h : HidReady s) (i : Nat) (v : Word) : HidReady (s.setInWord i v) :=
  hidReady_of_frame h rfl rfl ((canonical_of_hidReady h).setInWord i v)

theorem hidReady_flashErasePage {s : State} (h : HidReady s) (a : Word) : HidReady (s.flashErasePage a).2 :=
  hidReady_of_frame h (State.flashErasePage_ep s a) (State.flashErasePage_cfg s a)
    ((canonical_of_hidReady h).flashErasePage a)

theorem hidReady_flashWriteHalf {s : State} (h : HidReady s) (a : Word) (bs : List Byte) :
    HidReady (s.flashWriteHalf a bs).2 :=
  hidReady_of_frame h (State.flashWriteHalf_ep s a bs) (State.flashWriteHalf_cfg s a bs)
    ((canonical_of_hidReady h).flashWriteHalf a bs)

/-- The state with the two words of a status report stored (rule R149). -/
def State.statusWords (s : State) (code : ErrCode) : State :=
  (s.setInWord 0 (s.outWord 0)).setInWord 1 ((code.bits s.cfg.errors).setWidth 32)

theorem State.status_eq (s : State) (code : ErrCode) (next : BlState) :
    s.status code next = (s.statusWords code).hidSendIn.modBl fun b => { b with resume := next, state := .status } :=
  rfl

theorem State.status_ram (s : State) (code : ErrCode) (next : BlState) :
    (s.status code next).ram = (s.statusWords code).ram := by
  rw [State.status_eq, State.modBl_ram, State.hidSendIn_ram]

theorem inByte_status (s : State) (code : ErrCode) (next : BlState) (k : Nat) :
    inByte (s.status code next) k = inByte (s.statusWords code) k := by
  rw [inByte, State.status_ram, State.status_cfg]
  rfl

theorem hidReady_statusWords {s : State} (h : HidReady s) (code : ErrCode) : HidReady (s.statusWords code) :=
  hidReady_setInWord (hidReady_setInWord h _ _) _ _

section Words

variable {s : State} (h : s.ram.wf = true) (code : ErrCode)
include h

theorem statusWords_command {k : Nat} (hk : k < 4) : inByte (s.statusWords code) k = outByte s k := by
  have hfirst := inByte_setInWord h (i := 0) (by decide) (s.outWord 0) hk
  rw [Nat.mul_zero, Nat.zero_add, State.outWord_byte s 0 k hk, Nat.mul_zero, Nat.zero_add] at hfirst
  rw [← hfirst]
  exact inByte_setInWord_of_ne (s := s.setInWord 0 (s.outWord 0)) (Memory.wf_store h _ _ _) (by decide) _ (by omega)
    (by omega)

theorem statusWords_flags {k : Nat} (hk : k < 4) :
    inByte (s.statusWords code) (4 + k) = if k = 0 then code.bits s.cfg.errors else 0 :=
  (inByte_setInWord (s := s.setInWord 0 (s.outWord 0)) (Memory.wf_store h _ _ _) (i := 1) (by decide) _ hk).trans
    (setWidth_byte _ hk)

theorem statusWords_ramSame : RamSameOutside s (s.statusWords code) s.cfg.inBuf 8 := fun j hj =>
  (setInWord_ramSame (s.setInWord 0 (s.outWord 0)) (Memory.wf_store h _ _ _) 1 _
    fun k hk => hj (4 * 1 + k) (by omega)).trans
    (setInWord_ramSame s h 0 _ fun k hk => hj (4 * 0 + k) (by omega))

end Words

/-- A byte of packet memory after the status helper. -/
theorem pmaByte_status {s : State} (h : HidReady s) (code : ErrCode) (next : BlState) {o : Nat}
    (ho : o < s.cfg.pmaSize) : (s.status code next).pmaByte o = (s.statusWords code).reportPma.read o := by
  rw [pmaByte_lt _ (by simpa using ho), State.status_eq, State.hidSendIn_eq (hidReady_statusWords h code)]
  rfl

/-- The status helper leaves the status report (rule R149): the words by `statusWords`, the packet by `hidSendIn`. -/
theorem statusReport_of_status {s : State} (h : HidReady s) (code : ErrCode) (next : BlState) :
    StatusReport s (s.status code next) (code.bits s.cfg.errors) next := by
  have hram := (canonical_of_hidReady h).ram
  have hpma := (canonical_of_hidReady h).pma
  refine ⟨fun k hk => ?_, fun k hk => ?_, fun j hj => ?_, fun k hk hin => ?_, fun o hin ho => ?_, ?_⟩
  · exact (inByte_status s code next k).trans (statusWords_command hram code hk)
  · exact (inByte_status s code next _).trans (statusWords_flags hram code hk)
  · rw [State.status_ram]
    exact statusWords_ramSame hram code j hj
  · rw [pmaByte_status h code next hin, inByte_status]
    exact State.reportPma_inside (s := s.statusWords code) hpma hk hin
  · rw [pmaByte_status h code next hin, pmaByte_lt s hin]
    exact State.reportPma_outside (s := s.statusWords code) hpma ho
  · rw [State.status_eq, State.hidSendIn_eq (hidReady_statusWords h code)]
    rfl

end Sys2Proof.Machine
end

section
/-! What the two flash primitives do to flash and to the list of erased half-pages (rules R55, R56). -/

namespace Sys2Proof.Machine

open Sys2Proof.Expected

/-- Byte `k` of a word repeated (rule R57). -/
theorem getElem_wordBytes (w : Word) (n k : Nat) (h : k < (wordBytes w n).length) :
    (wordBytes w n)[k] = w.extractLsb' (8 * (k % 4)) 8 := by
  induction n generalizing k with
  | zero => simp [wordBytes] at h
  | succ n ih =>
    have hlen := leBytes_len 4 w
    simp only [wordBytes]
    by_cases hk : k < 4
    · rw [List.getElem_append_left (by omega), leBytes_get, Nat.mod_eq_of_lt hk]
    · rw [List.getElem_append_right (by omega), ih, hlen, ← Nat.mod_eq_sub_mod (Nat.not_lt.mp hk)]

variable {s : State}

/-- Opening a range of flash changes no byte outside it. -/
theorem flashOpened_same (h : s.flash.wf = true) (a : Word) {n j : Nat} (hj : ∀ k < n, j ≠ ptrKey a k) :
    (s.flashOpened a n).read j = s.flash.read j :=
  Memory.read_openWindow_of_ne h _ _ _ _ _ _ _ (.inl fun i hi => by simpa using hj i hi)

/-- Storing in flash changes no byte outside the range. -/
theorem flashStored_same (h : s.flash.wf = true) (a : Word) {bs : List Byte} {j : Nat}
    (hj : ∀ k < bs.length, j ≠ ptrKey a k) : (s.flash.store a 0 bs).read j = s.flash.read j :=
  Memory.read_store_of_ne h _ _ _ _ fun i hi => by simpa using hj i hi

/-! The page erase. -/

/-- A page erase changes no byte outside the page (rule R55). -/
theorem flashErasePage_same (h : s.flash.wf = true) (a : Word) : FlashSameOutside s (s.flashErasePage a).2 a 128 := by
  intro j hj
  simp only [State.flashErasePage]
  split
  · exact flashStored_same h a (by simpa using hj)
  · exact flashOpened_same h a hj

/-- A page erase that passes leaves `ERASED_WORD` in every word of the page (rule R55). -/
theorem flashErasePage_read (h : s.flash.wf = true) {a : Word} (hok : s.cfg.progAddressOk a = true)
    (hpass : flashPasses s = true) {k : Nat} (hk : k < 128) :
    (s.flashErasePage a).2.flash.read (a.toNat + k) = s.cfg.erasedWord.extractLsb' (8 * (k % 4)) 8 := by
  have hpass' : s.flashOutcome = true := hpass
  have hwords := length_wordBytes s.cfg.erasedWord 32
  obtain ⟨-, -, hhi⟩ := (progOk_iff _ _).mp hok
  have hmax := s.cfg.flashHi.isLt
  have hstored := Memory.read_store h a 0 (wordBytes s.cfg.erasedWord 32) (by omega) k (by omega)
  rw [Nat.zero_add, ptrKey_eq (by omega), getElem_wordBytes] at hstored
  simp only [State.flashErasePage, hpass', hok, Bool.and_self, if_true, hstored]

/-- The half-pages an erase that passes leaves recorded as erased. -/
theorem flashErasePage_erased_of_passes {a : Word} (hok : s.cfg.progAddressOk a = true)
    (hpass : flashPasses s = true) :
    (s.flashErasePage a).2.flashErased = insertHalf a (insertHalf (a + 64) (halvesApart a 128 s.flashErased)) := by
  have hpass' : s.flashOutcome = true := hpass
  simp only [State.flashErasePage, hpass', hok, Bool.and_self, if_true]
  rfl

/-- The half-pages an erase that fails leaves recorded as erased. -/
theorem flashErasePage_erased_of_fails (a : Word) (hfail : flashPasses s = false) :
    (s.flashErasePage a).2.flashErased = halvesApart a 128 s.flashErased := by
  have hfail' : s.flashOutcome = false := hfail
  simp only [State.flashErasePage, hfail', Bool.false_and, Bool.false_eq_true, if_false]
  rfl

/-- An aligned half-page that is neither half of a page shares no byte with it. -/
theorem mem_halvesApart_page {a h : Word} (ha : a.toNat % 128 = 0) (hh : h.toNat % 64 = 0) (hlower : h ≠ a)
    (hupper : h ≠ a + 64) (hs : List Word) : h ∈ halvesApart a 128 hs ↔ h ∈ hs := by
  rw [mem_halvesApart]
  exact and_iff_left (by bv_omega)

/-- Neither half of a page is apart from it. -/
theorem not_mem_halvesApart_page (a : Word) (hs : List Word) :
    a ∉ halvesApart a 128 hs ∧ a + 64 ∉ halvesApart a 128 hs := by
  simp [mem_halvesApart]

/-- A page erase changes the record of no half-page but its own two (log 14). -/
theorem mem_flashErasePage_erased {a h : Word} (hok : s.cfg.progAddressOk a = true) (hh : h.toNat % 64 = 0)
    (hlower : h ≠ a) (hupper : h ≠ a + 64) : h ∈ (s.flashErasePage a).2.flashErased ↔ h ∈ s.flashErased := by
  have hpage := mem_halvesApart_page ((progOk_iff _ _).mp hok).1 hh hlower hupper s.flashErased
  cases hpass : flashPasses s with
  | true =>
    rw [flashErasePage_erased_of_passes hok hpass, mem_insertHalf, mem_insertHalf, hpage]
    simp only [hlower, hupper, false_or]
  | false => rw [flashErasePage_erased_of_fails a hpass, hpage]

/-! The half-page write. -/

/-- A half-page write changes no byte outside the half-page (rule R56). -/
theorem flashWriteHalf_same (h : s.flash.wf = true) (a : Word) {bs : List Byte} (hlen : bs.length = 64) :
    FlashSameOutside s (s.flashWriteHalf a bs).2 a 64 := by
  intro j hj
  simp only [State.flashWriteHalf]
  split
  · exact flashStored_same h a (by rwa [hlen])
  · exact flashOpened_same h a hj

/-- A half-page with a stated result, in both ways of writing it (rule R56). -/
theorem halfErased_iff_writable (a : Word) : s.halfErased a = true ↔ Writable s a := by
  rw [State.halfErased, Bool.and_eq_true, halfOk_iff, decide_eq_true_eq, Writable, and_assoc, and_assoc]

/-- A half-page write that passes over an erased half-page leaves its bytes there (rule R56). -/
theorem flashWriteHalf_read (h : s.flash.wf = true) {a : Word} {bs : List Byte} (hlen : bs.length = 64)
    (hw : Writable s a) (hpass : flashPasses s = true) {k : Nat} (hk : k < 64) :
    (s.flashWriteHalf a bs).2.flash.read (ptrKey a k) = bs[k] := by
  have hpass' : s.flashOutcome = true := hpass
  have hstored := Memory.read_store h a 0 bs (by omega) k (by omega)
  rw [Nat.zero_add] at hstored
  simp only [State.flashWriteHalf, hpass', (halfErased_iff_writable a).mpr hw, Bool.and_self, if_true, hstored]

/-- Among the half-pages aligned with it, a half-page write takes its own out of the record (log 14). -/
theorem mem_flashWriteHalf_erased {a h : Word} (bs : List Byte) (hh : h.toNat % 64 = a.toNat % 64) :
    h ∈ (s.flashWriteHalf a bs).2.flashErased ↔ h ∈ s.flashErased ∧ h ≠ a := by
  have hapart : (64 ≤ (h - a).toNat ∧ 64 ≤ (a - h).toNat) ↔ h ≠ a := by
    constructor
    · rintro ⟨hge, -⟩ rfl
      simp at hge
    · intro hne
      bv_omega
  exact (mem_halvesApart a h 64 s.flashErased).trans (and_congr_right fun _ => hapart)

end Sys2Proof.Machine
end

section
/-! The two commands of 45_bootloader.md that write flash: PROG's erase and the half-page's write. -/

namespace Sys2Proof.Proofs

open Sys2Proof.Machine Sys2Proof.Expected

/-- The session with PROG's three fields captured (rule R151). -/
def captured (s : State) : State :=
  { s with bl := { s.bl with address := s.outWord 1, crcLower := s.outWord 2, crcUpper := s.outWord 3 } }

/-- The block after PROG's call of the erase. -/
def pageErased (s : State) : State := ((captured s).flashErasePage (s.outWord 1)).2

/-- PROG at an accepted address, the erase passing (rule R153). -/
theorem cmdProg_of_passes {s : State} (hok : s.cfg.progAddressOk (s.outWord 1) = true) (hpass : flashPasses s = true) :
    s.cmdProg = (pageErased s).status .none .lprog := by
  have haccepted : ¬ (!s.cfg.progAddressOk (s.outWord 1)) = true := by simp [hok]
  exact (if_neg haccepted).trans (if_pos hpass)

/-- PROG at an accepted address, the erase failing (rule R153). -/
theorem cmdProg_of_fails {s : State} (hok : s.cfg.progAddressOk (s.outWord 1) = true) (hfail : flashPasses s = false) :
    s.cmdProg = (pageErased s).status .write .reset := by
  have haccepted : ¬ (!s.cfg.progAddressOk (s.outWord 1)) = true := by simp [hok]
  exact (if_neg haccepted).trans (if_neg (Bool.not_eq_true _ ▸ hfail))

theorem hidReady_captured {s : State} (h : HidReady s) : HidReady (captured s) :=
  hidReady_of_frame h rfl rfl ((canonical_of_hidReady h).frame rfl rfl rfl rfl)

theorem hidReady_pageErased {s : State} (h : HidReady s) : HidReady (pageErased s) :=
  hidReady_flashErasePage (hidReady_captured h) _

/-- Settles O39: PROG is the erase of the captured address followed by the status helper. -/
theorem progErasesPage : Obligations.ProgErasesPage := by
  unfold Obligations.ProgErasesPage
  intro s h a halign hlo hhi
  have hwf := (canonical_of_hidReady h).flash
  have hok : s.cfg.progAddressOk a = true := (progOk_iff _ _).mpr ⟨halign, hlo, hhi⟩
  refine ⟨(pageErased s).flash, (pageErased s).flashErased, s.cmdProg, rfl,
    flashErasePage_same (s := captured s) hwf a,
    fun _ => mem_flashErasePage_erased (s := captured s) hok, fun hpass => ⟨?_, ?_, ?_, fun k hk => ?_⟩,
    fun hfail => ⟨?_, ?_⟩⟩
  · rw [cmdProg_of_passes hok hpass]
    exact statusReport_of_status (hidReady_pageErased h) .none .lprog
  · rw [pageErased, flashErasePage_erased_of_passes (s := captured s) hok hpass]
    simp [a]
  · rw [pageErased, flashErasePage_erased_of_passes (s := captured s) hok hpass]
    simp [a]
  · exact flashErasePage_read (s := captured s) hwf hok hpass hk
  · rw [cmdProg_of_fails hok hfail]
    exact statusReport_of_status (hidReady_pageErased h) .write .reset
  · rw [pageErased, flashErasePage_erased_of_fails (s := captured s) _ hfail]
    exact not_mem_halvesApart_page a s.flashErased

/-- The half's field of the IN report, where its CRC is echoed (rules R75, R158). -/
def halfField (upper : Bool) : Nat := if upper then 3 else 2

/-- The CRC PROG declared for the half (rule R151). -/
def halfCrc (s : State) (upper : Bool) : Word := if upper then s.bl.crcUpper else s.bl.crcLower

/-- The half's address (rule R160). -/
def halfAddress (s : State) (upper : Bool) : Word := if upper then s.bl.address + 64 else s.bl.address

/-- What success resumes (rules R145, R146, R161). -/
def halfNext (upper : Bool) : BlState := if upper then .reset else .uprog

/-- The block with the payload's CRC echoed (rule R158). -/
def crcEchoed (s : State) (upper : Bool) : State := s.setInWord (halfField upper) (crc32 s.outReport)

/-- The block after the call of the write. -/
def halfWritten (s : State) (upper : Bool) : State :=
  ((crcEchoed s upper).flashWriteHalf (halfAddress s upper) s.outReport).2

/-- A half-page with the declared CRC, the write passing (rule R161). -/
theorem halfPage_of_passes {s : State} {upper : Bool} (hcrc : crc32 s.outReport = halfCrc s upper)
    (hpass : flashPasses s = true) : s.halfPage upper = (halfWritten s upper).status .none (halfNext upper) := by
  have hpass' : ¬ (!flashPasses s) = true := by simp [hpass]
  exact (if_neg (not_not.mpr hcrc)).trans (if_neg hpass')

/-- A half-page with the declared CRC, the write failing (rule R161). -/
theorem halfPage_of_fails {s : State} {upper : Bool} (hcrc : crc32 s.outReport = halfCrc s upper)
    (hfail : flashPasses s = false) : s.halfPage upper = (halfWritten s upper).status .write .reset := by
  have hfail' : (!flashPasses s) = true := by simp [hfail]
  exact (if_neg (not_not.mpr hcrc)).trans (if_pos hfail')

theorem hidReady_halfWritten {s : State} (h : HidReady s) (upper : Bool) : HidReady (halfWritten s upper) :=
  hidReady_flashWriteHalf (hidReady_setInWord h _ _) _ _

/-- What O42 says of either half, `t` being what its row leaves. -/
def HalfPageOutcome (s t : State) (upper : Bool) : Prop :=
  let a := halfAddress s upper
  let field := 4 * halfField upper
  ∃ r f hs,
    let c := afterFlash { s with ram := r } f hs
    (∀ k < 4, inByte c (field + k) = (crc32 s.outReport).extractLsb' (8 * k) 8)
    ∧ RamSameOutside s c (s.cfg.inBuf + BitVec.ofNat 32 field) 4
    ∧ FlashSameOutside s c a 64
    ∧ (∀ h : Word, h.toNat % 64 = a.toNat % 64 → (h ∈ hs ↔ h ∈ s.flashErased ∧ h ≠ a))
    ∧ (flashPasses s = true → StatusReport c t 0x00 (halfNext upper)
        ∧ (Writable s a → ∀ k < 64, f.read (ptrKey a k) = outByte s k))
    ∧ (flashPasses s = false → StatusReport c t s.cfg.errors.write .reset)

/-- A half-page with the declared CRC: the echo, the write, the status. -/
theorem halfPage_outcome {s : State} (h : HidReady s) {upper : Bool} (hcrc : crc32 s.outReport = halfCrc s upper) :
    HalfPageOutcome s (s.halfPage upper) upper := by
  have hram := (canonical_of_hidReady h).ram
  have hflash : (crcEchoed s upper).flash.wf = true := (canonical_of_hidReady h).flash
  have hfield : halfField upper < 16 := by cases upper <;> decide
  have hlen : s.outReport.length = 64 := Memory.length_load _ _ _ _
  refine ⟨(halfWritten s upper).ram, (halfWritten s upper).flash, (halfWritten s upper).flashErased,
    fun k hk => inByte_setInWord hram hfield _ hk, fun j hj => ?_, flashWriteHalf_same hflash _ hlen,
    fun x hx => mem_flashWriteHalf_erased (s := crcEchoed s upper) s.outReport hx,
    fun hpass => ⟨?_, fun hw k hk => ?_⟩, fun hfail => ?_⟩
  · exact setInWord_ramSame s hram _ _ fun k hk => ptrKey_add _ _ _ ▸ hj k hk
  · rw [halfPage_of_passes hcrc hpass]
    exact statusReport_of_status (hidReady_halfWritten h upper) .none _
  · refine (flashWriteHalf_read hflash hlen hw hpass hk).trans ?_
    simp only [State.outReport, Memory.getElem_load, Nat.zero_add, outByte]
  · rw [halfPage_of_fails hcrc hfail]
    exact statusReport_of_status (hidReady_halfWritten h upper) .write _

/-- Settles O42: rows 5 and 6 are the two halves of `halfPage_outcome`. -/
theorem halfPageWritesFlash : Obligations.HalfPageWritesFlash := by
  unfold Obligations.HalfPageWritesFlash
  intro s h
  refine ⟨fun hcrc => ?_, fun hcrc => ?_⟩
  · obtain ⟨r, f, hs, houtcome⟩ := halfPage_outcome (upper := false) h hcrc
    exact ⟨r, f, hs, s.halfPage false, rfl, houtcome⟩
  · obtain ⟨r, f, hs, houtcome⟩ := halfPage_outcome (upper := true) h hcrc
    exact ⟨r, f, hs, s.halfPage true, rfl, houtcome⟩

end Sys2Proof.Proofs
end

section
/-! The laws of the decoder and the encoder: what a masked key says of its bits, an equation for each key table, the
fields of a record an operation uses, how what the decoder yields is laid out in bytes, and the verdicts on a record. -/

namespace Sys2Proof.Machine

open Sys2Proof.Expected

/-! Keys under a mask. -/

/-- A key is its high bits and its low bits. -/
theorem append_extractLsb' {m n : Nat} (key : BitVec (m + n)) : key.extractLsb' n m ++ key.extractLsb' 0 n = key := by
  rw [BitVec.extractLsb'_append_extractLsb'_eq_extractLsb' (Nat.zero_add n).symm, BitVec.extractLsb'_eq_self]

theorem and_lowMask {m n : Nat} (key : BitVec (m + n)) :
    key &&& ((0 : BitVec m) ++ BitVec.allOnes n) = (0 : BitVec m) ++ key.extractLsb' 0 n := by
  conv_lhs => rw [← append_extractLsb' key, BitVec.and_append, BitVec.and_allOnes]
  exact congrArg (· ++ key.extractLsb' 0 n) BitVec.and_zero

theorem and_highMask {m n : Nat} (key : BitVec (m + n)) :
    key &&& (BitVec.allOnes m ++ (0 : BitVec n)) = key.extractLsb' n m ++ (0 : BitVec n) := by
  conv_lhs => rw [← append_extractLsb' key, BitVec.and_append, BitVec.and_allOnes]
  exact congrArg (key.extractLsb' n m ++ ·) BitVec.and_zero

/-- A key equal to a pattern on its low bits is its high bits and the pattern. -/
theorem append_of_and_low {m n : Nat} {key : BitVec (m + n)} {lo : BitVec n}
    (h : key &&& ((0 : BitVec m) ++ BitVec.allOnes n) = (0 : BitVec m) ++ lo) : key.extractLsb' n m ++ lo = key := by
  rw [and_lowMask, BitVec.append_right_inj] at h
  rw [← h, append_extractLsb']

/-- A key equal to a pattern on its high bits is the pattern and its low bits. -/
theorem append_of_and_high {m n : Nat} {key : BitVec (m + n)} {hi : BitVec m}
    (h : key &&& (BitVec.allOnes m ++ (0 : BitVec n)) = hi ++ (0 : BitVec n)) : hi ++ key.extractLsb' 0 n = key := by
  rw [and_highMask, BitVec.append_left_inj] at h
  rw [← h, append_extractLsb']

theorem and_fullByte (key : BitVec 8) : key &&& 0xFF = key := BitVec.and_allOnes

theorem and_fullWord (c : Word) : c &&& 0xFFFFFFFF = c := BitVec.and_allOnes

/-- A setup key with the type bits clear and a known request is laid out as a standard request (rules R69, R71). -/
theorem setupKeyWord_of_and {key : Half} {request : Byte} (h : key &&& 0xFF60 = request ++ (0 : Byte)) :
    setupKeyWord request (key.extractLsb' 7 1) (key.extractLsb' 0 5) = key := by
  have hrequest : key.extractLsb' 8 8 = request := by
    have hb := congrArg (BitVec.extractLsb' 8 8) h
    rw [BitVec.extractLsb'_and, BitVec.extractLsb'_append_eq_of_le (Nat.le_refl 8), Nat.sub_self,
      BitVec.extractLsb'_eq_self] at hb
    exact BitVec.and_allOnes.symm.trans hb
  have hstandard : key.extractLsb' 5 2 = 0 := by
    have hb := congrArg (BitVec.extractLsb' 5 2) h
    rw [BitVec.extractLsb'_and, BitVec.extractLsb'_append_eq_of_add_le (by decide)] at hb
    exact BitVec.and_allOnes.symm.trans hb
  rw [setupKeyWord, ← hrequest, ← hstandard, BitVec.extractLsb'_append_extractLsb'_eq_extractLsb' (by rfl),
    BitVec.extractLsb'_append_extractLsb'_eq_extractLsb' (by rfl),
    BitVec.extractLsb'_append_extractLsb'_eq_extractLsb' (by rfl)]
  exact BitVec.extractLsb'_eq_self

/-- The event nibble of a key that rows 1 and 2 leave (rules R140, R147). -/
theorem readEvent_of_and {key : BitVec 8} (hconfigured : key &&& 0x0F ≠ 0x00) (hshort : key &&& 0x0F ≠ 0x02) :
    readEvent (key.extractLsb' 0 4) = true :=
  decide_eq_true
    ⟨fun h => hconfigured ((and_lowMask (m := 4) (n := 4) key).trans (congrArg ((0 : BitVec 4) ++ ·) h)),
      fun h => hshort ((and_lowMask (m := 4) (n := 4) key).trans (congrArg ((0 : BitVec 4) ++ ·) h))⟩

/-! The four key tables as first-match chains. -/

/-- The control table (rules R78, R115). -/
theorem decodeCtlKey_eq (key : BitVec 8) : decodeCtlKey key =
    if key &&& 0x0F = 0x00 then .ctlRow1Reset (key.extractLsb' 4 4)
    else if key &&& 0x0F = 0x01 then .ctlRow2Setup (key.extractLsb' 4 4)
    else if key &&& 0xFE = 0x12 then .ctlRow3DataDone (key.extractLsb' 0 1)
    else if key &&& 0xFE = 0x22 then .ctlRow4StatusDone (key.extractLsb' 0 1)
    else .ctlRow5Other key := by
  simp only [decodeCtlKey, ctlRowOf, firstMatch]
  split_ifs <;> rfl

/-- The SETUP dispatcher's table (rule R71). -/
theorem decodeSetupKey_eq (key : Half) : decodeSetupKey key =
    if key &&& 0xFF60 = 0x0000 then .reqGetStatus (key.extractLsb' 7 1) (key.extractLsb' 0 5)
    else if key &&& 0xFF60 = 0x0600 then .reqGetDescriptor (key.extractLsb' 7 1) (key.extractLsb' 0 5)
    else if key &&& 0xFF60 = 0x0500 then .reqSetAddress (key.extractLsb' 7 1) (key.extractLsb' 0 5)
    else if key &&& 0xFF60 = 0x0900 then .reqSetConfiguration (key.extractLsb' 7 1) (key.extractLsb' 0 5)
    else .reqOther key := by
  simp only [decodeSetupKey, setupRowOf, firstMatch]
  split_ifs <;> rfl

/-- The bootloader table (rules R79, R140). -/
theorem decodeBlKey_eq (key : BitVec 8) : decodeBlKey key =
    if key &&& 0x0F = 0x00 then .blRow1Configured (key.extractLsb' 4 4)
    else if key &&& 0x0F = 0x02 then .blRow2OutShort (key.extractLsb' 4 4)
    else if key = 0x01 then .blRow3Command
    else if key = 0x13 then .blRow4StatusSent
    else if key = 0x21 then .blRow5LowerHalf
    else if key = 0x31 then .blRow6UpperHalf
    else if key &&& 0xF0 = 0x40 then .blRow7Lread (key.extractLsb' 0 4)
    else if key &&& 0xF0 = 0x50 then .blRow8Uread (key.extractLsb' 0 4)
    else .blRow9Fsm key := by
  simp only [decodeBlKey, blRowOf, firstMatch, and_fullByte]
  split_ifs <;> rfl

/-- The command table: the whole word is compared (rule R77). -/
theorem cmdRowOf_eq (c : Word) : cmdRowOf c =
    if c = 0x00 then .reset else if c = 0x80 then .prog else if c = 0x40 then .read else if c = 0xC3 then .exit
    else .unrecognized := by
  simp only [cmdRowOf, firstMatch, and_fullWord]

/-- The command words (rule R77). -/
theorem decodeCmd_eq (c : Word) : decodeCmd c =
    if c = 0x00 then .cmdReset else if c = 0x80 then .cmdProg else if c = 0x40 then .cmdRead
    else if c = 0xC3 then .cmdExit else .cmdUnrecognized c := by
  rw [decodeCmd, cmdRowOf_eq]
  split_ifs <;> rfl

theorem decodeCtlKey_of_otherKey {key : BitVec 8} (h : ctlOtherKey key = true) :
    decodeCtlKey key = .ctlRow5Other key := by
  obtain ⟨h1, h2, h3, h4⟩ := of_decide_eq_true h
  rw [decodeCtlKey_eq, if_neg h1, if_neg h2, if_neg h3, if_neg h4]

theorem decodeSetupKey_of_otherKey {key : Half} (h : reqOtherKey key = true) : decodeSetupKey key = .reqOther key := by
  obtain ⟨h1, h2, h3, h4⟩ := of_decide_eq_true h
  rw [decodeSetupKey_eq, if_neg h1, if_neg h2, if_neg h3, if_neg h4]

theorem decodeBlKey_of_otherKey {key : BitVec 8} (h : blOtherKey key = true) : decodeBlKey key = .blRow9Fsm key := by
  obtain ⟨h1, h2, h3, h4, h5, h6, h7, h8⟩ := of_decide_eq_true h
  rw [decodeBlKey_eq, if_neg h1, if_neg h2, if_neg h3, if_neg h4, if_neg h5, if_neg h6, if_neg h7, if_neg h8]

theorem decodeCmd_of_otherCommand {c : Word} (h : otherCommand c = true) : decodeCmd c = .cmdUnrecognized c := by
  obtain ⟨h1, h2, h3, h4⟩ := of_decide_eq_true h
  rw [decodeCmd_eq, if_neg h1, if_neg h2, if_neg h3, if_neg h4]

/-! Layout. -/

/-- The instruction is one the decoder yields, and it is encoded as the word `w` on the channel `ch`, followed by the
packet `p` (rules R63, R64). -/
structure LaidOut (i : Instr) (ch : Channel) (w : BitVec 64) (p : List Byte) : Prop where
  wellFormed : i.wellFormed = true
  channel : i.channel = ch
  word : i.word = w
  packet : i.packet = p

theorem LaidOut.encode_eq {i : Instr} {ch : Channel} {w : BitVec 64} {p : List Byte} (h : LaidOut i ch w p) :
    encode i = leBytes ch.wordBytes w ++ p := by
  rw [encode, h.channel, h.word, h.packet]

theorem decodeCtlKey_laidOut (key : BitVec 8) : LaidOut (decodeCtlKey key) .ctlKey (key.setWidth 64) [] := by
  rw [decodeCtlKey_eq]
  split_ifs with hreset hsetup hdata hstatus
  · exact ⟨rfl, rfl, congrArg (BitVec.setWidth 64) (append_of_and_low (m := 4) (n := 4) hreset), rfl⟩
  · exact ⟨rfl, rfl, congrArg (BitVec.setWidth 64) (append_of_and_low (m := 4) (n := 4) hsetup), rfl⟩
  · exact ⟨rfl, rfl, congrArg (BitVec.setWidth 64) (append_of_and_high (m := 7) (n := 1) hdata), rfl⟩
  · exact ⟨rfl, rfl, congrArg (BitVec.setWidth 64) (append_of_and_high (m := 7) (n := 1) hstatus), rfl⟩
  · exact ⟨decide_eq_true ⟨hreset, hsetup, hdata, hstatus⟩, rfl, rfl, rfl⟩

theorem decodeSetupKey_laidOut (key : Half) : LaidOut (decodeSetupKey key) .setupKey (key.setWidth 64) [] := by
  rw [decodeSetupKey_eq]
  split_ifs with hstatus hdescriptor haddress hconfiguration
  · exact ⟨rfl, rfl, congrArg (BitVec.setWidth 64) (setupKeyWord_of_and hstatus), rfl⟩
  · exact ⟨rfl, rfl, congrArg (BitVec.setWidth 64) (setupKeyWord_of_and hdescriptor), rfl⟩
  · exact ⟨rfl, rfl, congrArg (BitVec.setWidth 64) (setupKeyWord_of_and haddress), rfl⟩
  · exact ⟨rfl, rfl, congrArg (BitVec.setWidth 64) (setupKeyWord_of_and hconfiguration), rfl⟩
  · exact ⟨decide_eq_true ⟨hstatus, hdescriptor, haddress, hconfiguration⟩, rfl, rfl, rfl⟩

theorem decodeBlKey_laidOut (key : BitVec 8) : LaidOut (decodeBlKey key) .blKey (key.setWidth 64) [] := by
  rw [decodeBlKey_eq]
  split_ifs with hconfigured hshort hcommand hsent hlower hupper hlread huread
  · exact ⟨rfl, rfl, congrArg (BitVec.setWidth 64) (append_of_and_low (m := 4) (n := 4) hconfigured), rfl⟩
  · exact ⟨rfl, rfl, congrArg (BitVec.setWidth 64) (append_of_and_low (m := 4) (n := 4) hshort), rfl⟩
  · exact ⟨rfl, rfl, hcommand ▸ rfl, rfl⟩
  · exact ⟨rfl, rfl, hsent ▸ rfl, rfl⟩
  · exact ⟨rfl, rfl, hlower ▸ rfl, rfl⟩
  · exact ⟨rfl, rfl, hupper ▸ rfl, rfl⟩
  · exact ⟨readEvent_of_and hconfigured hshort, rfl,
      congrArg (BitVec.setWidth 64) (append_of_and_high (m := 4) (n := 4) hlread), rfl⟩
  · exact ⟨readEvent_of_and hconfigured hshort, rfl,
      congrArg (BitVec.setWidth 64) (append_of_and_high (m := 4) (n := 4) huread), rfl⟩
  · exact ⟨decide_eq_true ⟨hconfigured, hshort, hcommand, hsent, hlower, hupper, hlread, huread⟩, rfl, rfl, rfl⟩

theorem decodeCmd_laidOut (c : Word) : LaidOut (decodeCmd c) .cmd32 (c.setWidth 64) [] := by
  rw [decodeCmd_eq]
  split_ifs with hreset hprog hread hexit
  · exact ⟨rfl, rfl, hreset ▸ rfl, rfl⟩
  · exact ⟨rfl, rfl, hprog ▸ rfl, rfl⟩
  · exact ⟨rfl, rfl, hread ▸ rfl, rfl⟩
  · exact ⟨rfl, rfl, hexit ▸ rfl, rfl⟩
  · exact ⟨decide_eq_true ⟨hreset, hprog, hread, hexit⟩, rfl, rfl, rfl⟩

/-! Reading back a key. -/

/-- A key widened to a word has the key's bytes. -/
theorem leBytes_setWidth {w : Nat} (n : Nat) (v : BitVec w) (h : 8 * n ≤ 64) :
    leBytes n (v.setWidth 64) = leBytes n v := by
  refine List.map_congr_left fun k hk => ?_
  have hkn := List.mem_range.mp hk
  ext j hj
  have hinside : 8 * k + j < 64 := by omega
  rw [BitVec.getElem_extractLsb', BitVec.getElem_extractLsb', BitVec.getLsbD_setWidth, decide_eq_true hinside,
    Bool.true_and]

theorem leVal_keyBytes {w : Nat} (n : Nat) (key : BitVec w) (hw : w = 8 * n) (h : 8 * n ≤ 64) :
    leVal w (leBytes n (key.setWidth 64)) = key := by
  rw [leBytes_setWidth n key h, leVal_leBytes n key hw]

theorem decode_ctlKey (key : BitVec 8) :
    decode .ctlKey (leBytes 1 (key.setWidth 64)) = .instr (decodeCtlKey key) := by
  simp only [decode, leBytes_len, if_true, leVal_keyBytes 1 key rfl (by decide)]

theorem decode_setupKey (key : Half) :
    decode .setupKey (leBytes 2 (key.setWidth 64)) = .instr (decodeSetupKey key) := by
  simp only [decode, leBytes_len, if_true, leVal_keyBytes 2 key rfl (by decide)]

theorem decode_blKey (key : BitVec 8) : decode .blKey (leBytes 1 (key.setWidth 64)) = .instr (decodeBlKey key) := by
  simp only [decode, leBytes_len, if_true, leVal_keyBytes 1 key rfl (by decide)]

theorem decode_cmd32 (c : Word) : decode .cmd32 (leBytes 4 (c.setWidth 64)) = .instr (decodeCmd c) := by
  simp only [decode, leBytes_len, if_true, leVal_keyBytes 4 c rfl (by decide)]

section RoundTrip

variable {i : Instr} {ch : Channel} {bytes : List Byte}

/-- An instruction laid out as a word that its channel decodes to it is read back. -/
theorem LaidOut.decode_encode {w : BitVec 64} (h : LaidOut i ch w [])
    (hd : decode ch (leBytes ch.wordBytes w) = .instr i) : decode i.channel (encode i) = .instr i := by
  rw [h.encode_eq, h.channel, List.append_nil, hd]

theorem decode_encode_of_ctlKey (key : BitVec 8) (h : decodeCtlKey key = i) :
    decode i.channel (encode i) = .instr i :=
  h ▸ (decodeCtlKey_laidOut key).decode_encode (decode_ctlKey key)

theorem decode_encode_of_setupKey (key : Half) (h : decodeSetupKey key = i) :
    decode i.channel (encode i) = .instr i :=
  h ▸ (decodeSetupKey_laidOut key).decode_encode (decode_setupKey key)

theorem decode_encode_of_blKey (key : BitVec 8) (h : decodeBlKey key = i) :
    decode i.channel (encode i) = .instr i :=
  h ▸ (decodeBlKey_laidOut key).decode_encode (decode_blKey key)

theorem decode_encode_of_cmd (c : Word) (h : decodeCmd c = i) : decode i.channel (encode i) = .instr i :=
  h ▸ (decodeCmd_laidOut c).decode_encode (decode_cmd32 c)

/-- What EncodeOfDecodeIsBytes says of one input: the instruction is well formed, its encoding is the bytes, and the
channel is its own or the internal one carrying a record of the port (log 5). -/
def EncodesBack (ch : Channel) (bytes : List Byte) (i : Instr) : Prop :=
  i.wellFormed = true ∧ encode i = bytes ∧ (ch = i.channel ∨ (ch = .internal ∧ i.channel = .port))

/-- An instruction laid out as the key read from some bytes is encoded as those bytes. -/
theorem LaidOut.encodesBack_key (h : LaidOut i ch ((leVal (8 * ch.wordBytes) bytes).setWidth 64) [])
    (hlen : bytes.length = ch.wordBytes) : EncodesBack ch bytes i := by
  have h64 : 8 * ch.wordBytes ≤ 64 := by cases ch <;> decide
  refine ⟨h.wellFormed, ?_, .inl h.channel.symm⟩
  rw [h.encode_eq, List.append_nil, leBytes_setWidth _ _ h64, leBytes_leVal _ _ hlen]

/-- An instruction laid out as the record read from some bytes is encoded as those bytes. -/
theorem LaidOut.encode_eq_record (h : LaidOut i ch (leVal 64 (bytes.take 8)) (bytes.drop 8)) (hch : ch.wordBytes = 8)
    (hlen : ¬ bytes.length < 8) : encode i = bytes := by
  have htake : (bytes.take 8).length = 8 := List.length_take_of_le (Nat.not_lt.mp hlen)
  rw [h.encode_eq, hch, leBytes_leVal 8 _ htake, List.take_append_drop]

end RoundTrip

/-! The fields of a record. -/

/-- The record of the fields, its reserved bits clear. -/
def recordOf (f : IfaceFields) : BitVec 64 := ifaceWord f.code f.ep f.type f.len f.arg

/-- A record with clear reserved bits is that of its fields (rule R64). -/
theorem recordOf_ifaceFields (R : BitVec 64) (h11 : (ifaceFields R).reserved11 = 0)
    (h15 : (ifaceFields R).reserved15 = 0) : recordOf (ifaceFields R) = R := by
  have hep : BitVec.ofFin (w := 3) (ifaceFields R).ep = R.extractLsb' 8 3 := rfl
  rw [recordOf, ifaceWord, ← h11, ← h15, hep]
  simp only [ifaceFields]
  rw [BitVec.extractLsb'_append_extractLsb'_eq_extractLsb' (by rfl),
    BitVec.extractLsb'_append_extractLsb'_eq_extractLsb' (by rfl),
    BitVec.extractLsb'_append_extractLsb'_eq_extractLsb' (by rfl),
    BitVec.extractLsb'_append_extractLsb'_eq_extractLsb' (by rfl),
    BitVec.extractLsb'_append_extractLsb'_eq_extractLsb' (by rfl),
    BitVec.extractLsb'_append_extractLsb'_eq_extractLsb' (by rfl)]
  exact BitVec.extractLsb'_eq_self

/-- The fields a row uses, with its code; the reserved and the unused ones are zero (rules R65, R66). -/
def usedFields (row : OpRow) (f : IfaceFields) : IfaceFields where
  code := row.code
  ep := bif row.usesEp then f.ep else 0
  reserved11 := 0
  type := bif row.usesType then f.type else 0
  reserved15 := 0
  len := bif row.usesLen then f.len else 0
  arg := bif row.usesArg then f.arg else 0

/-- A field a row does not use is zero. -/
theorem usedField_eq_self_iff {α : Type} [Zero α] [DecidableEq α] (used : Bool) (x : α) :
    (bif used then x else 0) = x ↔ (!used && decide (x ≠ 0)) = false := by
  cases used <;> simp [eq_comm (a := x)]

/-- No reserved bit and no unused field is set exactly when the fields are the row's own. -/
theorem usedFields_eq_self_iff {row : OpRow} {f : IfaceFields} (hcode : f.code = row.code) :
    usedFields row f = f ↔ reservedFieldSet row f = false := by
  have hzero {w : Nat} (x : BitVec w) : decide (x ≠ 0) = false ↔ 0 = x := by simp [eq_comm (a := x)]
  simp only [reservedFieldSet, Bool.or_eq_false_iff, hzero, ← usedField_eq_self_iff]
  obtain ⟨code, ep, reserved11, type, reserved15, len, arg⟩ := f
  obtain rfl : code = row.code := hcode
  simp only [usedFields, IfaceFields.mk.injEq, true_and]
  tauto

/-- The channel of a row's records. -/
def rowChannel (row : OpRow) : Channel := bif row.internal then .internal else .port

theorem opRowOf_eq_some {code : Byte} {row : OpRow} (h : opRowOf code = some row) : row ∈ opTable ∧ row.code = code :=
  ⟨List.mem_of_find?_eq_some h, by simpa using List.find?_some h⟩

theorem code_ofCode (c : BitVec 2) : (EpType.ofCode c).code = c := by
  revert c; decide

theorem ofCode_code (t : EpType) : EpType.ofCode t.code = t := by
  cases t <;> rfl

/-! The decoder of records. -/

theorem decodeIface_of_none {onPort : Bool} {R : BitVec 64} (h : opRowOf (ifaceFields R).code = none) (p : List Byte) :
    decodeIface onPort R p = .refuse .reservedOpcode := by
  simp only [decodeIface, h]

theorem decodeIface_of_some {onPort : Bool} {R : BitVec 64} {row : OpRow} (h : opRowOf (ifaceFields R).code = some row)
    (p : List Byte) : decodeIface onPort R p =
      if onPort && row.internal then .refuse .internalOpcode
      else if reservedFieldSet row (ifaceFields R) then .refuse .reservedField
      else buildIface (ifaceFields R) p row.op := by
  simp only [decodeIface, h]

/-- A record of an assigned code whose fields are the row's own decodes to what the operation makes of them. -/
theorem decodeIface_recordOf {onPort : Bool} {row : OpRow} {f : IfaceFields} (hrow : opRowOf row.code = some row)
    (hport : (onPort && row.internal) = false) (hused : usedFields row f = f) (p : List Byte) :
    decodeIface onPort (recordOf f) p = buildIface f p row.op := by
  have hcode : f.code = row.code := congrArg IfaceFields.code hused.symm
  have hclear := (usedFields_eq_self_iff hcode).mp hused
  have hfields : ifaceFields (recordOf f) = f := by
    rw [recordOf, fields_word, ← hused]
    rfl
  rw [decodeIface_of_some (by rwa [hfields, hcode]), hfields, hport, hclear]
  rfl

/-- A record that is accepted is one of an assigned code, with no reserved bit and no unused field set, and is what its
operation makes of its fields (rules R65, R66). -/
theorem decodeIface_eq_instr {onPort : Bool} {R : BitVec 64} {p : List Byte} {i : Instr}
    (h : decodeIface onPort R p = .instr i) : ∃ row ∈ opTable, (onPort && row.internal) = false
      ∧ recordOf (usedFields row (ifaceFields R)) = R
      ∧ buildIface (usedFields row (ifaceFields R)) p row.op = .instr i := by
  cases hrow : opRowOf (ifaceFields R).code with
  | none =>
    rw [decodeIface_of_none hrow] at h
    cases h
  | some row =>
    obtain ⟨hmem, hcode⟩ := opRowOf_eq_some hrow
    rw [decodeIface_of_some hrow] at h
    split_ifs at h with hinternal hreserved
    have hused := (usedFields_eq_self_iff hcode.symm).mpr (Bool.not_eq_true _ ▸ hreserved)
    refine ⟨row, hmem, Bool.not_eq_true _ ▸ hinternal, ?_, hused.symm ▸ h⟩
    rw [hused]
    exact recordOf_ifaceFields R (hused ▸ rfl) (hused ▸ rfl)

/-- An input whose number of bytes is checked, where it gives an instruction (log 6). -/
theorem instr_of_framed {c : Prop} [Decidable c] {i j : Instr}
    (h : (if c then Decoded.instr j else .badFrame) = .instr i) : c ∧ j = i := by
  split_ifs at h with hc
  exact ⟨hc, Decoded.instr.inj h⟩

section Rows

variable {f : IfaceFields} {p : List Byte} {i : Instr}

/-- An operation without a packet. -/
theorem laidOut_of_noPacket {j : Instr} {ch : Channel} {R : BitVec 64} (hwf : j.wellFormed = true) (hch : j.channel = ch)
    (hword : j.word = R) (hpacket : j.packet = []) (h : noPacket p j = .instr i) : LaidOut i ch R p := by
  obtain ⟨rfl, rfl⟩ := instr_of_framed h
  exact ⟨hwf, hch, hword, hpacket⟩

/-- EP_CONFIGURE is accepted with legal operands only. -/
theorem epConfigure_laidOut (hcode : f.code = 0x01) (h : buildIface f p .epConfigure = .instr i) :
    LaidOut i .port (recordOf f) p := by
  simp only [buildIface] at h
  split_ifs at h with hiso hok
  refine laidOut_of_noPacket (j := .epConfigure ..) hok rfl ?_ rfl h
  rw [Instr.word, code_ofCode, recordOf, hcode]

/-- The packet of HOST_OUT has as many bytes as the record's length says. -/
theorem hostOut_laidOut (hcode : f.code = 0x1A) (htype : f.type = 0) (harg : f.arg = 0)
    (h : buildIface f p .hostOut = .instr i) : LaidOut i .port (recordOf f) p := by
  obtain ⟨hlen, rfl⟩ := instr_of_framed h
  refine ⟨decide_eq_true (hlen ▸ f.len.isLt), rfl, ?_, rfl⟩
  rw [Instr.word, recordOf, hcode, htype, harg, hlen, BitVec.ofNat_toNat, BitVec.setWidth_eq]

/-- The packet of HOST_SETUP has 8 bytes where the record's length is 8; with another length it is any. -/
theorem hostSetup_laidOut (hcode : f.code = 0x1B) (htype : f.type = 0) (harg : f.arg = 0)
    (h : buildIface f p .hostSetup = .instr i) : LaidOut i .port (recordOf f) p := by
  simp only [buildIface] at h
  split_ifs at h with hlen
  obtain rfl := Decoded.instr.inj h
  refine ⟨decide_eq_true fun h8 => not_not.mp fun hp => hlen ⟨h8, hp⟩, rfl, ?_, rfl⟩
  rw [Instr.word, recordOf, hcode, htype, harg]

end Rows

/-- What each row of the operation table makes of its fields is laid out as the record they came from. -/
theorem buildIface_laidOut (f : IfaceFields) (p : List Byte) (i : Instr) :
    ∀ row ∈ opTable, buildIface (usedFields row f) p row.op = .instr i →
      LaidOut i (rowChannel row) (recordOf (usedFields row f)) p := by
  simp only [opTable, List.cons_append, List.nil_append, List.forall_mem_cons]
  refine ⟨epConfigure_laidOut rfl, ?_, ?_, ?_, ?_, ?_, ?_, hostOut_laidOut rfl rfl rfl, hostSetup_laidOut rfl rfl rfl,
    ?_, ?_, ?_, ?_, ?_, ?_, ?_, ?_, ?_, ?_, ?_, ?_, ?_, fun _ h => absurd h List.not_mem_nil⟩
  all_goals exact laidOut_of_noPacket rfl rfl rfl rfl

/-- What the decoder accepts as a record is laid out as that record, on the port or on the internal channel. -/
theorem decodeIface_laidOut {onPort : Bool} {R : BitVec 64} {p : List Byte} {i : Instr}
    (h : decodeIface onPort R p = .instr i) :
    LaidOut i .port R p ∨ (onPort = false ∧ LaidOut i .internal R p) := by
  obtain ⟨row, hrow, hport, hrecord, hbuild⟩ := decodeIface_eq_instr h
  have hlaid := buildIface_laidOut _ p i row hrow hbuild
  rw [hrecord, rowChannel] at hlaid
  cases hinternal : row.internal <;> rw [hinternal] at hlaid hport
  · exact .inl hlaid
  · exact .inr ⟨by simpa using hport, hlaid⟩

/-- Reading back an instruction whose word is a record of a row's own fields. -/
theorem decode_encode_of_record {i : Instr} {code : Byte} {ep : EpNum} {type : BitVec 2} {len : Half} {arg : Word}
    {row : OpRow} (hword : i.word = ifaceWord code ep type len arg) (hrow : opRowOf code = some row)
    (hused : usedFields row ⟨code, ep, 0, type, 0, len, arg⟩ = ⟨code, ep, 0, type, 0, len, arg⟩)
    (hchannel : i.channel = rowChannel row)
    (hbuild : buildIface ⟨code, ep, 0, type, 0, len, arg⟩ i.packet row.op = .instr i) :
    decode i.channel (encode i) = .instr i := by
  obtain ⟨-, rfl⟩ := opRowOf_eq_some hrow
  rw [encode, hword, hchannel, ← hbuild, rowChannel]
  cases hinternal : row.internal
  · exact (decode_port _ _).trans (decodeIface_recordOf hrow (by rw [hinternal]; rfl) hused _)
  · exact (decode_internal _ _).trans (decodeIface_recordOf hrow rfl hused _)

theorem buildIface_epConfigure (ep : EpNum) {type : EpType} {size : Half} {flags : Word}
    (h : configOk type size flags = true) :
    buildIface ⟨0x01, ep, 0, type.code, 0, size, flags⟩ [] .epConfigure = .instr (.epConfigure ep type size flags) := by
  have htype : type ≠ .iso := by rintro rfl; cases h
  simp only [buildIface, ofCode_code, if_neg htype, h, if_true, noPacket]

theorem buildIface_hostOut (ep : EpNum) {bytes : List Byte} (h : bytes.length < 2 ^ 16) :
    buildIface ⟨0x1A, ep, 0, 0, 0, BitVec.ofNat 16 bytes.length, 0⟩ bytes .hostOut = .instr (.hostOut ep bytes) :=
  if_pos (Nat.mod_eq_of_lt h).symm

theorem buildIface_hostSetup (ep : EpNum) {len : Half} {bytes : List Byte} (h : len = 8 → bytes.length = 8) :
    buildIface ⟨0x1B, ep, 0, 0, 0, len, 0⟩ bytes .hostSetup = .instr (.hostSetup ep len bytes) :=
  if_neg fun hc => hc.2 (h hc.1)

/-! The verdicts on a record (rule R66). -/

/-- The sizes EP_CONFIGURE accepts, in both ways of writing them (rule R105). -/
theorem legalSize_iff (size : Half) : legalSize size = true ↔ LegalSize size := by
  have hzero : size.toNat = 0 ↔ size = 0 := by rw [← BitVec.toNat_inj]; rfl
  simp only [legalSize, LegalSize, Bool.or_eq_true, Bool.and_eq_true, beq_iff_eq, decide_eq_true_eq, hzero, and_assoc,
    or_assoc]

/-- The operands EP_CONFIGURE accepts (rules R66, R105). -/
theorem configOk_iff (type : EpType) (size : Half) (flags : Word) : configOk type size flags = true ↔
    type ≠ .iso ∧ LegalSize size ∧ flags.extractLsb' 1 31 = 0 := by
  simp only [configOk, Bool.and_eq_true, decide_eq_true_eq, legalSize_iff, flags_iff, and_assoc]

theorem ofCode_eq_iso_iff (c : BitVec 2) : EpType.ofCode c = .iso ↔ c = 2 := by
  revert c; decide

/-- The assigned codes (rule R65). -/
theorem opRowOf_eq_none_iff (code : Byte) : opRowOf code = none ↔
    code.toNat ∉ [0x01, 0x02, 0x03, 0x10, 0x11, 0x12, 0x19, 0x1A, 0x1B, 0x20, 0x21, 0x22, 0x23, 0x24, 0x30, 0x31, 0x32,
      0x33, 0x40, 0x41, 0x42, 0x43] := by
  change _ ↔ code.toNat ∉ opTable.map fun row => row.code.toNat
  simp [opRowOf, BitVec.toNat_inj]

/-- The codes of the internal operations, and that of EP_CONFIGURE (rule R65). -/
theorem opTable_codes : ∀ row ∈ opTable,
    (row.internal = true ↔ 0x20 ≤ row.code.toNat) ∧ (row.op = .epConfigure ↔ row.code.toNat = 0x01) := by
  decide

/-- The fields the operations of the port use, by their codes (rule R65). -/
theorem opTable_uses : ∀ row ∈ opTable, row.internal = false →
    (row.usesEp = false ↔ row.code.toNat = 0x10) ∧ (row.usesType = false ↔ row.code.toNat ≠ 0x01)
    ∧ (row.usesLen = false ↔ row.code.toNat ∉ [0x01, 0x02, 0x03, 0x1A, 0x1B])
    ∧ (row.usesArg = false ↔ row.code.toNat ∉ [0x01, 0x02, 0x03]) := by
  decide

/-- A reserved bit or an unused field of a record of the port, by its code (rule R66). -/
theorem reservedFieldSet_iff {row : OpRow} (hrow : row ∈ opTable) (hport : row.internal = false) (R : BitVec 64) :
    reservedFieldSet row (ifaceFields R) = true ↔ R.extractLsb' 11 1 ≠ 0 ∨ R.extractLsb' 14 2 ≠ 0
      ∨ (row.code.toNat = 0x10 ∧ R.extractLsb' 8 3 ≠ 0) ∨ (row.code.toNat ≠ 0x01 ∧ R.extractLsb' 12 2 ≠ 0)
      ∨ (row.code.toNat ∉ [0x01, 0x02, 0x03, 0x1A, 0x1B] ∧ R.extractLsb' 16 16 ≠ 0)
      ∨ (row.code.toNat ∉ [0x01, 0x02, 0x03] ∧ R.extractLsb' 32 32 ≠ 0) := by
  obtain ⟨hep, htype, hlen, harg⟩ := opTable_uses row hrow hport
  have hzero : (ifaceFields R).ep = 0 ↔ R.extractLsb' 8 3 = 0 :=
    BitVec.toFin_inj (x := R.extractLsb' 8 3) (y := 0)
  simp only [reservedFieldSet, Bool.or_eq_true, Bool.and_eq_true, Bool.not_eq_true', decide_eq_true_eq, hep, htype,
    hlen, harg, not_congr hzero, or_assoc]
  rfl

/-- The reserved flag bits of a record (rules R23, R64). -/
theorem extractLsb'_arg (R : BitVec 64) : (ifaceFields R).arg.extractLsb' 1 31 = R.extractLsb' 33 31 := by
  ext k hk
  have hinside : 1 + k < 32 := by omega
  rw [ifaceFields, BitVec.getElem_extractLsb', BitVec.getElem_extractLsb', BitVec.getLsbD_extractLsb',
    decide_eq_true hinside, Bool.true_and, ← Nat.add_assoc]

theorem framed_ne_refuse {c : Prop} [Decidable c] (i : Instr) (r : RefusalReason) :
    (if c then Decoded.instr i else .badFrame) ≠ .refuse r := by
  split_ifs <;> exact Decoded.noConfusion

/-- Past the fields, nothing but EP_CONFIGURE's operands is refused (rule R66). -/
theorem buildIface_ne_refuse {f : IfaceFields} {op : Op}
    (h : op = .epConfigure → configOk (EpType.ofCode f.type) f.len f.arg = true) (p : List Byte) (r : RefusalReason) :
    buildIface f p op ≠ .refuse r := by
  cases op
  case epConfigure =>
    have hok := h rfl
    simp only [buildIface, if_neg ((configOk_iff _ _ _).mp hok).1, hok, if_true]
    exact framed_ne_refuse _ _
  case hostSetup =>
    simp only [buildIface]
    split_ifs <;> exact Decoded.noConfusion
  all_goals exact framed_ne_refuse _ _

theorem buildIface_of_iso {f : IfaceFields} (h : f.type = 2) (p : List Byte) :
    buildIface f p .epConfigure = .refuse .isoEndpoint :=
  if_pos ((ofCode_eq_iso_iff _).mpr h)

theorem buildIface_of_badConfig {f : IfaceFields} (htype : f.type ≠ 2)
    (h : ¬(LegalSize f.len ∧ f.arg.extractLsb' 1 31 = 0)) (p : List Byte) :
    buildIface f p .epConfigure = .refuse .badConfig :=
  (if_neg fun hiso => htype ((ofCode_eq_iso_iff _).mp hiso)).trans (if_neg fun hok => h ((configOk_iff _ _ _).mp hok).2)

end Sys2Proof.Machine
end

section
/-! The statements of 30_encoding.md about the decoder and the encoder. -/

namespace Sys2Proof.Proofs

open Sys2Proof.Machine

/-- Settles O1: a record decodes by its row of the operation table, a key by the first row of its table that takes it. -/
theorem decodeOfEncodeIsInstruction : Obligations.DecodeOfEncodeIsInstruction := by
  unfold Obligations.DecodeOfEncodeIsInstruction
  intro i hwf
  cases i
  case epConfigure ep type size flags =>
    exact decode_encode_of_record rfl rfl rfl rfl (buildIface_epConfigure ep hwf)
  case hostOut ep bytes =>
    exact decode_encode_of_record rfl rfl rfl rfl (buildIface_hostOut ep (of_decide_eq_true hwf))
  case hostSetup ep len bytes =>
    exact decode_encode_of_record rfl rfl rfl rfl (buildIface_hostSetup ep (of_decide_eq_true hwf))
  case ctlRow1Reset st => exact decode_encode_of_ctlKey (st ++ (0x0 : BitVec 4)) (by decide +revert)
  case ctlRow2Setup st => exact decode_encode_of_ctlKey (st ++ (0x1 : BitVec 4)) (by decide +revert)
  case ctlRow3DataDone e => exact decode_encode_of_ctlKey ((0x09 : BitVec 7) ++ e) (by decide +revert)
  case ctlRow4StatusDone e => exact decode_encode_of_ctlKey ((0x11 : BitVec 7) ++ e) (by decide +revert)
  case ctlRow5Other key => exact decode_encode_of_ctlKey key (decodeCtlKey_of_otherKey hwf)
  case reqGetStatus d r => exact decode_encode_of_setupKey (setupKeyWord 0x00 d r) (by decide +revert)
  case reqGetDescriptor d r => exact decode_encode_of_setupKey (setupKeyWord 0x06 d r) (by decide +revert)
  case reqSetAddress d r => exact decode_encode_of_setupKey (setupKeyWord 0x05 d r) (by decide +revert)
  case reqSetConfiguration d r => exact decode_encode_of_setupKey (setupKeyWord 0x09 d r) (by decide +revert)
  case reqOther key => exact decode_encode_of_setupKey key (decodeSetupKey_of_otherKey hwf)
  case blRow1Configured st => exact decode_encode_of_blKey (st ++ (0x0 : BitVec 4)) (by decide +revert)
  case blRow2OutShort st => exact decode_encode_of_blKey (st ++ (0x2 : BitVec 4)) (by decide +revert)
  case blRow3Command => exact decode_encode_of_blKey 0x01 rfl
  case blRow4StatusSent => exact decode_encode_of_blKey 0x13 rfl
  case blRow5LowerHalf => exact decode_encode_of_blKey 0x21 rfl
  case blRow6UpperHalf => exact decode_encode_of_blKey 0x31 rfl
  case blRow7Lread e => exact decode_encode_of_blKey ((0x4 : BitVec 4) ++ e) (by decide +revert)
  case blRow8Uread e => exact decode_encode_of_blKey ((0x5 : BitVec 4) ++ e) (by decide +revert)
  case blRow9Fsm key => exact decode_encode_of_blKey key (decodeBlKey_of_otherKey hwf)
  case cmdReset => exact decode_encode_of_cmd 0x00 rfl
  case cmdProg => exact decode_encode_of_cmd 0x80 rfl
  case cmdRead => exact decode_encode_of_cmd 0x40 rfl
  case cmdExit => exact decode_encode_of_cmd 0xC3 rfl
  case cmdUnrecognized c => exact decode_encode_of_cmd c (decodeCmd_of_otherCommand hwf)
  -- The other records have no packet and no check of their operands.
  all_goals exact decode_encode_of_record rfl rfl rfl rfl rfl

/-- Settles O2: what each channel's decoder yields is laid out as the word it was read from. -/
theorem encodeOfDecodeIsBytes : Obligations.EncodeOfDecodeIsBytes := by
  unfold Obligations.EncodeOfDecodeIsBytes
  intro ch bytes i h
  cases ch with
  | port =>
    simp only [decode] at h
    split_ifs at h with hlen
    obtain hport | ⟨hfalse, -⟩ := decodeIface_laidOut h
    · exact ⟨hport.wellFormed, hport.encode_eq_record rfl hlen, .inl hport.channel.symm⟩
    · cases hfalse
  | internal =>
    simp only [decode] at h
    split_ifs at h with hlen
    obtain hport | ⟨-, hinternal⟩ := decodeIface_laidOut h
    · exact ⟨hport.wellFormed, hport.encode_eq_record rfl hlen, .inr ⟨rfl, hport.channel⟩⟩
    · exact ⟨hinternal.wellFormed, hinternal.encode_eq_record rfl hlen, .inl hinternal.channel.symm⟩
  | ctlKey =>
    obtain ⟨hlen, rfl⟩ := instr_of_framed h
    exact (decodeCtlKey_laidOut (leVal 8 bytes)).encodesBack_key hlen
  | setupKey =>
    obtain ⟨hlen, rfl⟩ := instr_of_framed h
    exact (decodeSetupKey_laidOut (leVal 16 bytes)).encodesBack_key hlen
  | blKey =>
    obtain ⟨hlen, rfl⟩ := instr_of_framed h
    exact (decodeBlKey_laidOut (leVal 8 bytes)).encodesBack_key hlen
  | cmd32 =>
    obtain ⟨hlen, rfl⟩ := instr_of_framed h
    exact (decodeCmd_laidOut (leVal 32 bytes)).encodesBack_key hlen

/-- Settles O4: each verdict of the rule's list is one branch of the decoder; past them only EP_CONFIGURE's operands
are refused. -/
theorem portVerdicts : Obligations.PortVerdicts := by
  unfold Obligations.PortVerdicts
  intro R p
  rw [decode_port, ← extractLsb'_arg]
  intro code d
  split
  case isTrue hunassigned => exact decodeIface_of_none ((opRowOf_eq_none_iff _).mpr hunassigned) p
  case isFalse hassigned =>
    obtain ⟨row, hsome⟩ := Option.ne_none_iff_exists'.mp fun hnone => hassigned ((opRowOf_eq_none_iff _).mp hnone)
    obtain ⟨hrow, hrowCode⟩ := opRowOf_eq_some hsome
    have hcode : row.code.toNat = code := congrArg BitVec.toNat hrowCode
    obtain ⟨hinternal, hconfigure⟩ := hcode ▸ opTable_codes row hrow
    have hd : d = _ := decodeIface_of_some hsome p
    split
    case isTrue h20 => exact hd.trans (if_pos (hinternal.mpr h20))
    case isFalse h20 =>
      have hport : row.internal = false := Bool.not_eq_true _ ▸ fun h => h20 (hinternal.mp h)
      have hset := hcode ▸ reservedFieldSet_iff hrow hport R
      have hd := hd.trans (if_neg (by simp [hport]))
      split
      case isTrue hreserved => exact hd.trans (if_pos (hset.mpr hreserved))
      case isFalse hclear =>
        have hd := hd.trans (if_neg fun h => hclear (hset.mp h))
        split
        case isTrue hiso =>
          rw [hd, hconfigure.mpr hiso.1]
          exact buildIface_of_iso hiso.2 p
        case isFalse hiso =>
          refine ⟨fun ⟨hone, hbad⟩ => ?_, fun hgood r => ?_⟩
          · rw [hd, hconfigure.mpr hone]
            exact buildIface_of_badConfig (fun h => hiso ⟨hone, h⟩) hbad p
          · rw [hd]
            refine buildIface_ne_refuse (fun hop => (configOk_iff _ _ _).mpr ?_) p r
            have hone := hconfigure.mp hop
            exact ⟨fun h => hiso ⟨hone, (ofCode_eq_iso_iff _).mp h⟩, not_not.mp fun h => hgood ⟨hone, h⟩⟩

/-- Bytes that are the encoding of a well-formed instruction decode to it on its channel. -/
theorem decode_of_encode_eq {i : Instr} {ch : Channel} {bytes : List Byte} (hwf : i.wellFormed = true)
    (hchannel : i.channel = ch) (hbytes : encode i = bytes) : decode ch bytes = .instr i := by
  subst hchannel hbytes
  exact decodeOfEncodeIsInstruction i hwf

/-- Settles O3: the spec's bytes are the encodings of the eight instructions, which O1 reads back. -/
theorem specWordsDecode : Obligations.SpecWordsDecode := by
  unfold Obligations.SpecWordsDecode
  refine ⟨?_, ?_, ?_, ?_, ?_, ?_, ?_, ?_⟩
  all_goals exact decode_of_encode_eq (by decide) rfl (by decide)

end Sys2Proof.Proofs
end

section
/-! Host transactions that are not taken (rules R66, R179 to R183, R188), and the command row 3 of the bootloader table
runs (rules R77, R143). -/

namespace Sys2Proof.Machine

open Sys2Proof.Expected

theorem SideStatus.answer_eq_seen (v : SideStatus) : v.answer = seen v := by
  cases v <;> rfl

variable {s : State} {n : EpNum} {bytes : List Byte}

/-- A device that is not enabled gives no answer (rule R188). -/
theorem State.declined_of_notEnabled (h : s.devEn = false) (v : SideStatus) :
    s.declined v = { s with obs := .handshake .noAnswer } := by
  simp [State.declined, h]

/-- An enabled device answers by the side's status (rule R183). -/
theorem State.declined_of_enabled (h : s.devEn = true) (v : SideStatus) : s.declined v = { s with obs := seen v } := by
  simp [State.declined, h, SideStatus.answer_eq_seen]

/-- HOST_IN is declined by a device not enabled, and on a side that is not VALID (rule R182). -/
theorem exec_hostIn_of_declined (h : s.devEn = false ∨ s.hw[n].txStatus ≠ .valid) :
    exec (.hostIn n) s = .next (s.declined s.hw[n].txStatus) := by
  refine if_neg fun htaken => ?_
  simp only [Bool.and_eq_true, decide_eq_true_eq] at htaken
  obtain ⟨hen, hvalid⟩ := htaken
  rcases h with h | h
  · simp [h] at hen
  · exact h hvalid

/-- HOST_OUT is declined also where the packet is longer than the armed capacity (rule R181). -/
theorem exec_hostOut_of_declined
    (h : s.devEn = false ∨ s.hw[n].rxStatus ≠ .valid ∨ capacity s.bdt[n].countRx < bytes.length) :
    exec (.hostOut n bytes) s = .next (s.declined s.hw[n].rxStatus) := by
  refine if_neg fun htaken => ?_
  simp only [Bool.and_eq_true, decide_eq_true_eq] at htaken
  obtain ⟨⟨hen, hvalid⟩, hfits⟩ := htaken
  rcases h with h | h | h
  · simp [h] at hen
  · exact h hvalid
  · exact Nat.not_lt.mpr hfits h

theorem State.setupAccepted_iff {len : Half} : s.setupAccepted n len = true ↔
    s.devEn = true ∧ s.ep[n].type = .control ∧ s.bdt[n].addrRx ≠ 0 ∧ 8 ≤ capacity s.bdt[n].countRx ∧ len = 8 := by
  simp only [State.setupAccepted, Bool.and_eq_true, decide_eq_true_eq, and_assoc]

/-- A HOST_SETUP of 8 bytes is declined where a precondition of rule R180 fails. -/
theorem exec_hostSetup_of_declined (h : s.devEn = false ∨ s.ep[n].type ≠ .control ∨ s.bdt[n].addrRx = 0
    ∨ capacity s.bdt[n].countRx < 8) : exec (.hostSetup n 8 bytes) s = .next (s.declined s.hw[n].rxStatus) := by
  refine (if_neg fun haccepted => ?_).trans (if_neg (not_not.mpr rfl))
  obtain ⟨hen, htype, haddr, hfits, -⟩ := State.setupAccepted_iff.mp haccepted
  rcases h with h | h | h | h
  · simp [h] at hen
  · exact h htype
  · exact haddr h
  · exact Nat.not_lt.mpr hfits h

/-- A HOST_SETUP of another length has no step (rule R66). -/
theorem exec_hostSetup_of_length {len : Half} (h : len ≠ 8) : exec (.hostSetup n len bytes) s = .next s.noStep := by
  refine (if_neg fun haccepted => ?_).trans (if_pos h)
  obtain ⟨-, -, -, -, hlen⟩ := State.setupAccepted_iff.mp haccepted
  exact h hlen

/-- The command row 3 runs, by the command word (rules R77, R143). -/
theorem State.blRow3_eq (s : State) : s.blRow3 =
    if s.outWord 0 = 0x00 then s.cmdReset else if s.outWord 0 = 0x80 then s.cmdProg
    else if s.outWord 0 = 0x40 then s.cmdRead else if s.outWord 0 = 0xC3 then s.cmdExit else s.cmdUnrecognized := by
  rw [State.blRow3, cmdRowOf_eq]
  split_ifs <;> rfl

end Sys2Proof.Machine

namespace Sys2Proof.Proofs

open Sys2Proof.Machine

/-- Settles O36: the word of each command takes its branch of row 3, and any other word the last. -/
theorem commandWordSelectsCommand : Obligations.CommandWordSelectsCommand := by
  unfold Obligations.CommandWordSelectsCommand
  intro s
  refine ⟨s.blRow3, rfl, fun h => ?_, fun h => ?_, fun h => ?_, fun h => ?_, fun h => ?_⟩ <;> rw [State.blRow3_eq]
  · rw [h]; rfl
  · rw [h]; rfl
  · rw [h]; rfl
  · rw [h]; rfl
  · obtain ⟨hreset, hprog, hread, hexit⟩ :
        s.outWord 0 ≠ 0x00 ∧ s.outWord 0 ≠ 0x80 ∧ s.outWord 0 ≠ 0x40 ∧ s.outWord 0 ≠ 0xC3 := by simpa using h
    rw [if_neg hreset, if_neg hprog, if_neg hread, if_neg hexit]
    rfl

/-- Settles O48: each transaction is declined, and a declined one shows what the side's status gives. -/
theorem declinedTransactionsChangeNothing : Obligations.DeclinedTransactionsChangeNothing := by
  unfold Obligations.DeclinedTransactionsChangeNothing
  intro s n bytes
  refine ⟨fun hoff => ⟨?_, ?_, ?_⟩, fun hen hside => ?_, fun hen hside => ?_, fun hen hvalid hlong => ?_,
    fun hen hdeclined => ?_, fun len hlen => exec_hostSetup_of_length hlen⟩
  · rw [exec_hostIn_of_declined (.inl hoff), State.declined_of_notEnabled hoff]
  · rw [exec_hostOut_of_declined (.inl hoff), State.declined_of_notEnabled hoff]
  · rw [exec_hostSetup_of_declined (.inl hoff), State.declined_of_notEnabled hoff]
  · rw [exec_hostIn_of_declined (.inr hside), State.declined_of_enabled hen]
  · rw [exec_hostOut_of_declined (.inr (.inl hside)), State.declined_of_enabled hen]
  · rw [exec_hostOut_of_declined (.inr (.inr hlong)), State.declined_of_enabled hen, hvalid]
    rfl
  · rw [exec_hostSetup_of_declined (.inr hdeclined), State.declined_of_enabled hen]

end Sys2Proof.Proofs
end

section
/-! The laws the statements of 41_allocator.md share: what one ALLOCATE gives, and the list of packet-memory buffers by
endpoint. -/

namespace Sys2Proof.Machine

open Sys2Proof.Expected

theorem le_roundUp (x : Nat) {m : Nat} (h : 0 < m) : x ≤ roundUp x m := by
  have hmod := Nat.mod_lt (x + m - 1) h
  have hdiv := Nat.div_add_mod' (x + m - 1) m
  rw [roundUp]
  omega

/-- The break advanced in 16 bits is the break advanced as a number, in 16 bits (rule R87). -/
theorem State.allocate_brk (s : State) (len : Half) :
    (s.allocate len).2.brk = BitVec.ofNat 16 (s.brk.toNat + rounded s len.toNat) := by
  rw [State.allocate, roundUp_eq_rounded, BitVec.ofNat_add, BitVec.ofNat_toNat, BitVec.setWidth_eq]

/-- Passing the end of packet memory is recorded (rules R87, R88). -/
theorem State.allocate_faults (s : State) (len : Half) :
    (s.allocate len).2.faults =
      if s.cfg.pmaSize < s.brk.toNat + rounded s len.toNat then { s.faults with pmaOverflow := true } else s.faults := by
  simp only [State.allocate, State.raiseIf_faults, decide_eq_true_eq, gt_iff_lt, roundUp_eq_rounded]
  rfl

/-- With valid parameters an ALLOCATE that ends inside packet memory does not wrap; any other is recorded (rules R87,
R88). -/
theorem State.allocate_fits_or_recorded {s : State} (hv : s.cfg.valid = true) (len : Half) :
    (s.allocate len).2.faults.pmaOverflow = true
    ∨ (s.brk.toNat + len.toNat ≤ (s.allocate len).2.brk.toNat ∧ (s.allocate len).2.brk.toNat ≤ s.cfg.pmaSize) := by
  obtain ⟨hsize, -, -, -, -, hmau, -⟩ := valid_pma _ hv
  by_cases hover : s.cfg.pmaSize < s.brk.toNat + rounded s len.toNat
  · left
    rw [State.allocate_faults, if_pos hover]
  · right
    have hlen : len.toNat ≤ rounded s len.toNat := roundUp_eq_rounded s _ ▸ le_roundUp len.toNat hmau
    rw [State.allocate_brk, BitVec.toNat_ofNat, Nat.mod_eq_of_lt (by omega)]
    omega

/-- The buffer of a side with descriptor address `addr`, if it has one (rules R29, R90). -/
def sideBuffer (addr size : Half) : List (Nat × Nat) := if addr = 0 then [] else [(addr.toNat, size.toNat)]

@[simp] theorem sideBuffer_zero (size : Half) : sideBuffer 0 size = [] := if_pos rfl

theorem sideBuffer_of_ne_zero {addr : Half} (h : addr ≠ 0) (size : Half) :
    sideBuffer addr size = [(addr.toNat, size.toNat)] :=
  if_neg h

/-- The buffers of endpoint `n`. -/
def State.epBuffers (s : State) (n : EpNum) : List (Nat × Nat) :=
  sideBuffer s.bdt[n].addrTx s.ep[n].size ++ sideBuffer s.bdt[n].addrRx s.ep[n].size

theorem State.buffers_eq (s : State) : s.buffers = allEps.flatMap s.epBuffers := rfl

theorem buffers_congr {s t : State} (h : ∀ n, t.epBuffers n = s.epBuffers n) : t.buffers = s.buffers := by
  rw [State.buffers_eq, State.buffers_eq, funext h]

/-- An endpoint whose size does not change under a buffer has the same buffers (rule R93). -/
theorem epBuffers_of_size {s : State} {n : EpNum} {size : Half}
    (h : ¬((s.bdt[n].addrTx ≠ 0 ∨ s.bdt[n].addrRx ≠ 0) ∧ size ≠ s.ep[n].size)) :
    sideBuffer s.bdt[n].addrTx size ++ sideBuffer s.bdt[n].addrRx size = s.epBuffers n := by
  rcases not_and_or.mp h with hnone | hsame
  · obtain ⟨htx, hrx⟩ := not_or.mp hnone
    rw [State.epBuffers, not_not.mp htx, not_not.mp hrx, sideBuffer_zero, sideBuffer_zero]
  · rw [State.epBuffers, not_not.mp hsame]

/-- A buffer that one endpoint gains is the one buffer gained. -/
theorem buffers_perm_cons {s t : State} {n : EpNum} {b : Nat × Nat} (hn : (t.epBuffers n).Perm (b :: s.epBuffers n))
    (hm : ∀ m, m ≠ n → t.epBuffers m = s.epBuffers m) : t.buffers.Perm (b :: s.buffers) := by
  have hsplit : allEps.Perm (n :: allEps.erase n) := List.perm_cons_erase (mem_allEps n)
  have hrest : (allEps.erase n).flatMap t.epBuffers = (allEps.erase n).flatMap s.epBuffers :=
    List.flatMap_congr fun m hmem => hm m ((List.Nodup.mem_erase_iff (by decide)).mp hmem).1
  calc
    List.Perm t.buffers (t.epBuffers n ++ (allEps.erase n).flatMap t.epBuffers) := hsplit.flatMap_right _
    List.Perm _ (b :: s.epBuffers n ++ (allEps.erase n).flatMap s.epBuffers) := hrest ▸ hn.append_right _
    List.Perm _ (b :: s.buffers) := (hsplit.flatMap_right s.epBuffers).symm.cons b

end Sys2Proof.Machine
end

section
/-! The statements of 41_allocator.md. -/

namespace Sys2Proof.Proofs

open Sys2Proof.Machine Sys2Proof.Expected

theorem exec_allocate (s : State) (len : Half) :
    exec (.allocate len) s = .next { s with
      brk := (s.allocate len).2.brk
      obs := .handle s.brk
      faults := (s.allocate len).2.faults } :=
  rfl

/-- Settles O8: the two equations of ALLOCATE; ALLOC_RESET is its definition. -/
theorem allocatorMovesBreak : Obligations.AllocatorMovesBreak := by
  unfold Obligations.AllocatorMovesBreak
  intro s len
  exact ⟨by rw [exec_allocate, State.allocate_brk, State.allocate_faults], rfl⟩

/-- The break, the buffers and the parameters are such as `OutsideStepsKeepBuffersApart` assumes and shows. -/
structure ArenaLegal (s : State) : Prop where
  valid : s.cfg.valid = true
  arena : s.arenaOk = true

/-- Two buffers share no byte. -/
def BuffersApart (a b : Nat × Nat) : Prop := a.1 + a.2 ≤ b.1 ∨ b.1 + b.2 ≤ a.1

/-- Every buffer lies in the arena below the break, and no two share a byte. -/
structure Arena (s : State) : Prop where
  start : s.cfg.arenaStart.toNat ≤ s.brk.toNat
  fits : s.brk.toNat ≤ s.cfg.pmaSize
  inside : ∀ b ∈ s.buffers, s.cfg.arenaStart.toNat ≤ b.1 ∧ b.1 + b.2 ≤ s.brk.toNat
  apart : s.buffers.Pairwise BuffersApart

theorem arenaOk_iff {s : State} :
    s.arenaOk = true ↔ (s.faults.pmaOverflow = true ∨ s.faults.resizeAllocated = true) ∨ Arena s := by
  have harena : Arena s ↔ ((s.cfg.arenaStart.toNat ≤ s.brk.toNat ∧ s.brk.toNat ≤ s.cfg.pmaSize)
      ∧ ∀ b ∈ s.buffers, s.cfg.arenaStart.toNat ≤ b.1 ∧ b.1 + b.2 ≤ s.brk.toNat) ∧ s.buffers.Pairwise BuffersApart :=
    ⟨fun h => ⟨⟨⟨h.start, h.fits⟩, h.inside⟩, h.apart⟩, fun ⟨⟨⟨hs, hf⟩, hi⟩, ha⟩ => ⟨hs, hf, hi, ha⟩⟩
  simp only [harena, State.arenaOk, Bool.or_eq_true, Bool.and_eq_true, decide_eq_true_eq, List.all_eq_true]
  rfl

/-- A buffer between the old break and the new one lies in the arena, apart from those below the old break (rules R87,
R91). -/
theorem Arena.allocated {s t : State} (h : Arena s) (size : Nat) (hcfg : t.cfg = s.cfg)
    (hroom : s.brk.toNat + size ≤ t.brk.toNat) (hfits : t.brk.toNat ≤ s.cfg.pmaSize)
    (hperm : t.buffers.Perm ((s.brk.toNat, size) :: s.buffers)) : Arena t where
  start := by rw [hcfg]; exact h.start.trans (by omega)
  fits := hcfg ▸ hfits
  inside b hb := by
    rw [hcfg]
    rcases List.mem_cons.mp (hperm.mem_iff.mp hb) with rfl | hold
    · exact ⟨h.start, hroom⟩
    · obtain ⟨hlo, hhi⟩ := h.inside b hold
      exact ⟨hlo, hhi.trans (by omega)⟩
  apart := by
    refine (hperm.pairwise_iff fun hab => Or.symm hab).mpr (List.pairwise_cons.mpr ⟨fun b hb => ?_, h.apart⟩)
    exact .inr (h.inside b hb).2

/-- The parameters say that an empty arena lies inside packet memory (rules R42, R89). -/
theorem ArenaLegal.of_cleared {t : State} (hv : t.cfg.valid = true) (hbrk : t.brk = t.cfg.arenaStart)
    (hbdt : t.bdt = Vector.replicate 8 Descriptor.reset) : ArenaLegal t := by
  obtain ⟨-, -, hroom, -⟩ := valid_pma _ hv
  have hbuffers : t.buffers = [] := by simp [State.buffers, hbdt, Descriptor.reset]
  refine ⟨hv, arenaOk_iff.mpr (.inr ⟨?_, ?_, ?_, ?_⟩)⟩
  · rw [hbrk]
  · rw [hbrk]; omega
  · simp [hbuffers]
  · simp [hbuffers]

namespace ArenaLegal

variable {s : State} (h : ArenaLegal s)
include h

/-- An operation keeps the arena where it does so while neither fault is recorded: a recorded one stays. -/
theorem of_remembers {t : State} (hcfg : t.cfg = s.cfg) (hrec : Remembers s t) (harena : Arena s → t.arenaOk = true) :
    ArenaLegal t where
  valid := hcfg ▸ h.valid
  arena := (arenaOk_iff.mp h.arena).elim
    (fun hf => arenaOk_iff.mpr (.inl (hf.imp (hrec.faults .pmaOverflow) (hrec.faults .resizeAllocated)))) harena

/-- An operation that leaves the break and the buffers. -/
theorem frame {t : State} (hcfg : t.cfg = s.cfg) (hrec : Remembers s t) (hbrk : t.brk = s.brk)
    (hbuffers : ∀ n, t.epBuffers n = s.epBuffers n) : ArenaLegal t :=
  h.of_remembers hcfg hrec fun ⟨hstart, hfits, hinside, hapart⟩ => by
    have hb := buffers_congr hbuffers
    exact arenaOk_iff.mpr (.inr ⟨hcfg ▸ hbrk ▸ hstart, hcfg ▸ hbrk ▸ hfits, hcfg ▸ hbrk ▸ hb ▸ hinside, hb ▸ hapart⟩)

/-- An operation that writes no size in an endpoint record. -/
theorem modEp (n : EpNum) (f : Endpoint → Endpoint) (hf : ∀ e, (f e).size = e.size := by intros; rfl) :
    ArenaLegal (s.modEp n f) :=
  h.frame rfl ((Remembers.refl s).modEp n f) rfl fun m => by
    have hsize : (s.modEp n f).ep[m].size = s.ep[m].size := by
      rw [State.modEp_get]; split
      next hm => rw [hf, hm]
      · rfl
    rw [State.epBuffers, hsize]; rfl

/-- An operation that writes no address in a descriptor. -/
theorem modBdt (n : EpNum) (f : Descriptor → Descriptor) (htx : ∀ d, (f d).addrTx = d.addrTx := by intros; rfl)
    (hrx : ∀ d, (f d).addrRx = d.addrRx := by intros; rfl) : ArenaLegal (s.modBdt n f) :=
  h.frame rfl ((Remembers.refl s).modBdt n f) rfl fun m => by
    have haddr : (s.modBdt n f).bdt[m].addrTx = s.bdt[m].addrTx ∧ (s.modBdt n f).bdt[m].addrRx = s.bdt[m].addrRx := by
      rw [State.modBdt_get]; split
      next hm => rw [htx, hrx, hm]; exact ⟨rfl, rfl⟩
      · exact ⟨rfl, rfl⟩
    rw [State.epBuffers, haddr.1, haddr.2]; rfl

/-- The first use of a side: its endpoint gains a buffer at the break (rules R87, R90). -/
theorem firstUse (n : EpNum) {f : Descriptor → Descriptor}
    (hgain : s.brk ≠ 0 → (sideBuffer (f s.bdt[n]).addrTx s.ep[n].size ++ sideBuffer (f s.bdt[n]).addrRx s.ep[n].size).Perm
      ((s.brk.toNat, s.ep[n].size.toNat) :: s.epBuffers n)) :
    ArenaLegal ((s.allocate s.ep[n].size).2.modBdt n f) :=
  h.of_remembers rfl (((Remembers.refl s).allocate _).modBdt n f) fun harena => by
    rcases State.allocate_fits_or_recorded h.valid s.ep[n].size with hover | ⟨hroom, hfits⟩
    · exact arenaOk_iff.mpr (.inl (.inl hover))
    · obtain ⟨-, hlow, -⟩ := valid_pma _ h.valid
      have hbrk : s.brk ≠ 0 := fun h0 => by
        have hstart := harena.start
        have hzero : s.brk.toNat = 0 := congrArg BitVec.toNat h0
        omega
      refine arenaOk_iff.mpr (.inr (harena.allocated s.ep[n].size.toNat rfl hroom hfits
        (buffers_perm_cons (n := n) ?_ fun m hm => ?_)))
      · simpa [State.epBuffers] using hgain hbrk
      · rw [State.epBuffers, State.modBdt_get, if_neg (Ne.symm hm)]; rfl

theorem ensureTx (n : EpNum) : ArenaLegal (s.ensureTx n) := by
  unfold State.ensureTx
  split
  next hfirst =>
    refine h.firstUse n fun hbrk => ?_
    rw [State.epBuffers, hfirst, sideBuffer_zero, List.nil_append]
    exact .of_eq (congrArg (· ++ _) (sideBuffer_of_ne_zero hbrk _))
  · exact h

theorem ensureRx (n : EpNum) : ArenaLegal (s.ensureRx n) := by
  unfold State.ensureRx
  split
  next hfirst =>
    refine h.firstUse n fun hbrk => ?_
    rw [State.epBuffers, hfirst, sideBuffer_zero, List.append_nil]
    exact (sideBuffer_of_ne_zero hbrk _).symm ▸ List.perm_append_singleton _ _
  · exact h

/-- Recording a fault. -/
theorem raiseIf (c : Bool) (k : FaultKind) : ArenaLegal (s.raiseIf c k) :=
  h.frame rfl ((Remembers.refl s).raiseIf c k) rfl fun _ => rfl

theorem pmaWrite (o : Nat) (bs : List Byte) : ArenaLegal (s.pmaWrite o bs) :=
  h.frame rfl ((Remembers.refl s).pmaWrite o bs) rfl fun _ => rfl

theorem pmaTouch (o n : Nat) : ArenaLegal (s.pmaTouch o n) :=
  h.frame rfl ((Remembers.refl s).pmaTouch o n) rfl fun _ => rfl

theorem pmaCellOpen (o n : Nat) : ArenaLegal (s.pmaCellOpen o n) := ⟨h.valid, h.arena⟩

theorem modHw (n : EpNum) (f : EpHardware → EpHardware) : ArenaLegal (s.modHw n f) := ⟨h.valid, h.arena⟩

theorem ramWrite (a : Word) (bs : List Byte) : ArenaLegal (s.ramWrite a bs) := ⟨h.valid, h.arena⟩

theorem producePacket (n : EpNum) : ArenaLegal (s.producePacket n) := by
  unfold State.producePacket
  exact ((((((h.raiseIf _ _).ensureTx n).pmaWrite _ _).pmaCellOpen _ _).modBdt n _).modEp n _).modHw n _

theorem sendNextPacket (n : EpNum) : ArenaLegal (s.sendNextPacket n) := by
  unfold State.sendNextPacket
  split
  · exact h
  · exact h.producePacket n

theorem beginSend (n : EpNum) (buf : Word) (len : Half) : ArenaLegal (s.beginSend n buf len) := by
  unfold State.beginSend
  split
  · exact (h.modEp n _).modHw n _
  · exact ((h.raiseIf _ _).modEp n _).sendNextPacket n

theorem beginPacketReceive (n : EpNum) : ArenaLegal (s.beginPacketReceive n) := by
  unfold State.beginPacketReceive
  split
  · exact h
  · exact (((h.raiseIf _ _).ensureRx n).modBdt n _).modHw n _

theorem beginReceive (n : EpNum) (buf : Word) (len : Half) : ArenaLegal (s.beginReceive n buf len) := by
  unfold State.beginReceive
  split
  · exact (h.modEp n _).modHw n _
  · exact ((h.raiseIf _ _).modEp n _).beginPacketReceive n

theorem takeSetup (n : EpNum) : ArenaLegal (s.takeSetup n) := by
  unfold State.takeSetup
  exact (h.pmaTouch _ _).modEp n _

theorem takeData (n : EpNum) (count : BitVec 10) : ArenaLegal (s.takeData n count).2 := by
  have hcopy : ArenaLegal (s.copyReceived n count) := (h.pmaTouch _ _).ramWrite _ _
  by_cases hc : s.ep[n].rxTerminal count = true
  · rw [State.takeData_of_terminal s n count hc]
    exact hcopy.modEp n fun e => { e with rxPos := 0 }
  · rw [State.takeData_of_not_terminal s n count hc]
    exact (hcopy.modEp n _).beginPacketReceive n

theorem packetIn (n : EpNum) (bs : List Byte) (setup : Bool) : ArenaLegal (s.packetIn n bs setup) := by
  unfold State.packetIn
  exact (((h.raiseIf _ _).pmaWrite _ _).modBdt n _).modHw n _

/-- A size that changes under a buffer is recorded; any other leaves the buffers (rule R93). -/
theorem epConfigure (n : EpNum) (type : EpType) (size : Half) (flags : Word) :
    ArenaLegal (s.epConfigure n type size flags) := by
  by_cases hok : configOk type size flags = true
  · have hrec := (Remembers.refl s).epConfigure n type size flags
    rw [State.epConfigure_of_configOk s n hok] at hrec ⊢
    by_cases hresize : (s.bdt[n].addrTx ≠ 0 ∨ s.bdt[n].addrRx ≠ 0) ∧ size ≠ s.ep[n].size
    · refine h.of_remembers rfl hrec fun _ => arenaOk_iff.mpr (.inl (.inr ?_))
      rw [State.modHw_faults, State.modEp_faults, decide_eq_true hresize]
      rfl
    · refine h.frame rfl hrec rfl fun m => ?_
      rw [State.epBuffers, State.modHw_ep, State.modEp_get]
      split
      next hm =>
        subst hm
        exact epBuffers_of_size hresize
      · rfl
  · obtain ⟨r, hr⟩ := s.epConfigure_refuses n hok
    rw [hr]
    exact ⟨h.valid, h.arena⟩

end ArenaLegal

/-- The operations that can write the break, an address, a size or the two faults are those above; a bus reset empties
the arena. -/
theorem arenaLegal_kept : Kept ArenaLegal where
  epConfigure _ n type size flags h := h.epConfigure n type size flags
  beginSend _ n buf len h := h.beginSend n buf len
  beginReceive _ n buf len h := h.beginReceive n buf len
  sendNextPacket _ n h := h.sendNextPacket n
  takeSetup _ n h := h.takeSetup n
  takeData _ n count _ h := h.takeData n count
  packetIn _ n bs setup h := h.packetIn n bs setup
  overrun _ c h := h.raiseIf c _
  pmaTouch _ o n h := h.pmaTouch o n
  busCleared _ h := .of_cleared h.valid rfl rfl
  modHw _ n f h := h.modHw n f
  ramWrite _ a bs h := h.ramWrite a bs
  refuse _ _ h := ⟨h.valid, h.arena⟩
  obs _ _ h := ⟨h.valid, h.arena⟩
  notify _ _ h := ⟨h.valid, h.arena⟩
  completed _ _ h := ⟨h.valid, h.arena⟩
  answered _ h := ⟨h.valid, h.arena⟩
  setCtl _ _ h := ⟨h.valid, h.arena⟩
  devAddr _ _ h := ⟨h.valid, h.arena⟩
  modBl _ _ _ h := ⟨h.valid, h.arena⟩
  setInWord _ _ _ h := ⟨h.valid, h.arena⟩
  erase _ _ h := ⟨h.valid, h.arena⟩
  writeHalf _ _ _ _ h := ⟨h.valid, h.arena⟩
  received _ _ _ h := ⟨h.valid, h.arena⟩

/-- Settles O52: every operation an input from outside can run keeps the buffers apart, and a restart frees them. That
the registers are legal is not needed: valid parameters alone keep the break from wrapping. -/
theorem outsideStepsKeepBuffersApart : Obligations.OutsideStepsKeepBuffersApart := by
  unfold Obligations.OutsideStepsKeepBuffersApart
  intro s t houtside hv _ harena hstep
  have hlegal : ArenaLegal t := arenaLegal_kept.step_outside houtside (fun _ => ⟨hv, harena⟩)
    (fun _ _ _ => ⟨hv, harena⟩) (fun _ _ _ => .of_cleared hv rfl rfl) hstep
  exact hlegal.arena

end Sys2Proof.Proofs
end

section
/-! Between resets the break only advances (rules R87, R91). `Kept` also asks for the clearing part of BUS_RESET, which
takes the break back, so the operations are followed here without it. -/

namespace Sys2Proof.Proofs

open Sys2Proof.Machine Sys2Proof.Expected

/-- A half-page with another CRC than the declared one: the echo and the status (rule R159). -/
theorem halfPage_of_badCrc {s : State} {upper : Bool} (hcrc : crc32 s.outReport ≠ halfCrc s upper) :
    s.halfPage upper = (crcEchoed s upper).status .badCrc32 .reset :=
  if_pos hcrc

/-- The break is at least `b`, or an over-allocation is recorded; the parameters are valid. -/
structure BreakAtLeast (b : Nat) (s : State) : Prop where
  valid : s.cfg.valid = true
  brk : s.faults.pmaOverflow = true ∨ b ≤ s.brk.toNat

namespace BreakAtLeast

variable {b : Nat} {s : State} (h : BreakAtLeast b s)
include h

/-- An operation that leaves the break and forgets no fault. -/
theorem of_remembers {t : State} (hcfg : t.cfg = s.cfg) (hbrk : t.brk = s.brk) (hrec : Remembers s t) :
    BreakAtLeast b t :=
  ⟨hcfg ▸ h.valid, h.brk.imp (hrec.faults .pmaOverflow) fun hb => hbrk ▸ hb⟩

/-- An operation that leaves the break and the faults. -/
theorem frame {t : State} (hcfg : t.cfg = s.cfg) (hbrk : t.brk = s.brk) (hfaults : t.faults = s.faults) :
    BreakAtLeast b t :=
  ⟨hcfg ▸ h.valid, hbrk ▸ hfaults ▸ h.brk⟩

/-- The one operation that moves the break moves it up, or is recorded (rules R87, R88). -/
theorem allocate (len : Half) : BreakAtLeast b (s.allocate len).2 := by
  refine ⟨h.valid, ?_⟩
  rcases h.brk with hover | hb
  · exact .inl (((Remembers.refl s).allocate len).faults .pmaOverflow hover)
  · exact (State.allocate_fits_or_recorded h.valid len).imp_right fun ⟨hup, _⟩ => by omega

/-! What leaves the break. -/

theorem modEp (n : EpNum) (f : Endpoint → Endpoint) : BreakAtLeast b (s.modEp n f) := h.frame rfl rfl rfl

theorem modBdt (n : EpNum) (f : Descriptor → Descriptor) : BreakAtLeast b (s.modBdt n f) := h.frame rfl rfl rfl

theorem pmaCellOpen (o n : Nat) : BreakAtLeast b (s.pmaCellOpen o n) := h.frame rfl rfl rfl

theorem modHw (n : EpNum) (f : EpHardware → EpHardware) : BreakAtLeast b (s.modHw n f) := h.frame rfl rfl rfl

theorem modBl (f : Boot → Boot) : BreakAtLeast b (s.modBl f) := h.frame rfl rfl rfl

theorem setCtl (v : CtlState) : BreakAtLeast b (s.setCtl v) := h.frame rfl rfl rfl

theorem setInWord (i : Nat) (v : Word) : BreakAtLeast b (s.setInWord i v) := h.frame rfl rfl rfl

theorem ramWrite (a : Word) (bs : List Byte) : BreakAtLeast b (s.ramWrite a bs) := h.frame rfl rfl rfl

theorem flashErasePage (a : Word) : BreakAtLeast b (s.flashErasePage a).2 := h.frame rfl rfl rfl

theorem flashWriteHalf (a : Word) (bs : List Byte) : BreakAtLeast b (s.flashWriteHalf a bs).2 := h.frame rfl rfl rfl

theorem showing (o : Obs) : BreakAtLeast b { s with obs := o } := h.frame rfl rfl rfl

theorem received (o : Obs) (ps : List (List Byte)) : BreakAtLeast b { s with obs := o, hostReceived := ps } :=
  h.frame rfl rfl rfl

theorem refuse (r : RefusalReason) : BreakAtLeast b (s.refuse r) := h.frame rfl rfl rfl

theorem notify (x : Notice) : BreakAtLeast b (s.notify x) := h.frame rfl rfl rfl

theorem raiseIf (c : Bool) (k : FaultKind) : BreakAtLeast b (s.raiseIf c k) :=
  h.of_remembers rfl rfl ((Remembers.refl s).raiseIf c k)

theorem pmaWrite (o : Nat) (bs : List Byte) : BreakAtLeast b (s.pmaWrite o bs) :=
  h.of_remembers rfl rfl ((Remembers.refl s).pmaWrite o bs)

theorem pmaTouch (o n : Nat) : BreakAtLeast b (s.pmaTouch o n) :=
  h.of_remembers rfl rfl ((Remembers.refl s).pmaTouch o n)

/-! The transfer engine. -/

theorem ensureTx (n : EpNum) : BreakAtLeast b (s.ensureTx n) := by
  unfold State.ensureTx
  split
  · exact (h.allocate _).modBdt n _
  · exact h

theorem ensureRx (n : EpNum) : BreakAtLeast b (s.ensureRx n) := by
  unfold State.ensureRx
  split
  · exact (h.allocate _).modBdt n _
  · exact h

theorem producePacket (n : EpNum) : BreakAtLeast b (s.producePacket n) := by
  unfold State.producePacket
  exact ((((((h.raiseIf _ _).ensureTx n).pmaWrite _ _).pmaCellOpen _ _).modBdt n _).modEp n _).modHw n _

theorem sendNextPacket (n : EpNum) : BreakAtLeast b (s.sendNextPacket n) := by
  unfold State.sendNextPacket
  split
  · exact h
  · exact h.producePacket n

theorem beginPacketReceive (n : EpNum) : BreakAtLeast b (s.beginPacketReceive n) := by
  unfold State.beginPacketReceive
  split
  · exact h
  · exact (((h.raiseIf _ _).ensureRx n).modBdt n _).modHw n _

theorem beginSend (n : EpNum) (buf : Word) (len : Half) : BreakAtLeast b (s.beginSend n buf len) := by
  unfold State.beginSend
  split
  · exact (h.modEp n _).modHw n _
  · exact ((h.raiseIf _ _).modEp n _).sendNextPacket n

theorem beginReceive (n : EpNum) (buf : Word) (len : Half) : BreakAtLeast b (s.beginReceive n buf len) := by
  unfold State.beginReceive
  split
  · exact (h.modEp n _).modHw n _
  · exact ((h.raiseIf _ _).modEp n _).beginPacketReceive n

theorem epConfigure (n : EpNum) (type : EpType) (size : Half) (flags : Word) :
    BreakAtLeast b (s.epConfigure n type size flags) :=
  h.of_remembers (by simp) (by simp) ((Remembers.refl s).epConfigure n type size flags)

theorem takeData (n : EpNum) (count : BitVec 10) : BreakAtLeast b (s.takeData n count).2 := by
  have hcopy : BreakAtLeast b (s.copyReceived n count) := (h.pmaTouch _ _).ramWrite _ _
  by_cases hc : s.ep[n].rxTerminal count = true
  · rw [State.takeData_of_terminal s n count hc]
    exact hcopy.modEp n fun e => { e with rxPos := 0 }
  · rw [State.takeData_of_not_terminal s n count hc]
    exact (hcopy.modEp n _).beginPacketReceive n

theorem endPacketReceive (n : EpNum) (count : BitVec 10) (setup : Bool) :
    BreakAtLeast b (s.endPacketReceive n count setup).2 := by
  unfold State.endPacketReceive
  split
  · exact h.of_remembers (by simp) (by simp) ((Remembers.refl s).takeSetup n)
  · split
    · exact h
    · exact h.takeData n count

/-! The bootloader. -/

theorem status (code : ErrCode) (next : BlState) : BreakAtLeast b (s.status code next) := by
  unfold State.status
  exact (((h.setInWord _ _).setInWord _ _).beginSend _ _ _).modBl _

theorem cmdProg : BreakAtLeast b s.cmdProg := by
  unfold State.cmdProg
  dsimp only
  split
  · exact (h.modBl _).status _ _
  · split
    · exact ((h.modBl _).flashErasePage _).status _ _
    · exact ((h.modBl _).flashErasePage _).status _ _

theorem halfPage (upper : Bool) : BreakAtLeast b (s.halfPage upper) := by
  have hwritten : BreakAtLeast b (halfWritten s upper) := (h.setInWord _ _).flashWriteHalf _ _
  by_cases hcrc : crc32 s.outReport = halfCrc s upper
  · cases hpass : flashPasses s
    · rw [halfPage_of_fails hcrc hpass]
      exact hwritten.status _ _
    · rw [halfPage_of_passes hcrc hpass]
      exact hwritten.status _ _
  · rw [halfPage_of_badCrc hcrc]
    exact (h.setInWord _ _).status _ _

theorem blRow3 : BreakAtLeast b s.blRow3 := by
  unfold State.blRow3
  split
  · exact (h.ramWrite _ _).status _ _
  · exact h.cmdProg
  · exact (h.modBl _).status _ _
  · exact (h.modBl _).status _ _
  · exact h.status _ _

theorem hidArmOut : BreakAtLeast b s.hidArmOut := h.beginReceive _ _ _

theorem blEvent (e : BlEvent) : BreakAtLeast b (s.blEvent e) := by
  unfold State.blEvent
  split
  · exact h.hidArmOut.modBl _
  · exact h.status _ _
  · exact h.blRow3
  · exact h.hidArmOut.modBl _
  · exact h.halfPage _
  · exact h.halfPage _
  · exact h.refuse _
  · exact h.refuse _
  · exact h.status _ _

/-! The control pipeline. -/

theorem stallEp0 : BreakAtLeast b s.stallEp0 := (h.beginSend _ _ _).beginReceive _ _ _

theorem hidBinding : BreakAtLeast b s.hidBinding := (h.epConfigure _ _ _ _).blEvent _

theorem setupDispatch : BreakAtLeast b s.setupDispatch.2 := by
  unfold State.setupDispatch
  split
  case h_4 => exact h.hidBinding
  all_goals exact h.frame rfl rfl rfl

theorem startStage (p : SetupPacket) (a : Answer) : BreakAtLeast b (s.startStage p a) := by
  unfold State.startStage
  split
  · exact h.stallEp0.setCtl _
  · dsimp only
    split
    · exact (h.beginSend _ _ _).setCtl _
    · split
      · exact (h.beginSend _ _ _).setCtl _
      · exact (h.beginReceive _ _ _).setCtl _

theorem ctlRow1 : BreakAtLeast b s.ctlRow1 := ((h.epConfigure _ _ _ _).beginReceive _ _ _).setCtl _

theorem ctlRow2 : BreakAtLeast b s.ctlRow2 := h.setupDispatch.startStage _ _

theorem ctlRow3 : BreakAtLeast b s.ctlRow3 := by
  unfold State.ctlRow3
  split
  · exact (h.beginReceive _ _ _).setCtl _
  · exact (h.beginSend _ _ _).setCtl _

theorem ctlRow4 : BreakAtLeast b s.ctlRow4 := by
  have hdone (a : BitVec 7) (p : SetupPacket) : BreakAtLeast b (({ s with devAddr := a } : State).controlComplete p) :=
    h.frame rfl rfl rfl
  exact ((hdone _ _).beginReceive _ _ _).setCtl _

theorem ctlRow5 : BreakAtLeast b s.ctlRow5 := h.stallEp0.setCtl _

theorem ctlEvent (e : CtlEvent) : BreakAtLeast b (s.ctlEvent e) := by
  unfold State.ctlEvent
  split
  · exact h.ctlRow1
  · exact h.ctlRow2
  · exact h.ctlRow3
  · exact h.ctlRow4
  · exact h.ctlRow5

/-! The handler's events and the application's requests. -/

theorem notifySent (n : EpNum) : BreakAtLeast b (s.notifySent n) := by
  unfold State.notifySent
  split
  · exact h.ctlEvent _
  · split
    · exact h.blEvent _
    · exact h.notify _

theorem notifyReceived (n : EpNum) (r : RecvResult) : BreakAtLeast b (s.notifyReceived n r) := by
  unfold State.notifyReceived
  split
  · split
    · exact h.ctlEvent _
    · exact h.notify _
  · split
    · exact h.ctlEvent _
    · split
      · exact h.blEvent _
      · exact h.notify _
  · exact h
  · exact h

theorem request {f : State → State} (hf : BreakAtLeast b (f s)) : BreakAtLeast b (s.request f) := by
  unfold State.request
  split
  · exact h.showing _
  · exact hf

theorem packetIn (n : EpNum) (bs : List Byte) (setup : Bool) : BreakAtLeast b (s.packetIn n bs setup) :=
  h.of_remembers (by simp) (by simp) ((Remembers.refl s).packetIn n bs setup)

theorem txComplete {n : EpNum} {t : State} (he : exec (.txComplete n) s = .next t) : BreakAtLeast b t := by
  have hsent : BreakAtLeast b ((s.clearCtrTx n).sendNextPacket n) := (h.modHw n _).sendNextPacket n
  simp only [exec, execTxComplete] at he
  split at he
  · cases he; exact h.showing _
  · split at he <;> cases he
    · exact hsent.notifySent n
    · exact hsent

theorem rxComplete {n : EpNum} {t : State} (he : exec (.rxComplete n) s = .next t) : BreakAtLeast b t := by
  have hreceived (count : BitVec 10) (setup : Bool) :
      BreakAtLeast b ((s.clearCtrRx n).endPacketReceive n count setup).2 := (h.modHw n _).endPacketReceive n count setup
  simp only [exec, execRxComplete] at he
  split at he <;> cases he
  · exact h.showing _
  · exact (hreceived _ _).notifyReceived n _

theorem hostIn {n : EpNum} {t : State} (he : exec (.hostIn n) s = .next t) : BreakAtLeast b t := by
  simp only [exec, execHostIn] at he
  split at he <;> cases he
  · exact (((h.raiseIf _ _).pmaTouch _ _).modHw n _).received _ _
  · exact h.showing _

theorem hostOut {n : EpNum} {bytes : List Byte} {t : State} (he : exec (.hostOut n bytes) s = .next t) :
    BreakAtLeast b t := by
  simp only [exec, execHostOut] at he
  split at he <;> cases he
  · exact h.packetIn _ _ _
  · exact h.showing _

theorem hostSetup {n : EpNum} {len : Half} {bytes : List Byte} {t : State}
    (he : exec (.hostSetup n len bytes) s = .next t) : BreakAtLeast b t := by
  simp only [exec, execHostSetup] at he
  split at he
  · cases he; exact (h.packetIn _ _ _).modHw n _
  · split at he <;> cases he <;> exact h.showing _

theorem exec {i : Instr} {t : State} (hbus : i ≠ .busReset) (halloc : i ≠ .allocReset) (he : exec i s = .next t) :
    BreakAtLeast b t := by
  cases i
  case busReset => exact absurd rfl hbus
  case allocReset => exact absurd rfl halloc
  case txComplete => exact h.txComplete he
  case rxComplete => exact h.rxComplete he
  case hostIn => exact h.hostIn he
  case hostOut => exact h.hostOut he
  case hostSetup => exact h.hostSetup he
  all_goals cases he
  case epConfigure => exact h.request (h.epConfigure _ _ _ _)
  case beginSend => exact h.request (h.beginSend _ _ _)
  case beginReceive => exact h.request (h.beginReceive _ _ _)
  case sendNextPacket => exact h.sendNextPacket _
  case beginPacketReceive => exact h.beginPacketReceive _
  case endPacketReceive => exact (h.endPacketReceive _ _ _).showing _
  case allocate => exact (h.allocate _).showing _
  case ctlReset | ctlSetup | ctlIn | ctlOut => exact h.ctlEvent _
  case blConfigured | blOutFull | blOutShort | blInSent => exact h.blEvent _
  case ctlRow1Reset => exact h.ctlRow1
  case ctlRow2Setup => exact h.ctlRow2
  case ctlRow3DataDone => exact h.ctlRow3
  case ctlRow4StatusDone => exact h.ctlRow4
  case ctlRow5Other => exact h.ctlRow5
  case reqSetConfiguration => exact h.hidBinding.showing _
  case reqGetStatus | reqGetDescriptor | reqSetAddress => exact h.showing _
  case reqOther => exact h.frame rfl rfl rfl
  case blRow1Configured | blRow4StatusSent => exact h.hidArmOut.modBl _
  case blRow3Command => exact h.blRow3
  case blRow5LowerHalf | blRow6UpperHalf => exact h.halfPage _
  case blRow7Lread | blRow8Uread => exact h.refuse _
  case blRow2OutShort | blRow9Fsm | cmdUnrecognized => exact h.status _ _
  case cmdReset => exact (h.ramWrite _ _).status _ _
  case cmdRead | cmdExit => exact (h.modBl _).status _ _
  case cmdProg => exact h.cmdProg

end BreakAtLeast

/-- Settles O9: every instruction but the two resets keeps the break at least where it was, or records the fault. -/
theorem breakNeverDecreases : Obligations.BreakNeverDecreases := by
  unfold Obligations.BreakNeverDecreases
  intro i s t hv hbus halloc he hclean
  have hbrk : BreakAtLeast s.brk.toNat t := BreakAtLeast.exec ⟨hv, .inr le_rfl⟩ hbus halloc he
  exact hbrk.brk.resolve_left (by simp [hclean])

end Sys2Proof.Proofs
end

section
/-! The laws the statements of 42_transfer_send.md share: one packet in the words of the statements, its bytes in packet
memory, and the outcomes of HOST_IN and TX_COMPLETE. -/

namespace Sys2Proof.Machine

open Sys2Proof.Expected

/-- A set completion flag makes the handler drain (rule R173). -/
theorem State.draining_of_flag {s : State} {n : EpNum} (h : s.hw[n].ctrTx = true ∨ s.hw[n].ctrRx = true) :
    s.draining = true := by
  refine Bool.eq_true_of_not_eq_false fun hidle => ?_
  obtain ⟨htx, hrx⟩ := s.draining_iff.mp hidle n
  exact h.elim (by rw [htx]; exact Bool.false_ne_true) (by rw [hrx]; exact Bool.false_ne_true)

/-! One packet. -/

/-- The size of the next packet (rules R84, R97). -/
theorem txChunk_toNat (e : Endpoint) : e.txChunk.toNat = chunk e := by
  rw [Endpoint.txChunk, chunk, ← Endpoint.txCompleted]
  split
  next hle => exact (Nat.min_eq_left hle).symm
  next hle => exact (Nat.min_eq_right (Nat.le_of_not_le hle)).symm

/-- The send completion rule (rule R98). -/
theorem txTerminal_iff (e : Endpoint) : e.txTerminal = true ↔ Terminal e := by
  have hchunk : e.txChunk = e.size ↔ chunk e = e.size.toNat := by rw [← BitVec.toNat_inj, txChunk_toNat]
  simp only [Endpoint.txTerminal, Endpoint.noZlp, Bool.or_eq_true, Bool.and_eq_true, decide_eq_true_eq, ne_eq, hchunk,
    and_assoc, Terminal, ← txChunk_toNat, BitVec.ofNat_toNat, BitVec.setWidth_eq]
  rfl

/-- The count field of a packet of `c` bytes (rules R28, R97). -/
theorem countField (c : Half) : (countOf c).setWidth 16 = BitVec.ofNat 16 (c.toNat % 1024) := by
  apply BitVec.eq_of_toNat_eq
  simp [countOf, BitVec.extractLsb'_toNat]

/-- The cursor and the endpoint record after one packet (rules R97, R98). -/
theorem afterPacket_eq (e : Endpoint) :
    { e with txPos := if e.txTerminal then 0 else e.txPos + e.txChunk.setWidth 32 } = afterPacket e := by
  simp only [afterPacket, txTerminal_iff, ← txChunk_toNat, BitVec.ofNat_toNat]

/-- SEND_NEXT_PACKET with a packet to send, in the words of the statements (rules R97, R98). -/
theorem State.sendNextPacket_packet (s : State) (n : EpNum) (hpos : s.ep[n].txPos ≠ 0) (hsize : s.ep[n].size ≠ 0) :
    s.sendNextPacket n = { s with
      brk := breakAfter s n s.bdt[n].addrTx
      ep := s.ep.set n (afterPacket s.ep[n])
      bdt := s.bdt.set n { s.bdt[n] with addrTx := txAddr s n, countTx := BitVec.ofNat 16 (chunk s.ep[n] % 1024) }
      hw := s.hw.set n { s.hw[n] with txStatus := .valid }
      pma := s.sentPma n s.ep[n].txPos (chunk s.ep[n])
      draws := s.draws + 1
      faults := { s.faults with
        txOverwrite := s.faults.txOverwrite || decide (s.hw[n].txStatus = .valid)
        pmaOverflow := s.faults.pmaOverflow || overflows s n s.bdt[n].addrTx
          || decide (0 < chunk s.ep[n] ∧ s.cfg.pmaSize < (txAddr s n).toNat + chunk s.ep[n]) } } := by
  rw [State.sendNextPacket_eq s n hpos hsize, afterPacket_eq]
  simp only [State.txPma, State.txBytes, State.brkAfter_eq, State.overAllocates_eq, countField, txChunk_toNat]
  rfl

theorem State.sendNextPacket_pma (s : State) (n : EpNum) (hpos : s.ep[n].txPos ≠ 0) (hsize : s.ep[n].size ≠ 0) :
    (s.sendNextPacket n).pma = s.sentPma n s.ep[n].txPos (chunk s.ep[n]) := by
  rw [s.sendNextPacket_packet n hpos hsize]

/-- A packet holds the bytes of RAM it was produced from, as far as packet memory reaches (rule R97). -/
theorem State.sentPma_inside {s : State} (h : s.pma.wf = true) (n : EpNum) (buf : Word) {len k : Nat} (hk : k < len)
    (hin : (txAddr s n).toNat + k < s.cfg.pmaSize) :
    (s.sentPma n buf len).read ((txAddr s n).toNat + k) = s.ram.read (ptrKey buf k) := by
  have hlen : (s.ram.load buf 0 len).length = len := Memory.length_load _ _ _ _
  rw [State.sentPma, read_pmaOpen (pmaStore_wf h _ _ _), if_neg (by omega), read_pmaStore h, dif_pos (by omega)]
  simp only [Nat.add_sub_cancel_left, Memory.getElem_load, Nat.zero_add]

/-- A packet leaves every byte before it and beyond the unit it ends in (rule R49). -/
theorem State.sentPma_outside {s : State} (h : s.pma.wf = true) (n : EpNum) (buf : Word) {len o : Nat}
    (ho : o < (txAddr s n).toNat ∨ copyEnd s (txAddr s n).toNat len ≤ o) :
    (s.sentPma n buf len).read o = s.pma.read o := by
  have hlen : (s.ram.load buf 0 len).length = len := Memory.length_load _ _ _ _
  have hrest : o < (txAddr s n).toNat
      ∨ (txAddr s n).toNat + len + cellRest s.cfg.mau (txAddr s n).toNat len ≤ o := by
    simp only [copyEnd, ← roundUp_eq_rounded] at ho
    rw [cellRest]
    split_ifs at ho ⊢ <;> omega
  rw [State.sentPma, read_pmaOpen (pmaStore_wf h _ _ _), if_neg (by omega), read_pmaStore h, dif_neg (by omega)]

theorem State.sentPma_wf {s : State} (h : s.pma.wf = true) (n : EpNum) (buf : Word) (len : Nat) :
    (s.sentPma n buf len).wf = true :=
  pmaOpen_wf (pmaStore_wf h _ _ _) _ _ _ _

/-! TX_COMPLETE. -/

variable {s : State} {n : EpNum}

/-- TX_COMPLETE while the transfer goes on (rule R99). -/
theorem exec_txComplete_continues (hflag : s.hw[n].ctrTx = true) (hpos : s.ep[n].txPos ≠ 0) :
    exec (.txComplete n) s = .next ((s.clearCtrTx n).sendNextPacket n) :=
  (if_neg (by rw [hflag]; exact Bool.false_ne_true)).trans (if_neg hpos)

/-- TX_COMPLETE after the last packet (rules R99, R100). -/
theorem exec_txComplete_reports (hflag : s.hw[n].ctrTx = true) (hpos : s.ep[n].txPos = 0) :
    exec (.txComplete n) s = .next ((s.clearCtrTx n).notifySent n) := by
  refine (if_neg (by rw [hflag]; exact Bool.false_ne_true)).trans ((if_pos hpos).trans ?_)
  rw [(s.clearCtrTx n).sendNextPacket_idle n (.inl hpos)]

/-- The end of a transfer on an endpoint of the application goes to the sent hook (rule R100). -/
theorem State.notifySent_hook (h0 : n ≠ 0) (hhid : n ≠ s.cfg.epHid) : s.notifySent n = s.notify (.sent n) :=
  (if_neg h0).trans (if_neg hhid)

end Sys2Proof.Machine
end

section
/-! The statements of 42_transfer_send.md, but for the packet-count law. -/

namespace Sys2Proof.Proofs

open Sys2Proof.Machine Sys2Proof.Expected

/-- A refusal marks the state and does nothing else; the first reason stays (rule R171, log 4). -/
theorem refused_refuse (s : State) (r : RefusalReason) : Refused s (s.refuse r) r := by
  refine ⟨rfl, ?_, fun hnone => ?_⟩
  · cases h : s.refused <;> simp [h]
  · simp [hnone]

/-- EP_CONFIGURE refuses an isochronous endpoint first (rule R92). -/
theorem epConfigure_iso (s : State) (n : EpNum) {type : EpType} (h : type = .iso) (size : Half) (flags : Word) :
    s.epConfigure n type size flags = s.refuse .isoEndpoint :=
  if_pos h

/-- EP_CONFIGURE refuses a size that is not legal and a reserved flag (rules R92, R105). -/
theorem epConfigure_badConfig (s : State) (n : EpNum) {type : EpType} {size : Half} {flags : Word} (htype : type ≠ .iso)
    (h : ¬LegalSize size ∨ flags.extractLsb' 1 31 ≠ 0) : s.epConfigure n type size flags = s.refuse .badConfig := by
  rw [← legalSize_iff, ne_eq, ← flags_iff] at h
  rw [State.epConfigure, if_neg htype]
  by_cases hsize : legalSize size = true
  · rw [if_neg (by simp [hsize]), if_pos (h.resolve_left (not_not.mpr hsize))]
  · rw [if_pos (by simp [hsize])]

/-- Settles O10: the two refusals, and else the configuration with the fault of a resize. -/
theorem epConfigureEffect : Obligations.EpConfigureEffect := by
  unfold Obligations.EpConfigureEffect
  intro s n type size flags hidle
  have hexec : exec (.epConfigure n type size flags) s = .next (s.epConfigure n type size flags) :=
    congrArg Host.Outcome.next (s.request_idle _ hidle)
  refine ⟨_, hexec, fun hiso => ?_, fun htype hbad => ?_, fun htype hsize hflags => ?_⟩
  · rw [epConfigure_iso s n hiso]
    exact refused_refuse s _
  · rw [epConfigure_badConfig s n htype hbad]
    exact refused_refuse s _
  · rw [State.epConfigure_of_configOk s n ((configOk_iff _ _ _).mpr ⟨htype, hsize, hflags⟩),
      State.raiseIf_resizeAllocated]
    simp only [State.modEp, State.modHw, Endpoint.configured, BitVec.setWidth_eq_extractLsb' (show 8 ≤ 32 by decide)]

/-- Settles O11: the request gate is closed while a flag is set, and an event needs its own flag. -/
theorem recordsWithoutAStep : Obligations.RecordsWithoutAStep := by
  unfold Obligations.RecordsWithoutAStep
  intro s n
  refine ⟨fun hflag m type size len flags buf => ?_, fun htx => ?_, fun hrx => ?_⟩
  · have hgate (f : State → State) : (.next (s.request f) : Host.Outcome State Fault Refusal) = .next s.noStep := by
      rw [s.request_draining f (State.draining_of_flag hflag)]
    exact ⟨hgate _, hgate _, hgate _⟩
  · exact if_pos (by rw [htx]; rfl)
  · exact if_pos (by rw [hrx]; rfl)

/-- Settles O12: the null buffer stalls; any other is recorded and its first packet is sent. -/
theorem beginSendEffect : Obligations.BeginSendEffect := by
  unfold Obligations.BeginSendEffect
  intro s n buf len hidle
  have hexec (b : Word) : exec (.beginSend n b len) s = .next (s.beginSend n b len) :=
    congrArg Host.Outcome.next (s.request_idle _ hidle)
  refine ⟨(hexec 0).trans (by rw [State.beginSend_null]), fun hbuf => ⟨_, hexec buf, ?_⟩⟩
  rw [State.beginSend_eq s n len hbuf]
  rfl

/-- Settles O14: an idle side is left alone; else the packet's bytes are read in the packet memory it leaves. -/
theorem sendNextPacketEffect : Obligations.SendNextPacketEffect := by
  unfold Obligations.SendNextPacketEffect
  intro s n
  refine ⟨fun hidle => ?_, fun hpos hsize hwf => ⟨s.sendNextPacket n, rfl, ?_⟩⟩
  · exact congrArg Host.Outcome.next (s.sendNextPacket_idle n hidle)
  refine ⟨fun k hk hin => ?_, fun o hin ho => ?_, ?_⟩
  · rw [pmaByte_lt _ (by simpa using hin), s.sendNextPacket_pma n hpos hsize]
    exact State.sentPma_inside hwf n _ hk hin
  · rw [pmaByte_lt _ (by simpa using hin), pmaByte_lt _ hin, s.sendNextPacket_pma n hpos hsize]
    exact State.sentPma_outside hwf n _ ho
  · rw [s.sendNextPacket_packet n hpos hsize]

/-- Settles O15: with a cursor the next packet follows; with none the report goes where rule R100 sends it. -/
theorem txCompleteReportsOrContinues : Obligations.TxCompleteReportsOrContinues := by
  unfold Obligations.TxCompleteReportsOrContinues
  intro s n hflag
  by_cases hpos : s.ep[n].txPos = 0
  · refine ⟨_, exec_txComplete_reports hflag hpos, absurd hpos, fun _ hzero => ?_, fun _ hne hhid => ?_,
      fun _ hne hhid => ?_⟩
    · exact congrArg Host.Outcome.next (if_pos hzero).symm
    · exact congrArg Host.Outcome.next ((if_neg hne).trans (if_pos hhid)).symm
    · exact State.notifySent_hook (s := s.clearCtrTx n) hne hhid
  · exact ⟨_, exec_txComplete_continues hflag hpos, fun _ => rfl, fun h => absurd h hpos, fun h => absurd h hpos,
      fun h => absurd h hpos⟩

end Sys2Proof.Proofs
end

section
/-! The packet-count law (rule R101): how many packets a transfer has, the cursor before each, and the rounds that send
them. -/

namespace Sys2Proof.Machine

open Sys2Proof.Expected

/-- Which packets the law counts: packet 0, and each that begins inside the data; without NOZLP also the one that begins
at its end (rule R101). -/
theorem lt_packetCount_iff {P : Nat} (hP : 0 < P) (L k : Nat) (noZlp : Bool) :
    k < packetCount P L noZlp ↔ k = 0 ∨ if noZlp = true then k * P < L else k * P ≤ L := by
  cases noZlp with
  | false =>
    rw [packetCount, if_neg Bool.false_ne_true, if_neg Bool.false_ne_true, Nat.lt_succ_iff, Nat.le_div_iff_mul_le hP]
    exact ⟨.inr, fun h => h.elim (fun h0 => by simp [h0]) id⟩
  | true =>
    have hdata : k < (L + P - 1) / P ↔ k * P < L := by
      rw [Nat.lt_iff_add_one_le, Nat.le_div_iff_mul_le hP, Nat.add_mul]
      omega
    rw [packetCount, if_pos rfl, if_pos rfl, lt_max_iff, Nat.lt_one_iff, hdata]

/-! The endpoint record along a transfer. -/

/-- The endpoint record of a transfer of `L` bytes from `buf` once `k` of its packets are produced: the cursor is at the
next packet, and null after the last one (rules R95, R97, R98). -/
def sendingAt (e : Endpoint) (buf : Word) (L : Half) (k : Nat) : Endpoint :=
  { e with
    txBuf := buf
    txLen := L
    txPos :=
      if k < packetCount e.size.toNat L.toNat (e.flags.getLsbD 0) then buf + BitVec.ofNat 32 (k * e.size.toNat) else 0 }

@[simp] theorem sendingAt_size (e : Endpoint) (buf : Word) (L : Half) (k : Nat) : (sendingAt e buf L k).size = e.size :=
  rfl

@[simp] theorem sendingAt_flags (e : Endpoint) (buf : Word) (L : Half) (k : Nat) :
    (sendingAt e buf L k).flags = e.flags := rfl

@[simp] theorem sendingAt_txBuf (e : Endpoint) (buf : Word) (L : Half) (k : Nat) : (sendingAt e buf L k).txBuf = buf :=
  rfl

@[simp] theorem sendingAt_txLen (e : Endpoint) (buf : Word) (L : Half) (k : Nat) : (sendingAt e buf L k).txLen = L :=
  rfl

theorem toNat_pos_of_ne_zero {x : Half} (h : x ≠ 0) : 0 < x.toNat :=
  Nat.pos_of_ne_zero fun h0 => h (BitVec.eq_of_toNat_eq h0)

section Cursor

variable {e : Endpoint} {buf : Word} {L : Half} {k : Nat} (hsize : e.size ≠ 0)
  (hk : k < packetCount e.size.toNat L.toNat (e.flags.getLsbD 0))
include hk

theorem sendingAt_txPos : (sendingAt e buf L k).txPos = buf + BitVec.ofNat 32 (k * e.size.toNat) := if_pos hk

/-- The bytes sent before packet `k` (rule R97). -/
theorem sendingAt_completed :
    ((sendingAt e buf L k).txPos - buf).setWidth 16 = BitVec.ofNat 16 (k * e.size.toNat) := by
  rw [sendingAt_txPos hk, BitVec.add_comm, BitVec.add_sub_cancel, BitVec.setWidth_ofNat_of_le (by decide)]

include hsize

/-- A packet of the law begins inside the buffer, or at its end. -/
theorem packet_begins_inside : k * e.size.toNat ≤ L.toNat := by
  rcases (lt_packetCount_iff (toNat_pos_of_ne_zero hsize) _ _ _).mp hk with h0 | h
  · simp [h0]
  · split at h <;> omega

/-- A packet of the law holds what is left of the buffer, up to the packet size (rules R97, R101). -/
theorem chunk_sendingAt : chunk (sendingAt e buf L k) = min e.size.toNat (L.toNat - k * e.size.toNat) := by
  have hinside := packet_begins_inside hsize hk
  have hsent : (BitVec.ofNat 16 (k * e.size.toNat)).toNat = k * e.size.toNat :=
    Nat.mod_eq_of_lt (hinside.trans_lt L.isLt)
  rw [chunk, sendingAt_txBuf, sendingAt_completed hk, sendingAt_txLen, sendingAt_size, Nat.min_comm,
    BitVec.toNat_sub_of_le (by rwa [BitVec.le_def, hsent]), hsent]

/-- The completion rule ends the transfer exactly at the last packet of the law (rules R98, R101). -/
theorem terminal_sendingAt : Terminal (sendingAt e buf L k) ↔
    ¬ k + 1 < packetCount e.size.toNat L.toNat (e.flags.getLsbD 0) := by
  have hinside := packet_begins_inside hsize hk
  have hP := toNat_pos_of_ne_zero hsize
  have hsum : BitVec.ofNat 16 (k * e.size.toNat)
        + BitVec.ofNat 16 (min e.size.toNat (L.toNat - k * e.size.toNat)) = L ↔
      k * e.size.toNat + min e.size.toNat (L.toNat - k * e.size.toNat) = L.toNat := by
    rw [← BitVec.ofNat_add, ← BitVec.toNat_inj, BitVec.toNat_ofNat, Nat.mod_eq_of_lt]
    have := L.isLt
    omega
  rw [Terminal, chunk_sendingAt hsize hk, sendingAt_txBuf, sendingAt_completed hk, sendingAt_txLen, sendingAt_size,
    sendingAt_flags, hsum, lt_packetCount_iff hP, Nat.add_mul]
  cases e.flags.getLsbD 0
  · simp only [Bool.false_eq_true, false_and, or_false, if_false]; omega
  · simp only [true_and, if_true]; omega

/-- Producing packet `k` leaves the record for packet `k + 1` (rules R97, R98). -/
theorem afterPacket_sendingAt : afterPacket (sendingAt e buf L k) = sendingAt e buf L (k + 1) := by
  have hterminal := terminal_sendingAt (buf := buf) hsize hk
  by_cases hnext : k + 1 < packetCount e.size.toNat L.toNat (e.flags.getLsbD 0)
  · have hgoes := mt hterminal.mp (not_not.mpr hnext)
    have hfull : chunk (sendingAt e buf L k) = e.size.toNat := not_not.mp fun h => hgoes (.inl h)
    rw [afterPacket, if_neg hgoes, sendingAt_txPos hk, hfull, BitVec.add_assoc, ← BitVec.ofNat_add, ← Nat.succ_mul,
      ← sendingAt_txPos hnext]
    rfl
  · rw [afterPacket, if_pos (hterminal.mpr hnext), sendingAt, sendingAt, if_neg hnext]

end Cursor

/-! One round. -/

/-- A load from a pointer moved by an offset. -/
theorem Memory.load_add (m : Memory) (a : Word) (i len : Nat) :
    m.load (a + BitVec.ofNat 32 i) 0 len = m.load a i len :=
  List.ext_getElem (by simp) fun k _ _ => by
    rw [Memory.getElem_load, Memory.getElem_load, Nat.zero_add, ptrKey_add]

/-- The bytes of the packet that SEND_NEXT_PACKET produces, as the host will receive them: the next bytes of the buffer,
where they fit in packet memory and in the count field (rules R97, R182). -/
theorem State.packetOut_sendNextPacket {s : State} {n : EpNum} (hwf : s.pma.wf = true) (hpos : s.ep[n].txPos ≠ 0)
    (hsize : s.ep[n].size ≠ 0) (hcount : chunk s.ep[n] < 1024)
    (hroom : (txAddr s n).toNat + chunk s.ep[n] ≤ s.cfg.pmaSize) :
    (s.sendNextPacket n).packetOut n = s.ram.load s.ep[n].txPos 0 (chunk s.ep[n]) := by
  have hbdt : (s.sendNextPacket n).bdt[n] =
      { s.bdt[n] with addrTx := txAddr s n, countTx := BitVec.ofNat 16 (chunk s.ep[n] % 1024) } := by
    rw [s.sendNextPacket_packet n hpos hsize]
    exact vset_self _ _ _
  have hlen : (countOf (BitVec.ofNat 16 (chunk s.ep[n] % 1024))).toNat = chunk s.ep[n] := by
    simp [countOf, BitVec.extractLsb'_toNat]
    omega
  rw [State.packetOut, hbdt, hlen]
  refine List.ext_getElem (by simp) fun i hi _ => ?_
  rw [State.length_pmaBytes] at hi
  have hin : (txAddr s n).toNat + i < s.cfg.pmaSize := by omega
  rw [State.getElem_pmaBytes, Memory.getElem_load, Nat.zero_add,
    pmaByte_lt _ (by rw [State.sendNextPacket_cfg]; exact hin), s.sendNextPacket_pma n hpos hsize]
  exact State.sentPma_inside hwf n _ hi hin

/-- HOST_IN on a VALID side whose packet lies inside packet memory (rule R182). -/
theorem exec_hostIn_taken {s : State} {n : EpNum} (hen : s.devEn = true) (hvalid : s.hw[n].txStatus = .valid)
    (hroom : s.bdt[n].addrTx.toNat + (s.packetOut n).length ≤ s.cfg.pmaSize) :
    exec (.hostIn n) s = .next { s with
      hw := s.hw.set n { s.hw[n] with ctrTx := true, txStatus := .nak }
      faults := { s.faults with eventOverrun := s.faults.eventOverrun || s.hw[n].ctrTx }
      obs := .packet (s.packetOut n)
      hostReceived := s.hostReceived ++ [s.packetOut n] } := by
  refine (if_pos (by rw [hen, Bool.true_and]; exact decide_eq_true hvalid)).trans ?_
  rw [pmaTouch_ok (s.raiseIf s.hw[n].ctrTx .eventOverrun) _ _ hroom, s.raiseIf_eventOverrun]
  rfl

end Sys2Proof.Machine
end

section
/-! The packet-count law (rule R101): what a transfer keeps, and its rounds. -/

namespace Sys2Proof.Proofs

open Sys2Proof.Machine Sys2Proof.Expected

/-- A buffer to send on endpoint `n`: the premises of the packet-count law that say something of the transfer. -/
structure Sendable (s : State) (n : EpNum) (buf : Word) (L : Half) : Prop where
  enabled : s.devEn = true
  pma : s.pma.wf = true
  buf_ne : buf ≠ 0
  fits : buf.toNat + L.toNat < 2 ^ 32
  size_ne : s.ep[n].size ≠ 0
  size_lt : s.ep[n].size.toNat < 1024
  brk_pos : 0 < s.brk.toNat
  room : (txAddr s n).toNat + s.ep[n].size.toNat ≤ s.cfg.pmaSize

/-- The number of packets of the transfer (rule R101). -/
abbrev packets (s : State) (n : EpNum) (L : Half) : Nat :=
  packetCount s.ep[n].size.toNat L.toNat (s.ep[n].flags.getLsbD 0)

/-- Packet `k` of the transfer (rule R101). -/
def packetAt (s : State) (n : EpNum) (buf : Word) (L : Half) (k : Nat) : List Byte :=
  s.ram.load buf (k * s.ep[n].size.toNat) (min s.ep[n].size.toNat (L.toNat - k * s.ep[n].size.toNat))

/-- In `u` the transfer that began in `s` has produced `k` packets, and the host has received `j`. -/
structure Sending (s : State) (n : EpNum) (buf : Word) (L : Half) (k j : Nat) (u : State) : Prop where
  received : u.hostReceived = s.hostReceived ++ (List.range j).map (packetAt s n buf L)
  notices : u.notices = s.notices
  ram : u.ram = s.ram
  cfg : u.cfg = s.cfg
  enabled : u.devEn = true
  pma : u.pma.wf = true
  addr : txAddr u n = txAddr s n
  ep : u.ep[n] = sendingAt s.ep[n] buf L k

/-- Packet `k` waits for the host in its buffer. -/
structure Queued (s : State) (n : EpNum) (buf : Word) (L : Half) (k : Nat) (u : State) : Prop
    extends Sending s n buf L (k + 1) k u where
  valid : u.hw[n].txStatus = .valid
  buffer : u.bdt[n].addrTx = txAddr s n
  packet : u.packetOut n = packetAt s n buf L k

/-- The transfer has ended and is reported (rules R99, R100, R101). -/
structure Sent (s : State) (n : EpNum) (buf : Word) (L : Half) (t : State) : Prop where
  received : t.hostReceived = s.hostReceived ++ (List.range (packets s n L)).map (packetAt s n buf L)
  notices : t.notices = s.notices ++ [.sent n]
  cursor : t.ep[n].txPos = 0
  status : t.hw[n].txStatus = .nak

variable {s u : State} {n : EpNum} {buf : Word} {L : Half} {k : Nat}

/-- The buffer a transfer uses is not the null offset. -/
theorem Sendable.txAddr_ne_zero (h : Sendable s n buf L) : txAddr s n ≠ 0 := by
  rw [txAddr]
  split
  · exact fun h0 => by simpa [h0] using h.brk_pos
  · assumption

theorem Sendable.packets_pos (h : Sendable s n buf L) : 0 < packets s n L :=
  (lt_packetCount_iff (toNat_pos_of_ne_zero h.size_ne) _ _ _).mpr (.inl rfl)

/-- Before each packet of the law the cursor is not null: it lies in the buffer, which does not wrap (log 33). -/
theorem Sendable.cursor_ne_zero (h : Sendable s n buf L) (hk : k < packets s n L) :
    (sendingAt s.ep[n] buf L k).txPos ≠ 0 := by
  have hinside := packet_begins_inside h.size_ne hk
  have hfits := h.fits
  have hbuf : 0 < buf.toNat := Nat.pos_of_ne_zero fun h0 => h.buf_ne (BitVec.eq_of_toNat_eq h0)
  rw [sendingAt_txPos hk, ne_eq, ← BitVec.toNat_inj, BitVec.toNat_add, BitVec.toNat_ofNat,
    show (0 : Word).toNat = 0 from rfl]
  omega

/-- BEGIN_SEND records the buffer, and the transfer has produced nothing (rule R95). -/
theorem Sendable.begun (h : Sendable s n buf L) (fs : FaultSet) :
    Sending s n buf L 0 0
      { s with ep := s.ep.set n { s.ep[n] with txBuf := buf, txLen := L, txPos := buf }, faults := fs } where
  received := (List.append_nil _).symm
  notices := rfl
  ram := rfl
  cfg := rfl
  enabled := h.enabled
  pma := h.pma
  addr := rfl
  ep := by
    rw [vset_self, sendingAt, if_pos h.packets_pos, Nat.zero_mul, BitVec.add_zero]

/-- SEND_NEXT_PACKET queues the next packet of the law (rules R97, R98). -/
theorem Sending.sendNextPacket (h : Sendable s n buf L) (hu : Sending s n buf L k k u) (hk : k < packets s n L) :
    Queued s n buf L k (u.sendNextPacket n) := by
  have hpos : u.ep[n].txPos ≠ 0 := hu.ep ▸ h.cursor_ne_zero hk
  have hsize : u.ep[n].size ≠ 0 := hu.ep ▸ h.size_ne
  have hchunk : chunk u.ep[n] = min s.ep[n].size.toNat (L.toNat - k * s.ep[n].size.toNat) :=
    hu.ep ▸ chunk_sendingAt h.size_ne hk
  have hle : chunk u.ep[n] ≤ s.ep[n].size.toNat := hchunk ▸ Nat.min_le_left _ _
  have heq := u.sendNextPacket_packet n hpos hsize
  have hbuffer : (u.sendNextPacket n).bdt[n].addrTx = txAddr s n := by
    rw [heq, ← hu.addr]
    exact congrArg Descriptor.addrTx (vset_self _ _ _)
  constructor
  case toSending =>
    constructor
    case addr => rw [txAddr, hbuffer, if_neg h.txAddr_ne_zero]
    case ep =>
      rw [← afterPacket_sendingAt h.size_ne hk, ← hu.ep, heq]
      exact vset_self _ _ _
    case pma =>
      rw [u.sendNextPacket_pma n hpos hsize]
      exact State.sentPma_wf hu.pma _ _ _
    case received => simpa using hu.received
    case notices => simpa using hu.notices
    case ram => simpa using hu.ram
    case cfg => simpa using hu.cfg
    case enabled => simpa using hu.enabled
  case valid =>
    rw [heq]
    exact congrArg EpHardware.txStatus (vset_self _ _ _)
  case buffer => exact hbuffer
  case packet =>
    have hroom : (txAddr u n).toNat + chunk u.ep[n] ≤ u.cfg.pmaSize := by
      rw [hu.addr, hu.cfg]
      exact (Nat.add_le_add_left hle _).trans h.room
    rw [State.packetOut_sendNextPacket hu.pma hpos hsize (hle.trans_lt h.size_lt) hroom, hchunk, hu.ep, hu.ram,
      sendingAt_txPos hk, packetAt]
    exact Memory.load_add _ _ _ _

/-- HOST_IN takes the queued packet: the host has it, the side is NAK and its event is pending (rule R182). -/
theorem Queued.hostIn (h : Sendable s n buf L) (hu : Queued s n buf L k u) : ∃ t, exec (.hostIn n) u = .next t
    ∧ Sending s n buf L (k + 1) (k + 1) t ∧ t.hw[n].ctrTx = true ∧ t.hw[n].txStatus = .nak := by
  have hroom : u.bdt[n].addrTx.toNat + (u.packetOut n).length ≤ u.cfg.pmaSize := by
    rw [hu.packet, packetAt, Memory.length_load, hu.buffer, hu.cfg]
    exact (Nat.add_le_add_left (Nat.min_le_left _ _) _).trans h.room
  refine ⟨_, exec_hostIn_taken hu.enabled hu.valid hroom, ⟨?_, hu.notices, hu.ram, hu.cfg, hu.enabled, hu.pma, hu.addr,
    hu.ep⟩, ?_, ?_⟩
  · rw [hu.received, hu.packet, List.range_succ, List.map_append, List.append_assoc]
    rfl
  · exact congrArg EpHardware.ctrTx (vset_self _ _ _)
  · exact congrArg EpHardware.txStatus (vset_self _ _ _)

/-- TX_COMPLETE before the last packet queues the next one (rule R99). -/
theorem Sending.txComplete_continues (h : Sendable s n buf L) (hu : Sending s n buf L k k u) (hk : k < packets s n L)
    (hflag : u.hw[n].ctrTx = true) : ∃ t, exec (.txComplete n) u = .next t ∧ Queued s n buf L k t := by
  have hcleared : Sending s n buf L k k (u.clearCtrTx n) :=
    ⟨hu.received, hu.notices, hu.ram, hu.cfg, hu.enabled, hu.pma, hu.addr, hu.ep⟩
  exact ⟨_, exec_txComplete_continues hflag (hu.ep ▸ h.cursor_ne_zero hk), hcleared.sendNextPacket h hk⟩

/-- TX_COMPLETE after the last packet reports the transfer (rules R99, R100). -/
theorem Sending.txComplete_reports (h0 : n ≠ 0) (hhid : n ≠ s.cfg.epHid)
    (hu : Sending s n buf L (packets s n L) (packets s n L) u) (hflag : u.hw[n].ctrTx = true)
    (hnak : u.hw[n].txStatus = .nak) : ∃ t, exec (.txComplete n) u = .next t ∧ Sent s n buf L t := by
  have hnull : u.ep[n].txPos = 0 := by
    rw [hu.ep, sendingAt]
    exact if_neg (Nat.lt_irrefl _)
  refine ⟨(u.clearCtrTx n).notify (.sent n), ?_, hu.received, ?_, hnull, ?_⟩
  · rw [exec_txComplete_reports hflag hnull, State.notifySent_hook h0 (by rw [State.clearCtrTx_cfg, hu.cfg]; exact hhid)]
  · exact congrArg (· ++ [.sent n]) hu.notices
  · exact (congrArg EpHardware.txStatus (vset_self _ _ _)).trans hnak

/-- One round of HOST_IN and TX_COMPLETE, then the others. -/
theorem sendRounds_succ {t v : State} (hin : exec (.hostIn n) u = .next t) (hcomplete : exec (.txComplete n) t = .next v)
    (m : Nat) : sendRounds n (m + 1) u = sendRounds n m v := by
  simp only [sendRounds, hin, hcomplete]

/-- With packet `k` queued and `m` packets after it, `m + 1` rounds end the transfer. -/
theorem Queued.exists_sent (h : Sendable s n buf L) (h0 : n ≠ 0) (hhid : n ≠ s.cfg.epHid) (m : Nat)
    (hcount : k + (m + 1) = packets s n L) (hu : Queued s n buf L k u) :
    ∃ t, sendRounds n (m + 1) u = some t ∧ Sent s n buf L t := by
  induction m generalizing k u with
  | zero =>
    obtain ⟨t, hin, ht, hflag, hnak⟩ := hu.hostIn h
    rw [hcount] at ht
    obtain ⟨v, hcomplete, hv⟩ := ht.txComplete_reports h0 hhid hflag hnak
    exact ⟨v, sendRounds_succ hin hcomplete 0, hv⟩
  | succ m ih =>
    obtain ⟨t, hin, ht, hflag, -⟩ := hu.hostIn h
    obtain ⟨v, hcomplete, hv⟩ := ht.txComplete_continues h (by omega) hflag
    rw [sendRounds_succ hin hcomplete]
    exact ih (by omega) hv

/-- Settles O21: BEGIN_SEND queues the first packet, and the rounds take the others by induction on how many are left. -/
theorem sendLaw : Obligations.SendLaw := by
  unfold Obligations.SendLaw
  intro s n buf L h0 hhid hidle hen hmem hbuf hfits hsize hlt hbrk hroom
  have h : Sendable s n buf L := ⟨hen, (memoriesOk_iff.mp hmem).pma, hbuf, hfits, hsize, hlt, hbrk, hroom⟩
  have hexec : exec (.beginSend n buf L) s = .next (s.beginSend n buf L) :=
    congrArg Host.Outcome.next (s.request_idle _ hidle)
  have hfirst : Queued s n buf L 0 (s.beginSend n buf L) := by
    rw [s.beginSend_eq n L hbuf]
    exact (h.begun _).sendNextPacket h h.packets_pos
  obtain ⟨m, hm⟩ := Nat.exists_eq_succ_of_ne_zero h.packets_pos.ne'
  obtain ⟨t, hrounds, ht⟩ := hfirst.exists_sent h h0 hhid m (by rw [hm, Nat.zero_add])
  rw [← Nat.succ_eq_add_one, ← hm] at hrounds
  exact ⟨_, t, hexec, hrounds, ht.received, ht.notices, ht.cursor, ht.status⟩

end Sys2Proof.Proofs
end

section
/-! The laws the statements of 43_transfer_receive.md share: the fields of a count register, one packet armed and taken,
and the outcomes of RX_COMPLETE. -/

namespace Sys2Proof.Machine

open Sys2Proof.Expected

/-! The fields of COUNT_RX (rules R81, R105). -/

/-- The capacity of a count register, on numbers: bit 15 chooses the scale, bits 14:10 hold the blocks. -/
theorem capacity_eq (c : Half) :
    capacity c = if 2 ^ 15 ≤ c.toNat then (c.toNat / 1024 % 32 + 1) * 32 else c.toNat / 1024 % 32 * 2 := by
  have hscale : c.getLsbD 15 = decide (2 ^ 15 ≤ c.toNat) := BitVec.msb_eq_decide c
  simp only [capacity, hscale, decide_eq_true_eq, BitVec.extractLsb'_toNat, Nat.shiftRight_eq_div_pow]

theorem countOf_toNat (c : Half) : (countOf c).toNat = c.toNat % 1024 := by
  simp [countOf, BitVec.extractLsb'_toNat]

/-- The receive-size encoding, on numbers (rule R105). -/
theorem rxCountEncode_toNat {size : Half} (h : size.toNat ≤ 1024) : (rxCountEncode size).toNat =
    if 62 < size.toNat then 0x8000 + (size.toNat / 32 - 1) * 1024 else size.toNat / 2 * 1024 := by
  simp only [rxCountEncode, Nat.shiftLeft_eq]
  split
  · have hblocks : (size.toNat / 32 - 1) * 1024 < 2 ^ 15 := by omega
    rw [BitVec.toNat_or, BitVec.toNat_ofNat, Nat.mod_eq_of_lt (by omega)]
    exact (Nat.two_pow_add_eq_or_of_lt hblocks 1).symm
  · rw [BitVec.toNat_ofNat]
    omega

theorem legalSize_le {size : Half} (h : LegalSize size) : size.toNat ≤ 1024 := by
  rcases h with rfl | ⟨-, -, h⟩ | ⟨-, -, h⟩
  · decide
  · omega
  · exact h

/-- A legal size is a whole number of blocks of its scale, so its encoding stands for it exactly (rule R105). -/
theorem capacity_rxCountEncode {size : Half} (h : LegalSize size) (hsize : size ≠ 0) :
    capacity (rxCountEncode size) = size.toNat := by
  rw [capacity_eq, rxCountEncode_toNat (legalSize_le h)]
  rcases h with rfl | ⟨heven, hlo, hhi⟩ | ⟨hunits, hlo, hhi⟩
  · exact absurd rfl hsize
  · rw [if_neg (show ¬62 < size.toNat by omega), if_neg (by omega)]
    omega
  · rw [if_pos (show 62 < size.toNat by omega), if_pos (by omega)]
    omega

theorem countOf_rxCountEncode {size : Half} (h : LegalSize size) : countOf (rxCountEncode size) = 0 := by
  apply BitVec.eq_of_toNat_eq
  rw [countOf_toNat, rxCountEncode_toNat (legalSize_le h), show (0 : BitVec 10).toNat = 0 from rfl]
  split <;> omega

/-! One packet. -/

variable {s : State} {n : EpNum}

/-- BEGIN_RECEIVE while no completion flag is set (rule R175). -/
theorem exec_beginReceive_idle (hidle : s.draining = false) (buf : Word) (len : Half) :
    exec (.beginReceive n buf len) s = .next (s.beginReceive n buf len) :=
  congrArg Host.Outcome.next (s.request_idle _ hidle)

/-- BEGIN_PACKET_RECEIVE on a configured endpoint, in the words of the statements (rule R104). -/
theorem State.beginPacketReceive_armed (h : s.ep[n].size ≠ 0) :
    s.beginPacketReceive n = { s with
      brk := breakAfter s n s.bdt[n].addrRx
      bdt := s.bdt.set n { s.bdt[n] with addrRx := rxAddr s n, countRx := rxCountEncode s.ep[n].size }
      hw := s.hw.set n { s.hw[n] with rxStatus := .valid }
      faults := { s.faults with
        rxOverwrite := s.faults.rxOverwrite || (s.hw[n].ctrRx && !s.hw[n].setup)
        pmaOverflow := s.faults.pmaOverflow || overflows s n s.bdt[n].addrRx } } := by
  rw [s.beginPacketReceive_eq n h, State.brkAfter_eq, State.overAllocates_eq]
  rfl

/-- RAM after END_PACKET_RECEIVE takes a data packet of `count` bytes (rule R108). -/
def State.receivedRam (s : State) (n : EpNum) (count : BitVec 10) : Memory :=
  s.ram.store s.ep[n].rxPos 0 (s.pmaBytes s.bdt[n].addrRx.toNat (s.ep[n].rxCopied count).toNat)

/-- The bytes copied are those of the packet (rule R108). -/
theorem State.receivedRam_inside (h : s.ram.wf = true) (count : BitVec 10) {k : Nat}
    (hk : k < (s.ep[n].rxCopied count).toNat) :
    (s.receivedRam n count).read (ptrKey s.ep[n].rxPos k) = s.pmaByte (s.bdt[n].addrRx.toNat + k) := by
  have hlen := s.length_pmaBytes s.bdt[n].addrRx.toNat (s.ep[n].rxCopied count).toNat
  have hread := Memory.read_store h s.ep[n].rxPos 0 (s.pmaBytes s.bdt[n].addrRx.toNat (s.ep[n].rxCopied count).toNat)
    (by omega) k (hlen.symm ▸ hk)
  rwa [Nat.zero_add, State.getElem_pmaBytes] at hread

/-- The copy reaches no other byte of RAM (rule R108). -/
theorem State.receivedRam_outside (h : s.ram.wf = true) (count : BitVec 10) {j : Nat}
    (hj : ∀ k < (s.ep[n].rxCopied count).toNat, j ≠ ptrKey s.ep[n].rxPos k) :
    (s.receivedRam n count).read j = s.ram.read j := by
  refine Memory.read_store_of_ne h _ _ _ _ fun k hk => ?_
  rw [State.length_pmaBytes] at hk
  rw [Nat.zero_add]
  exact hj k hk

/-- The state once a data packet is copied and the cursor moved behind its bytes (rule R108). -/
def State.advanced (s : State) (n : EpNum) (count : BitVec 10) : State :=
  { s with
    ep := s.ep.set n { s.ep[n] with rxPos := s.ep[n].rxPos + BitVec.ofNat 32 (s.ep[n].rxCopied count).toNat }
    ram := s.receivedRam n count }

section Data

variable {count : BitVec 10} (hroom : s.bdt[n].addrRx.toNat + (s.ep[n].rxCopied count).toNat ≤ s.cfg.pmaSize)
include hroom

/-- The copy of a packet inside packet memory changes RAM and nothing else. -/
theorem State.copyReceived_eq : s.copyReceived n count = { s with ram := s.receivedRam n count } := by
  simp only [State.copyReceived, pmaTouch_ok _ _ _ hroom]
  rfl

/-- A data packet that ends the reception (rule R108). -/
theorem State.takeData_done (hend : s.ep[n].rxTerminal count = true) :
    s.takeData n count = (.done (s.ep[n].rxCompleted + BitVec.ofNat 16 (s.ep[n].rxCopied count).toNat),
      { s with ep := s.ep.set n { s.ep[n] with rxPos := 0 }, ram := s.receivedRam n count }) := by
  rw [s.takeData_of_terminal n count hend, State.copyReceived_eq hroom, BitVec.ofNat_toNat, BitVec.setWidth_eq]
  rfl

/-- A data packet after which the reception goes on (rule R108). -/
theorem State.takeData_working (hgoes : ¬s.ep[n].rxTerminal count = true) :
    s.takeData n count = (.working, (s.advanced n count).beginPacketReceive n) := by
  rw [s.takeData_of_not_terminal n count hgoes, State.copyReceived_eq hroom, State.advanced, BitVec.ofNat_toNat]
  rfl

end Data

/-- END_PACKET_RECEIVE of a data packet while a reception is in progress (rule R108). -/
theorem State.endPacketReceive_data (count : BitVec 10) (h : s.ep[n].rxPos ≠ 0) :
    s.endPacketReceive n count false = s.takeData n count :=
  (if_neg Bool.false_ne_true).trans (if_neg h)

/-- END_PACKET_RECEIVE of a data packet on an idle side (rule R107). -/
theorem State.endPacketReceive_idle (count : BitVec 10) (h : s.ep[n].rxPos = 0) :
    s.endPacketReceive n count false = (.none, s) :=
  (if_neg Bool.false_ne_true).trans (if_pos h)

/-- END_PACKET_RECEIVE of a setup packet inside packet memory (rule R106). -/
theorem State.endPacketReceive_setup (count : BitVec 10) (hroom : s.bdt[n].addrRx.toNat + 8 ≤ s.cfg.pmaSize) :
    s.endPacketReceive n count true = (.setupDone, { s with
      ep := s.ep.set n { s.ep[n] with
        lastSetup := SetupPacket.ofFun fun k => s.pmaByte (s.bdt[n].addrRx.toNat + k), rxPos := 0 } }) := by
  rw [State.endPacketReceive, if_pos rfl, takeSetup_eq s n hroom]

/-- A data packet is no SETUP (rule R109). -/
theorem State.endPacketReceive_ne_setupDone (count : BitVec 10) :
    (s.endPacketReceive n count false).1 ≠ .setupDone := by
  by_cases hpos : s.ep[n].rxPos = 0
  · rw [State.endPacketReceive_idle count hpos]
    exact nofun
  rw [State.endPacketReceive_data count hpos]
  by_cases hend : s.ep[n].rxTerminal count = true
  · rw [State.takeData_of_terminal s n count hend]
    exact nofun
  · rw [State.takeData_of_not_terminal s n count hend]
    exact nofun

/-- END_PACKET_RECEIVE run by itself shows its result (rule R109, log 27). -/
theorem exec_endPacketReceive {setup : Bool} (h : s.hw[n].setup = setup) :
    exec (.endPacketReceive n) s =
      .next { (s.endPacketReceive n (countOf s.bdt[n].countRx) setup).2 with
        obs := .result (s.endPacketReceive n (countOf s.bdt[n].countRx) setup).1 } := by
  subst h
  rfl

theorem exec_endPacketReceive_data (hsetup : s.hw[n].setup = false) (hpos : s.ep[n].rxPos ≠ 0) :
    exec (.endPacketReceive n) s =
      .next { (s.takeData n (countOf s.bdt[n].countRx)).2 with
        obs := .result (s.takeData n (countOf s.bdt[n].countRx)).1 } := by
  rw [exec_endPacketReceive hsetup, State.endPacketReceive_data _ hpos]

/-- A state that shows `o` already. -/
theorem State.with_obs {o : Obs} (h : s.obs = o) : { s with obs := o } = s := h ▸ rfl

/-! RX_COMPLETE. -/

/-- RX_COMPLETE with its flag set (rule R110). -/
theorem exec_rxComplete_of_flag {setup : Bool} (hflag : s.hw[n].ctrRx = true) (hsetup : s.hw[n].setup = setup) :
    exec (.rxComplete n) s =
      let r := (s.clearCtrRx n).endPacketReceive n (countOf (s.clearCtrRx n).bdt[n].countRx) setup
      .next (r.2.notifyReceived n r.1) := by
  subst hsetup
  exact if_neg (by rw [hflag]; exact Bool.false_ne_true)

/-- RX_COMPLETE of a data packet hands on what END_PACKET_RECEIVE alone gives (rule R110). -/
theorem exec_rxComplete_data (hflag : s.hw[n].ctrRx = true) (hdata : s.hw[n].setup = false) :
    ∃ (r : RecvResult) (v : State), exec (.endPacketReceive n) (s.clearCtrRx n) = .next { v with obs := .result r }
      ∧ exec (.rxComplete n) s = .next (v.notifyReceived n r) ∧ r ≠ .setupDone
      ∧ v.obs = s.obs ∧ v.notices = s.notices ∧ v.cfg = s.cfg :=
  ⟨_, _, exec_endPacketReceive (congrArg EpHardware.setup (vset_self _ _ _)), exec_rxComplete_of_flag hflag hdata,
    State.endPacketReceive_ne_setupDone _, State.endPacketReceive_obs _ _ _ _, State.endPacketReceive_notices _ _ _ _,
    State.endPacketReceive_cfg _ _ _ _⟩

/-- The end of a reception on endpoint 0 is the control pipeline's (rule R111). -/
theorem State.notifyReceived_control (h0 : n = 0) (total : Half) :
    s.notifyReceived n (.done total) = s.ctlEvent .outDone :=
  if_pos h0

/-- The end of a reception on the HID endpoint is the bootloader's, by its total (rules R111, R136). -/
theorem State.notifyReceived_hid (h0 : n ≠ 0) (hhid : n = s.cfg.epHid) (total : Half) :
    s.notifyReceived n (.done total) = s.blEvent (if total = Config.hidSize then .outFull else .outShort) :=
  (if_neg h0).trans (if_pos hhid)

/-- The end of a reception on an endpoint of the application goes to the received hook (rule R111). -/
theorem State.notifyReceived_hook (h0 : n ≠ 0) (hhid : n ≠ s.cfg.epHid) (total : Half) :
    s.notifyReceived n (.done total) = s.notify (.received n total) :=
  (if_neg h0).trans (if_neg hhid)

end Sys2Proof.Machine
end

section
/-! The statements of 43_transfer_receive.md, but for the receive law. -/

namespace Sys2Proof.Proofs

open Sys2Proof.Machine Sys2Proof.Expected

/-- Settles O16: the engine's equation for an endpoint of size 0, and the one for a configured endpoint. -/
theorem beginPacketReceiveArms : Obligations.BeginPacketReceiveArms := by
  unfold Obligations.BeginPacketReceiveArms
  intro s n
  refine ⟨fun hsize => ?_, fun hsize => ?_⟩
  · exact congrArg Host.Outcome.next (s.beginPacketReceive_idle n hsize)
  · exact congrArg Host.Outcome.next (State.beginPacketReceive_armed hsize)

/-- Settles O17: each clause is a law of the count register. -/
theorem receiveSizeEncodingIsExact : Obligations.ReceiveSizeEncodingIsExact := by
  unfold Obligations.ReceiveSizeEncodingIsExact
  exact fun size => ⟨legalSize_iff size, rxCountEncode_toNat, fun _ => rfl,
    fun hlegal hsize => ⟨capacity_rxCountEncode hlegal hsize, countOf_rxCountEncode hlegal⟩⟩

/-- Settles O19: the bytes and the frame of RAM by the store at the cursor, the two ends by the completion rule. -/
theorem endPacketReceiveCopiesData : Obligations.EndPacketReceiveCopiesData := by
  unfold Obligations.EndPacketReceiveCopiesData
  intro s n hsetup hpos hwf e count completed copied total ends hroom
  have hcopied : (e.rxCopied (countOf s.bdt[n].countRx)).toNat = copied := rxCopied_eq _ _
  have hends : e.rxTerminal (countOf s.bdt[n].countRx) = true ↔ ends := by
    rw [rxTerminal_iff, hcopied]
    rfl
  have hbytes : ∀ k < copied, (s.receivedRam n (countOf s.bdt[n].countRx)).read (ptrKey e.rxPos k) =
      s.pmaByte (s.bdt[n].addrRx.toNat + k) :=
    fun k hk => State.receivedRam_inside hwf _ (hcopied.symm ▸ hk)
  have hframe : ∀ j, (∀ k < copied, j ≠ ptrKey e.rxPos k) →
      (s.receivedRam n (countOf s.bdt[n].countRx)).read j = s.ram.read j :=
    fun j hj => State.receivedRam_outside hwf _ (hcopied.symm ▸ hj)
  have hexec := exec_endPacketReceive_data hsetup hpos
  rw [← hcopied] at hroom
  by_cases hend : ends
  · rw [State.takeData_done hroom (hends.mpr hend), hcopied] at hexec
    exact ⟨_, hexec, hbytes, hframe, fun _ => rfl, fun hgoes => absurd hend hgoes⟩
  · rw [State.takeData_working hroom (mt hends.mp hend)] at hexec
    refine ⟨_, hexec, fun k hk => ?_, fun j hj => ?_, fun h => absurd h hend, fun _ => ⟨rfl, ?_⟩⟩
    · exact (congrArg (Memory.read · _) (State.beginPacketReceive_ram _ n)).trans (hbytes k hk)
    · exact (congrArg (Memory.read · j) (State.beginPacketReceive_ram _ n)).trans (hframe j hj)
    · rw [← hcopied]
      refine congrArg Host.Outcome.next (Eq.trans ?_ (State.with_obs (State.beginPacketReceive_obs _ n)).symm)
      exact congrArg (fun m => State.beginPacketReceive { s.advanced n (countOf s.bdt[n].countRx) with ram := m } n)
        (State.beginPacketReceive_ram _ n)

/-- Settles O20: what END_PACKET_RECEIVE alone gives is what the event hands on, by the cases of its result. -/
theorem rxCompleteDelivers : Obligations.RxCompleteDelivers := by
  unfold Obligations.RxCompleteDelivers
  intro s n hflag c b
  refine ⟨fun hdata => ?_, fun hsetup hroom => ?_⟩
  · obtain ⟨r, v, hend, hcomplete, hresult, hobs, hnotices, hcfg⟩ := exec_rxComplete_data hflag hdata
    have hput : { v with obs := s.obs } = v := State.with_obs hobs
    refine ⟨_, r, _, hend, rfl, hcomplete, ?_, fun total hdone => ?_, hresult⟩
    · rintro (rfl | rfl) <;> exact hput.symm
    subst hdone
    refine ⟨fun hzero => ?_, fun hne hhid hfull => ?_, fun hne hhid hshort => ?_, fun hne hhid => ?_⟩
    · rw [State.notifyReceived_control hzero]
      exact congrArg (exec .ctlOut) hput
    · rw [State.notifyReceived_hid hne (hcfg ▸ hhid), if_pos hfull]
      exact congrArg (exec .blOutFull) hput
    · rw [State.notifyReceived_hid hne (hcfg ▸ hhid), if_neg hshort]
      exact congrArg (exec .blOutShort) hput
    · rw [State.notifyReceived_hook hne (hcfg ▸ hhid), State.notify, hnotices]
      exact congrArg (fun u : State => { u with notices := s.notices ++ [Notice.received n total] }) hput.symm
  · have hcomplete := exec_rxComplete_of_flag hflag hsetup
    rw [State.endPacketReceive_setup (s := s.clearCtrRx n) _ hroom] at hcomplete
    exact ⟨_, hcomplete, fun hzero => congrArg Host.Outcome.next (if_pos hzero).symm, fun hne => if_neg hne⟩

/-- Settles O13: the null buffer stalls; any other is recorded and its first packet is armed. -/
theorem beginReceiveEffect : Obligations.BeginReceiveEffect := by
  unfold Obligations.BeginReceiveEffect
  intro s n buf len hidle
  refine ⟨(exec_beginReceive_idle hidle 0 len).trans (by rw [State.beginReceive_null]),
    fun hbuf => ⟨_, exec_beginReceive_idle hidle buf len, ?_⟩⟩
  rw [State.beginReceive_eq s n len hbuf]
  rfl

/-- Settles O18: the SETUP case reads its bytes inside packet memory, and the idle case leaves the state. -/
theorem endPacketReceiveSetupAndIdle : Obligations.EndPacketReceiveSetupAndIdle := by
  unfold Obligations.EndPacketReceiveSetupAndIdle
  intro s n
  refine ⟨fun hsetup hroom => ?_, fun hsetup hpos => ?_⟩
  · rw [exec_endPacketReceive hsetup, State.endPacketReceive_setup _ hroom]
    rfl
  · rw [exec_endPacketReceive hsetup, State.endPacketReceive_idle _ hpos]

end Sys2Proof.Proofs
end

section
/-! The receive law (rule R112): the endpoint record along a reception, and the bytes of a packet on their way from the
host to RAM. -/

namespace Sys2Proof.Machine

open Sys2Proof.Expected

/-! The endpoint record along a reception. -/

/-- The endpoint record of a reception of room `L` into `buf` once `k` bytes are copied (rules R103, R108). -/
def receivingAt (e : Endpoint) (buf : Word) (L : Half) (k : Nat) : Endpoint :=
  { e with rxBuf := buf, rxLen := L, rxPos := buf + BitVec.ofNat 32 k }

@[simp] theorem receivingAt_size (e : Endpoint) (buf : Word) (L : Half) (k : Nat) :
    (receivingAt e buf L k).size = e.size := rfl

@[simp] theorem receivingAt_rxPos (e : Endpoint) (buf : Word) (L : Half) (k : Nat) :
    (receivingAt e buf L k).rxPos = buf + BitVec.ofNat 32 k := rfl

section Cursor

variable {e : Endpoint} {buf : Word} {L : Half} {k : Nat}

theorem receivingAt_completed : (receivingAt e buf L k).rxCompleted = BitVec.ofNat 16 k := by
  change ((buf + BitVec.ofNat 32 k) - buf).setWidth 16 = _
  rw [BitVec.add_comm, BitVec.add_sub_cancel, BitVec.setWidth_ofNat_of_le (by decide)]

/-- Copying `c` more bytes moves the cursor behind them (rule R108). -/
theorem receivingAt_advance (c : Nat) :
    { receivingAt e buf L k with rxPos := (receivingAt e buf L k).rxPos + BitVec.ofNat 32 c } =
      receivingAt e buf L (k + c) := by
  simp only [receivingAt, BitVec.add_assoc, ← BitVec.ofNat_add]

variable (hk : k ≤ L.toNat) (count : BitVec 10)
include hk

/-- A packet is copied as far as there is room (rule R108). -/
theorem rxCopied_receivingAt : ((receivingAt e buf L k).rxCopied count).toNat = min count.toNat (L.toNat - k) := by
  have hcompleted : (BitVec.ofNat 16 k).toNat = k := Nat.mod_eq_of_lt (hk.trans_lt L.isLt)
  rw [rxCopied_eq, receivingAt_completed, receivingAt,
    BitVec.toNat_sub_of_le (by rwa [BitVec.le_def, hcompleted]), hcompleted]

/-- The packet that ends the reception: one that is not full, or with NOZLP the one that fills the room (rule R112). -/
theorem rxTerminal_receivingAt : (receivingAt e buf L k).rxTerminal count = true ↔
    count.toNat ≠ e.size.toNat
      ∨ (e.flags.getLsbD 0 = true ∧ count.toNat = e.size.toNat ∧ L.toNat ≤ k + count.toNat) := by
  have hfills : BitVec.ofNat 16 k + BitVec.ofNat 16 (min count.toNat (L.toNat - k)) = L ↔
      L.toNat ≤ k + count.toNat := by
    have hL := L.isLt
    rw [← BitVec.ofNat_add, ← BitVec.toNat_inj, BitVec.toNat_ofNat, Nat.mod_eq_of_lt (by omega)]
    omega
  rw [rxTerminal_iff, rxCopied_receivingAt hk, receivingAt_completed]
  exact or_congr_right (and_congr_right' (and_congr_right' hfills))

end Cursor

/-! The bytes of a packet. -/

/-- A store of two lists in a row is two stores. -/
theorem Memory.store_append (m : Memory) (a : Word) (k : Nat) (bs cs : List Byte) :
    m.store a k (bs ++ cs) = (m.store a k bs).store a (k + bs.length) cs := by
  induction bs generalizing m k with
  | nil => rfl
  | cons b bs ih =>
    rw [List.cons_append, Memory.store, ih, Memory.store, List.length_cons, Nat.add_right_comm, Nat.add_assoc]

/-- A store from a pointer moved by an offset. -/
theorem Memory.store_add (m : Memory) (a : Word) (i k : Nat) (bs : List Byte) :
    m.store (a + BitVec.ofNat 32 i) k bs = m.store a (i + k) bs := by
  induction bs generalizing m k with
  | nil => rfl
  | cons b bs ih => rw [Memory.store, ih, Memory.store, ptrKey_add, Nat.add_assoc]

/-- Where packet memory holds a packet, reading its first bytes gives them. -/
theorem State.pmaBytes_eq_take {s : State} {o c : Nat} {p : List Byte}
    (h : ∀ k (hk : k < p.length), s.pmaByte (o + k) = p[k]) (hc : c ≤ p.length) : s.pmaBytes o c = p.take c :=
  List.ext_getElem (by simp [hc]) fun k _ hk => by
    rw [List.length_take] at hk
    rw [State.getElem_pmaBytes, List.getElem_take, h k (by omega)]

/-- HOST_OUT on a VALID side, of a packet within the armed capacity and inside packet memory (rule R181). -/
theorem exec_hostOut_taken {s : State} {n : EpNum} {p : List Byte} (hen : s.devEn = true)
    (hvalid : s.hw[n].rxStatus = .valid) (hfits : p.length ≤ capacity s.bdt[n].countRx) :
    exec (.hostOut n p) s = .next (s.packetIn n p false) :=
  if_pos (by rw [hen, decide_eq_true hvalid, decide_eq_true hfits]; rfl)

end Sys2Proof.Machine
end

section
/-! The receive law (rule R112): what a reception keeps, and its rounds. -/

namespace Sys2Proof.Proofs

open Sys2Proof.Machine Sys2Proof.Expected

/-- A buffer to receive into on endpoint `n`: the premises of the receive law that say something of the transfer. -/
structure Receivable (s : State) (n : EpNum) (buf : Word) (L : Half) : Prop where
  enabled : s.devEn = true
  ram : s.ram.wf = true
  pma : s.pma.wf = true
  buf_ne : buf ≠ 0
  fits : buf.toNat + L.toNat < 2 ^ 32
  legal : LegalSize s.ep[n].size
  size_ne : s.ep[n].size ≠ 0
  size_lt : s.ep[n].size.toNat < 1024
  brk_pos : 0 < s.brk.toNat
  room : (rxAddr s n).toNat + s.ep[n].size.toNat ≤ s.cfg.pmaSize

/-- In `u` the reception that began in `s` has taken the bytes `bs`, and kept those it had room for. -/
structure Receiving (s : State) (n : EpNum) (buf : Word) (L : Half) (bs : List Byte) (u : State) : Prop where
  notices : u.notices = s.notices
  ram : u.ram = s.ram.store buf 0 (bs.take L.toNat)
  cfg : u.cfg = s.cfg
  enabled : u.devEn = true
  pma : u.pma.wf = true
  addr : rxAddr u n = rxAddr s n
  ep : u.ep[n] = receivingAt s.ep[n] buf L (min bs.length L.toNat)

/-- The side is armed for the next packet. -/
structure Armed (s : State) (n : EpNum) (buf : Word) (L : Half) (bs : List Byte) (u : State) : Prop
    extends Receiving s n buf L bs u where
  valid : u.hw[n].rxStatus = .valid
  buffer : u.bdt[n].addrRx = rxAddr s n
  encoded : u.bdt[n].countRx = rxCountEncode s.ep[n].size

/-- The packet `p` lies in the buffer. -/
structure Delivered (s : State) (n : EpNum) (buf : Word) (L : Half) (bs p : List Byte) (u : State) : Prop
    extends Receiving s n buf L bs u where
  buffer : u.bdt[n].addrRx = rxAddr s n
  count : (countOf u.bdt[n].countRx).toNat = p.length
  bytes : ∀ k (hk : k < p.length), u.pmaByte ((rxAddr s n).toNat + k) = p[k]

/-- The reception has ended after the bytes `bs` and is reported (rules R110, R111, R112). -/
structure Received (s : State) (n : EpNum) (buf : Word) (L : Half) (bs : List Byte) (t : State) : Prop where
  notices : t.notices = s.notices ++ [.received n (BitVec.ofNat 16 (min bs.length L.toNat))]
  ram : t.ram = s.ram.store buf 0 (bs.take L.toNat)
  cursor : t.ep[n].rxPos = 0

variable {s u : State} {n : EpNum} {buf : Word} {L : Half} {bs p : List Byte}

/-- The buffer a reception uses is not the null offset. -/
theorem Receivable.rxAddr_ne_zero (h : Receivable s n buf L) : rxAddr s n ≠ 0 := by
  rw [rxAddr]
  split
  · exact fun h0 => by simpa [h0] using h.brk_pos
  · assumption

/-- The cursor of a reception is not null: it lies in the buffer, which does not wrap (log 33). -/
theorem Receivable.cursor_ne_zero (h : Receivable s n buf L) {k : Nat} (hk : k ≤ L.toNat) :
    (receivingAt s.ep[n] buf L k).rxPos ≠ 0 := by
  have hfits := h.fits
  have hbuf : 0 < buf.toNat := Nat.pos_of_ne_zero fun h0 => h.buf_ne (BitVec.eq_of_toNat_eq h0)
  rw [receivingAt, ne_eq, ← BitVec.toNat_inj, BitVec.toNat_add, BitVec.toNat_ofNat,
    show (0 : Word).toNat = 0 from rfl]
  omega

/-- BEGIN_RECEIVE records the buffer, and nothing is received (rule R103). -/
theorem Receivable.begun (h : Receivable s n buf L) (fs : FaultSet) :
    Receiving s n buf L []
      { s with ep := s.ep.set n { s.ep[n] with rxBuf := buf, rxLen := L, rxPos := buf }, faults := fs } where
  notices := rfl
  ram := by rw [List.take_nil, Memory.store]
  cfg := rfl
  enabled := h.enabled
  pma := h.pma
  addr := rfl
  ep := by rw [vset_self, receivingAt, List.length_nil, Nat.zero_min, BitVec.add_zero]

/-- BEGIN_PACKET_RECEIVE arms the side for the next packet (rule R104). -/
theorem Receiving.beginPacketReceive (h : Receivable s n buf L) (hu : Receiving s n buf L bs u) :
    Armed s n buf L bs (u.beginPacketReceive n) := by
  have hsize : u.ep[n].size = s.ep[n].size := by rw [hu.ep, receivingAt_size]
  have heq := State.beginPacketReceive_armed (s := u) (n := n) (hsize ▸ h.size_ne)
  have hbuffer : (u.beginPacketReceive n).bdt[n].addrRx = rxAddr s n := by
    rw [heq, ← hu.addr]
    exact congrArg Descriptor.addrRx (vset_self _ _ _)
  constructor
  case toReceiving =>
    constructor
    case addr => rw [rxAddr, hbuffer, if_neg h.rxAddr_ne_zero]
    case notices => simpa using hu.notices
    case ram => simpa using hu.ram
    case cfg => simpa using hu.cfg
    case enabled => simpa using hu.enabled
    case pma => simpa using hu.pma
    case ep => simpa using hu.ep
  case valid =>
    rw [heq]
    exact congrArg EpHardware.rxStatus (vset_self _ _ _)
  case buffer => exact hbuffer
  case encoded =>
    rw [heq, ← hsize]
    exact congrArg Descriptor.countRx (vset_self _ _ _)

/-- HOST_OUT delivers a packet of at most the packet size (rule R181). -/
theorem Armed.hostOut (h : Receivable s n buf L) (hu : Armed s n buf L bs u) (hp : p.length ≤ s.ep[n].size.toNat) :
    ∃ t, exec (.hostOut n p) u = .next t ∧ Delivered s n buf L bs p t
      ∧ t.hw[n].ctrRx = true ∧ t.hw[n].setup = false := by
  have hfits : p.length ≤ capacity u.bdt[n].countRx := by
    rwa [hu.encoded, capacity_rxCountEncode h.legal h.size_ne]
  have hroom : u.bdt[n].addrRx.toNat + p.length ≤ u.cfg.pmaSize := by
    rw [hu.buffer, hu.cfg]
    exact (Nat.add_le_add_left hp _).trans h.room
  have hlen : p.length < 1024 := hp.trans_lt h.size_lt
  have heq := packetIn_eq u n p false hroom
  obtain ⟨hbytes, -⟩ := pm_in u (u.packetIn n p false) (by rw [heq]) (by rw [heq]) _ p hu.pma (by rw [heq]) hroom
  have hbdt : (u.packetIn n p false).bdt[n] =
      { u.bdt[n] with countRx := withCount u.bdt[n].countRx (BitVec.ofNat 10 p.length) } := by
    rw [State.packetIn_bdt, vset_self]
  have hhw : (u.packetIn n p false).hw[n] = ⟨u.hw[n].txStatus, .nak, u.hw[n].ctrTx, true, false⟩ := by
    rw [heq, vset_self]
  refine ⟨_, exec_hostOut_taken hu.enabled hu.valid hfits, ?_, by rw [hhw], by rw [hhw]⟩
  constructor
  case toReceiving =>
    constructor
    case addr => rw [rxAddr, hbdt, hu.buffer, if_neg h.rxAddr_ne_zero]
    case pma => exact pmaStore_wf hu.pma _ _ _
    case ep => rw [State.packetIn_ep, hu.ep]
    case enabled => rw [State.packetIn_devEn, hu.enabled]
    case notices => exact hu.notices
    case ram => exact hu.ram
    case cfg => exact hu.cfg
  case buffer => rw [hbdt, hu.buffer]
  case count =>
    rw [hbdt]
    refine (congrArg BitVec.toNat (countOf_with _ _)).trans ?_
    exact Nat.mod_eq_of_lt hlen
  case bytes => exact hu.buffer ▸ hbytes

/-- A delivered packet is copied as far as there is room (rule R108). -/
theorem Delivered.copied (hu : Delivered s n buf L bs p u) :
    (u.ep[n].rxCopied (countOf u.bdt[n].countRx)).toNat = min p.length (L.toNat - min bs.length L.toNat) := by
  rw [hu.ep, rxCopied_receivingAt (Nat.min_le_right _ _), hu.count]

/-- Whether a delivered packet ends the reception (rule R112). -/
theorem Delivered.terminal_iff (hu : Delivered s n buf L bs p u) :
    u.ep[n].rxTerminal (countOf u.bdt[n].countRx) = true ↔ p.length ≠ s.ep[n].size.toNat
      ∨ (s.ep[n].flags.getLsbD 0 = true ∧ p.length = s.ep[n].size.toNat ∧ L.toNat ≤ (bs ++ p).length) := by
  rw [hu.ep, rxTerminal_receivingAt (Nat.min_le_right _ _), hu.count, List.length_append]
  have : L.toNat ≤ min bs.length L.toNat + p.length ↔ L.toNat ≤ bs.length + p.length := by omega
  rw [this]

/-- Taking a delivered packet adds its bytes to those received (rule R108). -/
theorem Delivered.advanced (hu : Delivered s n buf L bs p u) :
    Receiving s n buf L (bs ++ p) (u.advanced n (countOf u.bdt[n].countRx)) where
  notices := hu.notices
  ram := by
    have htake : p.take (min p.length (L.toNat - min bs.length L.toNat)) = p.take (L.toNat - bs.length) := by
      rw [List.take_eq_take_iff]
      omega
    change u.receivedRam n _ = _
    rw [State.receivedRam, hu.buffer, State.pmaBytes_eq_take hu.bytes (hu.copied ▸ Nat.min_le_left _ _), hu.copied,
      htake, hu.ram, hu.ep, receivingAt_rxPos, Memory.store_add, List.take_append, Memory.store_append, Nat.zero_add,
      List.length_take, Nat.min_comm, Nat.add_zero]
  cfg := hu.cfg
  enabled := hu.enabled
  pma := hu.pma
  addr := hu.addr
  ep := by
    rw [State.advanced, vset_self, hu.copied, hu.ep, receivingAt_advance, List.length_append]
    congr 1
    omega

/-- The part of a delivered packet that is copied lies inside packet memory. -/
theorem Delivered.room (h : Receivable s n buf L) (hu : Delivered s n buf L bs p u)
    (hp : p.length ≤ s.ep[n].size.toNat) :
    u.bdt[n].addrRx.toNat + (u.ep[n].rxCopied (countOf u.bdt[n].countRx)).toNat ≤ u.cfg.pmaSize := by
  have hroom := h.room
  rw [hu.buffer, hu.copied, hu.cfg]
  omega

/-- While a reception goes on its cursor is not null. -/
theorem Receiving.cursor_ne_zero (h : Receivable s n buf L) (hu : Receiving s n buf L bs u) : u.ep[n].rxPos ≠ 0 :=
  hu.ep ▸ h.cursor_ne_zero (Nat.min_le_right _ _)

theorem Delivered.clearCtrRx (hu : Delivered s n buf L bs p u) : Delivered s n buf L bs p (u.clearCtrRx n) :=
  ⟨⟨hu.notices, hu.ram, hu.cfg, hu.enabled, hu.pma, hu.addr, hu.ep⟩, hu.buffer, hu.count, hu.bytes⟩

/-- A full packet that does not end the reception (rules R108, R112). -/
theorem Delivered.takeData_continues (h : Receivable s n buf L) (hu : Delivered s n buf L bs p u)
    (hfull : p.length = s.ep[n].size.toNat)
    (hspace : s.ep[n].flags.getLsbD 0 = true → (bs ++ p).length < L.toNat) :
    u.takeData n (countOf u.bdt[n].countRx) =
      (.working, (u.advanced n (countOf u.bdt[n].countRx)).beginPacketReceive n) := by
  refine State.takeData_working (hu.room h hfull.le) (mt hu.terminal_iff.mp ?_)
  rintro (hshort | ⟨hz, -, hfills⟩)
  · exact hshort hfull
  · exact Nat.not_lt.mpr hfills (hspace hz)

/-- The packet that ends the reception: the total is what there was room for (rules R108, R112). -/
theorem Delivered.takeData_ends (h : Receivable s n buf L) (hu : Delivered s n buf L bs p u)
    (hp : p.length ≤ s.ep[n].size.toNat)
    (hends : p.length ≠ s.ep[n].size.toNat ∨ (s.ep[n].flags.getLsbD 0 = true ∧ L.toNat ≤ (bs ++ p).length)) :
    u.takeData n (countOf u.bdt[n].countRx) = (.done (BitVec.ofNat 16 (min (bs ++ p).length L.toNat)),
      { u with
        ep := u.ep.set n { u.ep[n] with rxPos := 0 }, ram := u.receivedRam n (countOf u.bdt[n].countRx) }) := by
  have hterminal : u.ep[n].rxTerminal (countOf u.bdt[n].countRx) = true := by
    refine hu.terminal_iff.mpr ?_
    by_cases hfull : p.length = s.ep[n].size.toNat
    · obtain ⟨hz, hfills⟩ := hends.resolve_left (not_not.mpr hfull)
      exact .inr ⟨hz, hfull, hfills⟩
    · exact .inl hfull
  have htotal : min bs.length L.toNat + min p.length (L.toNat - min bs.length L.toNat) =
      min (bs ++ p).length L.toNat := by
    rw [List.length_append]
    omega
  rw [State.takeData_done (hu.room h hp) hterminal, hu.copied, hu.ep, receivingAt_completed, ← BitVec.ofNat_add, htotal]

/-- RX_COMPLETE of a full packet that does not end the reception arms the side again (rules R108, R110, R112). -/
theorem Delivered.rxComplete_continues (h : Receivable s n buf L) (hu : Delivered s n buf L bs p u)
    (hflag : u.hw[n].ctrRx = true) (hdata : u.hw[n].setup = false) (hfull : p.length = s.ep[n].size.toNat)
    (hspace : s.ep[n].flags.getLsbD 0 = true → (bs ++ p).length < L.toNat) :
    ∃ t, exec (.rxComplete n) u = .next t ∧ Armed s n buf L (bs ++ p) t := by
  have hc := hu.clearCtrRx
  have hexec := exec_rxComplete_of_flag hflag hdata
  rw [State.endPacketReceive_data _ (hc.cursor_ne_zero h), hc.takeData_continues h hfull hspace] at hexec
  exact ⟨_, hexec, hc.advanced.beginPacketReceive h⟩

/-- RX_COMPLETE of the packet that ends the reception reports it (rules R108, R110 to R112). -/
theorem Delivered.rxComplete_reports (h : Receivable s n buf L) (h0 : n ≠ 0) (hhid : n ≠ s.cfg.epHid)
    (hu : Delivered s n buf L bs p u) (hflag : u.hw[n].ctrRx = true) (hdata : u.hw[n].setup = false)
    (hp : p.length ≤ s.ep[n].size.toNat)
    (hends : p.length ≠ s.ep[n].size.toNat ∨ (s.ep[n].flags.getLsbD 0 = true ∧ L.toNat ≤ (bs ++ p).length)) :
    ∃ t, exec (.rxComplete n) u = .next t ∧ Received s n buf L (bs ++ p) t := by
  have hc := hu.clearCtrRx
  have hexec := exec_rxComplete_of_flag hflag hdata
  rw [State.endPacketReceive_data _ (hc.cursor_ne_zero h), hc.takeData_ends h hp hends] at hexec
  refine ⟨_, hexec.trans (congrArg Host.Outcome.next (State.notifyReceived_hook h0 (hu.cfg ▸ hhid) _)), ?_, ?_, ?_⟩
  · rw [State.notify_notices]
    exact congrArg (· ++ _) hu.notices
  · exact hc.advanced.ram
  · exact congrArg Endpoint.rxPos (vset_self _ _ _)

/-- One round of HOST_OUT and RX_COMPLETE, then the others. -/
theorem receiveRounds_cons {t v : State} (hout : exec (.hostOut n p) u = .next t)
    (hcomplete : exec (.rxComplete n) t = .next v) (ps : List (List Byte)) :
    receiveRounds n (p :: ps) u = receiveRounds n ps v := by
  simp only [receiveRounds, hout, hcomplete]

/-- From an armed side, the rounds of the full packets and of the one that ends the reception. -/
theorem Armed.exists_received (h : Receivable s n buf L) (h0 : n ≠ 0) (hhid : n ≠ s.cfg.epHid)
    (full : List (List Byte)) {last : List Byte} (hfull : ∀ p ∈ full, p.length = s.ep[n].size.toNat)
    (hlast : last.length ≤ s.ep[n].size.toNat)
    (hgoes : s.ep[n].flags.getLsbD 0 = true → (bs ++ full.flatten).length < L.toNat ∨ full = [])
    (hends : last.length ≠ s.ep[n].size.toNat
      ∨ (s.ep[n].flags.getLsbD 0 = true ∧ L.toNat ≤ (bs ++ full.flatten ++ last).length))
    (hu : Armed s n buf L bs u) :
    ∃ t, receiveRounds n (full ++ [last]) u = some t ∧ Received s n buf L (bs ++ full.flatten ++ last) t := by
  induction full generalizing bs u with
  | nil =>
    rw [List.flatten_nil, List.append_nil] at *
    obtain ⟨t, hout, ht, hflag, hdata⟩ := hu.hostOut h hlast
    obtain ⟨v, hcomplete, hv⟩ := ht.rxComplete_reports h h0 hhid hflag hdata hlast hends
    exact ⟨v, receiveRounds_cons hout hcomplete [], hv⟩
  | cons p full ih =>
    have hp := hfull p List.mem_cons_self
    obtain ⟨t, hout, ht, hflag, hdata⟩ := hu.hostOut h hp.le
    rw [List.flatten_cons, ← List.append_assoc] at *
    have hroom (hz : s.ep[n].flags.getLsbD 0 = true) : (bs ++ p ++ full.flatten).length < L.toNat :=
      (hgoes hz).resolve_right (List.cons_ne_nil _ _)
    obtain ⟨v, hcomplete, hv⟩ := ht.rxComplete_continues h hflag hdata hp fun hz => by
      have := hroom hz
      rw [List.length_append] at this
      omega
    rw [List.cons_append, receiveRounds_cons hout hcomplete]
    exact ih (fun q hq => hfull q (List.mem_cons_of_mem _ hq)) (fun hz => .inl (hroom hz)) hends hv

/-- Settles O22: BEGIN_RECEIVE arms the first packet, and the rounds take the packets by induction on the full ones. -/
theorem receiveLaw : Obligations.ReceiveLaw := by
  unfold Obligations.ReceiveLaw
  intro s n buf L full last h0 hhid hidle hen hmem hbuf hfits hlegal hsize hlt hbrk hroom P all hfull hlast hgoes hends
  obtain ⟨hram, hpma, -, -⟩ := memoriesOk_iff.mp hmem
  have h : Receivable s n buf L := ⟨hen, hram, hpma, hbuf, hfits, hlegal, hsize, hlt, hbrk, hroom⟩
  have hfirst : Armed s n buf L [] (s.beginReceive n buf L) := by
    rw [s.beginReceive_eq n L hbuf]
    exact (h.begun _).beginPacketReceive h
  obtain ⟨t, hrounds, ht⟩ := hfirst.exists_received h h0 hhid full hfull hlast hgoes hends
  have hlen : (all.take L.toNat).length = min all.length L.toNat := by rw [List.length_take, Nat.min_comm]
  refine ⟨_, t, exec_beginReceive_idle hidle buf L, hrounds, ?_, ?_, ht.notices, ht.cursor⟩
  · rw [ht.ram, ← hlen]
    refine Memory.load_store hram buf 0 (all.take L.toNat) ?_
    omega
  · intro j hj
    rw [ht.ram]
    refine Memory.read_store_of_ne hram _ _ _ _ fun k hk => ?_
    rw [Nat.zero_add]
    exact hj k (hlen ▸ hk)

end Sys2Proof.Proofs
end

section
/-! The setup packet of endpoint 0 (rules R27, R133): one law per operation that leaves it, and the case of
END_PACKET_RECEIVE that writes it. -/

namespace Sys2Proof.Machine

open Sys2Proof.Expected Sys2Proof.Proofs

/-- An operation that leaves the endpoint records leaves the setup packet. -/
theorem setupPacket_of_ep_eq {s t : State} (h : t.ep = s.ep) : t.setupPacket = s.setupPacket := by
  simp only [State.setupPacket, h]

/-- An operation that writes one endpoint record but for its setup packet leaves the setup packet. -/
theorem setupPacket_of_ep_set {s t : State} {n : EpNum} {e : Endpoint} (h : t.ep = s.ep.set n e)
    (he : e.lastSetup = s.ep[n].lastSetup) : t.setupPacket = s.setupPacket := by
  simp only [State.setupPacket, h]
  by_cases hn : 0 = n
  · subst hn
    rw [vset_self, he]
  · rw [vset_ne _ _ hn]

section SetupFrames

variable (s : State)

/-! The operations of the engine. -/

@[simp] theorem State.epConfigure_setupPacket (n : EpNum) (type : EpType) (size : Half) (flags : Word) :
    (s.epConfigure n type size flags).setupPacket = s.setupPacket := by
  by_cases hok : configOk type size flags = true
  · rw [s.epConfigure_of_configOk n hok]
    exact setupPacket_of_ep_set rfl rfl
  · obtain ⟨r, hr⟩ := s.epConfigure_refuses n hok
    rw [hr]
    rfl

@[simp] theorem State.sendNextPacket_setupPacket (n : EpNum) : (s.sendNextPacket n).setupPacket = s.setupPacket := by
  by_cases hidle : s.ep[n].txPos = 0 ∨ s.ep[n].size = 0
  · rw [s.sendNextPacket_idle n hidle]
  · obtain ⟨hpos, hsize⟩ := not_or.mp hidle
    rw [s.sendNextPacket_packet n hpos hsize]
    exact setupPacket_of_ep_set rfl rfl

@[simp] theorem State.beginSend_setupPacket (n : EpNum) (buf : Word) (len : Half) :
    (s.beginSend n buf len).setupPacket = s.setupPacket := by
  by_cases hbuf : buf = 0
  · subst hbuf
    exact setupPacket_of_ep_set rfl rfl
  · rw [s.beginSend_eq n len hbuf, State.sendNextPacket_setupPacket]
    exact setupPacket_of_ep_set rfl rfl

@[simp] theorem State.beginPacketReceive_setupPacket (n : EpNum) :
    (s.beginPacketReceive n).setupPacket = s.setupPacket :=
  setupPacket_of_ep_eq (s.beginPacketReceive_ep n)

@[simp] theorem State.beginReceive_setupPacket (n : EpNum) (buf : Word) (len : Half) :
    (s.beginReceive n buf len).setupPacket = s.setupPacket := by
  by_cases hbuf : buf = 0
  · subst hbuf
    exact setupPacket_of_ep_set rfl rfl
  · rw [s.beginReceive_eq n len hbuf, State.beginPacketReceive_setupPacket]
    exact setupPacket_of_ep_set rfl rfl

@[simp] theorem State.packetIn_setupPacket (n : EpNum) (bs : List Byte) (setup : Bool) :
    (s.packetIn n bs setup).setupPacket = s.setupPacket :=
  setupPacket_of_ep_eq (s.packetIn_ep n bs setup)

/-! The operations of the bootloader. -/

@[simp] theorem State.modBl_setupPacket (f : Boot → Boot) : (s.modBl f).setupPacket = s.setupPacket := rfl

@[simp] theorem State.setInWord_setupPacket (i : Nat) (v : Word) : (s.setInWord i v).setupPacket = s.setupPacket := rfl

@[simp] theorem State.ramWrite_setupPacket (a : Word) (bs : List Byte) :
    (s.ramWrite a bs).setupPacket = s.setupPacket := rfl

@[simp] theorem State.flashErasePage_setupPacket (a : Word) : (s.flashErasePage a).2.setupPacket = s.setupPacket := rfl

@[simp] theorem State.flashWriteHalf_setupPacket (a : Word) (bs : List Byte) :
    (s.flashWriteHalf a bs).2.setupPacket = s.setupPacket := rfl

@[simp] theorem State.status_setupPacket (code : ErrCode) (next : BlState) :
    (s.status code next).setupPacket = s.setupPacket := by
  simp [State.status, State.hidSendIn]

@[simp] theorem State.cmdReset_setupPacket : s.cmdReset.setupPacket = s.setupPacket := by
  simp [State.cmdReset]

@[simp] theorem State.cmdProg_setupPacket : s.cmdProg.setupPacket = s.setupPacket := by
  unfold State.cmdProg
  simp only
  split
  · simp
  · split <;> simp

@[simp] theorem State.cmdRead_setupPacket : s.cmdRead.setupPacket = s.setupPacket := by
  simp [State.cmdRead]

@[simp] theorem State.cmdExit_setupPacket : s.cmdExit.setupPacket = s.setupPacket := by
  simp [State.cmdExit]

@[simp] theorem State.cmdUnrecognized_setupPacket : s.cmdUnrecognized.setupPacket = s.setupPacket := by
  simp [State.cmdUnrecognized]

@[simp] theorem State.halfPage_setupPacket (upper : Bool) : (s.halfPage upper).setupPacket = s.setupPacket := by
  have hwritten : (halfWritten s upper).setupPacket = s.setupPacket := rfl
  by_cases hcrc : crc32 s.outReport = halfCrc s upper
  · cases hpass : flashPasses s
    · rw [halfPage_of_fails hcrc hpass, State.status_setupPacket, hwritten]
    · rw [halfPage_of_passes hcrc hpass, State.status_setupPacket, hwritten]
  · rw [halfPage_of_badCrc hcrc, State.status_setupPacket]
    rfl

@[simp] theorem State.blRow1_setupPacket : s.blRow1.setupPacket = s.setupPacket := by
  simp [State.blRow1, State.hidArmOut]

@[simp] theorem State.blRow2_setupPacket : s.blRow2.setupPacket = s.setupPacket := by
  simp [State.blRow2]

@[simp] theorem State.blRow3_setupPacket : s.blRow3.setupPacket = s.setupPacket := by
  unfold State.blRow3
  split <;> simp

@[simp] theorem State.blRow4_setupPacket : s.blRow4.setupPacket = s.setupPacket := by
  simp [State.blRow4, State.hidArmOut]

@[simp] theorem State.blReadRefused_setupPacket : s.blReadRefused.setupPacket = s.setupPacket := rfl

@[simp] theorem State.blRow9_setupPacket : s.blRow9.setupPacket = s.setupPacket := by
  simp [State.blRow9]

@[simp] theorem State.blEvent_setupPacket (e : BlEvent) : (s.blEvent e).setupPacket = s.setupPacket := by
  unfold State.blEvent
  split <;> simp

/-! The control pipeline. -/

@[simp] theorem State.setCtl_setupPacket (v : CtlState) : (s.setCtl v).setupPacket = s.setupPacket := rfl

@[simp] theorem State.stallEp0_setupPacket : s.stallEp0.setupPacket = s.setupPacket := by
  simp [State.stallEp0]

@[simp] theorem State.hidBinding_setupPacket : s.hidBinding.setupPacket = s.setupPacket := by
  simp [State.hidBinding]

@[simp] theorem State.setupDispatch_setupPacket : s.setupDispatch.2.setupPacket = s.setupPacket := by
  unfold State.setupDispatch
  split
  case h_4 => exact s.hidBinding_setupPacket
  all_goals rfl

@[simp] theorem State.startStage_setupPacket (p : SetupPacket) (a : Answer) :
    (s.startStage p a).setupPacket = s.setupPacket := by
  cases a with
  | stall => simp [State.startStage]
  | ok ptr rlen =>
    simp only [State.startStage]
    split
    · simp [State.inZlp]
    · split <;> simp

@[simp] theorem State.ctlRow1_setupPacket : s.ctlRow1.setupPacket = s.setupPacket := by
  simp [State.ctlRow1, State.armSetup]

@[simp] theorem State.ctlRow2_setupPacket : s.ctlRow2.setupPacket = s.setupPacket := by
  simp [State.ctlRow2]

@[simp] theorem State.ctlRow3_setupPacket : s.ctlRow3.setupPacket = s.setupPacket := by
  unfold State.ctlRow3
  split <;> simp [State.outZlp, State.inZlp]

@[simp] theorem State.ctlRow4_setupPacket : s.ctlRow4.setupPacket = s.setupPacket := by
  rw [State.ctlRow4, State.setCtl_setupPacket, State.armSetup, State.beginReceive_setupPacket]
  rfl

@[simp] theorem State.ctlRow5_setupPacket : s.ctlRow5.setupPacket = s.setupPacket := by
  simp [State.ctlRow5]

@[simp] theorem State.ctlEvent_setupPacket (e : CtlEvent) : (s.ctlEvent e).setupPacket = s.setupPacket := by
  unfold State.ctlEvent
  split <;> simp

@[simp] theorem State.notify_setupPacket (x : Notice) : (s.notify x).setupPacket = s.setupPacket := rfl

@[simp] theorem State.notifySent_setupPacket (n : EpNum) : (s.notifySent n).setupPacket = s.setupPacket := by
  unfold State.notifySent
  split
  · simp
  · split <;> simp

@[simp] theorem State.notifyReceived_setupPacket (n : EpNum) (r : RecvResult) :
    (s.notifyReceived n r).setupPacket = s.setupPacket := by
  cases r with
  | none => rfl
  | working => rfl
  | setupDone =>
    simp only [State.notifyReceived]
    split <;> simp
  | done total =>
    simp only [State.notifyReceived]
    split
    · simp
    · split <;> simp

theorem State.request_setupPacket {f : State → State} (hf : (f s).setupPacket = s.setupPacket) :
    (s.request f).setupPacket = s.setupPacket := by
  unfold State.request
  split
  · rfl
  · exact hf

end SetupFrames

variable {s : State} {n : EpNum}

/-- END_PACKET_RECEIVE writes the setup packet of endpoint 0 only there, and only in its SETUP case (rules R106 to
R109, R133). -/
theorem State.endPacketReceive_setupPacket {setup : Bool} (h : ¬(n = 0 ∧ setup = true)) (count : BitVec 10) :
    (s.endPacketReceive n count setup).2.setupPacket = s.setupPacket := by
  unfold State.endPacketReceive
  split
  next hsetup =>
    have hn : (0 : EpNum) ≠ n := fun hn => h ⟨hn.symm, hsetup⟩
    simp only [State.setupPacket, State.takeSetup_ep]
    rw [vset_ne _ _ hn]
  next =>
    split
    · rfl
    · exact takeData_setupPacket s n count

/-- HOST_IN (rules R182, R183). -/
theorem exec_hostIn_setupPacket {t : State} (h : exec (.hostIn n) s = .next t) : t.setupPacket = s.setupPacket := by
  simp only [exec, execHostIn] at h
  split at h <;> cases h <;> exact setupPacket_of_ep_eq (by simp)

/-- HOST_OUT (rules R181, R183). -/
theorem exec_hostOut_setupPacket {bytes : List Byte} {t : State} (h : exec (.hostOut n bytes) s = .next t) :
    t.setupPacket = s.setupPacket := by
  simp only [exec, execHostOut] at h
  split at h <;> cases h
  · exact s.packetIn_setupPacket n bytes false
  · rfl

/-- HOST_SETUP puts the packet into packet memory only (rule R180). -/
theorem exec_hostSetup_setupPacket {len : Half} {bytes : List Byte} {t : State}
    (h : exec (.hostSetup n len bytes) s = .next t) : t.setupPacket = s.setupPacket := by
  simp only [exec, execHostSetup] at h
  split at h
  · cases h
    exact s.packetIn_setupPacket n bytes true
  · split at h <;> cases h <;> rfl

/-- TX_COMPLETE (rules R99, R100). -/
theorem exec_txComplete_setupPacket {t : State} (h : exec (.txComplete n) s = .next t) :
    t.setupPacket = s.setupPacket := by
  have hclear : (s.clearCtrTx n).setupPacket = s.setupPacket := rfl
  simp only [exec, execTxComplete] at h
  split at h
  · cases h; rfl
  · split at h <;> cases h <;> simp [hclear]

/-- RX_COMPLETE but for a SETUP on endpoint 0 (rules R110, R111, R133). -/
theorem exec_rxComplete_setupPacket {t : State} (hn : ¬(n = 0 ∧ s.hw[n].setup = true))
    (h : exec (.rxComplete n) s = .next t) : t.setupPacket = s.setupPacket := by
  simp only [exec, execRxComplete] at h
  split at h <;> cases h
  · rfl
  · rw [State.notifyReceived_setupPacket, State.endPacketReceive_setupPacket hn]
    rfl

end Sys2Proof.Machine

namespace Sys2Proof.Proofs

open Sys2Proof.Machine

/-- The instructions that may receive a SETUP on endpoint 0: RX_COMPLETE, or END_PACKET_RECEIVE by itself (log 5). -/
def TakesSetup (i : Instr) (s : State) : Prop :=
  (i = .rxComplete 0 ∨ i = .endPacketReceive 0) ∧ (s.hw[(0 : EpNum)]).setup = true

/-- Every other instruction leaves the setup packet (rule R133). -/
theorem exec_setupPacket {i : Instr} {s t : State} (hbus : i ≠ .busReset) (hsetup : ¬TakesSetup i s)
    (h : exec i s = .next t) : t.setupPacket = s.setupPacket := by
  cases i
  case busReset => exact absurd rfl hbus
  case rxComplete n =>
    exact exec_rxComplete_setupPacket (fun ⟨hn, hset⟩ => hsetup (by subst hn; exact ⟨.inl rfl, hset⟩)) h
  case endPacketReceive n =>
    cases h
    exact State.endPacketReceive_setupPacket
      (fun ⟨hn, hset⟩ => hsetup (by subst hn; exact ⟨.inr rfl, hset⟩)) _
  case txComplete => exact exec_txComplete_setupPacket h
  case hostIn => exact exec_hostIn_setupPacket h
  case hostOut => exact exec_hostOut_setupPacket h
  case hostSetup => exact exec_hostSetup_setupPacket h
  case epConfigure => cases h; exact State.request_setupPacket _ (by simp)
  case beginSend => cases h; exact State.request_setupPacket _ (by simp)
  case beginReceive => cases h; exact State.request_setupPacket _ (by simp)
  case allocate => cases h; rfl
  case allocReset => cases h; rfl
  case reqSetConfiguration => cases h; exact s.hidBinding_setupPacket
  case reqGetStatus => cases h; rfl
  case reqGetDescriptor => cases h; rfl
  case reqSetAddress => cases h; rfl
  case reqOther => cases h; rfl
  all_goals
    cases h
    simp

/-- Settles O56: an instruction that is none of the writers leaves the setup packet. -/
theorem lastSetupHasTwoWriters : Obligations.LastSetupHasTwoWriters := by
  unfold Obligations.LastSetupHasTwoWriters
  intro i s t h hne
  by_cases hbus : i = .busReset
  · exact .inl hbus
  · by_cases hsetup : TakesSetup i s
    · exact .inr hsetup
    · exact absurd (exec_setupPacket hbus hsetup h) hne

end Sys2Proof.Proofs
end

section
/-! The laws of the control pipeline (rules R114 to R131): its zero-length packet, its stall, an accepted configuration,
and the stages a dispatched request starts. -/

namespace Sys2Proof.Machine

open Sys2Proof.Expected

variable (s : State)

/-- EP_CONFIGURE with operands it accepts, as one record (rules R92, R93). -/
theorem State.epConfigure_eq (n : EpNum) {type : EpType} {size : Half} {flags : Word}
    (h : configOk type size flags = true) :
    s.epConfigure n type size flags = { s with
      ep := s.ep.set n (s.ep[n].configured type size flags)
      hw := s.hw.set n { s.hw[n] with txStatus := .nak, rxStatus := .nak }
      faults := { s.faults with
        resizeAllocated := s.faults.resizeAllocated
          || decide ((s.bdt[n].addrTx ≠ 0 ∨ s.bdt[n].addrRx ≠ 0) ∧ size ≠ s.ep[n].size) } } := by
  rw [s.epConfigure_of_configOk n h, State.raiseIf_resizeAllocated]
  rfl

/-- A packet of no bytes leaves packet memory (rules R49, R97). -/
theorem State.sentPma_empty (n : EpNum) (buf : Word) : s.sentPma n buf 0 = s.pma := rfl

/-- BEGIN_SEND of no bytes on a configured endpoint: the one packet is short, so it ends the transfer (rules R95, R97,
R98). -/
theorem State.beginSend_eq_sentZlp {n : EpNum} {buf : Word} (hsize : s.ep[n].size ≠ 0) (hbuf : buf ≠ 0) :
    s.beginSend n buf 0 = sentZlp s n buf := by
  have hchunk : chunk { s.ep[n] with txBuf := buf, txPos := buf, txLen := 0 } = 0 := by simp [chunk]
  have hsome : ¬0 = s.ep[n].size.toNat := fun h => hsize (BitVec.eq_of_toNat_eq h.symm)
  have hafter : afterPacket { s.ep[n] with txBuf := buf, txPos := buf, txLen := 0 } =
      { s.ep[n] with txBuf := buf, txPos := 0, txLen := 0 } := by
    simp only [afterPacket, Terminal, hchunk, ne_eq, hsome, not_false_eq_true, true_or, if_true]
  have hwrap : ¬2 ^ 32 < buf.toNat + (0 : Half).toNat := by have := buf.isLt; simp; omega
  rw [s.beginSend_eq n 0 hbuf,
    State.sendNextPacket_packet _ n (by rw [vset_self]; exact hbuf) (by rw [vset_self]; exact hsize)]
  apply State.ext <;>
    simp only [sentZlp, breakAfter, overflows, vset_self, vset_set, hchunk, hafter, hwrap, State.sentPma_empty,
      Nat.lt_irrefl, false_and, decide_false, Bool.or_false] <;> rfl

/-- STALL_EP0 (rule R127). -/
theorem State.stallEp0_eq_stalled : s.stallEp0 = stalled s := by
  rw [State.stallEp0, State.beginSend_null, State.beginReceive_null]
  simp only [stalled, vset_self, vset_set]
  rfl

/-- Row 5 is STALL_EP0 and the return to SETUP (rules R127, R131). -/
theorem State.ctlRow5_eq : s.ctlRow5 = { stalled s with ctl := .setup } := by
  rw [State.ctlRow5, s.stallEp0_eq_stalled]
  rfl

/-- HID_ARM_OUT on a configured HID endpoint with valid parameters (rule R138). -/
theorem State.hidArmOut_eq_armedReceive (hv : s.cfg.valid = true) (hsize : s.ep[s.cfg.epHid].size ≠ 0) :
    s.hidArmOut = armedReceive s s.cfg.epHid s.cfg.outBuf Config.hidSize := by
  obtain ⟨-, -, -, hbuf, -, -, hfits, -⟩ := valid_addr _ hv
  exact s.beginReceive_eq_armedReceive _ hsize hbuf hfits

/-- IN_ZLP on a configured endpoint 0 with valid parameters (rules R86, R125). -/
theorem State.inZlp_eq_sentZlp (hv : s.cfg.valid = true) (hsize : (s.ep[(0 : EpNum)]).size ≠ 0) :
    s.inZlp = sentZlp s 0 s.cfg.ep0Buf :=
  s.beginSend_eq_sentZlp hsize (valid_addr _ hv).1

/-- OUT_ZLP on a configured endpoint 0 with valid parameters (rules R86, R128). -/
theorem State.outZlp_eq_armedReceive (hv : s.cfg.valid = true) (hsize : (s.ep[(0 : EpNum)]).size ≠ 0) :
    s.outZlp = armedReceive s 0 s.cfg.ep0Buf 0 :=
  s.beginReceive_eq_armedReceive _ hsize (valid_addr _ hv).1 s.cfg.ep0Buf.isLt.le

/-! Which row a completion fires (rule R115). -/

section Completion

variable {s} {e : CtlEvent} (he : e = .inDone ∨ e = .outDone)
include he

theorem ctlCompletion_row3 (h : s.ctl = .data) : s.ctlEvent e = s.ctlRow3 := by
  have hrow : ctlRowOf (s.ctlKey e) = .row3 := by
    rw [State.ctlKey, h]
    rcases he with rfl | rfl <;> decide
  rw [State.ctlEvent, hrow]

theorem ctlCompletion_row4 (h : s.ctl = .status) : s.ctlEvent e = s.ctlRow4 := by
  have hrow : ctlRowOf (s.ctlKey e) = .row4 := by
    rw [State.ctlKey, h]
    rcases he with rfl | rfl <;> decide
  rw [State.ctlEvent, hrow]

theorem ctlCompletion_row5 (h : s.ctl = .setup) : s.ctlEvent e = s.ctlRow5 := by
  have hrow : ctlRowOf (s.ctlKey e) = .row5 := by
    rw [State.ctlKey, h]
    rcases he with rfl | rfl <;> decide
  rw [State.ctlEvent, hrow]

end Completion

/-! The stage a dispatched request starts (rules R118, R125, R126). -/

section Stage

variable (p : SetupPacket)

/-- A stalled request (rule R127). -/
theorem State.startStage_stall : s.startStage p .stall = { stalled s with ctl := .setup } := s.ctlRow5_eq

variable {p} (ptr : Word) (rlen : Half)

/-- A request without a data stage (rule R125). -/
theorem State.startStage_noData (h : p.wLength = 0) : s.startStage p (.ok ptr rlen) = s.inZlp.setCtl .status := if_pos h

/-- The length of a data stage: what is answered, but no more than what is asked for (rule R126). -/
theorem cappedLength (w : Half) : (if rlen ≤ w then rlen else w) = BitVec.ofNat 16 (min rlen.toNat w.toNat) := by
  by_cases h : rlen ≤ w
  · rw [if_pos h, Nat.min_eq_left (BitVec.le_def.mp h), BitVec.ofNat_toNat, BitVec.setWidth_eq]
  · rw [if_neg h, Nat.min_eq_right (Nat.le_of_not_le fun hle => h (BitVec.le_def.mpr hle)), BitVec.ofNat_toNat,
      BitVec.setWidth_eq]

/-- A data stage to the host (rule R126). -/
theorem State.startStage_send (h : p.wLength ≠ 0) (hdir : p.dirIn = true) : s.startStage p (.ok ptr rlen) =
    (s.beginSend 0 ptr (BitVec.ofNat 16 (min rlen.toNat p.wLength.toNat))).setCtl .data := by
  rw [← cappedLength]
  exact (if_neg h).trans (if_pos hdir)

/-- A data stage from the host (rule R126). -/
theorem State.startStage_receive (h : p.wLength ≠ 0) (hdir : p.dirIn = false) : s.startStage p (.ok ptr rlen) =
    (s.beginReceive 0 ptr (BitVec.ofNat 16 (min rlen.toNat p.wLength.toNat))).setCtl .data := by
  rw [← cappedLength]
  exact (if_neg h).trans (if_neg (by simp [hdir]))

end Stage

/-! The descriptor table (rules R72, R130). -/

/-- The entry after those passed over, where its keys match. -/
theorem descLookup_match {v i : Half} {before after : List DescEntry} {e : DescEntry}
    (hbefore : ∀ d ∈ before, d.ptr ≠ 0 ∧ ¬(d.value = v ∧ d.lang = i)) (hptr : e.ptr ≠ 0)
    (hmatch : e.value = v ∧ e.lang = i) : descLookup v i (before ++ e :: after) = some e := by
  rw [descLookup_skip v i _ _ hbefore, descLookup, if_neg hptr, if_pos hmatch]

/-- The end of the table, or the null-pointer entry that ends it, after the entries passed over. -/
theorem descLookup_end {v i : Half} {before after : List DescEntry}
    (hbefore : ∀ d ∈ before, d.ptr ≠ 0 ∧ ¬(d.value = v ∧ d.lang = i))
    (hend : after = [] ∨ ∃ z rest, after = z :: rest ∧ z.ptr = 0) : descLookup v i (before ++ after) = none := by
  rw [descLookup_skip v i _ _ hbefore]
  rcases hend with rfl | ⟨z, rest, rfl, hz⟩
  · rfl
  · rw [descLookup, if_pos hz]

section Descriptor

variable {s}

/-- GET_DESCRIPTOR of an entry of the table (rule R121). -/
theorem State.reqGetDescriptor_of_some {e : DescEntry}
    (h : descLookup s.setupPacket.wValue s.setupPacket.wIndex s.cfg.descTable = some e) :
    s.reqGetDescriptor = (.ok e.ptr e.length, s) := by
  rw [State.reqGetDescriptor, h]

/-- GET_DESCRIPTOR of what the table does not have (rule R121). -/
theorem State.reqGetDescriptor_of_none
    (h : descLookup s.setupPacket.wValue s.setupPacket.wIndex s.cfg.descTable = none) :
    s.reqGetDescriptor = (.stall, s) := by
  rw [State.reqGetDescriptor, h]

end Descriptor

/-- A GET_DESCRIPTOR in the setup packet is dispatched to its row (rules R71, R119). -/
theorem State.setupDispatch_getDescriptor (h : s.setupPacket.key &&& 0xFF60 = 0x0600) :
    s.setupDispatch = s.reqGetDescriptor := by
  have hrow : setupRowOf s.setupPacket.key = .getDescriptor := by
    simp only [setupRowOf, firstMatch, h]
    decide
  rw [State.setupDispatch, hrow]

end Sys2Proof.Machine

namespace Sys2Proof.Proofs

open Sys2Proof.Machine Sys2Proof.Expected

/-- Settles O24: the configuration is accepted, and ARM_SETUP on what it leaves arms the reception. -/
theorem controlRow1ConfiguresEndpoint0 : Obligations.ControlRow1ConfiguresEndpoint0 := by
  unfold Obligations.ControlRow1ConfiguresEndpoint0
  intro s st hv c
  have hconfig : s.epConfigure 0 .control Config.ep0Size 0 = c := s.epConfigure_eq 0 (by decide)
  have hsize : (c.ep[(0 : EpNum)]).size ≠ 0 := by
    simp [c, Config.ep0Size]
  have hrow : exec (.ctlRow1Reset st) s = .next s.ctlRow1 := rfl
  rw [hrow, State.ctlRow1, hconfig, State.armSetup_eq_armedReceive c hv hsize]
  rfl

/-- Settles O25: the dispatcher gives what the request row gives by itself, and the answer selects the stage. -/
theorem controlRow2DispatchesRequest : Obligations.ControlRow2DispatchesRequest := by
  unfold Obligations.ControlRow2DispatchesRequest
  intro s st p
  obtain ⟨u, a, hexec, hobs, hdispatch⟩ := setupKey_row s
  have hcfg : u.cfg = s.cfg := by
    have h := s.setupDispatch_cfg
    rwa [hdispatch] at h
  have hrow : s.ctlRow2 = ({ u with obs := s.obs } : State).startStage p a := by
    rw [State.ctlRow2, hdispatch]
    rfl
  refine ⟨u, a, s.ctlRow2, hexec, hobs, rfl, ?_, ?_, ?_, ?_⟩ <;> rw [hrow]
  · rintro rfl
    exact State.startStage_stall _ p
  · rintro ptr rlen rfl hlen hv hsize
    have hzlp := State.inZlp_eq_sentZlp { u with obs := s.obs } (by rwa [hcfg]) hsize
    rw [State.startStage_noData _ ptr rlen hlen, hzlp, ← hcfg]
    rfl
  · rintro ptr rlen rfl hlen hdir
    exact State.startStage_send _ ptr rlen hlen hdir
  · rintro ptr rlen rfl hlen hdir
    exact State.startStage_receive _ ptr rlen hlen hdir

/-- Settles O26: the lookup finds nothing, so the dispatched request stalls, which leaves the setup packet. -/
theorem missingDescriptorStalls : Obligations.MissingDescriptorStalls := by
  unfold Obligations.MissingDescriptorStalls
  intro s p hkey hnone
  have hexec : exec .ctlSetup s = .next (s.ctlEvent .setup) := rfl
  have hanswer : s.setupDispatch = (.stall, s) :=
    (s.setupDispatch_getDescriptor hkey).trans (State.reqGetDescriptor_of_none (descLookup_none _ _ _ hnone))
  have hrow : s.ctlEvent .setup = { stalled s with ctl := .setup } := by
    rw [ctlSetup_row, State.ctlRow2, hanswer, State.startStage_stall]
  refine ⟨_, hexec, hrow, ?_, ?_, ?_⟩
  · exact s.ctlEvent_setupPacket .setup
  · simp [hrow, stalled]
  · simp [hrow, stalled]

/-- Settles O27: each direction's zero-length packet is that of the other side. -/
theorem controlRow3FlipsDirection : Obligations.ControlRow3FlipsDirection := by
  unfold Obligations.ControlRow3FlipsDirection
  intro s e hv hsize p
  refine ⟨s.ctlRow3, rfl, fun hread => ?_, fun hwrite => ?_⟩
  · have hdir : s.setupPacket.dirIn = true := hread
    rw [State.ctlRow3, if_pos hdir, s.outZlp_eq_armedReceive hv hsize]
    rfl
  · have hdir : s.setupPacket.dirIn = false := hwrite
    rw [State.ctlRow3, if_neg (by simp [hdir]), s.inZlp_eq_sentZlp hv hsize]
    rfl

/-- Settles O31: the lookup passes over the entries before the one that matches or ends the table. -/
theorem descriptorRequestFirstMatch : Obligations.DescriptorRequestFirstMatch := by
  unfold Obligations.DescriptorRequestFirstMatch
  intro s dir recipient p matches_
  refine ⟨s.reqGetDescriptor.1, rfl, ?_, ?_⟩
  · intro before e after htable hbefore hptr hmatch
    rw [State.reqGetDescriptor_of_some (htable ▸ descLookup_match hbefore hptr hmatch)]
  · intro before after htable hbefore hend
    rw [State.reqGetDescriptor_of_none (htable ▸ descLookup_end hbefore hend)]

/-- Settles O32: the configuration is accepted, and CONFIGURED on what it leaves arms the OUT side. -/
theorem setConfigurationBindsHid : Obligations.SetConfigurationBindsHid := by
  unfold Obligations.SetConfigurationBindsHid
  intro s dir recipient hv h c
  have hconfig : s.epConfigure h .interrupt Config.hidSize 1 = c := s.epConfigure_eq h (by decide)
  have hsize : c.ep[c.cfg.epHid].size ≠ 0 := by
    simp only [c, h, vset_self]
    decide
  have hbinding : s.hidBinding =
      { armedReceive c h s.cfg.outBuf Config.hidSize with bl := { s.bl with state := .reset } } := by
    rw [State.hidBinding, hconfig, blConf_row, State.blRow1, c.hidArmOut_eq_armedReceive hv hsize]
    rfl
  have hexec : exec (.reqSetConfiguration dir recipient) s =
      .next { s.hidBinding with obs := .answer (.ok s.cfg.ep0Buf 0) } := rfl
  rw [hexec, hbinding]

/-- Settles O23: RESET and SETUP fire one row in every state, and a completion the row of its state. -/
theorem controlEventFiresItsRow : Obligations.ControlEventFiresItsRow := by
  unfold Obligations.ControlEventFiresItsRow
  intro s
  refine ⟨_, _, _, _, rfl, rfl, rfl, rfl, congrArg _ (ctlReset_row s).symm, congrArg _ (ctlSetup_row s).symm,
    fun h => ⟨?_, ?_⟩, fun h => ⟨?_, ?_⟩, fun h => ⟨?_, ?_⟩⟩
  · exact congrArg _ (ctlCompletion_row3 (.inl rfl) h).symm
  · exact congrArg _ (ctlCompletion_row3 (.inr rfl) h).symm
  · exact congrArg _ (ctlCompletion_row4 (.inl rfl) h).symm
  · exact congrArg _ (ctlCompletion_row4 (.inr rfl) h).symm
  · exact congrArg _ (ctlCompletion_row5 (.inl rfl) h).symm
  · exact congrArg _ (ctlCompletion_row5 (.inr rfl) h).symm

/-- Settles O29: row 5 on any key is STALL_EP0 and the return to SETUP. -/
theorem controlRow5Stalls : Obligations.ControlRow5Stalls := by
  unfold Obligations.ControlRow5Stalls
  intro s key
  exact congrArg Host.Outcome.next s.ctlRow5_eq

/-- Settles O30: three request rows change nothing but what they show; the fourth takes the hook's next answer. -/
theorem statusAddressAndOtherRequests : Obligations.StatusAddressAndOtherRequests := by
  unfold Obligations.StatusAddressAndOtherRequests
  intro s dir recipient key
  have hother : exec (.reqOther key) s = .next { s with
      classAnswers := s.classAnswers.tail, obs := .answer (s.classAnswers.headD .stall) } := rfl
  refine ⟨rfl, rfl, fun a rest hinstalled => ?_, fun hnone => ?_⟩
  · rw [hother, hinstalled]
    rfl
  · rw [hother, hnone, List.tail_nil, List.headD_nil, ← hnone]

end Sys2Proof.Proofs
end

section
/-! The half-page the bootloader awaits (rules R152, R153, R161): the operations that leave it, the rows of the
bootloader table, and the instructions of the operation port. `Kept` also asks for any change of the session and for a
half-page write by itself, which do not keep it, so the operations are followed here through the rows that run them. -/

namespace Sys2Proof.Machine

open Sys2Proof.Expected Sys2Proof.Proofs

/-- PROG at an address it does not accept: the captured fields and the status (rule R152). -/
theorem cmdProg_of_rejects {s : State} (hbad : ¬s.cfg.progAddressOk (s.outWord 1) = true) :
    s.cmdProg = (captured s).status .badAddr .reset :=
  if_pos (by simpa using hbad)

theorem State.status_bl (s : State) (code : ErrCode) (next : BlState) :
    (s.status code next).bl = { s.bl with resume := next, state := .status } := by
  simp [State.status]

@[simp] theorem State.packetIn_flashErased (s : State) (n : EpNum) (bs : List Byte) (setup : Bool) :
    (s.packetIn n bs setup).flashErased = s.flashErased := rfl

theorem State.awaits_iff (s : State) (b : BlState) :
    s.awaits b = true ↔ s.bl.state = b ∨ (s.bl.state = .status ∧ s.bl.resume = b) :=
  decide_eq_true_iff

/-- After the status helper the bootloader awaits the payload of the state to resume (rules R144, R149). -/
theorem State.awaits_status {s : State} {code : ErrCode} {next b : BlState} (hb : b ≠ .status) :
    (s.status code next).awaits b = true ↔ next = b := by
  simp [State.awaits_iff, State.status_bl, hb.symm]

/-- Row 4 takes its key in state STATUS only (rules R140, R144). -/
theorem status_of_blRowOf {s : State} {e : BlEvent} (h : blRowOf (s.blKey e) = .row4) : s.bl.state = .status := by
  revert h
  rw [State.blKey]
  cases s.bl.state <;> cases e <;> decide

/-- Row 5 takes its key in state LPROG only (rules R140, R145). -/
theorem lprog_of_blRowOf {s : State} {e : BlEvent} (h : blRowOf (s.blKey e) = .row5) : s.bl.state = .lprog := by
  revert h
  rw [State.blKey]
  cases s.bl.state <;> cases e <;> decide

/-- What `programmingOk` says, by parts: where a payload is awaited, its page is one PROG accepts, and the half-pages
still to be written are erased. -/
structure ProgrammingLegal (s : State) : Prop where
  address : s.awaits .lprog = true ∨ s.awaits .uprog = true → s.cfg.progAddressOk s.bl.address = true
  lower : s.awaits .lprog = true → s.bl.address ∈ s.flashErased
  upper : s.awaits .lprog = true ∨ s.awaits .uprog = true → s.bl.address + 64 ∈ s.flashErased

/-- The halves of an accepted page meet the precondition of a write, so each is erased where it is recorded so. -/
theorem halfErased_iff_mem {s : State} {a : Word} (hok : s.cfg.progAddressOk a = true) :
    (s.halfErased a = true ↔ a ∈ s.flashErased) ∧ (s.halfErased (a + 64) = true ↔ a + 64 ∈ s.flashErased) := by
  obtain ⟨hlower, hupper⟩ := halves_of_prog hok
  rw [State.halfErased, State.halfErased, hlower, hupper, Bool.true_and, Bool.true_and, decide_eq_true_iff,
    decide_eq_true_iff]
  exact ⟨Iff.rfl, Iff.rfl⟩

theorem programmingOk_iff {s : State} : s.programmingOk = true ↔ ProgrammingLegal s := by
  have hhalves := halfErased_iff_mem (s := s) (a := s.bl.address)
  simp only [State.programmingOk, Bool.and_eq_true, Bool.or_eq_true, Bool.not_eq_true', ← Bool.not_eq_true,
    ← imp_iff_not_or]
  constructor
  · rintro ⟨hlprog, huprog⟩
    constructor <;> grind
  · rintro ⟨haddress, hlower, hupper⟩
    constructor <;> grind

namespace ProgrammingLegal

/-- Where no payload is awaited nothing is asked. -/
theorem of_idle {s : State} (hlower : ¬s.awaits .lprog = true) (hupper : ¬s.awaits .uprog = true) :
    ProgrammingLegal s :=
  ⟨fun h => absurd h (not_or.mpr ⟨hlower, hupper⟩), fun h => absurd h hlower,
    fun h => absurd h (not_or.mpr ⟨hlower, hupper⟩)⟩

/-- A status report that resumes neither state of a payload. -/
theorem status_idle (s : State) (code : ErrCode) {next : BlState} (hlower : next ≠ .lprog) (hupper : next ≠ .uprog) :
    ProgrammingLegal (s.status code next) :=
  of_idle (by rwa [State.awaits_status (by decide)]) (by rwa [State.awaits_status (by decide)])

/-- A status report that resumes a state of a payload, the page accepted and its halves to come erased. -/
theorem status_page {s : State} (code : ErrCode) {next : BlState} (hok : s.cfg.progAddressOk s.bl.address = true)
    (hlower : next = .lprog → s.bl.address ∈ s.flashErased) (hupper : s.bl.address + 64 ∈ s.flashErased) :
    ProgrammingLegal (s.status code next) where
  address _ := by rwa [State.status_cfg, State.status_bl]
  lower h := by
    rw [State.status_bl, State.status_flashErased]
    exact hlower ((State.awaits_status (by decide)).mp h)
  upper _ := by rwa [State.status_bl, State.status_flashErased]

/-- PROG awaits the lower half only where its erase passed, which erased both halves (rules R152, R153). -/
theorem cmdProg (s : State) : ProgrammingLegal s.cmdProg := by
  by_cases hok : s.cfg.progAddressOk (s.outWord 1) = true
  · cases hpass : flashPasses s with
    | false =>
      rw [cmdProg_of_fails hok hpass]
      exact status_idle _ _ (by decide) (by decide)
    | true =>
      have herased : (pageErased s).flashErased = _ := flashErasePage_erased_of_passes (s := captured s) hok hpass
      have haddress : (pageErased s).bl.address = s.outWord 1 := rfl
      rw [cmdProg_of_passes hok hpass]
      exact status_page _ hok (fun _ => by simp [haddress, herased]) (by simp [haddress, herased])
  · rw [cmdProg_of_rejects hok]
    exact status_idle _ _ (by decide) (by decide)

/-- Of the commands only PROG awaits a payload (rules R143, R150 to R156). -/
theorem blRow3 (s : State) : ProgrammingLegal s.blRow3 := by
  unfold State.blRow3
  split
  case h_2 => exact cmdProg s
  all_goals exact status_idle _ _ (by decide) (by decide)

/-- Row 1 awaits no payload (rule R141). -/
theorem blRow1 (s : State) : ProgrammingLegal s.blRow1 := by
  have hreset : s.blRow1.bl.state = .reset := rfl
  exact of_idle (by simp [State.awaits_iff, hreset]) (by simp [State.awaits_iff, hreset])

/-- A half-page with another CRC than the declared one, or whose write fails, awaits no payload (rules R159, R161). -/
theorem halfPage {s : State} {upper : Bool}
    (hpassed : ProgrammingLegal ((halfWritten s upper).status .none (halfNext upper))) :
    ProgrammingLegal (s.halfPage upper) := by
  by_cases hcrc : crc32 s.outReport = halfCrc s upper
  · cases hpass : flashPasses s with
    | false =>
      rw [halfPage_of_fails hcrc hpass]
      exact status_idle _ _ (by decide) (by decide)
    | true => rwa [halfPage_of_passes hcrc hpass]
  · rw [halfPage_of_badCrc hcrc]
    exact status_idle _ _ (by decide) (by decide)

/-- The upper half ends the page (rule R146). -/
theorem upperHalf (s : State) : ProgrammingLegal (s.halfPage true) :=
  halfPage (status_idle _ _ (by decide) (by decide))

variable {s : State} (h : ProgrammingLegal s)
include h

/-- An operation after which no payload is newly awaited, and which leaves the address and the record of the erase. -/
theorem of_awaits {t : State} (hcfg : t.cfg = s.cfg) (haddress : t.bl.address = s.bl.address)
    (herased : t.flashErased = s.flashErased) (hawaits : ∀ b, t.awaits b = true → s.awaits b = true) :
    ProgrammingLegal t where
  address ht := by
    rw [hcfg, haddress]
    exact h.address (ht.imp (hawaits _) (hawaits _))
  lower ht := by
    rw [haddress, herased]
    exact h.lower (hawaits _ ht)
  upper ht := by
    rw [haddress, herased]
    exact h.upper (ht.imp (hawaits _) (hawaits _))

/-- An operation that leaves the session, the parameters and the record of the erase. -/
theorem frame {t : State} (hcfg : t.cfg = s.cfg) (hbl : t.bl = s.bl) (herased : t.flashErased = s.flashErased) :
    ProgrammingLegal t :=
  h.of_awaits hcfg (by rw [hbl]) herased fun b => by rw [State.awaits_iff, State.awaits_iff, hbl]; exact id

/-- Writing the lower half leaves the upper one erased (rules R145, R161). -/
theorem lowerHalf (hstate : s.bl.state = .lprog) : ProgrammingLegal (s.halfPage false) := by
  have hawaits : s.awaits .lprog = true := (s.awaits_iff _).mpr (.inl hstate)
  have hupper : s.bl.address + 64 ∈ (halfWritten s false).flashErased :=
    (mem_flashWriteHalf_erased (s := crcEchoed s false) (a := s.bl.address) s.outReport (by bv_omega)).mpr
      ⟨h.upper (.inl hawaits), by bv_omega⟩
  exact halfPage (status_page _ (h.address (.inl hawaits)) (fun hnext => nomatch hnext) hupper)

/-- Row 4 takes up the payload that was to be resumed (rule R144). -/
theorem blRow4 (hstate : s.bl.state = .status) : ProgrammingLegal s.blRow4 := by
  refine h.of_awaits (by simp) (by simp [State.blRow4]) (by simp) fun b hb => ?_
  rw [State.awaits_iff] at hb ⊢
  simp only [State.blRow4, State.modBl_bl, State.hidArmOut_bl] at hb
  exact .inr ⟨hstate, hb.elim id And.right⟩

/-- The rows of the bootloader table (rule R140). -/
theorem blEvent (e : BlEvent) : ProgrammingLegal (s.blEvent e) := by
  unfold State.blEvent
  split
  next => exact blRow1 s
  next => exact status_idle _ _ (by decide) (by decide)
  next => exact blRow3 s
  next hrow => exact h.blRow4 (status_of_blRowOf hrow)
  next hrow => exact h.lowerHalf (lprog_of_blRowOf hrow)
  next => exact upperHalf s
  next => exact h.frame rfl rfl rfl
  next => exact h.frame rfl rfl rfl
  next => exact status_idle _ _ (by decide) (by decide)

/-! The control pipeline: only SET_CONFIGURATION reaches the bootloader (rule R123). -/

theorem setupDispatch : ProgrammingLegal s.setupDispatch.2 := by
  unfold State.setupDispatch
  split
  case h_4 =>
    exact (h.frame (t := s.epConfigure s.cfg.epHid .interrupt Config.hidSize 1) (by simp) (by simp) (by simp)).blEvent _
  all_goals exact h.frame rfl rfl rfl

theorem ctlEvent (e : CtlEvent) : ProgrammingLegal (s.ctlEvent e) := by
  unfold State.ctlEvent
  split
  case h_2 =>
    unfold State.ctlRow2
    exact h.setupDispatch.frame (by simp) (by simp) (by simp)
  all_goals exact h.frame (by simp) (by simp) (by simp)

/-! The port. -/

theorem notifySent (n : EpNum) : ProgrammingLegal (s.notifySent n) := by
  unfold State.notifySent
  split
  · exact h.ctlEvent _
  · split
    · exact h.blEvent _
    · exact h.frame rfl rfl rfl

theorem notifyReceived (n : EpNum) (r : RecvResult) : ProgrammingLegal (s.notifyReceived n r) := by
  cases r with
  | none => exact h
  | working => exact h
  | setupDone =>
    simp only [State.notifyReceived]
    split
    · exact h.ctlEvent _
    · exact h.frame rfl rfl rfl
  | done total =>
    simp only [State.notifyReceived]
    split
    · exact h.ctlEvent _
    · split
      · exact h.blEvent _
      · exact h.frame rfl rfl rfl

theorem request {f : State → State} (hf : ProgrammingLegal (f s)) : ProgrammingLegal (s.request f) := by
  unfold State.request
  split
  · exact h.frame rfl rfl rfl
  · exact hf

/-- A completed transmission or reception may fire a row; every other record leaves the three. -/
theorem exec_port {i : Instr} {t : State} (hi : i.channel = .port) (he : exec i s = .next t) : ProgrammingLegal t := by
  cases i <;> simp only [Instr.channel, reduceCtorEq] at hi
  case epConfigure => cases he; exact h.request (h.frame (by simp) (by simp) (by simp))
  case beginSend => cases he; exact h.request (h.frame (by simp) (by simp) (by simp))
  case beginReceive => cases he; exact h.request (h.frame (by simp) (by simp) (by simp))
  case busReset => cases he; exact (h.frame (t := s.busCleared) rfl rfl rfl).ctlEvent _
  case txComplete n =>
    have hsent : ProgrammingLegal ((s.clearCtrTx n).sendNextPacket n) := h.frame (by simp) (by simp) (by simp)
    simp only [exec, execTxComplete] at he
    split at he
    · cases he; exact h.frame rfl rfl rfl
    · split at he <;> cases he
      · exact hsent.notifySent n
      · exact hsent
  case rxComplete n =>
    simp only [exec, execRxComplete] at he
    split at he <;> cases he
    · exact h.frame rfl rfl rfl
    · refine ProgrammingLegal.notifyReceived ?_ _ _
      exact h.frame (by simp) (by simp) (by simp)
  case hostIn n =>
    simp only [exec, execHostIn] at he
    split at he <;> cases he <;> exact h.frame rfl rfl rfl
  case hostOut n bytes =>
    simp only [exec, execHostOut] at he
    split at he <;> cases he <;> exact h.frame (by simp) (by simp) (by simp)
  case hostSetup n len bytes =>
    simp only [exec, execHostSetup] at he
    split at he
    · cases he; exact h.frame (by simp) (by simp) (by simp)
    · split at he <;> cases he <;> exact h.frame rfl rfl rfl

/-- The platform's exit leaves the session or restarts the block, which then awaits nothing (log 19). -/
theorem platformExit : ProgrammingLegal s.platformExit := by
  unfold State.platformExit
  split
  · exact h.frame rfl rfl rfl
  · split
    · exact h
    · exact of_idle (by simp [State.awaits_iff, Boot.reset]) (by simp [State.awaits_iff, Boot.reset])

/-- A step on an input from outside. -/
theorem step_outside {t : State} (houtside : s.outsideNext = true) (hstep : step s = .next t) : ProgrammingLegal t := by
  have htaken (rest : List Input) : ProgrammingLegal (s.taken rest) := h.frame rfl rfl rfl
  cases hin : s.inputs with
  | nil =>
    rw [step_of_inputs_nil hin] at hstep
    cases hstep
    exact h
  | cons x rest =>
    cases x with
    | ramWrite a bs =>
      rw [step_of_ramWrite hin] at hstep
      cases hstep
      exact (htaken rest).request ((htaken rest).frame rfl rfl rfl)
    | platformExit =>
      rw [step_of_platformExit hin] at hstep
      cases hstep
      exact (htaken rest).platformExit
    | message ch bytes =>
      have hport : ch = .port := by simpa [State.outsideNext, hin] using houtside
      subst hport
      cases hd : decode .port bytes with
      | instr i =>
        rw [step_of_instr hin hd] at hstep
        exact (htaken rest).exec_port (decode_port_channel hd) hstep
      | refuse r =>
        rw [step_of_refuse hin hd] at hstep
        cases hstep
        exact (htaken rest).frame rfl rfl rfl
      | badFrame =>
        rw [step_of_badFrame hin hd] at hstep
        cases hstep

end ProgrammingLegal

end Sys2Proof.Machine

namespace Sys2Proof.Proofs

open Sys2Proof.Machine Sys2Proof.Expected

/-- Settles O53: an input from outside reaches the session only through the rows of the bootloader table. -/
theorem outsideStepsKeepProgrammingLegal : Obligations.OutsideStepsKeepProgrammingLegal := by
  unfold Obligations.OutsideStepsKeepProgrammingLegal
  intro s t houtside hok hstep
  exact programmingOk_iff.mpr ((programmingOk_iff.mp hok).step_outside houtside hstep)

end Sys2Proof.Proofs
end

section
/-! The commands and rows of the bootloader that end in a status report or arm the OUT side, the rows its events fire,
and the reference values of the CRC (rules R137 to R162). -/

namespace Sys2Proof.Machine

open Sys2Proof.Expected

variable {s : State}

/-! What the status reports find: the HID endpoint stays ready under the stores of the commands. -/

theorem hidReady_ramWrite (h : HidReady s) (a : Word) (bs : List Byte) : HidReady (s.ramWrite a bs) :=
  hidReady_of_frame h rfl rfl ((canonical_of_hidReady h).ramWrite a bs)

theorem hidReady_modBl (h : HidReady s) (f : Boot → Boot) : HidReady (s.modBl f) :=
  hidReady_of_frame h rfl rfl ((canonical_of_hidReady h).frame rfl rfl rfl rfl)

/-- Bytes stored over the IN report leave the OUT report: the two lie apart (rule R189). -/
theorem outByte_ramWrite_inBuf (h : HidReady s) {bs : List Byte} (hlen : bs.length = 64) {k : Nat} (hk : k < 64) :
    outByte (s.ramWrite s.cfg.inBuf bs) k = outByte s k := by
  have hram := (canonical_of_hidReady h).ram
  obtain ⟨-, -, hv, -⟩ := h
  obtain ⟨-, -, -, -, -, hin, hout, hapart⟩ := valid_addr _ hv
  refine Memory.read_store_of_ne hram _ _ _ _ fun i hi => ?_
  rw [State.ramWrite_cfg, ptrKey_eq (by omega), ptrKey_eq (by omega)]
  omega

/-! Which row an event fires (rule R140). -/

/-- OUT_SHORT fires row 2 in every bootloader state (rule R142). -/
theorem blShort_row (s : State) : s.blEvent .outShort = s.blRow2 := by
  have hrow : blRowOf (s.blKey .outShort) = .row2 := by
    rw [State.blKey]
    cases s.bl.state <;> decide
  rw [State.blEvent, hrow]

/-- The key of an event in a given state. -/
theorem State.blKey_of_state {b : BlState} (h : s.bl.state = b) (e : BlEvent) : s.blKey e = b.code ++ e.code := by
  rw [State.blKey, h]

end Sys2Proof.Machine

namespace Sys2Proof.Proofs

open Sys2Proof.Machine Sys2Proof.Expected

/-- Settles O35: each of the three is the status helper with its code. -/
theorem bootloaderErrorReports : Obligations.BootloaderErrorReports := by
  unfold Obligations.BootloaderErrorReports
  intro s st key command h
  exact ⟨⟨s.blRow2, rfl, statusReport_of_status h .short .reset⟩, ⟨s.blRow9, rfl, statusReport_of_status h .fsm .reset⟩,
    ⟨s.cmdUnrecognized, rfl, statusReport_of_status h .command .reset⟩⟩

/-- The state with the IN report zeroed (rule R150). -/
def reportZeroed (s : State) : State := s.ramWrite s.cfg.inBuf (List.replicate 64 0)

theorem inByte_reportZeroed {s : State} (h : s.ram.wf = true) {k : Nat} (hk : k < 64) :
    inByte (reportZeroed s) k = 0 := by
  have hstored := Memory.read_store h s.cfg.inBuf 0 (List.replicate 64 0) (by simp) k (by simpa using hk)
  rwa [Nat.zero_add, List.getElem_replicate] at hstored

/-- With the command word 0 the status report leaves the zeroed report as it is: both its words are 0 (rule R150). -/
theorem inByte_cmdReset {s : State} (h : HidReady s) (hcommand : s.outWord 0 = 0) {k : Nat} (hk : k < 64) :
    inByte s.cmdReset k = 0 := by
  have hram := (canonical_of_hidReady h).ram
  obtain ⟨hword, hflags, hsame, -⟩ := statusReport_of_status (s := reportZeroed s) (hidReady_ramWrite h _ _) .none .reset
  by_cases hfirst : k < 4
  · have hbyte := s.outWord_byte 0 k hfirst
    rw [hcommand, Nat.mul_zero, Nat.zero_add] at hbyte
    calc
      inByte s.cmdReset k = outByte (reportZeroed s) k := hword k hfirst
      _ = outByte s k := outByte_ramWrite_inBuf h (by simp) hk
      _ = 0 := hbyte ▸ by simp
  · by_cases hsecond : k < 8
    · have hbyte := hflags (k - 4) (by omega)
      rw [Nat.add_sub_cancel' (by omega)] at hbyte
      exact hbyte.trans (ite_self _)
    · have hcfg : s.cmdReset.cfg = s.cfg := s.cmdReset_cfg
      refine Eq.trans ?_ (inByte_reportZeroed hram hk)
      rw [inByte, hcfg]
      exact hsame _ fun i hi heq => by
        have := ptrKey_inj (by omega) (by omega) heq
        omega

/-- Settles O37: the zeros, then the status helper, which writes only the two words. -/
theorem resetCommandZeroesReport : Obligations.ResetCommandZeroesReport := by
  unfold Obligations.ResetCommandZeroesReport
  intro s h
  have hram := (canonical_of_hidReady h).ram
  refine ⟨reportZeroed s, s.cmdReset, rfl, rfl, fun k hk => inByte_reportZeroed hram hk, fun j hj => ?_,
    statusReport_of_status (hidReady_ramWrite h _ _) .none .reset, fun hcommand => ?_⟩
  · refine Memory.read_store_of_ne hram _ _ _ _ fun k hk => ?_
    rw [Nat.zero_add]
    exact hj k (by simpa using hk)
  · refine List.ext_getElem (by simp [State.inReport]) fun k _ hk => ?_
    simp only [State.inReport, Memory.getElem_load, Nat.zero_add, List.getElem_replicate]
    exact inByte_cmdReset h hcommand (by simpa using hk)

/-- Settles O38: PROG at such an address is the captured fields and the status helper. -/
theorem progRejectsBadAddress : Obligations.ProgRejectsBadAddress := by
  unfold Obligations.ProgRejectsBadAddress
  intro s h a hbad
  have hrejects : ¬s.cfg.progAddressOk (s.outWord 1) = true := fun hok => by
    obtain ⟨halign, hlo, hhi⟩ := (progOk_iff _ _).mp hok
    rcases hbad with hbad | hbad | hbad
    · exact hbad halign
    · exact Nat.not_lt.mpr hlo hbad
    · exact Nat.not_lt.mpr hhi hbad
  refine ⟨s.cmdProg, rfl, ?_⟩
  rw [cmdProg_of_rejects hrejects]
  exact statusReport_of_status (hidReady_captured h) .badAddr .reset

/-- Settles O40: each is one store to the session and the status helper. -/
theorem readAndExitCommands : Obligations.ReadAndExitCommands := by
  unfold Obligations.ReadAndExitCommands
  intro s h
  exact ⟨⟨s.cmdRead, rfl, statusReport_of_status (hidReady_modBl h _) .none .lread⟩,
    ⟨s.cmdExit, rfl, statusReport_of_status (hidReady_modBl h _) .none .reset⟩⟩

/-- What O41 says of either half, `t` being what its row leaves. -/
def HalfPageRejection (s t : State) (upper : Bool) : Prop :=
  let field := 4 * halfField upper
  ∃ r,
    let c := { s with ram := r }
    (∀ k < 4, inByte c (field + k) = (crc32 s.outReport).extractLsb' (8 * k) 8)
    ∧ RamSameOutside s c (s.cfg.inBuf + BitVec.ofNat 32 field) 4
    ∧ StatusReport c t s.cfg.errors.badCrc32 .reset

/-- A half-page with another CRC than the declared one: the echo, the status. -/
theorem halfPage_rejection {s : State} (h : HidReady s) {upper : Bool} (hcrc : crc32 s.outReport ≠ halfCrc s upper) :
    HalfPageRejection s (s.halfPage upper) upper := by
  have hram := (canonical_of_hidReady h).ram
  have hfield : halfField upper < 16 := by cases upper <;> decide
  refine ⟨(crcEchoed s upper).ram, fun k hk => inByte_setInWord hram hfield _ hk, fun j hj => ?_, ?_⟩
  · exact setInWord_ramSame s hram _ _ fun k hk => ptrKey_add _ _ _ ▸ hj k hk
  · rw [halfPage_of_badCrc hcrc]
    exact statusReport_of_status (hidReady_setInWord h _ _) .badCrc32 .reset

/-- Settles O41: rows 5 and 6 are the two halves of `halfPage_rejection`. -/
theorem halfPageRejectsBadCrc : Obligations.HalfPageRejectsBadCrc := by
  unfold Obligations.HalfPageRejectsBadCrc
  intro s h
  refine ⟨fun hcrc => ?_, fun hcrc => ?_⟩
  · obtain ⟨r, hrejection⟩ := halfPage_rejection (upper := false) h hcrc
    exact ⟨r, s.halfPage false, rfl, hrejection⟩
  · obtain ⟨r, hrejection⟩ := halfPage_rejection (upper := true) h hcrc
    exact ⟨r, s.halfPage true, rfl, hrejection⟩

/-- Settles O34: both rows are HID_ARM_OUT and a store to the session. -/
theorem bootloaderArmsOut : Obligations.BootloaderArmsOut := by
  unfold Obligations.BootloaderArmsOut
  intro s st hv hsize
  have hconfigured : exec (.blRow1Configured st) s = .next s.blRow1 := rfl
  have hsent : exec .blRow4StatusSent s = .next s.blRow4 := rfl
  rw [hconfigured, hsent, State.blRow1, State.blRow4, s.hidArmOut_eq_armedReceive hv hsize]
  exact ⟨rfl, rfl⟩

/-- Settles O33: CONFIGURED and OUT_SHORT fire one row in every state, OUT_FULL and IN_SENT the row of their key. -/
theorem bootloaderEventFiresItsRow : Obligations.BootloaderEventFiresItsRow := by
  unfold Obligations.BootloaderEventFiresItsRow
  intro s
  refine ⟨_, _, _, _, rfl, rfl, rfl, rfl, congrArg _ (blConf_row s).symm, congrArg _ (blShort_row s).symm,
    fun h => ⟨?_, ?_⟩, fun h => ⟨?_, ?_⟩, fun h => ⟨?_, ?_⟩, fun h => ⟨?_, ?_⟩, fun h => ⟨?_, ?_⟩, fun h => ⟨?_, ?_⟩⟩
  all_goals
    rw [State.blEvent, State.blKey_of_state h]
    rfl

/-- Settles O43: both rows are the refusal. -/
theorem readStatesRefuse : Obligations.ReadStatesRefuse := by
  unfold Obligations.ReadStatesRefuse
  intro s event
  exact ⟨rfl, rfl⟩

/-- Settles O44: the CRC is computed. -/
theorem crcReferenceValues : Obligations.CrcReferenceValues := by
  unfold Obligations.CrcReferenceValues
  exact ⟨by decide +kernel, by decide +kernel, by decide +kernel, by decide +kernel⟩

end Sys2Proof.Proofs
end

section
/-! Host transactions that are taken (rules R180 to R182). -/

namespace Sys2Proof.Machine

variable {s : State} {n : EpNum} {bytes : List Byte}

/-- A packet delivered inside packet memory: its bytes stand in the receive buffer, and every other byte keeps its value
(rules R180, R181). -/
theorem State.packetIn_pmaByte (setup : Bool) (hwf : s.pma.wf = true)
    (hroom : s.bdt[n].addrRx.toNat + bytes.length ≤ s.cfg.pmaSize) :
    (∀ k (h : k < bytes.length), (s.packetIn n bytes setup).pmaByte (s.bdt[n].addrRx.toNat + k) = bytes[k])
      ∧ (∀ o, o < s.bdt[n].addrRx.toNat ∨ s.bdt[n].addrRx.toNat + bytes.length ≤ o →
          (s.packetIn n bytes setup).pmaByte o = s.pmaByte o) :=
  pm_in s (s.packetIn n bytes setup) rfl rfl _ bytes hwf rfl hroom

/-- HOST_SETUP of 8 bytes where the preconditions of rule R180 hold. -/
theorem exec_hostSetup_accepted (hen : s.devEn = true) (htype : s.ep[n].type = .control) (haddr : s.bdt[n].addrRx ≠ 0)
    (hfits : 8 ≤ capacity s.bdt[n].countRx) :
    exec (.hostSetup n 8 bytes) s = .next ((s.packetIn n bytes true).setTxStatus n .nak) :=
  if_pos (State.setupAccepted_iff.mpr ⟨hen, htype, haddr, hfits, rfl⟩)

/-- A SETUP delivered inside packet memory leaves both sides NAK (rule R180). -/
theorem State.packetIn_setTxStatus_eq (hroom : s.bdt[n].addrRx.toNat + bytes.length ≤ s.cfg.pmaSize) :
    (s.packetIn n bytes true).setTxStatus n .nak = { s with
      bdt := s.bdt.set n
        { s.bdt[n] with countRx := s.bdt[n].countRx.extractLsb' 10 6 ++ BitVec.ofNat 10 bytes.length }
      hw := s.hw.set n ⟨.nak, .nak, s.hw[n].ctrTx, true, true⟩
      pma := pmaStore s.cfg.pmaSize s.pma s.bdt[n].addrRx.toNat bytes
      faults := { s.faults with eventOverrun := s.faults.eventOverrun || s.hw[n].ctrRx } } := by
  rw [packetIn_eq s n bytes true hroom, State.setTxStatus, State.modHw]
  simp only [vset_self, vset_set]

end Sys2Proof.Machine

namespace Sys2Proof.Proofs

open Sys2Proof.Machine

/-- Settles O45: the preconditions do not read the side's status, and the delivery is a packet-memory write. -/
theorem hostSetupIsAccepted : Obligations.HostSetupIsAccepted := by
  unfold Obligations.HostSetupIsAccepted
  intro s n bytes hlen hen htype haddr hfits hwf hroom8
  have hroom : s.bdt[n].addrRx.toNat + bytes.length ≤ s.cfg.pmaSize := by rwa [hlen]
  obtain ⟨hinside, houtside⟩ := State.packetIn_pmaByte true hwf hroom
  refine ⟨_, exec_hostSetup_accepted hen htype haddr hfits, hinside, fun o ho => houtside o (by rwa [hlen]), ?_⟩
  rw [State.packetIn_setTxStatus_eq hroom, hlen]
  rfl

/-- Settles O46: the delivery is a packet-memory write of the packet's own length. -/
theorem hostOutIsDelivered : Obligations.HostOutIsDelivered := by
  unfold Obligations.HostOutIsDelivered
  intro s n bytes hen hvalid hfits hwf hroom
  obtain ⟨hinside, houtside⟩ := State.packetIn_pmaByte false hwf hroom
  refine ⟨_, exec_hostOut_taken hen hvalid hfits, hinside, houtside, ?_⟩
  rw [packetIn_eq s n bytes false hroom]

/-- Settles O47: the host's bytes are the packet-memory read of the armed packet. -/
theorem hostInTakesPacket : Obligations.HostInTakesPacket := by
  unfold Obligations.HostInTakesPacket
  intro s n hen hvalid hroom
  have hlength : (s.packetOut n).length = (s.bdt[n].countTx.extractLsb' 0 10).toNat := State.length_pmaBytes s _ _
  refine ⟨s.packetOut n, hlength, State.getElem_pmaBytes s _ _, ?_⟩
  rw [exec_hostIn_taken hen hvalid (hlength ▸ hroom)]

end Sys2Proof.Proofs
end
